-- ==== Sys2Proof/Word.lean ====
section
/-! DEFINITION. The word types of OKC (20_memory.md R100: the bus and every register are 32 bits wide). -/

namespace Sys2Proof

/-- A register, a memory entry or a command word (R31, R100). -/
abbrev Word := BitVec 32

/-- One byte lane of a word (R101); the unit in which `State.mem` lists memory. -/
abbrev Byte := BitVec 8

/-- A host-bus byte address (20_memory.md R90: `ADDR_BITS = 20`). -/
abbrev BusAddr := BitVec 20

/-- A bit sequence, first emitted bit first (00_scope.md R13). -/
abbrev Bits := List Bool

end Sys2Proof
end

