-- ==== Sys2Proof/Config.lean ====
section
/-! DEFINITION. The implementation parameters of OKC (00_scope.md R9) and the free values the spec leaves open. -/

namespace Sys2Proof

/-- `M_MAX`: largest field degree (R9). -/
def mMax : Nat := 16
/-- `E_MAX`: largest EC length (R9). -/
def eMax : Nat := 4096
/-- `CW_MAX`: entries of the codeword buffer (R9). -/
def cwMax : Nat := 4096
/-- `CHAR_MAX_N`: entries of the character and mode buffers (R9). -/
def charMaxN : Nat := 4096
/-- `BS_MAX_BITS`: bits of the bitstream buffer (R9). -/
def bsMaxBits : Nat := 32768
/-- `SIZE_MAX`: entries of the size table (R9). -/
def sizeMax : Nat := 32
/-- `MODE_MAX`: mode identifiers (R9). -/
def modeMax : Nat := 8
/-- `SENT_COUNT`: sentinel character codes -16..-1 (R9). -/
def sentCount : Nat := 16
/-- `CHAR_HI`: largest non-negative character code (R9). -/
def charHi : Nat := 65535
/-- `CIDX_N`: entries of the class table and of each value table (R9). -/
def cidxN : Nat := 273

/-- What a byte of a memory that nothing has written since power-on holds: unspecified
(70_reset_and_hazards.md R370; 93_implementation_defined.md I1). A function of the byte address alone, because
reading changes nothing (R93). Log 2. -/
opaque Config.powerOnByte : Nat → Byte

/-- The byte that draw number `k` puts at an address whose content becomes unspecified later: a failed GF_INIT
(R154), BS_CLEAR and a failed BUILD (R240, R244, R268), an abandoned command (R372). Log 3. -/
opaque Config.freeByte : Nat → Nat → Byte

/-- The latency of the command issued at draw number `k`: how many host transactions may come before its
completion (45_control.md R314; 93_implementation_defined.md I6). Log 6. -/
opaque Config.latency : Nat → Nat

end Sys2Proof
end

