-- ==== Sys2Proof/Syntax.lean ====
section
/-! DEFINITION. The commands of OKC: one constructor per row of the opcode map (30_encoding.md R128), with the
fields of its format (R121 to R125). -/

namespace Sys2Proof

/-- Field ORD of RS_APPEND (R122): the order in which the EC codewords are appended. -/
inductive EcOrder where
  /-- ORD = 0: `T.REM[E-1]` first -/
  | reverse
  /-- ORD = 1: `T.REM[0]` first -/
  | ascending
deriving DecidableEq, Repr

/-- A decoded command. Field values are unsigned integers (R126); their encodable ranges are checked by
`Instr.wf`. -/
inductive Instr where
  | nop
  | gfInit
  | gfMul
  | gfDiv
  | gfInv
  | gfExp
  | gfLog
  | gfPow
  | gfAdd
  | rsInit
  | rsEncode
  | rsSynd
  | rsAppend (ord : EcOrder)
  | segClassify
  | segResolve
  | segGate
  | bsClear
  | bsAppend (width : Nat)
  | build
  | select (ecc : Nat) (fixed : Bool) (minSize : Nat)
  | split (w : Nat)
deriving DecidableEq, Repr

end Sys2Proof
end

