-- ==== Sys2Proof/WellFormed.lean ====
section
/-! DEFINITION. Which commands have an encoding: each field fits the bits its format gives it
(30_encoding.md R123, R124, R125). A field inside its bits but outside its LEGAL range is well-formed; the command
is then decoded and completes with an error (R131). -/

namespace Sys2Proof

/-- Every field of the command fits its bits. -/
def Instr.wf : Instr → Bool
  | .bsAppend width => decide (width < 64)
  | .select ecc _ minSize => decide (ecc < 4) && decide (minSize < 32)
  | .split w => decide (w < 32)
  | .nop | .gfInit | .gfMul | .gfDiv | .gfInv | .gfExp | .gfLog | .gfPow | .gfAdd => true
  | .rsInit | .rsEncode | .rsSynd | .rsAppend _ => true
  | .segClassify | .segResolve | .segGate | .bsClear | .build => true

end Sys2Proof
end

