-- ==== Sys2Proof/Decode.lean ====
section
/-! DEFINITION. The decoder and the encoder of command words (30_encoding.md R120 to R136), and the reading of a
bit field, which the machine uses too. -/

namespace Sys2Proof

/-- `v[lo+len-1 : lo]` as an integer, zero-extended (00_scope.md R12, 30_encoding.md R126). -/
def Word.field (v : Word) (lo len : Nat) : Nat := (v.extractLsb' lo len).toNat

/-- Why a word is illegal (R130). -/
inductive DecodeError where
  /-- OPCODE is not in the opcode map (R128, R132) -/
  | undefinedOpcode
  /-- a reserved bit of the opcode's format is 1 (R130) -/
  | reservedBit
deriving DecidableEq, Repr

/-- The encoding formats (R121 to R125). -/
inductive Format where
  | n | a | w | s | p
deriving DecidableEq, Repr

/-- The bits of a word of this format that are OPCODE or reserved (R129). -/
def Format.mask : Format → Word
  | .n => 0xFFFFFFFF#32
  | .a => 0xFFFFFFFE#32
  | .w => 0xFFFFFFC0#32
  | .s => 0xFFE0FEFC#32
  | .p => 0xFFFFFFE0#32

/-- ORD of format A (R122). -/
def ordOf (v : Word) : EcOrder := if v.field 0 1 = 0 then .reverse else .ascending

/-- The opcode map (R128): format and command of an opcode, the fields read from the word `v`. -/
def opcodeMap (v : Word) : Nat → Option (Format × Instr)
  | 0x00 => some (.n, .nop)
  | 0x01 => some (.n, .gfInit)
  | 0x02 => some (.n, .gfMul)
  | 0x03 => some (.n, .gfDiv)
  | 0x04 => some (.n, .gfInv)
  | 0x05 => some (.n, .gfExp)
  | 0x06 => some (.n, .gfLog)
  | 0x07 => some (.n, .gfPow)
  | 0x08 => some (.n, .gfAdd)
  | 0x10 => some (.n, .rsInit)
  | 0x11 => some (.n, .rsEncode)
  | 0x12 => some (.n, .rsSynd)
  | 0x13 => some (.a, .rsAppend (ordOf v))
  | 0x20 => some (.n, .segClassify)
  | 0x21 => some (.n, .segResolve)
  | 0x22 => some (.n, .segGate)
  | 0x28 => some (.n, .bsClear)
  | 0x29 => some (.w, .bsAppend (v.field 0 6))
  | 0x2A => some (.n, .build)
  | 0x30 => some (.s, .select (v.field 0 2) (v.getLsbD 8) (v.field 16 5))
  | 0x31 => some (.p, .split (v.field 0 5))
  | _ => none

/-- The OPCODE field (R120). -/
def opcodeOf (v : Word) : Nat := v.field 24 8

/-- Decoding depends on the word alone (R129, R133): the opcode selects the format, and every reserved bit of the
format must be 0. -/
def decode (v : Word) : Except DecodeError Instr :=
  match opcodeMap v (opcodeOf v) with
  | none => .error .undefinedOpcode
  | some (f, i) =>
    if (v &&& f.mask).field 0 24 = 0 then .ok i else .error .reservedBit

/-- The instruction the decoder reads from a table word of `nbits` bits (every bit above them 0). A command is one
word (R120), so there is no word order to choose. -/
def decodeTableWord (nbits w : Nat) : Option Instr :=
  match decode (BitVec.ofNat 32 (w % 2 ^ nbits)) with
  | .ok i => some i
  | .error _ => none

/-- The OPCODE of a command (R128). -/
def Instr.opcode : Instr → Nat
  | .nop => 0x00
  | .gfInit => 0x01
  | .gfMul => 0x02
  | .gfDiv => 0x03
  | .gfInv => 0x04
  | .gfExp => 0x05
  | .gfLog => 0x06
  | .gfPow => 0x07
  | .gfAdd => 0x08
  | .rsInit => 0x10
  | .rsEncode => 0x11
  | .rsSynd => 0x12
  | .rsAppend _ => 0x13
  | .segClassify => 0x20
  | .segResolve => 0x21
  | .segGate => 0x22
  | .bsClear => 0x28
  | .bsAppend _ => 0x29
  | .build => 0x2A
  | .select _ _ _ => 0x30
  | .split _ => 0x31

/-- The format of a command (R128). -/
def Instr.format : Instr → Format
  | .rsAppend _ => .a
  | .bsAppend _ => .w
  | .select _ _ _ => .s
  | .split _ => .p
  | .nop | .gfInit | .gfMul | .gfDiv | .gfInv | .gfExp | .gfLog | .gfPow | .gfAdd => .n
  | .rsInit | .rsEncode | .rsSynd => .n
  | .segClassify | .segResolve | .segGate | .bsClear | .build => .n

/-- Bits 23:0 of a command's word (R121 to R125). -/
def Instr.fieldBits : Instr → Word
  | .rsAppend .reverse => 0#32
  | .rsAppend .ascending => 1#32
  | .bsAppend width => BitVec.ofNat 32 width
  | .select ecc fixed minSize =>
      (BitVec.ofNat 32 minSize <<< 16) ||| ((if fixed then 1#32 else 0#32) <<< 8) ||| BitVec.ofNat 32 ecc
  | .split w => BitVec.ofNat 32 w
  | .nop | .gfInit | .gfMul | .gfDiv | .gfInv | .gfExp | .gfLog | .gfPow | .gfAdd => 0#32
  | .rsInit | .rsEncode | .rsSynd => 0#32
  | .segClassify | .segResolve | .segGate | .bsClear | .build => 0#32

/-- The word of a command (R121 to R125, R128). -/
def encode (i : Instr) : Word := (BitVec.ofNat 32 i.opcode <<< 24) ||| i.fieldBits

end Sys2Proof
end

