-- ==== Sys2Proof/Machine/State.lean ====
section
/-! DEFINITION. The architectural state of OKC (10_state.md R30 to R80), the model's own fields, the reasons a step
can stop, and the state after power-on reset (70_reset_and_hazards.md R370, R371). -/

namespace Sys2Proof.Machine

/-- Why a step of the model faults: NEVER. OKC has nothing that stops it: a failing command completes with an error
code (60_exceptions.md R330), and a bad host access sets AERR or OVR (R345). So the type has no constructor, and no
meaning can answer a fault: safe (log 13). -/
inductive Fault where
deriving DecidableEq, Repr

/-- Why a step of the model is refused. -/
inductive Refusal where
  /-- Raised by `exec` for a command that has no meaning in the model. Safe: the model stops. No arm of `exec` raises
  it now: every command of the opcode map has its meaning. -/
  | notModelled (mnemonic : String)
deriving DecidableEq, Repr

/-- A host bus transaction (20_memory.md R93, R94): the host's next action, an input of the machine. -/
inductive HostTxn where
  /-- `MemRead(addr, 4)` -/
  | read (addr : BusAddr)
  /-- `MemWrite(addr, 4, v)` -/
  | write (addr : BusAddr) (v : Word)
deriving DecidableEq, Repr

/-- Memory: (byte address, byte) pairs, addresses strictly rising (`Memory.wf`). An address that is not listed holds
no written value; what a read of it gives is `State.loadByte`'s. -/
abbrev Memory := List Host.Cell

/-- The held fields of STATUS (R35). BUSY is `State.pending` (R36); the word is `State.statusWord`. -/
structure Status where
  done : Bool
  err : Bool
  ovr : Bool
  aerr : Bool
  z : Bool
  errCode : BitVec 8
  lastOp : BitVec 8
deriving DecidableEq, Repr

/-- The bits of VALID (R44). -/
structure Valid where
  gf : Bool
  rs : Bool
  rem : Bool
  syn : Bool
  sel : Bool
deriving DecidableEq, Repr

/-- The per-mode configuration block `MODECFG[m]` (R56 to R61). -/
structure ModeRegs where
  ctl : Word
  gbits : Word
  vbase : Word
  hdrw : Word
  short : Word
  long : Word
  term : Word
deriving DecidableEq, Repr

/-- The state of OKC. -/
structure State where
  /-- CTRL (R41): the held bits IE, STUFF_EN, FILL_EN -/
  ctrl : Word
  /-- STATUS without BUSY (R35) -/
  status : Status
  /-- OPA (R33) -/
  opa : Word
  /-- OPB (R33) -/
  opb : Word
  /-- RES (R34) -/
  res : Word
  /-- ERRINFO (R43) -/
  errInfo : Word
  /-- VALID (R44) -/
  valid : Valid
  /-- GF_POLY (R45) -/
  gfPoly : Word
  /-- GF_M (R45) -/
  gfM : Word
  /-- RS_E (R46) -/
  rsE : Word
  /-- RS_R0 (R46) -/
  rsR0 : Word
  /-- N_CHARS (R47) -/
  nChars : Word
  /-- MODE_CFG (R48) -/
  modeCfg : Word
  /-- BS_LEN (R49) -/
  bsLen : Word
  /-- MAX_BITS (R50) -/
  maxBits : Word
  /-- SIZE_COUNT (R51) -/
  sizeCount : Word
  /-- PAD_CFG (R52) -/
  padCfg : Word
  /-- PAD_PAT (R52) -/
  padPat : Word
  /-- FILL_PAT (R52) -/
  fillPat : Word
  /-- SEL_SIZE (R53) -/
  selSize : Word
  /-- SEL_W (R53) -/
  selW : Word
  /-- DATA_CW (R53) -/
  dataCw : Word
  /-- EC_CW (R53) -/
  ecCw : Word
  /-- STUFF_LEN (R53) -/
  stuffLen : Word
  /-- STUFF_INS (R53) -/
  stuffIns : Word
  /-- MODECFG[0..7] (R56) -/
  modecfg : Vector ModeRegs 8
  /-- PENDING, visible as STATUS.BUSY (R77) -/
  pending : Bool
  /-- PCMD (R77) -/
  pcmd : Word
  /-- The memories (R62 to R74), in one list of listed bytes -/
  mem : Memory
  /-- Model's own: the host transactions still to be made (00_scope.md R8; log 7) -/
  hostQueue : List HostTxn
  /-- Model's own: what the host's last MemRead returned (R93; log 9) -/
  lastRead : Option Word
  /-- Model's own: how many host transactions may still come before the pending command completes (R314; log 6) -/
  delay : Nat
  /-- Model's own: how many free values have been drawn (R18; log 4) -/
  draws : Nat
deriving DecidableEq, Repr

/-- STATUS after reset (R35). -/
def Status.reset : Status :=
  { done := false, err := false, ovr := false, aerr := false, z := false, errCode := 0, lastOp := 0 }

/-- VALID after reset (R44). -/
def Valid.reset : Valid := { gf := false, rs := false, rem := false, syn := false, sel := false }

/-- A MODECFG block after reset (R56). -/
def ModeRegs.reset : ModeRegs :=
  { ctl := 0, gbits := 0, vbase := 0, hdrw := 0, short := 0, long := 0, term := 0 }

/-- OKC right after power-on (R31, R370, R371): the register table's reset values, no pending command, nothing
written in any memory, no host transaction to make. -/
def State.reset : State :=
  { ctrl := 0, status := Status.reset, opa := 0, opb := 0, res := 0, errInfo := 0, valid := Valid.reset
    gfPoly := 0, gfM := 0, rsE := 0, rsR0 := 0, nChars := 0, modeCfg := 0, bsLen := 0
    maxBits := 32768#32, sizeCount := 0, padCfg := 0, padPat := 1#32, fillPat := 0
    selSize := 0, selW := 0, dataCw := 0, ecCw := 0, stuffLen := 0, stuffIns := 0
    modecfg := Vector.replicate 8 ModeRegs.reset
    pending := false, pcmd := 0, mem := [], hostQueue := [], lastRead := none, delay := 0, draws := 0 }

end Sys2Proof.Machine
end

