-- ==== Sys2Proof/Machine/Ops.lean ====
section
/-! DEFINITION. The named operations over memory, the bit stream, completion and issue. Meanings are written over
these; the address map is that of 20_memory.md R91. -/

namespace Sys2Proof.Machine

/-! ### Error codes (60_exceptions.md R331, R332) -/

/-- The error codes a command can complete with (R331), but for NONE. -/
inductive ErrKind where
  | invalidInput
  | capacityExceeded
  /-- reserved: no command raises it (R343) -/
  | configConflict
  | internalDefect
  | illegalCommand
  | illegalOperand
  | notReady
  | zeroDivisor
deriving DecidableEq, Repr

/-- The value of STATUS.ERRCODE for an error (R331). -/
def ErrKind.code : ErrKind → BitVec 8
  | .invalidInput => 0x01#8
  | .capacityExceeded => 0x02#8
  | .configConflict => 0x03#8
  | .internalDefect => 0x04#8
  | .illegalCommand => 0x05#8
  | .illegalOperand => 0x06#8
  | .notReady => 0x07#8
  | .zeroDivisor => 0x08#8

/-- A raised error: its kind and its ERRINFO word (00_scope.md R15). -/
structure Err where
  kind : ErrKind
  info : Word
deriving DecidableEq, Repr

/-- `class << 24 | detail` (R332). -/
def errInfoWord (cls detail : Nat) : Word := (BitVec.ofNat 32 cls <<< 24) ||| BitVec.ofNat 32 detail

/-- `raise kind(class << 24 | detail)`. -/
def mkErr (kind : ErrKind) (cls detail : Nat) : Err := { kind := kind, info := errInfoWord cls detail }

/-- `require cond else e` (00_scope.md R15). -/
def require (cond : Bool) (e : Err) : Except Err Unit := if cond then .ok () else .error e

/-! ### The address map (20_memory.md R91) -/

/-- What a word address belongs to. A word of a region beyond its used entries is reserved (R91). -/
inductive Region where
  | regs | trans | cls | size | vtab | char | mode | bs | cw | rem | gen | syn | alog | log | reserved
deriving DecidableEq, Repr

def transBase : Nat := 0x01000
def clsBase : Nat := 0x02000
def sizeBase : Nat := 0x03000
def vtabBase : Nat := 0x04000
def charBase : Nat := 0x10000
def modeBase : Nat := 0x14000
def bsBase : Nat := 0x18000
def cwBase : Nat := 0x20000
def remBase : Nat := 0x24000
def genBase : Nat := 0x28000
def synBase : Nat := 0x30000
def alogBase : Nat := 0x40000
def logBase : Nat := 0x80000

/-- The region of a byte address (R91). -/
def regionOf (a : Nat) : Region :=
  if a < 0x01000 then .regs
  else if a < 0x01100 then .trans
  else if a < 0x02000 then .reserved
  else if a < 0x02000 + 4 * cidxN then .cls
  else if a < 0x03000 then .reserved
  else if a < 0x03400 then .size
  else if a < 0x04000 then .reserved
  else if a < 0x08000 then (if (a - 0x04000) % 0x800 < 4 * cidxN then .vtab else .reserved)
  else if a < 0x10000 then .reserved
  else if a < 0x14000 then .char
  else if a < 0x18000 then .mode
  else if a < 0x19000 then .bs
  else if a < 0x20000 then .reserved
  else if a < 0x24000 then .cw
  else if a < 0x28000 then .rem
  else if a < 0x28000 + 4 * (eMax + 1) then .gen
  else if a < 0x30000 then .reserved
  else if a < 0x34000 then .syn
  else if a < 0x40000 then .reserved
  else if a < 0x80000 then .alog
  else if a < 0xC0000 then .log
  else .reserved

/-- The field bits of a memory entry (10_state.md R62 to R74); the other bits read 0 and ignore writes (R94, R96).
Words 6 and 7 of a SIZE entry have no field (R65; log 10). -/
def fieldMask (a : Nat) : Word :=
  match regionOf a with
  | .trans => 0xFFFF1F73#32
  | .cls => 0x000000FF#32
  | .size =>
    match (a - sizeBase) / 4 % 8 with
    | 0 => 0x0000001F#32
    | 1 | 2 | 3 | 4 | 5 => 0x0000FFFF#32
    | _ => 0#32
  | .vtab => 0x0000FFFF#32
  | .char => 0xFFFFFFFF#32
  | .mode => 0x0000000F#32
  | .bs => 0xFFFFFFFF#32
  | .cw | .rem | .gen | .syn | .alog | .log => 0x0000FFFF#32
  | .regs | .reserved => 0#32

/-! ### Memory as a list of bytes -/

/-- The byte listed at an address, none where nothing has been written: what an unlisted address reads as. -/
def Memory.read? (m : Memory) (a : Nat) : Option Byte := m.lookup a

/-- The canonical form: addresses strictly rising. No entry can equal what an unlisted address reads as, which is no
value. -/
abbrev Memory.wf (m : Memory) : Prop := m.Pairwise (fun x y => x.1 < y.1)

/-- Replace everything listed from `lo` up to `hi` by `new`. -/
def Memory.splice (m : Memory) (lo hi : Nat) (new : Memory) : Memory :=
  m.filter (fun c => decide (c.1 < lo)) ++ new ++ m.filter (fun c => decide (hi ≤ c.1))

/-- The four byte lanes of a word: lane i carries bits 8i+7..8i (R101) and is listed at address + i (log 1). -/
def laneCells (a : Nat) (w : Word) : Memory :=
  [(a, w.extractLsb' 0 8), (a + 1, w.extractLsb' 8 8), (a + 2, w.extractLsb' 16 8), (a + 3, w.extractLsb' 24 8)]

/-- The cells of consecutive words from a byte address. -/
def wordCells (a : Nat) : List Word → Memory
  | [] => []
  | w :: ws => laneCells a w ++ wordCells (a + 4) ws

/-- Write consecutive words. -/
def Memory.writeWords (m : Memory) (a : Nat) (ws : List Word) : Memory :=
  m.splice a (a + 4 * ws.length) (wordCells a ws)

/-- The byte at an address: what was written there, or the unspecified power-on content (R370, I1; log 2). -/
def State.loadByte (s : State) (a : Nat) : Byte := (s.mem.read? a).getD (Config.powerOnByte a)

/-- The four lanes at a word address, assembled (R101). -/
def State.rawWord (s : State) (a : Nat) : Word :=
  s.loadByte (a + 3) ++ s.loadByte (a + 2) ++ s.loadByte (a + 1) ++ s.loadByte a

/-- The word a memory entry holds, reserved bits 0 (R93). -/
def State.load (s : State) (a : Nat) : Word := s.rawWord a &&& fieldMask a

/-- Words restricted to the field bits of the entries they go to (R94). -/
def maskWords (a : Nat) : List Word → List Word
  | [] => []
  | w :: ws => (w &&& fieldMask a) :: maskWords (a + 4) ws

/-- Store consecutive memory entries from byte address `a` (R94, R100). -/
def State.storeWords (s : State) (a : Nat) (ws : List Word) : State :=
  { s with mem := s.mem.writeWords a (maskWords a ws) }

/-- Store consecutive entries given as integers. -/
def State.storeNats (s : State) (a : Nat) (vs : List Nat) : State :=
  s.storeWords a (vs.map (BitVec.ofNat 32))

/-- The free word of a draw at a word address. -/
def freeWord (k a : Nat) : Word :=
  Config.freeByte k (a + 3) ++ Config.freeByte k (a + 2) ++ Config.freeByte k (a + 1) ++ Config.freeByte k a

/-- `n` free words from byte address `a`, of draw `k`. -/
def freeWords (k a n : Nat) : List Word := (List.range n).map (fun i => freeWord k (a + 4 * i))

/-- `n` entries from `a` come to hold unspecified values (00_scope.md R18), of the current draw. -/
def State.forgetWords (s : State) (a n : Nat) : State := s.storeWords a (freeWords s.draws a n)

/-- The current draw is used up. -/
def State.nextDraw (s : State) : State := { s with draws := s.draws + 1 }

/-- `n` entries from `a` come to hold unspecified values, and the draw is used up (R18, R372). -/
def State.forgetEntries (s : State) (a n : Nat) : State := (s.forgetWords a n).nextDraw

/-! ### Bit sequences (00_scope.md R13) and the bitstream buffer (10_state.md R68, 43_bitstream.md R240, R241) -/

/-- `Bits(v, w)`: the w low bits of `v mod 2^w`, most significant first. -/
def bitsOf (v : Int) (w : Nat) : Bits :=
  (List.range w).map (fun t => (v % 2 ^ w).toNat.testBit (w - 1 - t))

/-- `Val(s)`: first bit most significant. -/
def valOf (bs : Bits) : Nat := bs.foldl (fun acc b => 2 * acc + b.toNat) 0

/-- The word whose bit `31 - i` is `f i`. -/
def packWord (f : Nat → Bool) : Word := BitVec.ofNat 32 (valOf ((List.range 32).map f))

/-- Stream bit k is bit `31 - (k mod 32)` of BS word `k div 32` (R68, R102). -/
def State.streamBit (s : State) (k : Nat) : Bool := (s.load (bsBase + 4 * (k / 32))).getMsbD (k % 32)

/-- The stream `s_0 .. s_{BS_LEN-1}` (R240). -/
def State.stream (s : State) : Bits := (List.range s.bsLen.toNat).map s.streamBit

/-- BS words `j0 .. j0+n-1` rewritten so that stream bit k becomes `f k`. -/
def State.storeStream (s : State) (j0 n : Nat) (f : Nat → Bool) : State :=
  s.storeWords (bsBase + 4 * j0) ((List.range n).map (fun j => packWord (fun i => f (32 * (j0 + j) + i))))

/-- Stream bits `p .. p + len(t) - 1` become `t`; every other bit of the words touched keeps its value. -/
def State.putBits (s : State) (p : Nat) (t : Bits) : State :=
  if t = [] then s
  else
    s.storeStream (p / 32) ((p + t.length - 1) / 32 - p / 32 + 1)
      (fun k => if p ≤ k ∧ k < p + t.length then t.getD (k - p) false else s.streamBit k)

/-- Every bit of the buffer at a position `>= p` comes to hold an unspecified value (R240; log 5). -/
def State.forgetStreamFrom (s : State) (p : Nat) : State :=
  s.storeStream (p / 32) (bsMaxBits / 32 - p / 32)
    (fun k => if k < p then s.streamBit k else (freeWord s.draws (bsBase + 4 * (k / 32))).getMsbD (k % 32))

/-- Stream bits `p .. p + n - 1` come to hold unspecified values, and the draw is used up (R18, R372). -/
def State.forgetBits (s : State) (p n : Nat) : State :=
  (s.putBits p ((List.range n).map
    (fun j => (freeWord s.draws (bsBase + 4 * ((p + j) / 32))).getMsbD ((p + j) % 32)))).nextDraw

/-- `APPEND(t)` (R241): both length checks come before any bit is written. -/
def State.append (s : State) (t : Bits) : Except Err State := do
  let l := s.bsLen.toNat + t.length
  require (decide (l ≤ s.maxBits.toNat)) (mkErr .capacityExceeded 1 (min l 0xFFFFFF))
  require (decide (l ≤ bsMaxBits)) (mkErr .capacityExceeded 2 (min l 0xFFFFFF))
  pure { s.putBits s.bsLen.toNat t with bsLen := BitVec.ofNat 32 l }

/-! ### Issue and completion (45_control.md R311, R312): OKC's exceptional event and what ends it -/

/-- Taking an error: the completion of a command that raised `e` (60_exceptions.md R330, R346; R312). -/
def State.takeError (s : State) (e : Err) : State :=
  { s with
    status := { s.status with errCode := e.kind.code, err := true, done := true }
    errInfo := e.info
    pending := false }

/-- The completion of a command that succeeded (R312): ERRINFO keeps the 0 that issue gave it. -/
def State.completeOk (s : State) : State :=
  { s with
    status := { s.status with errCode := 0, err := false, done := true }
    pending := false }

/-- Completion of a command whose errors change nothing (R341): the new state, or the old one with the error. -/
def State.finish (s : State) : Except Err State → State
  | .ok s' => s'.completeOk
  | .error e => s.takeError e

/-- Issue of the command word `w` (R311); it ends the previous command's error (60_exceptions.md R347). The latency
of the new command is drawn here (R314; log 6). -/
def State.issue (s : State) (w : Word) : State :=
  { s with
    pcmd := w
    pending := true
    status := { s.status with done := false, err := false, errCode := 0, lastOp := w.extractLsb' 24 8 }
    errInfo := 0
    delay := Config.latency s.draws
    draws := s.draws + 1 }

end Sys2Proof.Machine
end

