-- ==== Sys2Proof/Machine/Flags.lean ====
section
/-! DEFINITION. The flags of OKC: STATUS.Z (10_state.md R40), the STATUS and VALID words (R35, R44), the interrupt
level (60_exceptions.md R350). -/

namespace Sys2Proof.Machine

/-- Write RES, and Z with it (R40). -/
def State.writeRes (s : State) (v : Word) : State :=
  { s with res := v, status := { s.status with z := decide (v = 0) } }

/-- Write RES with an integer result, zero-extended. -/
def State.writeResNat (s : State) (v : Nat) : State := s.writeRes (BitVec.ofNat 32 v)

/-- A bit at a place of a word. -/
def bitAt (b : Bool) (i : Nat) : Word := if b then 1#32 <<< i else 0#32

/-- The word STATUS reads as (R35). -/
def State.statusWord (s : State) : Word :=
  bitAt s.pending 0 ||| bitAt s.status.done 1 ||| bitAt s.status.err 2 ||| bitAt s.status.ovr 3
    ||| bitAt s.status.aerr 4 ||| bitAt s.status.z 5
    ||| (s.status.errCode.zeroExtend 32 <<< 8) ||| (s.status.lastOp.zeroExtend 32 <<< 16)

/-- The word VALID reads as (R44). -/
def State.validWord (s : State) : Word :=
  bitAt s.valid.gf 0 ||| bitAt s.valid.rs 1 ||| bitAt s.valid.rem 2 ||| bitAt s.valid.syn 3 ||| bitAt s.valid.sel 4

/-- A host write of `v` to STATUS (R35): DONE, ERR, OVR and AERR are cleared where `v` has 1. -/
def State.writeStatus (s : State) (v : Word) : State :=
  { s with
    status := { s.status with
      done := s.status.done && !v.getLsbD 1
      err := s.status.err && !v.getLsbD 2
      ovr := s.status.ovr && !v.getLsbD 3
      aerr := s.status.aerr && !v.getLsbD 4 } }

/-- CTRL.IE (R41). -/
def State.ie (s : State) : Bool := s.ctrl.getLsbD 0
/-- CTRL.STUFF_EN (R41). -/
def State.stuffEn (s : State) : Bool := s.ctrl.getLsbD 2
/-- CTRL.FILL_EN (R41). -/
def State.fillEn (s : State) : Bool := s.ctrl.getLsbD 3

/-- The interrupt output, a level: `IRQ = CTRL.IE AND STATUS.DONE` (60_exceptions.md R350). -/
def State.irq (s : State) : Bool := s.ie && s.status.done

end Sys2Proof.Machine
end

