-- ==== Sys2Proof/Machine/Operands.lean ====
section
/-! DEFINITION. Every operand form of OKC: operand registers (30_encoding.md R127), memory entries
(10_state.md R62 to R74) and the fields of the configuration registers (R48 to R61). -/

namespace Sys2Proof.Machine

/-! ### Operand and length registers, unsigned (R127) -/

def State.opaN (s : State) : Nat := s.opa.toNat
def State.opbN (s : State) : Nat := s.opb.toNat
/-- `n = R.N_CHARS` (R47) -/
def State.n (s : State) : Nat := s.nChars.toNat
/-- `L = R.BS_LEN` (R49) -/
def State.bsLenN (s : State) : Nat := s.bsLen.toNat
/-- `E = R.RS_E` (R46) -/
def State.ecLen (s : State) : Nat := s.rsE.toNat
/-- `r0 = R.RS_R0` (R46) -/
def State.firstRoot (s : State) : Nat := s.rsR0.toNat

/-- Length check of N_CHARS (42_segment.md R216; 60_exceptions.md R336). -/
def State.checkNChars (s : State) : Except Err Unit :=
  require (decide (s.n ≤ charMaxN)) (mkErr .illegalOperand 5 0x034)

/-- Buffer length check of BS_LEN (43_bitstream.md R242; R336). -/
def State.checkBsLen (s : State) : Except Err Unit :=
  require (decide (s.bsLenN ≤ bsMaxBits)) (mkErr .illegalOperand 5 0x03C)

/-! ### Memory entries (R62 to R74) -/

/-- An entry of a memory of one word per entry. -/
def State.entry (s : State) (base k : Nat) : Nat := (s.load (base + 4 * k)).toNat

def State.tCw (s : State) (k : Nat) : Nat := s.entry cwBase k
def State.tRem (s : State) (k : Nat) : Nat := s.entry remBase k
def State.tGen (s : State) (k : Nat) : Nat := s.entry genBase k
def State.tSyn (s : State) (k : Nat) : Nat := s.entry synBase k
def State.tAlog (s : State) (k : Nat) : Nat := s.entry alogBase k
def State.tLog (s : State) (k : Nat) : Nat := s.entry logBase k
/-- `T.MODE[i].TAG` (R67) -/
def State.tMode (s : State) (i : Nat) : Nat := s.entry modeBase i
/-- `T.CLASS[x].MASK` (R63) -/
def State.tClass (s : State) (x : Nat) : BitVec 8 := (s.load (clsBase + 4 * x)).extractLsb' 0 8
/-- `T.VTAB[m][x].VALUE` (R64) -/
def State.tVtab (s : State) (m x : Nat) : Nat := s.entry (vtabBase + 0x800 * m) x
/-- `c_i = sext_32(T.CHAR[i])` (R66) -/
def State.char (s : State) (i : Nat) : Int := (s.load (charBase + 4 * i)).toInt
/-- Word j of `T.SIZE[x]` (R65) -/
def State.tSize (s : State) (x j : Nat) : Nat := s.entry (sizeBase + 0x20 * x) j
/-- `T.SIZE[x].W` (R65) -/
def State.sizeW (s : State) (x : Nat) : Nat := s.tSize x 0
/-- `T.SIZE[x].TOTAL` (R65) -/
def State.sizeTotal (s : State) (x : Nat) : Nat := s.tSize x 1
/-- `T.SIZE[x].CAP<ecc>` (R65, 44_capacity.md R289) -/
def State.sizeCap (s : State) (x ecc : Nat) : Nat := s.tSize x (2 + ecc)

/-- The tags `M_0 .. M_{n-1}` (42_segment.md). -/
def State.tags (s : State) : List Nat := (List.range s.n).map s.tMode

/-- KIND of a transition entry (R62, 43_bitstream.md R251). -/
inductive TransKind where
  | invalid | latch | shift | via
deriving DecidableEq, Repr

/-- A transition entry (R62). -/
structure Trans where
  kind : TransKind
  via : Nat
  nbits : Nat
  code : Nat
deriving DecidableEq, Repr

/-- KIND as bits 1:0 code it (R62). -/
def transKindOf : Nat → TransKind
  | 0 => .invalid
  | 1 => .latch
  | 2 => .shift
  | _ => .via

/-- The fields of a transition word (R62). -/
def transOf (w : Word) : Trans :=
  { kind := transKindOf (w.field 0 2), via := w.field 4 3, nbits := w.field 8 5, code := w.field 16 16 }

/-- `T.TRANS[a][b]` (R62). -/
def State.trans (s : State) (a b : Nat) : Trans := transOf (s.load (transBase + 4 * (8 * a + b)))

/-! ### MODE_CFG and MODECFG[m] (R48, R57 to R61) -/

def State.modeCount (s : State) : Nat := s.modeCfg.field 0 4
def State.initMode (s : State) : Nat := s.modeCfg.field 4 3
def State.fallback (s : State) : Nat := s.modeCfg.field 8 3

/-- The block `MODECFG[m]` (R56). -/
def State.mc (s : State) (m : Nat) : ModeRegs := if h : m < 8 then s.modecfg[m] else ModeRegs.reset

def ModeRegs.gn (r : ModeRegs) : Nat := r.ctl.field 0 3
def ModeRegs.vsrc (r : ModeRegs) : Nat := r.ctl.field 3 2
def ModeRegs.radix (r : ModeRegs) : Nat := r.ctl.field 8 8
def ModeRegs.minRun (r : ModeRegs) : Nat := r.ctl.field 16 8
def ModeRegs.hdrCount (r : ModeRegs) : Bool := r.ctl.getLsbD 24
/-- `GBk`, k = 1..4 (R58) -/
def ModeRegs.gb (r : ModeRegs) (k : Nat) : Nat := r.gbits.field (8 * (k - 1)) 5
/-- `sext_32(MC_VBASE)` (R59) -/
def ModeRegs.base (r : ModeRegs) : Int := r.vbase.toInt
def ModeRegs.shortBits (r : ModeRegs) : Nat := r.hdrw.field 0 5
def ModeRegs.longBits (r : ModeRegs) : Nat := r.hdrw.field 8 5
def ModeRegs.shortMax (r : ModeRegs) : Nat := r.short.field 0 16
def ModeRegs.shortBias (r : ModeRegs) : Nat := r.short.field 16 16
def ModeRegs.esc (r : ModeRegs) : Nat := r.long.field 0 16
def ModeRegs.longBias (r : ModeRegs) : Nat := r.long.field 16 16
def ModeRegs.termBits (r : ModeRegs) : Nat := r.term.field 0 5
def ModeRegs.termCode (r : ModeRegs) : Nat := r.term.field 16 16

/-- `CHUNK_MAX(m)` (43_bitstream.md R261). -/
def ModeRegs.chunkMax (r : ModeRegs) : Nat :=
  if r.longBits > 0 then r.longBias + 2 ^ r.longBits - 1 else r.shortMax

/-! ### Padding registers (R52) -/

def State.padLen (s : State) : Nat := s.padCfg.field 0 5 + 1
def State.fillLen (s : State) : Nat := s.padCfg.field 8 5 + 1
/-- `PADBIT(k)` (44_capacity.md R283) -/
def State.padBit (s : State) (k : Nat) : Bool := s.padPat.getLsbD (s.padLen - 1 - k % s.padLen)
/-- `FILLBIT(f)` (44_capacity.md R285) -/
def State.fillBit (s : State) (f : Nat) : Bool := s.fillPat.getLsbD (s.fillLen - 1 - f % s.fillLen)

/-! ### The field GF(2^m) (40_gf.md R150, R155, R158 to R160) -/

/-- `2^m` with `m = R.GF_M` (R150, R155). -/
def State.gfSize (s : State) : Nat := 2 ^ s.gfM.toNat
/-- `N = 2^m - 1` (R150). -/
def State.gfN (s : State) : Nat := s.gfSize - 1

/-- `gfmul(a, b)` (R158). -/
def State.gfmul (s : State) (a b : Nat) : Nat :=
  if a = 0 ∨ b = 0 then 0 else s.tAlog ((s.tLog a + s.tLog b) % s.gfN)

/-- `gfexp(k)` (R159). -/
def State.gfexp (s : State) (k : Nat) : Nat := s.tAlog (k % s.gfN)

/-- `gflog(a)` of a nonzero element (R160). -/
def State.gflog (s : State) (a : Nat) : Nat := s.tLog a

/-- Readiness of the field (R156 step 1, 60_exceptions.md R338). -/
def State.needField (s : State) : Except Err Unit := require s.valid.gf (mkErr .notReady 0 0)

/-- OPA is an element (R155; R156 step 2). -/
def State.elemA (s : State) : Except Err Unit :=
  require (decide (s.opaN < s.gfSize)) (mkErr .illegalOperand 1 0)

/-- OPB is an element (R155; R156 step 3). -/
def State.elemB (s : State) : Except Err Unit :=
  require (decide (s.opbN < s.gfSize)) (mkErr .illegalOperand 2 0)

end Sys2Proof.Machine
end

