-- ==== Sys2Proof/Machine/Emit.lean ====
section
/-! DEFINITION. Candidate sets, runs, the configuration checks (42_segment.md R210 to R216) and the emission
function EMIT of the bitstream builder (43_bitstream.md R246 to R266). -/

namespace Sys2Proof.Machine

/-! ### Characters and candidate sets (R210 to R213) -/

/-- `CIDX(c)` for a code in `-16..CHAR_HI` (R210). -/
def cidx (c : Int) : Nat := if c ≤ 255 then (c + sentCount).toNat else 272

/-- A character code in range (R210, R211). -/
def charOk (c : Int) : Bool := decide (-(sentCount : Int) ≤ c ∧ c ≤ charHi)

/-- `2^MODE_COUNT - 1` as a mask of eight modes (R211). -/
def modeMask (count : Nat) : BitVec 8 := BitVec.ofNat 8 (2 ^ count - 1)

/-- `CAND(i)` (R211): the modes that can encode `c_i`. -/
def State.cand (s : State) (i : Nat) : Except Err (BitVec 8) := do
  require (charOk (s.char i)) (mkErr .invalidInput 1 i)
  let c := s.tClass (cidx (s.char i)) &&& modeMask s.modeCount
  require (decide (c ≠ 0)) (mkErr .invalidInput 2 i)
  pure c

/-- `SPEC(i)` (R213): the candidates without the fallback, unless none is left. -/
def State.spec (s : State) (i : Nat) : Except Err (BitVec 8) := do
  let c ← s.cand i
  let d := c &&& ~~~(1#8 <<< s.fallback)
  pure (if d = 0 then c else d)

/-- The modes of a set, lowest first. -/
def modesOf (c : BitVec 8) : List Nat := (List.range 8).filter c.getLsbD

/-- A function applied to the positions of a list in order; the lowest failing position is reported (60_exceptions.md
R340). -/
def forPositions (f : Nat → Except Err α) : List Nat → Except Err (List α)
  | [] => .ok []
  | i :: is => do
    let v ← f i
    let vs ← forPositions f is
    pure (v :: vs)

/-! ### Configuration checks (R212, R214, R215) -/

/-- The tag UNRES (10_state.md R67). -/
def unres : Nat := 15

/-- `CHECK_CFG` (R212). -/
def State.checkCfg (s : State) : Except Err Unit :=
  require (decide (1 ≤ s.modeCount ∧ s.modeCount ≤ modeMax ∧ s.initMode < s.modeCount ∧ s.fallback < s.modeCount))
    (mkErr .internalDefect 5 0xFF)

/-- `CHECK_TAGS(allow_unres)` from position i (R214). -/
def State.checkTags (s : State) (allowUnres : Bool) : Nat → List Nat → Except Err Unit
  | _, [] => .ok ()
  | i, t :: ts =>
    if t < s.modeCount ∨ (allowUnres = true ∧ t = unres) then s.checkTags allowUnres (i + 1) ts
    else .error (mkErr .internalDefect 4 i)

/-- Position i is admitted by its tag's mode (R227, R247 check 4). -/
def State.admits (s : State) (i t : Nat) : Except Err Unit := do
  let c ← s.cand i
  require (c.getLsbD t) (mkErr .invalidInput 3 i)

/-- Every position is admitted by its tag's mode, from position i on (R247 check 4). -/
def State.checkAdmits (s : State) : Nat → List Nat → Except Err Unit
  | _, [] => .ok ()
  | i, t :: ts => do
    s.admits i t
    s.checkAdmits (i + 1) ts

/-- A run `(m, a, b)`: positions `a .. b-1` of mode m (R215). -/
structure Run where
  m : Nat
  a : Nat
  b : Nat
deriving DecidableEq, Repr

/-- Runs of a tag list whose first run, of mode `m`, began at `a` and has reached `p` (R215). -/
def runsFrom (m a p : Nat) : List Nat → List Run
  | [] => [⟨m, a, p⟩]
  | t :: ts => if t = m then runsFrom m a (p + 1) ts else ⟨m, a, p⟩ :: runsFrom t p (p + 1) ts

/-- `RUNS(M)` (R215). -/
def runs : List Nat → List Run
  | [] => []
  | t :: ts => runsFrom t 0 1 ts

/-- `CHECK_MODE(m)` holds (R248). -/
def ModeRegs.ok (r : ModeRegs) : Bool :=
  decide (1 ≤ r.gn ∧ r.gn ≤ 4) && decide (r.vsrc ≤ 1)
    && (List.range r.gn).all (fun k => decide (r.gb (k + 1) ≤ 16))
    && decide (r.termBits ≤ 16)
    && (!r.hdrCount || decide (r.shortBits ≤ 16 ∧ r.longBits ≤ 16 ∧ 1 ≤ r.chunkMax))

/-- `CHECK_MODE(m)` for the modes of a list in order (R247 check 3). -/
def State.checkModes (s : State) : List Nat → Except Err Unit
  | [] => .ok ()
  | m :: ms => if (s.mc m).ok then s.checkModes ms else .error (mkErr .internalDefect 5 m)

/-! ### Transitions (R251 to R254) -/

/-- A hop of a path (R252). -/
structure Hop where
  src : Nat
  dst : Nat
  kind : TransKind
  nbits : Nat
  code : Nat
deriving DecidableEq, Repr

/-- A path of hops is legal: at most 8, every one but the last a LATCH (R252). -/
def pathOk (q : List Hop) : Bool :=
  decide (q.length ≤ 8) && q.dropLast.all (fun h => decide (h.kind = .latch))

/-- `P(x, y, depth)` of R252, with `4 - depth` as the first argument. -/
def State.pathFrom (s : State) : Nat → Nat → Nat → Option (List Hop)
  | 0, _, _ => none
  | d + 1, x, y =>
    let e := s.trans x y
    if e.nbits > 16 then none
    else
      match e.kind with
      | .invalid => none
      | .latch => some [⟨x, y, .latch, e.nbits, e.code⟩]
      | .shift => some [⟨x, y, .shift, e.nbits, e.code⟩]
      | .via =>
        if e.via = x ∨ e.via = y ∨ s.modeCount ≤ e.via then none
        else
          match s.pathFrom d x e.via, s.pathFrom d e.via y with
          | some p, some q => if pathOk (p ++ q) then some (p ++ q) else none
          | _, _ => none

/-- `PATH(a, b)` (R252). -/
def State.path (s : State) (a b : Nat) : Except Err (List Hop) :=
  match s.pathFrom 4 a b with
  | some p => .ok p
  | none => .error (mkErr .internalDefect 2 (8 * a + b))

/-- `CODES(P)` (R250, R253). -/
def codes (p : List Hop) : Bits := p.flatMap (fun h => bitsOf h.code h.nbits)

/-- The last hop of P is a LATCH (R250). -/
def endsInLatch (p : List Hop) : Bool :=
  match p.getLast? with
  | some h => decide (h.kind = .latch)
  | none => true

/-- `AFTER(P)` (R254); `cur` for the empty path, which no transition gives. -/
def after (cur : Nat) (p : List Hop) : Nat :=
  match p.getLast? with
  | some h => if h.kind = .latch then h.dst else h.src
  | none => cur

/-! ### Values and groups (R258, R259) -/

/-- `VAL(m, p)` (R258). -/
def State.value (s : State) (m p : Nat) : Except Err Nat := do
  let r := s.mc m
  let v : Int := if r.vsrc = 0 then (s.tVtab m (cidx (s.char p)) : Int) else s.char p - r.base
  require (r.vsrc = 0 || decide (0 ≤ v ∧ v < 2 ^ r.gb 1)) (mkErr .invalidInput 4 p)
  require (decide (r.gn ≤ 1) || decide (v < r.radix)) (mkErr .invalidInput 4 p)
  pure v.toNat

/-- The radix packing of a group, first value most significant (R259). -/
def packGroup (radix : Nat) (vs : List Nat) : Nat := vs.foldl (fun acc v => acc * radix + v) 0

/-- `DATA(m, q, b, g)` (R259): the value codes of positions `q .. b-1` in groups of g. The first argument bounds the
number of groups; `b - q` is enough, because a group has at least one position. -/
def State.data (s : State) (m g b : Nat) : Nat → Nat → Except Err Bits
  | 0, _ => .ok []
  | f + 1, q =>
    if q < b then do
      let k := min g (b - q)
      let vs ← forPositions (s.value m) (List.range' q k)
      let rest ← s.data m g b f (q + k)
      pure (bitsOf (packGroup (s.mc m).radix vs) ((s.mc m).gb k) ++ rest)
    else .ok []

/-- `DATA(m, a, b, g)` (R259). -/
def State.dataCodes (s : State) (m a b g : Nat) : Except Err Bits := s.data m g b (b - a) a

/-! ### Runs emitted (R250, R256, R257, R260) -/

/-- A shifted plain run (R250, R256): for each position the path from the current mode, then a group of one. -/
def State.emitShifted (s : State) (m : Nat) : Nat → List Nat → Except Err (Bits × Nat)
  | cur, [] => .ok ([], cur)
  | cur, p :: ps => do
    let path ← s.path cur m
    let d ← s.dataCodes m p (p + 1) 1
    let (rest, last) ← s.emitShifted m (after cur path) ps
    pure (codes path ++ d ++ rest, last)

/-- `EMIT_PLAIN(m, a, b)` from the current mode (R250): the bits and the mode after. -/
def State.emitPlain (s : State) (cur : Nat) (r : Run) : Except Err (Bits × Nat) :=
  if r.m = cur then do
    let d ← s.dataCodes r.m r.a r.b (s.mc r.m).gn
    pure (d, cur)
  else do
    let path ← s.path cur r.m
    if endsInLatch path then do
      let d ← s.dataCodes r.m r.a r.b (s.mc r.m).gn
      pure (codes path ++ d, r.m)
    else s.emitShifted r.m cur (List.range' r.a (r.b - r.a))

/-- `HEADER(m, k)` (R260). -/
def header (r : ModeRegs) (k : Nat) : Bits :=
  if k ≤ r.shortMax then bitsOf ((k : Int) - r.shortBias) r.shortBits
  else bitsOf r.esc r.shortBits ++ bitsOf ((k : Int) - r.longBias) r.longBits

/-- `EMIT_COUNTED(m, s, b)` from the current mode (R257). The first argument bounds the number of chunks; `b - s` is
enough, because CHECK_MODE makes a chunk at least one position (R248, R261). -/
def State.emitCounted (s : State) (m b : Nat) : Nat → Nat → Nat → Except Err (Bits × Nat)
  | 0, cur, _ => .ok ([], cur)
  | f + 1, cur, a =>
    if a < b then do
      let e := min (a + (s.mc m).chunkMax) b
      let path ← if m = cur then .ok [] else s.path cur m
      let d ← s.dataCodes m a e (s.mc m).gn
      let (rest, last) ← s.emitCounted m b f (after cur path) e
      pure (codes path ++ header (s.mc m) (e - a) ++ d ++ rest, last)
    else .ok ([], cur)

/-- One run of the main loop of EMIT (R249). -/
def State.emitRun (s : State) (cur : Nat) (r : Run) : Except Err (Bits × Nat) :=
  if (s.mc r.m).hdrCount then s.emitCounted r.m r.b (r.b - r.a) cur r.a else s.emitPlain cur r

/-- The runs of EMIT in order (R249). -/
def State.emitRuns (s : State) : Nat → List Run → Except Err (Bits × Nat)
  | cur, [] => .ok ([], cur)
  | cur, r :: rs => do
    let (b, c) ← s.emitRun cur r
    let (rest, last) ← s.emitRuns c rs
    pure (b ++ rest, last)

/-- The checks of EMIT (R247), in its order. -/
def State.emitChecks (s : State) (tags : List Nat) : Except Err Unit := do
  s.checkCfg
  s.checkTags false 0 tags
  s.checkModes (List.range s.modeCount)
  s.checkAdmits 0 tags

/-- `EMIT(M)` (R246, R249): the runs, then the terminator of the mode current at the end (R266). -/
def State.emit (s : State) (tags : List Nat) : Except Err Bits := do
  s.emitChecks tags
  let (b, cur) ← s.emitRuns s.initMode (runs tags)
  pure (b ++ bitsOf (s.mc cur).termCode (s.mc cur).termBits)

/-- `COST(M)`, none where EMIT raises an error (42_segment.md R226). -/
def State.cost (s : State) (tags : List Nat) : Option Nat :=
  match s.emit tags with
  | .ok b => some b.length
  | .error _ => none

end Sys2Proof.Machine
end

