-- ==== Sys2Proof/Machine/Bitstream.lean ====
section
/-! DEFINITION. The bitstream commands (43_bitstream.md R244, R245, R268). -/

namespace Sys2Proof.Machine

/-- BS_CLEAR (R244): the stream is empty, and the buffer's bits are unspecified (R240; log 5). -/
def execBsClear (s : State) : Host.Outcome State Fault Refusal :=
  .next ({ s.forgetStreamFrom 0 with bsLen := 0 }).nextDraw.completeOk

/-- The pre-checks of BS_APPEND (R245). -/
def State.bsAppendCheck (s : State) (width : Nat) : Except Err Unit := do
  require (decide (width ≤ 32)) (mkErr .illegalOperand 3 0)
  s.checkBsLen

/-- The work of BS_APPEND (R245). -/
def State.bsAppendWork (s : State) (width : Nat) : Except Err State := do
  s.bsAppendCheck width
  let t ← s.append (bitsOf s.opaN width)
  pure (t.writeRes t.bsLen)

/-- BS_APPEND (R245). -/
def execBsAppend (width : Nat) (s : State) : Host.Outcome State Fault Refusal :=
  .next (s.finish (s.bsAppendWork width))

/-- The pre-checks of BUILD (R268). -/
def State.buildCheck (s : State) : Except Err Unit := do
  s.checkNChars
  s.checkBsLen

/-- The work of BUILD after its pre-checks (R268). -/
def State.buildWork (s : State) : Except Err State := do
  let t ← s.emit s.tags
  let u ← s.append t
  pure (u.writeResNat t.length)

/-- BUILD (R268). After its pre-checks an error leaves the non-stream bits of the buffer unspecified (R341; log 5). -/
def execBuild (s : State) : Host.Outcome State Fault Refusal :=
  match s.buildCheck with
  | .error e => .next (s.takeError e)
  | .ok _ =>
    match s.buildWork with
    | .ok t => .next t.completeOk
    | .error e => .next ((s.forgetStreamFrom s.bsLenN).nextDraw.takeError e)

end Sys2Proof.Machine
end

