-- ==== Sys2Proof/Machine/Capacity.lean ====
section
/-! DEFINITION. Stuffing, padding, fill, and the commands SELECT and SPLIT (44_capacity.md). -/

namespace Sys2Proof.Machine

/-- An output sequence under construction, LAST bit first, and its insertion count. -/
structure Out where
  rbits : Bits
  ins : Nat
deriving DecidableEq, Repr

/-- All bits of a list are equal (R281). -/
def allEqual : Bits → Bool
  | [] => true
  | b :: bs => bs.all (fun c => c == b)

/-- `STUFF_HERE(out, w)` (R281). -/
def Out.stuffHere (o : Out) (en : Bool) (w : Nat) : Bool :=
  en && decide (o.rbits.length % w = w - 1) && allEqual (o.rbits.take (w - 1))

/-- The forced bit: the complement of the last (R281). -/
def Out.stuff (o : Out) : Out := { rbits := (!o.rbits.headD false) :: o.rbits, ins := o.ins + 1 }

/-- A bit of data, pad or fill. -/
def Out.push (o : Out) (b : Bool) : Out := { o with rbits := b :: o.rbits }

/-- One position of the pad or fill stage: the forced bit where the rule holds, else the pattern's (R282, R285). -/
def Out.pushOrStuff (o : Out) (en : Bool) (w : Nat) (b : Bool) : Out :=
  if o.stuffHere en w then o.stuff else o.push b

/-- Stage 1 of STUFF_PAD (R282): before a data bit is taken, the forced bit where the rule holds. After a forced bit
a codeword is complete, and for `w >= 2` the rule cannot hold again at once; SELECT and SPLIT refuse `w = 1` with
stuffing (R292, R298). -/
def stuffData (en : Bool) (w : Nat) : Out → Bits → Out
  | o, [] => o
  | o, b :: bs =>
    let o' := if o.stuffHere en w then o.stuff else o
    stuffData en w (o'.push b) bs

/-- Stage 2 of STUFF_PAD (R282, R283), from pad index k; fewer than w positions are padded. -/
def State.padOut (s : State) (w : Nat) : Nat → Nat → Out → Out
  | 0, _, o => o
  | f + 1, k, o =>
    if o.rbits.length % w = 0 then o else s.padOut w f (k + 1) (o.pushOrStuff s.stuffEn w (s.padBit k))

/-- `STUFF_PAD(S, w)` (R282). -/
def State.stuffPad (s : State) (w : Nat) (bits : Bits) : Out :=
  s.padOut w w 0 (stuffData s.stuffEn w { rbits := [], ins := 0 } bits)

/-- Stage 3, `FILL` (R285): `f` more positions from fill index k. -/
def State.fillOut (s : State) (w : Nat) : Nat → Nat → Out → Out
  | 0, _, o => o
  | f + 1, k, o => s.fillOut w f (k + 1) (o.pushOrStuff s.stuffEn w (s.fillBit k))

/-- The data codewords of an output (R286, R290): codeword k is the value of bits `k*w .. k*w+w-1`. -/
def codewords (w : Nat) (bits : Bits) : List Nat :=
  (List.range (bits.length / w)).map (fun k => valOf ((bits.drop (k * w)).take w))

/-- A chosen size: index, width, EC codewords and output. -/
structure Choice where
  size : Word
  w : Nat
  ec : Nat
  out : Out
deriving DecidableEq, Repr

/-- The bits of a choice's output, first bit first. -/
def Choice.bits (c : Choice) : Bits := c.out.rbits.reverse

/-- The data codeword count d of a choice. -/
def Choice.count (c : Choice) : Nat := c.out.rbits.length / c.w

/-- Write a choice: the codewords and the six result registers, together (10_state.md R53; R292, R298). -/
def State.storeChoice (s : State) (c : Choice) : State :=
  let t := s.storeNats cwBase (codewords c.w c.bits)
  { t with
    selSize := c.size
    selW := BitVec.ofNat 32 c.w
    dataCw := BitVec.ofNat 32 c.count
    ecCw := BitVec.ofNat 32 c.ec
    stuffLen := BitVec.ofNat 32 c.out.rbits.length
    stuffIns := BitVec.ofNat 32 c.out.ins
    valid := { t.valid with sel := true } }

/-- VALID.SEL cleared at the start of the work (R44). -/
def State.clearSel (s : State) : State := { s with valid := { s.valid with sel := false } }

/-! ### SELECT (R288 to R292) -/

/-- The pre-checks of SELECT (R292). -/
def State.selectCheck (s : State) (minSize : Nat) : Except Err Unit := do
  require (decide (minSize < s.sizeCount.toNat)) (mkErr .illegalOperand 3 0)
  require (decide (s.sizeCount.toNat ≤ sizeMax)) (mkErr .illegalOperand 5 0x044)
  s.checkBsLen

/-- The padded output, filled to capacity when FILL_EN = 1 (R285, R292). -/
def State.filled (s : State) (w cap : Nat) (o : Out) : Out :=
  if s.fillEn then s.fillOut w (cap / w * w - o.rbits.length) 0 o else o

/-- The defect of size x (R292, R294). -/
def sizeDefect (x : Nat) : Err := mkErr .internalDefect 3 x

/-- What size x gives: none where it is absent or does not fit (R292). -/
def State.trySize (s : State) (ecc : Nat) (stream : Bits) (x : Nat) : Except Err (Option Choice) :=
  let w := s.sizeW x
  if w = 0 then .ok none
  else if w > 16 ∨ (s.stuffEn = true ∧ w = 1) then .error (sizeDefect x)
  else
    let o := s.stuffPad w stream
    let cap := s.sizeCap x ecc
    if o.rbits.length > cap then .ok none
    else
      let o' := s.filled w cap o
      let d := o'.rbits.length / w
      if d > s.sizeTotal x ∨ d > cwMax then .error (sizeDefect x)
      else .ok (some { size := BitVec.ofNat 32 x, w := w, ec := s.sizeTotal x - d, out := o' })

/-- The first size of a list that fits (R291, R292). -/
def State.scanSizes (s : State) (ecc : Nat) (stream : Bits) : List Nat → Except Err Choice
  | [] => .error (mkErr .capacityExceeded 3 s.bsLenN)
  | x :: xs =>
    match s.trySize ecc stream x with
    | .error e => .error e
    | .ok (some c) => .ok c
    | .ok none => s.scanSizes ecc stream xs

/-- The sizes SELECT considers (R292): MIN_SIZE alone when FIXED, else from MIN_SIZE upward. -/
def State.sizesTried (s : State) (fixed : Bool) (minSize : Nat) : List Nat :=
  if fixed then [minSize] else List.range' minSize (s.sizeCount.toNat - minSize)

/-- SELECT (R292). -/
def execSelect (ecc : Nat) (fixed : Bool) (minSize : Nat) (s : State) : Host.Outcome State Fault Refusal :=
  match s.selectCheck minSize with
  | .error e => .next (s.takeError e)
  | .ok _ =>
    match s.scanSizes ecc s.stream (s.sizesTried fixed minSize) with
    | .error e => .next (s.clearSel.takeError e)
    | .ok c => .next ((s.storeChoice c).writeRes c.size).completeOk

/-! ### SPLIT (R298) -/

/-- The pre-checks of SPLIT (R298). -/
def State.splitCheck (s : State) (w : Nat) : Except Err Unit := do
  require (decide (1 ≤ w ∧ w ≤ 16)) (mkErr .illegalOperand 3 0)
  require (!(s.stuffEn && decide (w = 1))) (mkErr .illegalOperand 3 0)
  s.checkBsLen

/-- What SPLIT chooses: no size, no EC codewords (R298). -/
def State.splitChoice (s : State) (w : Nat) : Choice :=
  { size := 0xFFFFFFFF#32, w := w, ec := 0, out := s.stuffPad w s.stream }

/-- SPLIT (R298). -/
def execSplit (w : Nat) (s : State) : Host.Outcome State Fault Refusal :=
  match s.splitCheck w with
  | .error e => .next (s.takeError e)
  | .ok _ =>
    let c := s.splitChoice w
    if c.count > cwMax then .next (s.clearSel.takeError (mkErr .capacityExceeded 4 c.count))
    else .next ((s.storeChoice c).writeResNat c.count).completeOk

end Sys2Proof.Machine
end

