-- ==== Sys2Proof/Machine/Control.lean ====
section
/-! DEFINITION. NOP (45_control.md R318) and the completion of an illegal word (R313). -/

namespace Sys2Proof.Machine

/-- NOP (R318): nothing but the completion. -/
def execNop (s : State) : Host.Outcome State Fault Refusal := .next s.completeOk

/-- The completion of an illegal command word (30_encoding.md R130, 45_control.md R313): ILLEGAL_COMMAND with the
whole word, and nothing else. -/
def completeIllegal (s : State) : State := s.takeError { kind := .illegalCommand, info := s.pcmd }

end Sys2Proof.Machine
end

