-- ==== Sys2Proof/Machine/Gf.lean ====
section
/-! DEFINITION. The Galois-field commands (40_gf.md). -/

namespace Sys2Proof.Machine

/-! ### GF_INIT (R151 to R154) -/

/-- One step of the antilog sequence: double, and reduce by the modulus when bit m is set (R151). -/
def antilogNext (poly m p : Nat) : Nat := if 2 * p ≥ 2 ^ m then (2 * p) ^^^ poly else 2 * p

/-- `n` terms of the antilog sequence from `p` (R151). -/
def antilogSeq (poly m : Nat) : Nat → Nat → List Nat
  | 0, _ => []
  | n + 1, p => p :: antilogSeq poly m n (antilogNext poly m p)

/-- `A[0..N-1]` of R151. -/
def antilogTable (poly m : Nat) : List Nat := antilogSeq poly m (2 ^ m - 1) 1

/-- The check of R153: constant term 1, and `{A[0], ..., A[N-1]} = {1, ..., N}`. -/
def modulusOk (poly m : Nat) : Bool :=
  let a := antilogTable poly m
  poly.testBit 0 && a.all (fun x => decide (1 ≤ x ∧ x ≤ 2 ^ m - 1))
    && (List.range (2 ^ m - 1)).all (fun x => a.contains (x + 1))

/-- The contents of `T.ALOG` (R151, R152). -/
def alogContents (poly m : Nat) : List Nat :=
  antilogTable poly m ++ List.replicate (65536 - (2 ^ m - 1)) 0

/-- The entry of `T.LOG` at x (R151, R152). -/
def logEntry (a : List Nat) (n x : Nat) : Nat :=
  if x = 0 then 0xFFFF else if x ≤ n then a.idxOf x else 0

/-- The contents of `T.LOG` (R151, R152). -/
def logContents (poly m : Nat) : List Nat :=
  (List.range 65536).map (logEntry (antilogTable poly m) (2 ^ m - 1))

/-- The operand check of GF_INIT (R151). -/
def State.gfInitCheck (s : State) : Except Err Unit :=
  require (decide (2 ≤ s.opaN ∧ s.opaN < 2 ^ (mMax + 1))) (mkErr .illegalOperand 1 0)

/-- What GF_INIT does at the start of its work (R44, R151): `m = bitlength(poly) - 1`. -/
def State.gfInitStart (s : State) : State :=
  { s with
    valid := { s.valid with gf := false, rs := false, rem := false, syn := false }
    gfPoly := s.opa
    gfM := BitVec.ofNat 32 (Nat.log2 s.opaN) }

/-- Both tables come to hold unspecified values, every entry (R151, R154). -/
def State.forgetField (s : State) : State :=
  ((s.forgetWords alogBase 65536).forgetWords logBase 65536).nextDraw

/-- GF_INIT (R151). -/
def execGfInit (s : State) : Host.Outcome State Fault Refusal :=
  match s.gfInitCheck with
  | .error e => .next (s.takeError e)
  | .ok _ =>
    let poly := s.opaN
    let m := Nat.log2 poly
    let t := s.gfInitStart
    if modulusOk poly m then
      let u := (t.storeNats alogBase (alogContents poly m)).storeNats logBase (logContents poly m)
      .next (({ u with valid := { u.valid with gf := true } }).writeResNat m).completeOk
    else .next (t.forgetField.takeError (mkErr .internalDefect 1 0))

/-! ### Field commands (R156, R157, R161 to R167) -/

/-- Pre-check of a command with two element operands (R156). -/
def State.preAB (s : State) : Except Err Unit := do
  s.needField
  s.elemA
  s.elemB

/-- Pre-check of a command with one element operand (R156). -/
def State.preA (s : State) : Except Err Unit := do
  s.needField
  s.elemA

/-- The zero check of GF_DIV, GF_INV and GF_LOG (60_exceptions.md R339). -/
def nonzero (x : Nat) : Except Err Unit := require (decide (x ≠ 0)) (mkErr .zeroDivisor 0 0)

/-- `T.ALOG[(T.LOG[a] - T.LOG[b]) mod N]`, the residue non-negative (R162). -/
def State.gfdiv (s : State) (a b : Nat) : Nat :=
  if a = 0 then 0 else s.tAlog (((s.tLog a : Int) - s.tLog b) % (s.gfN : Int)).toNat

/-- `T.ALOG[(N - T.LOG[a]) mod N]` (R163). -/
def State.gfinv (s : State) (a : Nat) : Nat :=
  s.tAlog (((s.gfN : Int) - s.tLog a) % (s.gfN : Int)).toNat

/-- `a^k` (R166). -/
def State.gfpow (s : State) (a k : Nat) : Nat :=
  if a = 0 then (if k = 0 then 1 else 0) else s.tAlog ((s.tLog a * k) % s.gfN)

/-- The work of GF_MUL (R161). -/
def State.gfMulWork (s : State) : Except Err State := do
  s.preAB
  pure (s.writeResNat (s.gfmul s.opaN s.opbN))

/-- The work of GF_DIV (R162). -/
def State.gfDivWork (s : State) : Except Err State := do
  s.preAB
  nonzero s.opbN
  pure (s.writeResNat (s.gfdiv s.opaN s.opbN))

/-- The work of GF_INV (R163). -/
def State.gfInvWork (s : State) : Except Err State := do
  s.preA
  nonzero s.opaN
  pure (s.writeResNat (s.gfinv s.opaN))

/-- The work of GF_EXP (R164). -/
def State.gfExpWork (s : State) : Except Err State := do
  s.needField
  pure (s.writeResNat (s.gfexp s.opaN))

/-- The work of GF_LOG (R165). -/
def State.gfLogWork (s : State) : Except Err State := do
  s.preA
  nonzero s.opaN
  pure (s.writeResNat (s.gflog s.opaN))

/-- The work of GF_POW (R166). -/
def State.gfPowWork (s : State) : Except Err State := do
  s.preA
  pure (s.writeResNat (s.gfpow s.opaN s.opbN))

/-- The work of GF_ADD (R167). -/
def State.gfAddWork (s : State) : Except Err State := do
  s.preAB
  pure (s.writeResNat (s.opaN ^^^ s.opbN))

/-- GF_MUL (R161). -/
def execGfMul (s : State) : Host.Outcome State Fault Refusal := .next (s.finish s.gfMulWork)
/-- GF_DIV (R162). -/
def execGfDiv (s : State) : Host.Outcome State Fault Refusal := .next (s.finish s.gfDivWork)
/-- GF_INV (R163). -/
def execGfInv (s : State) : Host.Outcome State Fault Refusal := .next (s.finish s.gfInvWork)
/-- GF_EXP (R164). -/
def execGfExp (s : State) : Host.Outcome State Fault Refusal := .next (s.finish s.gfExpWork)
/-- GF_LOG (R165). -/
def execGfLog (s : State) : Host.Outcome State Fault Refusal := .next (s.finish s.gfLogWork)
/-- GF_POW (R166). -/
def execGfPow (s : State) : Host.Outcome State Fault Refusal := .next (s.finish s.gfPowWork)
/-- GF_ADD (R167). -/
def execGfAdd (s : State) : Host.Outcome State Fault Refusal := .next (s.finish s.gfAddWork)

end Sys2Proof.Machine
end

