-- ==== Sys2Proof/Machine/Rs.lean ====
section
/-! DEFINITION. The Reed-Solomon commands (41_rs.md). -/

namespace Sys2Proof.Machine

/-! ### RS_INIT (R180, R181) -/

/-- Multiply the coefficient list `G[0..i-1]` (constant term first) by `(x + root)`: `G[k] <- gfmul(G[k], root) XOR
G[k-1]` with the old `G[k-1]` in `prev`, and the new leading coefficient `G[i] <- 1` (R180). -/
def State.mulRoot (s : State) (root prev : Nat) : List Nat → List Nat
  | [] => [1]
  | g :: gs => (s.gfmul g root ^^^ prev) :: s.mulRoot root g gs

/-- The generator's coefficients after `i` roots from `α^r0` (R180). -/
def State.genCoeffs (s : State) (r0 : Nat) : Nat → List Nat
  | 0 => [1]
  | i + 1 => s.mulRoot (s.gfexp (r0 + i)) 0 (s.genCoeffs r0 i)

/-- The pre-checks of RS_INIT (R180). -/
def State.rsInitCheck (s : State) : Except Err Unit := do
  s.needField
  require (decide (1 ≤ s.opaN ∧ s.opaN ≤ eMax)) (mkErr .illegalOperand 1 0)

/-- The work of RS_INIT (R180); `r0` is not range-checked. -/
def State.rsInitWork (s : State) : Except Err State := do
  s.rsInitCheck
  let t := s.storeNats genBase (s.genCoeffs s.opbN s.opaN)
  pure { t with
    rsE := s.opa, rsR0 := s.opb
    valid := { t.valid with rs := true, rem := false, syn := false } }

/-- RS_INIT (R180). -/
def execRsInit (s : State) : Host.Outcome State Fault Refusal := .next (s.finish s.rsInitWork)

/-! ### RS_ENCODE (R185) -/

/-- Pre-checks of RS_ENCODE and RS_SYND (R185, R191). -/
def State.rsBlockCheck (s : State) : Except Err Unit := do
  require s.valid.rs (mkErr .notReady 0 1)
  require (decide (s.opaN ≤ cwMax)) (mkErr .illegalOperand 1 0)
  require (decide (s.opbN + s.opaN ≤ cwMax)) (mkErr .illegalOperand 2 0)

/-- `T.CW[base .. base+L-1]` with `L = OPA`, `base = OPB`. -/
def State.block (s : State) : List Nat := (List.range s.opaN).map (fun i => s.tCw (s.opbN + i))

/-- Every codeword of the block is an element; the lowest failing index is reported (R185). -/
def State.checkElems (s : State) : Nat → List Nat → Except Err Unit
  | _, [] => .ok ()
  | k, c :: cs =>
    if c < s.gfSize then s.checkElems (k + 1) cs else .error (mkErr .illegalOperand 4 k)

/-- One step of the shift register (R185): feedback `fb = Q[E-1] XOR d`, then `Q[k] <- Q[k-1] XOR gfmul(fb, GEN[k])`,
with 0 for the `Q[-1]` of k = 0. -/
def State.shiftIn (s : State) (gen q : List Nat) (d : Nat) : List Nat :=
  let fb := q.getLastD 0 ^^^ d
  List.zipWith (fun prev g => prev ^^^ s.gfmul fb g) (0 :: q.dropLast) gen

/-- `T.GEN[0..E-1]`. -/
def State.genLow (s : State) : List Nat := (List.range s.ecLen).map s.tGen

/-- The EC coefficients `Q[0..E-1]` of a data block (R185). -/
def State.remainder (s : State) (data : List Nat) : List Nat :=
  data.foldl (s.shiftIn s.genLow) (List.replicate s.ecLen 0)

/-- The work of RS_ENCODE (R185). -/
def State.rsEncodeWork (s : State) : Except Err State := do
  s.rsBlockCheck
  s.checkElems s.opbN s.block
  let t := s.storeNats remBase (s.remainder s.block)
  pure { t with valid := { t.valid with rem := true } }

/-- RS_ENCODE (R185). -/
def execRsEncode (s : State) : Host.Outcome State Fault Refusal := .next (s.finish s.rsEncodeWork)

/-! ### RS_SYND (R191) -/

/-- Horner's rule, first codeword the highest degree (R191). -/
def State.horner (s : State) (z : Nat) (cs : List Nat) : Nat := cs.foldl (fun acc c => s.gfmul acc z ^^^ c) 0

/-- The syndromes `T.SYN[0..E-1]` of a block (R191, R192). -/
def State.syndromes (s : State) (cs : List Nat) : List Nat :=
  (List.range s.ecLen).map (fun j => s.horner (s.gfexp (s.firstRoot + j)) cs)

/-- The work of RS_SYND (R191). -/
def State.rsSyndWork (s : State) : Except Err State := do
  s.rsBlockCheck
  s.checkElems s.opbN s.block
  let syn := s.syndromes s.block
  let t := s.storeNats synBase syn
  pure (({ t with valid := { t.valid with syn := true } }).writeResNat (syn.countP (fun x => decide (x ≠ 0))))

/-- RS_SYND (R191). -/
def execRsSynd (s : State) : Host.Outcome State Fault Refusal := .next (s.finish s.rsSyndWork)

/-! ### RS_APPEND (R195) -/

/-- Pre-checks of RS_APPEND (R195). -/
def State.rsAppendCheck (s : State) : Except Err Unit := do
  require s.valid.rem (mkErr .notReady 0 2)
  require (decide (s.opaN ≤ cwMax)) (mkErr .illegalOperand 1 0)
  require (decide (s.opbN + s.opaN + s.ecLen ≤ cwMax)) (mkErr .illegalOperand 2 0)

/-- The EC block in the order ORD asks for (R195, R196). -/
def State.ecBlock (s : State) (ord : EcOrder) : List Nat :=
  let r := (List.range s.ecLen).map s.tRem
  match ord with
  | .reverse => r.reverse
  | .ascending => r

/-- The work of RS_APPEND (R195). -/
def State.rsAppendWork (s : State) (ord : EcOrder) : Except Err State := do
  s.rsAppendCheck
  let t := s.storeNats (cwBase + 4 * (s.opbN + s.opaN)) (s.ecBlock ord)
  pure (t.writeResNat (s.opbN + s.opaN + s.ecLen))

/-- RS_APPEND (R195). -/
def execRsAppend (ord : EcOrder) (s : State) : Host.Outcome State Fault Refusal :=
  .next (s.finish (s.rsAppendWork ord))

end Sys2Proof.Machine
end

