-- ==== Sys2Proof/Machine/Segment.lean ====
section
/-! DEFINITION. The segmentation commands (42_segment.md). -/

namespace Sys2Proof.Machine

/-- Length check, then CHECK_CFG (R212, R216). -/
def State.segCheck (s : State) : Except Err Unit := do
  s.checkNChars
  s.checkCfg

/-- `S[i] = SPEC(i)` for every position (R217, R220). -/
def State.specs (s : State) : Except Err (List (BitVec 8)) := forPositions s.spec (List.range s.n)

/-- The new tags, written to `T.MODE[0..n-1]`. -/
def State.storeTags (s : State) (tags : List Nat) : State := s.storeNats modeBase tags

/-! ### SEG_CLASSIFY (R217) -/

/-- The tag of a position: its mode when SPEC has exactly one, else UNRES (R217, R218). -/
def classTag (c : BitVec 8) : Nat :=
  match modesOf c with
  | [m] => m
  | _ => unres

/-- The work of SEG_CLASSIFY (R217). -/
def State.segClassifyWork (s : State) : Except Err State := do
  s.segCheck
  let sp ← s.specs
  let tags := sp.map classTag
  pure ((s.storeTags tags).writeResNat (tags.countP (fun t => decide (t = unres))))

/-- SEG_CLASSIFY (R217). -/
def execSegClassify (s : State) : Host.Outcome State Fault Refusal := .next (s.finish s.segClassifyWork)

/-! ### SEG_RESOLVE (R220, R221) -/

/-- The lookahead: the first resolved tag of the positions after (R220). -/
def nextResolved : List (Nat × BitVec 8) → Option Nat
  | [] => none
  | (t, _) :: rest => if t = unres then nextResolved rest else some t

/-- The mode of an unresolved position with candidates `c`, lookbehind `prev` and lookahead `nxt` (R220). -/
def State.chooseMode (s : State) (prev : Nat) (nxt : Option Nat) (c : BitVec 8) : Nat :=
  if c.getLsbD prev then prev
  else
    match nxt.filter (fun t => c.getLsbD t) with
    | some t => t
    | none =>
      let shifts := (modesOf c).filter (fun t => decide (t ≠ prev ∧ (s.trans prev t).kind = .shift))
      match shifts with
      | t :: _ => t
      | [] => (modesOf c).headD 0

/-- The tags after resolution (R220); `prev` is the mode of the position before, already resolved. -/
def State.resolve (s : State) : Nat → List (Nat × BitVec 8) → List Nat
  | _, [] => []
  | prev, (t, c) :: rest =>
    let w := if t = unres then s.chooseMode prev (nextResolved rest) c else t
    w :: s.resolve w rest

/-- The work of SEG_RESOLVE (R220). -/
def State.segResolveWork (s : State) : Except Err State := do
  s.segCheck
  s.checkTags true 0 s.tags
  let sp ← s.specs
  let tags := s.resolve s.initMode (s.tags.zip sp)
  pure ((s.storeTags tags).writeResNat (runs tags).length)

/-- SEG_RESOLVE (R220). -/
def execSegResolve (s : State) : Host.Outcome State Fault Refusal := .next (s.finish s.segResolveWork)

/-! ### SEG_GATE (R225 to R230) -/

/-- Positions `a .. b-1` of the tags set to t (R227). -/
def setRun (tags : List Nat) (r : Run) (t : Nat) : List Nat :=
  tags.take r.a ++ List.replicate (r.b - r.a) t ++ tags.drop r.b

/-- Every position of the run admits mode t (R227); an error of CAND cannot occur here. -/
def State.runAdmits (s : State) (r : Run) (t : Nat) : Bool :=
  (List.range' r.a (r.b - r.a)).all (fun p =>
    match s.cand p with
    | .ok c => c.getLsbD t
    | .error _ => false)

/-- The cost and tags of folding a run into mode t, where that is possible (R227). -/
def State.trial (s : State) (tags : List Nat) (r : Run) (t : Nat) : Option (Nat × List Nat) :=
  if t = r.m then none
  else if s.runAdmits r t then (s.cost (setRun tags r t)).map (fun c => (c, setRun tags r t))
  else none

/-- The cheapest of the trials, the earliest among equals (R227). -/
def cheapest : Option (Nat × List Nat) → List (Option (Nat × List Nat)) → Option (Nat × List Nat)
  | best, [] => best
  | best, none :: ts => cheapest best ts
  | none, some t :: ts => cheapest (some t) ts
  | some b, some t :: ts => cheapest (if t.1 < b.1 then some t else some b) ts

/-- The best fold of one run: targets previous, next, fallback, in this order (R227). -/
def State.bestFold (s : State) (tags : List Nat) (prev : Option Run) (r : Run) (next : Option Run) :
    Option (Nat × List Nat) :=
  let targets := (prev.map Run.m).toList ++ (next.map Run.m).toList ++ [s.fallback]
  cheapest none (targets.map (s.trial tags r))

/-- A run is short (R225). -/
def State.isShort (s : State) (r : Run) : Bool := decide (r.b - r.a < (s.mc r.m).minRun)

/-- The first fold, in the order of the runs, that is strictly cheaper (R227). -/
def State.firstFold (s : State) (tags : List Nat) (cost : Nat) : Option Run → List Run → Option (Nat × List Nat)
  | _, [] => none
  | prev, r :: rs =>
    if s.isShort r then
      match s.bestFold tags prev r rs.head? with
      | some (c, w) => if c < cost then some (c, w) else s.firstFold tags cost (some r) rs
      | none => s.firstFold tags cost (some r) rs
    else s.firstFold tags cost (some r) rs

/-- The gating loop (R227): the final tags and the number of folds. The first argument bounds the number of rounds;
one more than the cost is enough, because each fold lowers the cost (R228). -/
def State.gate (s : State) : Nat → List Nat → Nat → Nat → List Nat × Nat
  | 0, tags, _, folds => (tags, folds)
  | f + 1, tags, cost, folds =>
    match s.firstFold tags cost none (runs tags) with
    | some (c, w) => s.gate f w c (folds + 1)
    | none => (tags, folds)

/-- The work of SEG_GATE (R227): the checks, the cost of the initial tags, the loop. -/
def State.segGateWork (s : State) : Except Err State := do
  s.segCheck
  s.checkTags false 0 s.tags
  s.checkAdmits 0 s.tags
  let b ← s.emit s.tags
  let (tags, folds) := s.gate (b.length + 1) s.tags b.length 0
  pure ((s.storeTags tags).writeResNat folds)

/-- SEG_GATE (R227). -/
def execSegGate (s : State) : Host.Outcome State Fault Refusal := .next (s.finish s.segGateWork)

end Sys2Proof.Machine
end

