-- ==== Sys2Proof/Machine/Bus.lean ====
section
/-! DEFINITION. The host bus: the register map (10_state.md R31, R32), host reads and writes (20_memory.md R93 to
R99), what is admitted while busy and the soft reset (70_reset_and_hazards.md R372, R380). -/

namespace Sys2Proof.Machine

/-! ### The register map (R31, R54 to R56) -/

/-- The registers of one MODECFG block (R56). -/
inductive ModeReg where
  | ctl | gbits | vbase | hdrw | short | long | term
deriving DecidableEq, Repr

/-- The host-visible registers (R31). -/
inductive Reg where
  | id | ctrl | status | cmd | opa | opb | res | errInfo | valid | gfPoly | gfM | rsE | rsR0
  | nChars | modeCfg | bsLen | maxBits | sizeCount | padCfg | padPat | fillPat
  | selSize | selW | dataCw | ecCw | stuffLen | stuffIns
  | hwcfg (k : Nat)
  | mode (m : Nat) (r : ModeReg)
deriving DecidableEq, Repr

/-- Register word `k` of a MODECFG block; word 7 is a reserved address (R56, R96; log 11). -/
def modeRegOf : Nat → Option ModeReg
  | 0 => some .ctl
  | 1 => some .gbits
  | 2 => some .vbase
  | 3 => some .hdrw
  | 4 => some .short
  | 5 => some .long
  | 6 => some .term
  | _ => none

/-- The registers at word offsets 0 to 26 (R31). -/
def lowRegOf : Nat → Option Reg
  | 0 => some .id
  | 1 => some .ctrl
  | 2 => some .status
  | 3 => some .cmd
  | 4 => some .opa
  | 5 => some .opb
  | 6 => some .res
  | 7 => some .errInfo
  | 8 => some .valid
  | 9 => some .gfPoly
  | 10 => some .gfM
  | 11 => some .rsE
  | 12 => some .rsR0
  | 13 => some .nChars
  | 14 => some .modeCfg
  | 15 => some .bsLen
  | 16 => some .maxBits
  | 17 => some .sizeCount
  | 18 => some .padCfg
  | 19 => some .padPat
  | 20 => some .fillPat
  | 21 => some .selSize
  | 22 => some .selW
  | 23 => some .dataCw
  | 24 => some .ecCw
  | 25 => some .stuffLen
  | 26 => some .stuffIns
  | _ => none

/-- The register at a word-aligned byte offset of the register region (R31). -/
def regOf (a : Nat) : Option Reg :=
  if a < 0x06C then lowRegOf (a / 4)
  else if 0x0E0 ≤ a ∧ a < 0x0FC then some (.hwcfg ((a - 0x0E0) / 4))
  else if 0x100 ≤ a ∧ a < 0x200 then (modeRegOf ((a - 0x100) / 4 % 8)).map (.mode ((a - 0x100) / 0x20))
  else none

/-- What a word-aligned host address reaches (R91). -/
inductive Target where
  | reg (r : Reg)
  | mem
  | reserved
deriving DecidableEq, Repr

/-- The target of a word-aligned address (R91, R96). -/
def targetOf (a : Nat) : Target :=
  match regionOf a with
  | .regs => match regOf a with
    | some r => .reg r
    | none => .reserved
  | .reserved => .reserved
  | _ => .mem

/-- HWCFGk (R54). -/
def hwcfg : Nat → Nat
  | 0 => mMax
  | 1 => eMax
  | 2 => cwMax
  | 3 => charMaxN
  | 4 => bsMaxBits
  | 5 => sizeMax
  | _ => modeMax

/-- A register of a MODECFG block (R56). -/
def ModeRegs.get (b : ModeRegs) : ModeReg → Word
  | .ctl => b.ctl
  | .gbits => b.gbits
  | .vbase => b.vbase
  | .hdrw => b.hdrw
  | .short => b.short
  | .long => b.long
  | .term => b.term

/-- The field bits of a MODECFG register (R57 to R61). -/
def ModeReg.mask : ModeReg → Word
  | .ctl => 0x01FFFF1F#32
  | .gbits => 0x1F1F1F1F#32
  | .vbase => 0xFFFFFFFF#32
  | .hdrw => 0x00001F1F#32
  | .short => 0xFFFFFFFF#32
  | .long => 0xFFFFFFFF#32
  | .term => 0xFFFF001F#32

/-- A MODECFG register holds the field bits of a written word (R32). -/
def ModeRegs.set (b : ModeRegs) (r : ModeReg) (v : Word) : ModeRegs :=
  match r with
  | .ctl => { b with ctl := v &&& ModeReg.mask .ctl }
  | .gbits => { b with gbits := v &&& ModeReg.mask .gbits }
  | .vbase => { b with vbase := v &&& ModeReg.mask .vbase }
  | .hdrw => { b with hdrw := v &&& ModeReg.mask .hdrw }
  | .short => { b with short := v &&& ModeReg.mask .short }
  | .long => { b with long := v &&& ModeReg.mask .long }
  | .term => { b with term := v &&& ModeReg.mask .term }

/-- The held bits of CTRL: IE, STUFF_EN, FILL_EN (R41). -/
def ctrlMask : Word := 0x0000000D#32
/-- The field bits of MODE_CFG (R48). -/
def modeCfgMask : Word := 0x0000077F#32
/-- The field bits of PAD_CFG (R52). -/
def padCfgMask : Word := 0x00001F1F#32

/-- The word a register reads as (R31, R93). -/
def State.readReg (s : State) : Reg → Word
  | .id => 0x4F4B4301#32
  | .ctrl => s.ctrl
  | .status => s.statusWord
  | .cmd => 0
  | .opa => s.opa
  | .opb => s.opb
  | .res => s.res
  | .errInfo => s.errInfo
  | .valid => s.validWord
  | .gfPoly => s.gfPoly
  | .gfM => s.gfM
  | .rsE => s.rsE
  | .rsR0 => s.rsR0
  | .nChars => s.nChars
  | .modeCfg => s.modeCfg
  | .bsLen => s.bsLen
  | .maxBits => s.maxBits
  | .sizeCount => s.sizeCount
  | .padCfg => s.padCfg
  | .padPat => s.padPat
  | .fillPat => s.fillPat
  | .selSize => s.selSize
  | .selW => s.selW
  | .dataCw => s.dataCw
  | .ecCw => s.ecCw
  | .stuffLen => s.stuffLen
  | .stuffIns => s.stuffIns
  | .hwcfg k => BitVec.ofNat 32 (hwcfg k)
  | .mode m r => (s.mc m).get r

/-- Read-only registers (R98). STATUS is none of them: its W1C bits take a write. -/
def Reg.readOnly : Reg → Bool
  | .id | .res | .errInfo | .valid | .gfPoly | .gfM | .rsE | .rsR0 => true
  | .selSize | .selW | .dataCw | .ecCw | .stuffLen | .stuffIns => true
  | .hwcfg _ => true
  | .ctrl | .status | .cmd | .opa | .opb | .nChars | .modeCfg | .bsLen | .maxBits | .sizeCount => false
  | .padCfg | .padPat | .fillPat => false
  | .mode _ _ => false

/-- Read-only memories (R91, R98). -/
def memReadOnly (a : Nat) : Bool :=
  match regionOf a with
  | .rem | .gen | .syn | .alog | .log => true
  | .regs | .trans | .cls | .size | .vtab | .char | .mode | .bs | .cw | .reserved => false

/-! ### Soft reset (R372) -/

/-- No error. -/
def passes {α : Type} (r : Except Err α) : Bool :=
  match r with
  | .ok _ => true
  | .error _ => false

/-- What an abandoned BUILD would have written (R268): the bits it appends, or, when it fails after its pre-checks,
any bit at a position `>= BS_LEN` (R341). -/
def State.abandonBuild (s : State) : State :=
  match s.buildWork with
  | .ok t => s.forgetBits s.bsLenN (t.bsLenN - s.bsLenN)
  | .error _ => (s.forgetStreamFrom s.bsLenN).nextDraw

/-- What an abandoned SELECT would have written (R292): the codewords of the size it selects. -/
def State.abandonSelect (s : State) (ecc : Nat) (fixed : Bool) (minSize : Nat) : State :=
  match s.scanSizes ecc s.stream (s.sizesTried fixed minSize) with
  | .ok c => s.forgetEntries cwBase c.count
  | .error _ => s

/-- The regions the abandoned command's rule would write hold unspecified values (R372; log 12). They are the entries
that the completion of the command would have written at this state: none for a command that its checks refuse
(60_exceptions.md R341) and none for BS_CLEAR, which does not write T.BS (43_bitstream.md R244). -/
def State.abandon (s : State) (i : Instr) : State :=
  match i with
  | .nop | .gfMul | .gfDiv | .gfInv | .gfExp | .gfLog | .gfPow | .gfAdd | .bsClear => s
  | .gfInit => if passes s.gfInitCheck then s.forgetField else s
  | .rsInit => if passes s.rsInitCheck then s.forgetEntries genBase (s.opaN + 1) else s
  | .rsEncode => if passes s.rsEncodeWork then s.forgetEntries remBase s.ecLen else s
  | .rsSynd => if passes s.rsSyndWork then s.forgetEntries synBase s.ecLen else s
  | .rsAppend ord =>
    if passes (s.rsAppendWork ord) then s.forgetEntries (cwBase + 4 * (s.opbN + s.opaN)) s.ecLen else s
  | .segClassify => if passes s.segClassifyWork then s.forgetEntries modeBase s.n else s
  | .segResolve => if passes s.segResolveWork then s.forgetEntries modeBase s.n else s
  | .segGate => if passes s.segGateWork then s.forgetEntries modeBase s.n else s
  | .bsAppend width => if passes (s.bsAppendWork width) then s.forgetBits s.bsLenN width else s
  | .build => if passes s.buildCheck then s.abandonBuild else s
  | .select ecc fixed minSize => if passes (s.selectCheck minSize) then s.abandonSelect ecc fixed minSize else s
  | .split w =>
    if passes (s.splitCheck w) && decide ((s.splitChoice w).count ≤ cwMax) then
      s.forgetEntries cwBase (s.splitChoice w).count
    else s

/-- The pending command, if there is one and its word is legal, is abandoned (R372). -/
def State.abandonPending (s : State) : State :=
  if s.pending then
    match decode s.pcmd with
    | .ok i => s.abandon i
    | .error _ => s
  else s

/-- Soft reset (R371, R372): every register at its reset value, memories kept but for what an abandoned command
would have written. The host and the count of draws are no registers of OKC. -/
def State.softReset (s : State) : State :=
  let t := s.abandonPending
  { State.reset with
    mem := t.mem, draws := t.draws, hostQueue := s.hostQueue, lastRead := s.lastRead }

/-! ### Host transactions (R93 to R99, R380) -/

/-- A host write of `v` to CTRL without SRST (R41); while busy only IE takes effect (R380). -/
def State.writeCtrlFields (s : State) (v : Word) : State :=
  if s.pending then { s with ctrl := (s.ctrl &&& ~~~(1#32)) ||| (v &&& 1#32) }
  else { s with ctrl := v &&& ctrlMask }

/-- A host write of `v` to a register that takes it (R32, R94). -/
def State.writeReg (s : State) (r : Reg) (v : Word) : State :=
  match r with
  | .ctrl => if v.getLsbD 1 then s.softReset else s.writeCtrlFields v
  | .status => s.writeStatus v
  | .cmd => s.issue v
  | .opa => { s with opa := v }
  | .opb => { s with opb := v }
  | .nChars => { s with nChars := v }
  | .modeCfg => { s with modeCfg := v &&& modeCfgMask }
  | .bsLen => { s with bsLen := v }
  | .maxBits => { s with maxBits := v }
  | .sizeCount => { s with sizeCount := v }
  | .padCfg => { s with padCfg := v &&& padCfgMask }
  | .padPat => { s with padPat := v }
  | .fillPat => { s with fillPat := v }
  | .mode m r => { s with modecfg := s.modecfg.setIfInBounds m ((s.mc m).set r v) }
  | .id | .res | .errInfo | .valid | .gfPoly | .gfM | .rsE | .rsR0 => s
  | .selSize | .selW | .dataCw | .ecCw | .stuffLen | .stuffIns => s
  | .hwcfg _ => s

/-- Set the host-access flags whose condition holds (R39, R99). -/
def State.flagAccess (s : State) (aerr ovr : Bool) : State :=
  { s with status := { s.status with aerr := s.status.aerr || aerr, ovr := s.status.ovr || ovr } }

/-- Reads admitted while busy: ID, STATUS, CTRL, HWCFG0..6 (R380). -/
def readWhileBusy : Target → Bool
  | .reg .id | .reg .status | .reg .ctrl | .reg (.hwcfg _) => true
  | _ => false

/-- Writes admitted while busy: STATUS and CTRL (R380). -/
def writeWhileBusy : Target → Bool
  | .reg .status | .reg .ctrl => true
  | _ => false

/-- A misaligned address (R97). -/
def misaligned (a : Nat) : Bool := decide (a % 4 ≠ 0)

/-- A read that R96 or R97 refuses. -/
def readFault (a : Nat) : Bool := misaligned a || decide (targetOf a = .reserved)

/-- A write that R96, R97 or R98 refuses. -/
def writeFault (a : Nat) : Bool :=
  misaligned a ||
    match targetOf a with
    | .reserved => true
    | .reg r => r.readOnly
    | .mem => memReadOnly a

/-- A read that R380 refuses: a misaligned address is none of the locations it admits. -/
def State.readBusy (s : State) (a : Nat) : Bool := s.pending && (misaligned a || !readWhileBusy (targetOf a))

/-- A write that R380 refuses. -/
def State.writeBusy (s : State) (a : Nat) : Bool := s.pending && (misaligned a || !writeWhileBusy (targetOf a))

/-- `MemRead(addr, 4)` (R93): the word returned. -/
def State.busValue (s : State) (a : Nat) : Word :=
  match targetOf a with
  | .reg r => s.readReg r
  | .mem => s.load a
  | .reserved => 0

/-- `MemRead(addr, 4)` (R93, R96, R97, R99, R380): the state after, with the word returned in `lastRead`. -/
def State.busRead (s : State) (a : Nat) : State :=
  if readFault a || s.readBusy a then
    { s.flagAccess (readFault a) (s.readBusy a) with lastRead := some 0 }
  else { s with lastRead := some (s.busValue a) }

/-- `MemWrite(addr, 4, v)` (R94, R96 to R99, R380). -/
def State.busWrite (s : State) (a : Nat) (v : Word) : State :=
  if writeFault a || s.writeBusy a then s.flagAccess (writeFault a) (s.writeBusy a)
  else
    match targetOf a with
    | .reg r => s.writeReg r v
    | .mem => s.storeWords a [v]
    | .reserved => s

/-- One host transaction. -/
def State.hostTxn (s : State) : HostTxn → State
  | .read a => s.busRead a.toNat
  | .write a v => s.busWrite a.toNat v

/-- The host's next transaction `t`, leaving `rest` (R107); one less may come before a pending completion (R314). -/
def State.hostStep (s : State) (t : HostTxn) (rest : List HostTxn) : State :=
  State.hostTxn { s with hostQueue := rest, delay := s.delay - 1 } t

/-- The engine's step comes next (R310, R312, R314): a command is pending, and either its latency is over or the
host makes no further transaction (log 6). -/
def State.engineTurn (s : State) : Bool := s.pending && (decide (s.delay = 0) || s.hostQueue.isEmpty)

end Sys2Proof.Machine
end

