-- ==== Sys2Proof/Machine/Dispatch.lean ====
section
/-! DEFINITION. `exec`: the completion of each command, one arm per constructor of `Instr`. -/

namespace Sys2Proof.Machine

def exec (i : Instr) (s : State) : Host.Outcome State Fault Refusal :=
  match i with
  | .nop => Sys2Proof.Machine.execNop s
  | .gfInit => Sys2Proof.Machine.execGfInit s
  | .gfMul => Sys2Proof.Machine.execGfMul s
  | .gfDiv => Sys2Proof.Machine.execGfDiv s
  | .gfInv => Sys2Proof.Machine.execGfInv s
  | .gfExp => Sys2Proof.Machine.execGfExp s
  | .gfLog => Sys2Proof.Machine.execGfLog s
  | .gfPow => Sys2Proof.Machine.execGfPow s
  | .gfAdd => Sys2Proof.Machine.execGfAdd s
  | .rsInit => Sys2Proof.Machine.execRsInit s
  | .rsEncode => Sys2Proof.Machine.execRsEncode s
  | .rsSynd => Sys2Proof.Machine.execRsSynd s
  | .rsAppend ord => Sys2Proof.Machine.execRsAppend ord s
  | .segClassify => Sys2Proof.Machine.execSegClassify s
  | .segResolve => Sys2Proof.Machine.execSegResolve s
  | .segGate => Sys2Proof.Machine.execSegGate s
  | .bsClear => Sys2Proof.Machine.execBsClear s
  | .bsAppend width => Sys2Proof.Machine.execBsAppend width s
  | .build => Sys2Proof.Machine.execBuild s
  | .select ecc fixed minSize => Sys2Proof.Machine.execSelect ecc fixed minSize s
  | .split w => Sys2Proof.Machine.execSplit w s

end Sys2Proof.Machine
end

