-- ==== Sys2Proof/Machine/Step.lean ====
section
/-! DEFINITION. One step of OKC: an engine completion (45_control.md R312, R313) or a host transaction
(20_memory.md R107), as R310 has it; and where the host's checks place a command. -/

namespace Sys2Proof.Machine

/-- One step (R310). An idle machine whose host makes no transaction stays as it is (log 8). -/
def step (s : State) : Host.Outcome State Fault Refusal :=
  if s.engineTurn then
    match decode s.pcmd with
    | .ok i => exec i s
    | .error _ => .next (completeIllegal s)
  else
    match s.hostQueue with
    | [] => .next s
    | t :: rest => .next (s.hostStep t rest)

/-- The command word `w` issued (R311) and about to complete: the command the very next step runs. OKC fetches no
instructions (10_state.md R76); this stands for the host's write to CMD (log 7). -/
def State.withFetchWord (s : State) (nbits w : Nat) : State :=
  { s.issue (BitVec.ofNat 32 (w % 2 ^ nbits)) with delay := 0 }

end Sys2Proof.Machine
end

