-- ==== Sys2Proof/Safety.lean ====
section
/-! DEFINITION. What counts as a safe run of OKC, and the properties of a state that every step keeps: the form of
the registers, the field tables, the generator. Claims are stated in these terms. -/

namespace Sys2Proof.Safety

open Sys2Proof Sys2Proof.Machine

/-- A step that goes on: OKC has nothing that stops it (60_exceptions.md R330, R345). -/
def Goes (o : Host.Outcome State Fault Refusal) : Prop := ∃ t, o = .next t

/-- The states a run of OKC from `s` reaches. -/
inductive Reaches (s : State) : State → Prop where
  | refl : Reaches s s
  | step (t u : State) : Reaches s t → Machine.step t = .next u → Reaches s u

/-- A safe run: every state it reaches has a next state. -/
def SafeFrom (s : State) : Prop := ∀ t, Reaches s t → Goes (Machine.step t)

/-! ### Registers (10_state.md) -/

/-- The bits outside a MODECFG register's fields are 0 (R56 to R61). -/
def ModeRegsLegal (b : ModeRegs) : Prop :=
  b.ctl &&& 0x01FFFF1F#32 = b.ctl ∧ b.gbits &&& 0x1F1F1F1F#32 = b.gbits ∧ b.hdrw &&& 0x00001F1F#32 = b.hdrw
    ∧ b.term &&& 0xFFFF001F#32 = b.term

/-- The bits outside the fields of a field register read 0 (R32, R41, R48, R52). -/
def FieldsLegal (s : State) : Prop :=
  s.ctrl &&& 0x0000000D#32 = s.ctrl ∧ s.modeCfg &&& 0x0000077F#32 = s.modeCfg
    ∧ s.padCfg &&& 0x00001F1F#32 = s.padCfg ∧ ∀ m : Fin 8, ModeRegsLegal s.modecfg[m]

/-- The error registers agree: no code without ERR's command, no information without a code (R38, R43;
60_exceptions.md R331). -/
def ErrorsLegal (s : State) : Prop :=
  s.status.errCode.toNat ≤ 8 ∧ s.status.errCode ≠ 3 ∧ (s.status.err = true → s.status.errCode ≠ 0)
    ∧ (s.status.errCode = 0 → s.errInfo = 0)

/-- A pending command has no completion yet (R37, R38, R43), LAST_OP is its OPCODE (R42, R77). -/
def PendingLegal (s : State) : Prop :=
  (s.pending = true → s.status.done = false ∧ s.status.err = false ∧ s.status.errCode = 0 ∧ s.errInfo = 0)
    ∧ s.status.lastOp = s.pcmd.extractLsb' 24 8

/-- What the VALID bits promise: the chain of R44 and the ranges checked before a bit is set (40_gf.md R151,
41_rs.md R180). -/
def ValidLegal (s : State) : Prop :=
  (s.valid.rem = true → s.valid.rs = true) ∧ (s.valid.syn = true → s.valid.rs = true)
    ∧ (s.valid.rs = true → s.valid.gf = true)
    ∧ (s.valid.gf = true → 1 ≤ s.gfM.toNat ∧ s.gfM.toNat ≤ 16)
    ∧ (s.valid.rs = true → 1 ≤ s.rsE.toNat ∧ s.rsE.toNat ≤ 4096)

/-- The registers are as the rules let them be. -/
def RegistersLegal (s : State) : Prop :=
  FieldsLegal s ∧ ErrorsLegal s ∧ PendingLegal s ∧ ValidLegal s ∧ (s.status.z = true → s.res = 0)

/-! ### The field and the generator -/

/-- `A[v]` of the antilog sequence of a modulus of degree m (40_gf.md R151). -/
def antilog (poly m : Nat) : Nat → Nat
  | 0 => 1
  | v + 1 => let p := 2 * antilog poly m v; if 2 ^ m ≤ p then p ^^^ poly else p

/-- The modulus check (40_gf.md R153): constant term 1, and the sequence takes every value `1..N`. -/
def Primitive (poly m : Nat) : Prop :=
  poly % 2 = 1 ∧ ∀ x, 1 ≤ x → x ≤ 2 ^ m - 1 → ∃ v, v < 2 ^ m - 1 ∧ antilog poly m v = x

/-- T.ALOG and T.LOG describe the field of GF_POLY and GF_M (40_gf.md R150, R152), for the elements. -/
def FieldOk (s : State) : Prop :=
  1 ≤ s.gfM.toNat ∧ s.gfM.toNat ≤ 16 ∧ 2 ^ s.gfM.toNat ≤ s.gfPoly.toNat ∧ s.gfPoly.toNat < 2 ^ (s.gfM.toNat + 1)
    ∧ s.gfPoly.toNat % 2 = 1
    ∧ (∀ v, v < 2 ^ s.gfM.toNat - 1 → s.tAlog v = antilog s.gfPoly.toNat s.gfM.toNat v)
    ∧ (∀ x, 1 ≤ x → x ≤ 2 ^ s.gfM.toNat - 1 →
        s.tLog x < 2 ^ s.gfM.toNat - 1 ∧ s.tAlog (s.tLog x) = x)

/-- T.GEN holds the generator of RS_E and RS_R0 (41_rs.md R180). -/
def GeneratorOk (s : State) : Prop :=
  1 ≤ s.rsE.toNat ∧ s.rsE.toNat ≤ 4096
    ∧ ∀ k, k ≤ s.rsE.toNat → s.tGen k = (s.genCoeffs s.rsR0.toNat s.rsE.toNat).getD k 0

/-- The engine's tables are what their VALID bits say (R80; 40_gf.md R150; 41_rs.md R183). -/
def TablesValid (s : State) : Prop :=
  (s.valid.gf = true → FieldOk s) ∧ (s.valid.rs = true → s.valid.gf = true ∧ GeneratorOk s)

end Sys2Proof.Safety
end

