-- ==== Sys2Proof/Certificates/Slice0/Obligations.lean ====
section
/-! DEFINITION. The statements for the provers. Each docstring names the rule of spec/ it formalises. A command's
next state is written as an update of the state before, so that a statement is also the command's frame: what is not
named in the update is unchanged. Memory is compared byte by byte (`State.loadByte`). -/

namespace Sys2Proof.Claims

open Sys2Proof Sys2Proof.Machine

/-! ### Completion (45_control.md R312) -/

/-- The state of a command that completed with code NONE. -/
def completed (s : State) : State :=
  { s with
    status := { s.status with errCode := 0#8, err := false, done := true }
    pending := false }

/-- The same, with RES and STATUS.Z written (10_state.md R40). -/
def completedRes (s : State) (v : Word) : State :=
  completed { s with res := v, status := { s.status with z := decide (v = 0#32) } }

/-- The state of a command that completed with an error code and an error word. -/
def failed (s : State) (code : BitVec 8) (info : Word) : State :=
  { s with
    status := { s.status with errCode := code, err := true, done := true }
    errInfo := info
    pending := false }

/-! ### Memory -/

/-- Every byte outside `lo .. hi-1` reads as before. -/
def SameOutside (s t : State) (lo hi : Nat) : Prop := ∀ a, a < lo ∨ hi ≤ a → t.loadByte a = s.loadByte a

/-- A byte that the rule of a command may write: the entries the rule names, whole BS words from the one that holds
bit BS_LEN on (43_bitstream.md R241), all of T.CW for SELECT and SPLIT (44_capacity.md R292, R298). All of T.BS for
BS_CLEAR is the model's choice (log 5). -/
def Written (s : State) (i : Instr) (a : Nat) : Prop :=
  match i with
  | .nop | .gfMul | .gfDiv | .gfInv | .gfExp | .gfLog | .gfPow | .gfAdd => False
  | .gfInit => 0x40000 ≤ a ∧ a < 0xC0000
  | .rsInit => 0x28000 ≤ a ∧ a < 0x28000 + 4 * (s.opa.toNat + 1)
  | .rsEncode => 0x24000 ≤ a ∧ a < 0x24000 + 4 * s.rsE.toNat
  | .rsSynd => 0x30000 ≤ a ∧ a < 0x30000 + 4 * s.rsE.toNat
  | .rsAppend _ =>
    0x20000 + 4 * (s.opb.toNat + s.opa.toNat) ≤ a ∧ a < 0x20000 + 4 * (s.opb.toNat + s.opa.toNat + s.rsE.toNat)
  | .segClassify | .segResolve | .segGate => 0x14000 ≤ a ∧ a < 0x14000 + 4 * s.nChars.toNat
  | .bsClear => 0x18000 ≤ a ∧ a < 0x19000
  | .bsAppend _ | .build => 0x18000 + 4 * (s.bsLen.toNat / 32) ≤ a ∧ a < 0x19000
  | .select _ _ _ | .split _ => 0x20000 ≤ a ∧ a < 0x24000

/-- A byte that an abandoned command would have written (70_reset_and_hazards.md R372): one that its completion at the
same state writes. A command that completes with an error writes none, but for GF_INIT (R154) and BUILD (R341) past
their pre-checks; SELECT and SPLIT write as many codewords as they report (R292, R298); BS_CLEAR writes none (R244). -/
def WouldWrite (s : State) (i : Instr) (a : Nat) : Prop :=
  Written s i a ∧ ∃ t, exec i s = .next t ∧
    match i with
    | .gfInit => t.status.errCode ≠ 6#8
    | .bsClear => False
    | .bsAppend _ => t.status.err = false ∧ a < 0x18000 + 4 * ((t.bsLen.toNat + 31) / 32)
    | .build => t.status.errCode ≠ 6#8 ∧ (t.status.err = false → a < 0x18000 + 4 * ((t.bsLen.toNat + 31) / 32))
    | .select _ _ _ | .split _ => t.status.err = false ∧ a < 0x20000 + 4 * t.dataCw.toNat
    | _ => t.status.err = false

/-! ### Encodings (30_encoding.md) -/

/-- The reserved bits of the format of an opcode; none for an undefined opcode (R121 to R125, R128). -/
def reservedBits : Nat → Option Word
  | 0x00 | 0x01 | 0x02 | 0x03 | 0x04 | 0x05 | 0x06 | 0x07 | 0x08 => some 0x00FFFFFF#32
  | 0x10 | 0x11 | 0x12 => some 0x00FFFFFF#32
  | 0x13 => some 0x00FFFFFE#32
  | 0x20 | 0x21 | 0x22 | 0x28 => some 0x00FFFFFF#32
  | 0x29 => some 0x00FFFFC0#32
  | 0x2A => some 0x00FFFFFF#32
  | 0x30 => some 0x00E0FEFC#32
  | 0x31 => some 0x00FFFFE0#32
  | _ => none

/-- A word is illegal: its OPCODE is undefined or a reserved bit of its format is 1 (R130). -/
def Illegal (w : Word) : Prop :=
  match reservedBits (w.toNat / 2 ^ 24) with
  | none => True
  | some r => w &&& r ≠ 0#32

/-! ### The field as a quotient of polynomials (40_gf.md R152, R155) -/

/-- The polynomial over GF(2) whose coefficient bits are the bits of a number (17 bits hold every modulus). -/
noncomputable def toPoly (a : Nat) : Polynomial (ZMod 2) :=
  ∑ i ∈ Finset.range 17, if a.testBit i then Polynomial.X ^ i else 0

/-- GF(2)[x] modulo the modulus of the state. -/
abbrev FieldOf (s : State) : Type := AdjoinRoot (toPoly s.gfPoly.toNat)

/-- The element an integer stands for. -/
noncomputable def elt (s : State) (a : Nat) : FieldOf s := AdjoinRoot.mk (toPoly s.gfPoly.toNat) (toPoly a)

/-- `α`, the class of x (00_scope.md R16). -/
noncomputable def alpha (s : State) : FieldOf s := AdjoinRoot.root (toPoly s.gfPoly.toNat)

/-- The codeword polynomial of `cs`, first codeword the highest degree (00_scope.md R17). -/
noncomputable def codePoly (s : State) (cs : List Nat) : Polynomial (FieldOf s) :=
  cs.foldl (fun p c => p * Polynomial.X + Polynomial.C (elt s c)) 0

/-- `sum_k f(k) x^k` for `k < n`. -/
noncomputable def coeffPoly (s : State) (n : Nat) (f : Nat → Nat) : Polynomial (FieldOf s) :=
  ∑ k ∈ Finset.range n, Polynomial.C (elt s (f k)) * Polynomial.X ^ k

/-! ### Reed-Solomon blocks (41_rs.md R185, R191) -/

/-- The block `T.CW[OPB .. OPB+OPA-1]` lies in the buffer. -/
def BlockFits (s : State) : Prop := s.opa.toNat ≤ 4096 ∧ s.opb.toNat + s.opa.toNat ≤ 4096

/-- Every codeword of the block is an element. -/
def BlockElements (s : State) : Prop := ∀ i, i < s.opa.toNat → s.tCw (s.opb.toNat + i) < 2 ^ s.gfM.toNat

/-! ### Segmentation (42_segment.md) -/

/-- CHECK_CFG holds (R212). -/
def ConfigOk (s : State) : Prop :=
  1 ≤ s.modeCount ∧ s.modeCount ≤ 8 ∧ s.initMode < s.modeCount ∧ s.fallback < s.modeCount

/-- The mask of `CAND(i)` for a character in range (R211). -/
def candMask (s : State) (i : Nat) : BitVec 8 := s.tClass (cidx (s.char i)) &&& BitVec.ofNat 8 (2 ^ s.modeCount - 1)

/-- `SPEC(i)` for a character in range (R213). -/
def specMask (s : State) (i : Nat) : BitVec 8 :=
  if candMask s i &&& ~~~(1#8 <<< s.fallback) = 0#8 then candMask s i
  else candMask s i &&& ~~~(1#8 <<< s.fallback)

/-- Position i has candidates: CAND raises no error (R211). -/
def HasCandidates (s : State) (i : Nat) : Prop := -16 ≤ s.char i ∧ s.char i ≤ 65535 ∧ candMask s i ≠ 0#8

/-- The three segmentation commands. -/
def segCommands : List Instr := [.segClassify, .segResolve, .segGate]

/-- What SEG_RESOLVE needs to complete (R220). -/
def ResolveReady (s : State) : Prop :=
  s.nChars.toNat ≤ 4096 ∧ ConfigOk s ∧ (∀ i, i < s.nChars.toNat → HasCandidates s i)
    ∧ ∀ i, i < s.nChars.toNat → s.tMode i < s.modeCount ∨ s.tMode i = 15

/-- What SEG_GATE needs to complete (R227): the checks pass and EMIT of the tags raises no error. -/
def GateReady (s : State) (b : Bits) : Prop :=
  s.nChars.toNat ≤ 4096 ∧ ConfigOk s ∧ s.emit s.tags = .ok b

/-- The tags of positions `0 .. k-1` are modes, or UNRES where that is allowed (R214). -/
def TagsOk (s : State) (unres : Bool) (k : Nat) : Prop :=
  ∀ j, j < k → s.tMode j < s.modeCount ∨ (unres = true ∧ s.tMode j = 15)

/-- Position j is admitted by its tag's mode (R211, R227). -/
def Admitted (s : State) (j : Nat) : Prop := HasCandidates s j ∧ (candMask s j).getLsbD (s.tMode j) = true

/-- The INVALID_INPUT reasons 1 and 2 of a position (R211). -/
def CandidateError (s : State) (k : Nat) (info : Word) : Prop :=
  ((s.char k < -16 ∨ 65535 < s.char k) ∧ info = 0x01000000#32 ||| BitVec.ofNat 32 k)
    ∨ (-16 ≤ s.char k ∧ s.char k ≤ 65535 ∧ candMask s k = 0#8 ∧ info = 0x02000000#32 ||| BitVec.ofNat 32 k)

/-- The INVALID_INPUT reasons 1 to 3 of a position (R227; 43_bitstream.md R247). -/
def AdmissionError (s : State) (k : Nat) (info : Word) : Prop :=
  CandidateError s k info
    ∨ (HasCandidates s k ∧ (candMask s k).getLsbD (s.tMode k) = false ∧ info = 0x03000000#32 ||| BitVec.ofNat 32 k)

/-! ### Emission (43_bitstream.md) -/

/-- The terminator of a mode (R266). -/
def terminator (s : State) (m : Nat) : Bits := bitsOf ((s.mc m).termCode : Int) (s.mc m).termBits

/-- The code of a hop (R253). -/
def hopCode (h : Hop) : Bits := bitsOf (h.code : Int) h.nbits

/-- The mode codes of a path, in order (R250, R253). -/
def pathCode (p : List Hop) : Bits := p.flatMap hopCode

/-- The mode after a path whose last hop is h (R254). -/
def modeAfter (h : Hop) : Nat := if h.kind = .latch then h.dst else h.src

/-- `P(x, y, depth)` of R252 returns the path. -/
inductive Resolves (s : State) : Nat → Nat → Nat → List Hop → Prop where
  /-- a LATCH or SHIFT entry is a path of one hop -/
  | direct (d x y : Nat) : d < 4 → (s.trans x y).nbits ≤ 16 →
      (s.trans x y).kind = .latch ∨ (s.trans x y).kind = .shift →
      Resolves s d x y [⟨x, y, (s.trans x y).kind, (s.trans x y).nbits, (s.trans x y).code⟩]
  /-- a VIA entry is the path to the intermediate mode and the path from it -/
  | via (d x y : Nat) (p q : List Hop) : d < 4 → (s.trans x y).nbits ≤ 16 → (s.trans x y).kind = .via →
      (s.trans x y).via ≠ x → (s.trans x y).via ≠ y → (s.trans x y).via < s.modeCount →
      Resolves s (d + 1) x (s.trans x y).via p → Resolves s (d + 1) (s.trans x y).via y q →
      (p ++ q).length ≤ 8 → (∀ h ∈ (p ++ q).dropLast, h.kind = .latch) →
      Resolves s d x y (p ++ q)

/-- The count header of k characters (R260). -/
def countHeader (r : ModeRegs) (k : Nat) : Bits :=
  if k ≤ r.shortMax then bitsOf ((k : Int) - (r.shortBias : Int)) r.shortBits
  else bitsOf (r.esc : Int) r.shortBits ++ bitsOf ((k : Int) - (r.longBias : Int)) r.longBits

/-- CHECK_MODE passes (R248). -/
def ModeOk (r : ModeRegs) : Prop :=
  1 ≤ r.gn ∧ r.gn ≤ 4 ∧ r.vsrc ≤ 1 ∧ (∀ k, k < r.gn → r.gb (k + 1) ≤ 16) ∧ r.termBits ≤ 16
    ∧ (r.hdrCount = true → r.shortBits ≤ 16 ∧ r.longBits ≤ 16 ∧ 1 ≤ r.chunkMax)

/-- Positions of a plain run of mode m entered by a SHIFT (R250, R256): from the current mode, the bits of the
positions in order, and the mode after. -/
inductive Shifted (s : State) (m : Nat) : Nat → List Nat → Bits → Nat → Prop where
  | done (cur : Nat) : Shifted s m cur [] [] cur
  | next (cur p last : Nat) (ps : List Nat) (q : List Hop) (h : Hop) (d rest : Bits) :
      s.path cur m = .ok (q ++ [h]) → s.dataCodes m p (p + 1) 1 = .ok d → Shifted s m (modeAfter h) ps rest last →
      Shifted s m cur (p :: ps) (pathCode (q ++ [h]) ++ d ++ rest) last

/-- Positions `a .. b-1` of a counted run of mode m (R257): from the current mode, the bits of the chunks in order, and
the mode after. -/
inductive Chunks (s : State) (m b : Nat) : Nat → Nat → Bits → Nat → Prop where
  | done (cur a : Nat) : b ≤ a → Chunks s m b cur a [] cur
  | stay (a e last : Nat) (d rest : Bits) : a < b → e = min (a + (s.mc m).chunkMax) b →
      s.dataCodes m a e (s.mc m).gn = .ok d → Chunks s m b m e rest last →
      Chunks s m b m a (countHeader (s.mc m) (e - a) ++ d ++ rest) last
  | enter (cur a e last : Nat) (q : List Hop) (h : Hop) (d rest : Bits) : a < b → m ≠ cur →
      e = min (a + (s.mc m).chunkMax) b → s.path cur m = .ok (q ++ [h]) →
      s.dataCodes m a e (s.mc m).gn = .ok d → Chunks s m b (modeAfter h) e rest last →
      Chunks s m b cur a (pathCode (q ++ [h]) ++ countHeader (s.mc m) (e - a) ++ d ++ rest) last

/-- One run (R249, R250, R257): from the current mode, its bits, and the mode after. -/
inductive RunEmitted (s : State) : Nat → Run → Bits → Nat → Prop where
  | stay (r : Run) (d : Bits) : (s.mc r.m).hdrCount = false → s.dataCodes r.m r.a r.b (s.mc r.m).gn = .ok d →
      RunEmitted s r.m r d r.m
  | latch (cur : Nat) (r : Run) (q : List Hop) (h : Hop) (d : Bits) : (s.mc r.m).hdrCount = false → r.m ≠ cur →
      s.path cur r.m = .ok (q ++ [h]) → h.kind = .latch → s.dataCodes r.m r.a r.b (s.mc r.m).gn = .ok d →
      RunEmitted s cur r (pathCode (q ++ [h]) ++ d) r.m
  | shift (cur last : Nat) (r : Run) (q : List Hop) (h : Hop) (b : Bits) : (s.mc r.m).hdrCount = false → r.m ≠ cur →
      s.path cur r.m = .ok (q ++ [h]) → h.kind = .shift →
      Shifted s r.m cur (List.range' r.a (r.b - r.a)) b last → RunEmitted s cur r b last
  | counted (cur last : Nat) (r : Run) (b : Bits) : (s.mc r.m).hdrCount = true →
      Chunks s r.m r.b cur r.a b last → RunEmitted s cur r b last

/-- The runs of R249 in order: from the current mode, their bits, and the mode after. -/
inductive RunsEmitted (s : State) : Nat → List Run → Bits → Nat → Prop where
  | done (cur : Nat) : RunsEmitted s cur [] [] cur
  | next (cur mid last : Nat) (r : Run) (rs : List Run) (b rest : Bits) : RunEmitted s cur r b mid →
      RunsEmitted s mid rs rest last → RunsEmitted s cur (r :: rs) (b ++ rest) last

/-- A run is short (42_segment.md R225). -/
def Short (s : State) (r : Run) : Prop := r.b - r.a < (s.mc r.m).minRun

/-- The fold targets of run j, in the order of 42_segment.md R227: the modes of the run before and of the run after,
where there is one, then FALLBACK. -/
def foldTargets (s : State) (rs : List Run) (j : Nat) : List Nat :=
  (if j = 0 then [] else (rs[j - 1]?.map Run.m).toList) ++ (rs[j + 1]?.map Run.m).toList ++ [s.fallback]

/-- The tags with the positions of run r set to t (42_segment.md R227). -/
def foldedTags (tags : List Nat) (r : Run) (t : Nat) : List Nat :=
  (List.range tags.length).map (fun p => if r.a ≤ p ∧ p < r.b then t else tags.getD p 0)

/-- Folding run r into mode t is a trial whose stream is c: t is another mode, admitted at every position of the run,
and EMIT of the folded tags raises no error (42_segment.md R226, R227). -/
def Trial (s : State) (tags : List Nat) (r : Run) (t : Nat) (c : Bits) : Prop :=
  t ≠ r.m ∧ (∀ p, r.a ≤ p → p < r.b → (candMask s p).getLsbD t = true) ∧ s.emit (foldedTags tags r t) = .ok c

/-- Run j is short and has a trial that is strictly cheaper than the tags as they are (42_segment.md R227). -/
def Improvable (s : State) (tags : List Nat) (j : Nat) : Prop :=
  ∃ (r : Run) (t : Nat) (b c : Bits), (runs tags)[j]? = some r ∧ Short s r ∧ t ∈ foldTargets s (runs tags) j ∧ s.emit tags = .ok b
    ∧ Trial s tags r t c ∧ c.length < b.length

/-- One committed fold (42_segment.md R227): of the first run that is improvable, into the target of its cheapest
trial, the earliest of equals; it is strictly cheaper. -/
def Fold (s : State) (tags new : List Nat) : Prop :=
  ∃ (j : Nat) (r : Run) (k t : Nat) (b c : Bits), (runs tags)[j]? = some r ∧ Short s r ∧ (∀ i, i < j → ¬ Improvable s tags i)
    ∧ (foldTargets s (runs tags) j)[k]? = some t ∧ s.emit tags = .ok b ∧ Trial s tags r t c ∧ c.length < b.length
    ∧ (∀ l u d, (foldTargets s (runs tags) j)[l]? = some u → Trial s tags r u d →
        c.length ≤ d.length ∧ (l < k → c.length < d.length))
    ∧ new = foldedTags tags r t

/-- The given number of folds leads from tags to tags (42_segment.md R227). -/
inductive Folds (s : State) : List Nat → Nat → List Nat → Prop where
  | none (tags : List Nat) : Folds s tags 0 tags
  | next (tags mid last : List Nat) (n : Nat) : Fold s tags mid → Folds s mid n last → Folds s tags (n + 1) last

/-- The first failing check of EMIT on the tags (R247), with its code and ERRINFO. -/
def CheckError (s : State) (code : BitVec 8) (info : Word) : Prop :=
  (¬ ConfigOk s ∧ code = 4#8 ∧ info = 0x050000FF#32)
    ∨ (ConfigOk s ∧ ∃ k, k < s.nChars.toNat ∧ TagsOk s false k ∧ s.modeCount ≤ s.tMode k ∧ code = 4#8
        ∧ info = 0x04000000#32 ||| BitVec.ofNat 32 k)
    ∨ (ConfigOk s ∧ TagsOk s false s.nChars.toNat ∧ ∃ m, m < s.modeCount ∧ (∀ j, j < m → ModeOk (s.mc j))
        ∧ ¬ ModeOk (s.mc m) ∧ code = 4#8 ∧ info = 0x05000000#32 ||| BitVec.ofNat 32 m)
    ∨ (ConfigOk s ∧ TagsOk s false s.nChars.toNat ∧ (∀ m, m < s.modeCount → ModeOk (s.mc m))
        ∧ ∃ k, k < s.nChars.toNat ∧ (∀ j, j < k → Admitted s j) ∧ code = 1#8 ∧ AdmissionError s k info)

/-- The checks of EMIT on the tags pass (R247). -/
def ChecksPass (s : State) : Prop :=
  ConfigOk s ∧ TagsOk s false s.nChars.toNat ∧ (∀ m, m < s.modeCount → ModeOk (s.mc m))
    ∧ ∀ j, j < s.nChars.toNat → Admitted s j

/-- The first error of the emission itself (R247, R252, R258): the runs before r are emitted and leave the mode cur;
then r has no path, or it has one (or needs none) and position p is its first without a value. -/
def EmissionError (s : State) (code : BitVec 8) (info : Word) : Prop :=
  ChecksPass s ∧ ∃ done r rest b cur, runs s.tags = done ++ r :: rest ∧ RunsEmitted s s.initMode done b cur
    ∧ ((r.m ≠ cur ∧ (∀ q, ¬ Resolves s 0 cur r.m q) ∧ code = 4#8
          ∧ info = 0x02000000#32 ||| BitVec.ofNat 32 (8 * cur + r.m))
      ∨ ((r.m = cur ∨ ∃ q, s.path cur r.m = .ok q) ∧ code = 1#8
          ∧ ∃ p, r.a ≤ p ∧ p < r.b ∧ (∀ j, r.a ≤ j → j < p → ∃ v, s.value r.m j = .ok v)
            ∧ (∃ e, s.value r.m p = .error e) ∧ info = 0x04000000#32 ||| BitVec.ofNat 32 p))

/-! ### Capacity (44_capacity.md) -/

/-- The stuffed and padded stream at width w (R282). -/
def padded (s : State) (w : Nat) : Out := s.stuffPad w s.stream

/-- Size x has a legal width (R292). -/
def WidthOk (s : State) (x : Nat) : Prop :=
  1 ≤ s.sizeW x ∧ s.sizeW x ≤ 16 ∧ ¬ (s.ctrl.getLsbD 2 = true ∧ s.sizeW x = 1)

/-- Size x fits at a level (R289). -/
def Fits (s : State) (ecc x : Nat) : Prop := (padded s (s.sizeW x)).rbits.length ≤ s.sizeCap x ecc

/-- SELECT goes past size x: it is absent, or legal and too small (R292). -/
def Skipped (s : State) (ecc x : Nat) : Prop := s.sizeW x = 0 ∨ (WidthOk s x ∧ ¬ Fits s ecc x)

/-- The output SELECT writes for size x: filled to capacity when FILL_EN = 1 (R285, R292). -/
def chosen (s : State) (ecc x : Nat) : Out :=
  if s.ctrl.getLsbD 3 = true then
    s.fillOut (s.sizeW x) (s.sizeCap x ecc / s.sizeW x * s.sizeW x - (padded s (s.sizeW x)).rbits.length) 0
      (padded s (s.sizeW x))
  else padded s (s.sizeW x)

/-- Output bit j is forced by the stuffing rule (R281): STUFF_EN = 1, j is the last bit of its codeword, and the w - 1
bits before it are equal. -/
def forcedAt (s : State) (w : Nat) (b : Bits) (j : Nat) : Bool :=
  s.ctrl.getLsbD 2 && decide (j % w = w - 1)
    && (List.range (w - 1)).all (fun i => b.getD (j - 1 - i) false == b.getD (j - 1) false)

/-- An output of width w and its insertion count (R282 to R285): a data stage up to `l1`, a pad stage up to `l2` and a
fill stage. -/
structure StuffedOutput (s : State) (w : Nat) (b : Bits) (ins l1 l2 : Nat) : Prop where
  /-- the stages, in order -/
  order : l1 ≤ l2 ∧ l2 ≤ b.length
  /-- the data stage ends with a data bit -/
  data_end : l1 = 0 ∨ forcedAt s w b (l1 - 1) = false
  /-- the data bits survive: those of the data stage that are not forced are the stream, in order -/
  data : ((List.range l1).filter (fun j => !forcedAt s w b j)).map (fun j => b.getD j false) = s.stream
  /-- a forced bit is the complement of the bit before it -/
  forced : ∀ j, j < b.length → forcedAt s w b j = true → b.getD j false = !b.getD (j - 1) false
  /-- a pad bit is the pad pattern's; its index advances at forced bits too -/
  pad : ∀ j, l1 ≤ j → j < l2 → forcedAt s w b j = false →
    b.getD j false = s.padPat.getLsbD (s.padLen - 1 - (j - l1) % s.padLen)
  /-- a fill bit is the fill pattern's; its index advances at forced bits too -/
  fill : ∀ j, l2 ≤ j → j < b.length → forcedAt s w b j = false →
    b.getD j false = s.fillPat.getLsbD (s.fillLen - 1 - (j - l2) % s.fillLen)
  /-- the pad reaches the next codeword boundary -/
  grid : l2 % w = 0 ∧ l2 < l1 + w
  /-- the insertion count is that of the forced bits (R284) -/
  count : ins = ((List.range b.length).filter (forcedAt s w b)).length
  /-- the length is that of the stream, the insertions, and the pad and fill bits (R284) -/
  length : b.length = s.bsLen.toNat + ins
    + ((List.range b.length).filter (fun j => decide (l1 ≤ j) && !forcedAt s w b j)).length

/-- The pre-checks of SELECT pass (R292). -/
def SelectReady (s : State) (minSize : Nat) : Prop :=
  minSize < s.sizeCount.toNat ∧ s.sizeCount.toNat ≤ 32 ∧ s.bsLen.toNat ≤ 32768

/-- SELECT considers size x (R292). -/
def Considered (s : State) (fixed : Bool) (minSize x : Nat) : Prop :=
  minSize ≤ x ∧ x < s.sizeCount.toNat ∧ (fixed = true → x = minSize)

/-! ### The bus (20_memory.md, 10_state.md R31) -/

/-- The reset value of every mapped register offset (10_state.md R31, R54 to R56). -/
def resetTable : List (Nat × Word) :=
  [(0x000, 0x4F4B4301#32), (0x004, 0), (0x008, 0), (0x00C, 0), (0x010, 0), (0x014, 0), (0x018, 0), (0x01C, 0),
    (0x020, 0), (0x024, 0), (0x028, 0), (0x02C, 0), (0x030, 0), (0x034, 0), (0x038, 0), (0x03C, 0),
    (0x040, 0x00008000#32), (0x044, 0), (0x048, 0), (0x04C, 1#32), (0x050, 0), (0x054, 0), (0x058, 0), (0x05C, 0),
    (0x060, 0), (0x064, 0), (0x068, 0), (0x0E0, 16#32), (0x0E4, 4096#32), (0x0E8, 4096#32), (0x0EC, 4096#32),
    (0x0F0, 32768#32), (0x0F4, 32#32), (0x0F8, 8#32)]

/-- The constants: ID and HWCFG0 to HWCFG6 (10_state.md R54, R55). -/
def constantTable : List (Nat × Word) :=
  [(0x000, 0x4F4B4301#32), (0x0E0, 16#32), (0x0E4, 4096#32), (0x0E8, 4096#32), (0x0EC, 4096#32),
    (0x0F0, 32768#32), (0x0F4, 32#32), (0x0F8, 8#32)]

/-- The offsets and field masks of the registers a host write stores in, CTRL, STATUS and CMD apart (R31 to R33, R47
to R52, R56 to R61). -/
def storedRegister (off : Nat) : Option Word :=
  if off = 0x010 ∨ off = 0x014 ∨ off = 0x034 ∨ off = 0x03C ∨ off = 0x040 ∨ off = 0x044 ∨ off = 0x04C ∨ off = 0x050
  then some 0xFFFFFFFF#32
  else if off = 0x038 then some 0x0000077F#32
  else if off = 0x048 then some 0x00001F1F#32
  else if 0x100 ≤ off ∧ off < 0x200 ∧ off % 4 = 0 then
    match off / 4 % 8 with
    | 0 => some 0x01FFFF1F#32
    | 1 => some 0x1F1F1F1F#32
    | 2 => some 0xFFFFFFFF#32
    | 3 => some 0x00001F1F#32
    | 4 => some 0xFFFFFFFF#32
    | 5 => some 0xFFFFFFFF#32
    | 6 => some 0xFFFF001F#32
    | _ => none
  else none

/-- A word address of a memory the host may write, with the field mask of its entry (20_memory.md R91, 10_state.md
R62 to R69); words 6 and 7 of a SIZE entry are left out (log 10). -/
def storedMemory (a : Nat) : Option Word :=
  if a % 4 ≠ 0 then none
  else if 0x01000 ≤ a ∧ a < 0x01100 then some 0xFFFF1F73#32
  else if 0x02000 ≤ a ∧ a ≤ 0x02440 then some 0x000000FF#32
  else if 0x03000 ≤ a ∧ a < 0x03400 then
    (if a / 4 % 8 = 0 then some 0x0000001F#32 else if a / 4 % 8 ≤ 5 then some 0x0000FFFF#32 else none)
  else if 0x04000 ≤ a ∧ a < 0x08000 then (if a % 0x800 ≤ 4 * 272 then some 0x0000FFFF#32 else none)
  else if 0x10000 ≤ a ∧ a < 0x14000 then some 0xFFFFFFFF#32
  else if 0x14000 ≤ a ∧ a < 0x18000 then some 0x0000000F#32
  else if 0x18000 ≤ a ∧ a < 0x19000 then some 0xFFFFFFFF#32
  else if 0x20000 ≤ a ∧ a < 0x24000 then some 0x0000FFFF#32
  else none

/-- A word address of a read-only register or memory (20_memory.md R91, R98). -/
def ReadOnlyAddress (a : Nat) : Prop :=
  a % 4 = 0 ∧
    (a = 0x000 ∨ (0x018 ≤ a ∧ a ≤ 0x030) ∨ (0x054 ≤ a ∧ a ≤ 0x068) ∨ (0x0E0 ≤ a ∧ a ≤ 0x0F8)
      ∨ (0x24000 ≤ a ∧ a < 0x28000) ∨ (0x28000 ≤ a ∧ a ≤ 0x2C000) ∨ (0x30000 ≤ a ∧ a < 0x34000)
      ∨ (0x40000 ≤ a ∧ a < 0xC0000))

/-- A reserved word address of the map, but for word 7 of a MODECFG block (log 11) and words 6 and 7 of a SIZE entry
(log 10) (20_memory.md R91, 10_state.md R31). -/
def ReservedAddress (a : Nat) : Prop :=
  a % 4 = 0 ∧ a < 0x100000 ∧
    ((0x06C ≤ a ∧ a < 0x0E0) ∨ a = 0x0FC ∨ (0x200 ≤ a ∧ a < 0x1000) ∨ (0x01100 ≤ a ∧ a < 0x02000)
      ∨ (0x02444 ≤ a ∧ a < 0x03000) ∨ (0x03400 ≤ a ∧ a < 0x04000)
      ∨ (0x04000 ≤ a ∧ a < 0x08000 ∧ 4 * 273 ≤ a % 0x800) ∨ (0x08000 ≤ a ∧ a < 0x10000)
      ∨ (0x19000 ≤ a ∧ a < 0x20000) ∨ (0x2C004 ≤ a ∧ a < 0x30000) ∨ (0x34000 ≤ a ∧ a < 0x40000)
      ∨ 0xC0000 ≤ a)

/-- What each register offset reads as: CMD 0, the constants, the held word of the others; STATUS, VALID and the
MODECFG blocks apart (10_state.md R31, R54, R55). -/
def registerTable (s : State) : List (Nat × Word) :=
  constantTable ++
    [(0x004, s.ctrl), (0x00C, 0), (0x010, s.opa), (0x014, s.opb), (0x018, s.res), (0x01C, s.errInfo),
      (0x024, s.gfPoly), (0x028, s.gfM), (0x02C, s.rsE), (0x030, s.rsR0), (0x034, s.nChars), (0x038, s.modeCfg),
      (0x03C, s.bsLen), (0x040, s.maxBits), (0x044, s.sizeCount), (0x048, s.padCfg), (0x04C, s.padPat),
      (0x050, s.fillPat), (0x054, s.selSize), (0x058, s.selW), (0x05C, s.dataCw), (0x060, s.ecCw),
      (0x064, s.stuffLen), (0x068, s.stuffIns)]

/-- The registers of a MODECFG block by offset (10_state.md R56). -/
def modeTable (r : ModeRegs) : List (Nat × Word) :=
  [(0x00, r.ctl), (0x04, r.gbits), (0x08, r.vbase), (0x0C, r.hdrw), (0x10, r.short), (0x14, r.long), (0x18, r.term)]

/-- The bits of the STATUS word (10_state.md R35). -/
def StatusWord (s : State) (v : Word) : Prop :=
  v.getLsbD 0 = s.pending ∧ v.getLsbD 1 = s.status.done ∧ v.getLsbD 2 = s.status.err ∧ v.getLsbD 3 = s.status.ovr
    ∧ v.getLsbD 4 = s.status.aerr ∧ v.getLsbD 5 = s.status.z ∧ v.extractLsb' 6 2 = 0#2
    ∧ v.extractLsb' 8 8 = s.status.errCode ∧ v.extractLsb' 16 8 = s.status.lastOp ∧ v.extractLsb' 24 8 = 0#8

/-- The bits of the VALID word (10_state.md R44). -/
def ValidWord (s : State) (v : Word) : Prop :=
  v.getLsbD 0 = s.valid.gf ∧ v.getLsbD 1 = s.valid.rs ∧ v.getLsbD 2 = s.valid.rem ∧ v.getLsbD 3 = s.valid.syn
    ∧ v.getLsbD 4 = s.valid.sel ∧ v.extractLsb' 5 27 = 0#27

/-- A host read at `a` returns v and changes nothing else (20_memory.md R93; lastRead is the model's own, log 9). -/
def ReadsAs (s : State) (a : Nat) (v : Word) : Prop := s.busRead a = { s with lastRead := some v }

/-- What host reads of the registers return. -/
def RegisterReads (s : State) : Prop :=
  (∀ p ∈ registerTable s, ReadsAs s p.1 p.2)
    ∧ (∃ v, ReadsAs s 0x008 v ∧ StatusWord s v) ∧ (∃ v, ReadsAs s 0x020 v ∧ ValidWord s v)
    ∧ ∀ m : Fin 8, ∀ p ∈ modeTable s.modecfg[m], ReadsAs s (0x100 + 0x20 * m.val + p.1) p.2

/-- The four bytes of a word, lane 0 the least significant (20_memory.md R101; the lanes' addresses are log 1's). -/
def wordBytes (s : State) (a : Nat) : Word :=
  s.loadByte (a + 3) ++ s.loadByte (a + 2) ++ s.loadByte (a + 1) ++ s.loadByte a

/-- What host reads of the memories return: the field bits of the word's bytes, and so the entries by which the
commands name them (10_state.md R62 to R74). -/
def MemoryReads (s : State) : Prop :=
  (∀ a mask, storedMemory a = some mask → ReadsAs s a (wordBytes s a &&& mask))
    ∧ (∀ a, ReadOnlyAddress a → 0x1000 ≤ a → ReadsAs s a (wordBytes s a &&& 0xFFFF#32))
    ∧ (∀ k, k < 4096 → ReadsAs s (0x10000 + 4 * k) (BitVec.ofInt 32 (s.char k))
        ∧ ReadsAs s (0x14000 + 4 * k) (BitVec.ofNat 32 (s.tMode k))
        ∧ ReadsAs s (0x20000 + 4 * k) (BitVec.ofNat 32 (s.tCw k))
        ∧ ReadsAs s (0x24000 + 4 * k) (BitVec.ofNat 32 (s.tRem k))
        ∧ ReadsAs s (0x30000 + 4 * k) (BitVec.ofNat 32 (s.tSyn k)))
    ∧ (∀ k, k < 4097 → ReadsAs s (0x28000 + 4 * k) (BitVec.ofNat 32 (s.tGen k)))
    ∧ (∀ k, k < 65536 → ReadsAs s (0x40000 + 4 * k) (BitVec.ofNat 32 (s.tAlog k))
        ∧ ReadsAs s (0x80000 + 4 * k) (BitVec.ofNat 32 (s.tLog k)))
    ∧ (∀ x, x < 273 → ReadsAs s (0x02000 + 4 * x) ((s.tClass x).zeroExtend 32)
        ∧ ∀ m, m < 8 → ReadsAs s (0x04000 + 0x800 * m + 4 * x) (BitVec.ofNat 32 (s.tVtab m x)))
    ∧ (∀ x, x < 32 → ReadsAs s (0x03000 + 0x20 * x) (BitVec.ofNat 32 (s.sizeW x))
        ∧ ReadsAs s (0x03000 + 0x20 * x + 4) (BitVec.ofNat 32 (s.sizeTotal x))
        ∧ ∀ ecc, ecc < 4 → ReadsAs s (0x03000 + 0x20 * x + 8 + 4 * ecc) (BitVec.ofNat 32 (s.sizeCap x ecc)))
    ∧ (∀ j, j < 1024 → ∃ v, ReadsAs s (0x18000 + 4 * j) v
        ∧ ∀ i, i < 32 → s.streamBit (32 * j + i) = v.getLsbD (31 - i))
    ∧ ∀ a b, a < 8 → b < 8 → ∃ v, ReadsAs s (0x01000 + 4 * (8 * a + b)) v
        ∧ ((s.trans a b).kind = .latch ↔ v.extractLsb' 0 2 = 1#2) ∧ ((s.trans a b).kind = .shift ↔ v.extractLsb' 0 2 = 2#2)
        ∧ ((s.trans a b).kind = .via ↔ v.extractLsb' 0 2 = 3#2) ∧ (s.trans a b).via = (v.extractLsb' 4 3).toNat
        ∧ (s.trans a b).nbits = (v.extractLsb' 8 5).toNat ∧ (s.trans a b).code = (v.extractLsb' 16 16).toNat

/-- The reads R380 admits while busy. -/
def ReadAdmitted (a : Nat) : Prop :=
  a = 0x000 ∨ a = 0x004 ∨ a = 0x008 ∨ (0x0E0 ≤ a ∧ a ≤ 0x0F8 ∧ a % 4 = 0)

/-- A host access with the flags it sets (20_memory.md R99). -/
def flagged (s : State) (aerr ovr : Bool) : State :=
  { s with status := { s.status with aerr := s.status.aerr || aerr, ovr := s.status.ovr || ovr } }

/-- Which commands can complete with an error code (60_exceptions.md R331). -/
def RaisedBy (code : BitVec 8) (i : Instr) : Prop :=
  match i with
  | .nop | .bsClear => False
  | .gfInit => code = 4#8 ∨ code = 6#8
  | .gfMul | .gfPow | .gfAdd | .gfExp | .rsInit | .rsEncode | .rsSynd | .rsAppend _ => code = 6#8 ∨ code = 7#8
  | .gfDiv | .gfInv | .gfLog => code = 6#8 ∨ code = 7#8 ∨ code = 8#8
  | .segClassify | .segResolve | .segGate => code = 1#8 ∨ code = 4#8 ∨ code = 6#8
  | .bsAppend _ | .split _ => code = 2#8 ∨ code = 6#8
  | .build => code = 1#8 ∨ code = 2#8 ∨ code = 4#8 ∨ code = 6#8
  | .select _ _ _ => code = 2#8 ∨ code = 4#8 ∨ code = 6#8

end Sys2Proof.Claims

open Sys2Proof Sys2Proof.Machine Sys2Proof.Safety Sys2Proof.Claims

/-! ### Encoding -/

/-- R136: the spec's example words. -/
def Obligations.EncodingExamples : Prop :=
  decode 0x00000000#32 = .ok .nop ∧ decode 0x01000000#32 = .ok .gfInit ∧ decode 0x02000000#32 = .ok .gfMul
    ∧ decode 0x10000000#32 = .ok .rsInit ∧ decode 0x11000000#32 = .ok .rsEncode
    ∧ decode 0x13000000#32 = .ok (.rsAppend .reverse) ∧ decode 0x13000001#32 = .ok (.rsAppend .ascending)
    ∧ decode 0x29000005#32 = .ok (.bsAppend 5) ∧ decode 0x2A000000#32 = .ok .build
    ∧ decode 0x30000001#32 = .ok (.select 1 false 0) ∧ decode 0x30040103#32 = .ok (.select 3 true 4)
    ∧ decode 0x31000006#32 = .ok (.split 6) ∧ decode 0x01000001#32 = .error .reservedBit

/-- R120 to R128: every command is read back from its own word, with every field value the encoding admits. -/
def Obligations.DecodeOfEncode : Prop := ∀ i : Instr, i.wf = true → decode (encode i) = .ok i

/-- R120 to R130: a word decodes to a command exactly when its OPCODE is defined and every reserved bit of its format
is 0; the word is then the encoding of the command, which is well-formed. -/
def Obligations.LegalWords : Prop :=
  ∀ v : Word, ((∃ i, decode v = .ok i) ↔ ¬ Illegal v) ∧ ∀ i, decode v = .ok i → encode i = v ∧ i.wf = true

/-! ### Steps -/

/-- R310, R312, R313, R107: a step is the pending command's when it is the engine's turn, else the host's next
transaction, taken off the queue. (The queue and the countdown are the model's own, logs 6 and 7: with a command
pending it is the engine's turn when the countdown is over or the host makes no further transaction. That an idle
machine without a transaction stays as it is is the model's choice, log 8.) -/
def Obligations.StepRunsPendingCommand : Prop :=
  ∀ s : State,
    (s.pending = true → s.delay = 0 ∨ s.hostQueue = [] → ∀ i, decode s.pcmd = .ok i →
      i.wf = true ∧ step s = exec i s)
    ∧ (s.pending = false ∨ s.delay ≠ 0 →
      (∀ a rest, s.hostQueue = .read a :: rest →
        step s = .next (({ s with hostQueue := rest, delay := s.delay - 1 } : State).busRead a.toNat))
      ∧ (∀ a v rest, s.hostQueue = .write a v :: rest →
        step s = .next (({ s with hostQueue := rest, delay := s.delay - 1 } : State).busWrite a.toNat v))
      ∧ (s.pending = false → s.hostQueue = [] → step s = .next s))

/-- R130: an illegal word is issued like any other and completes with ILLEGAL_COMMAND and the word, changing nothing
else. (The premises on the model's own `delay` and `hostQueue` say that it is the engine's turn.) -/
def Obligations.IllegalWordCompletes : Prop :=
  ∀ w : Word, Illegal w →
    (∀ s : State, s.pending = false → (s.busWrite 0x00C w).pending = true ∧ (s.busWrite 0x00C w).pcmd = w)
    ∧ ∀ s : State, s.pending = true → s.pcmd = w → s.delay = 0 ∨ s.hostQueue = [] →
        step s = .next (failed s 0x05#8 w)

/-- R311: what a host write to CMD does when the engine is idle and when it is busy. (The model's own `delay` and
`draws` take some value at an issue.) -/
def Obligations.IssueByCmdWrite : Prop :=
  ∀ (s : State) (w : Word),
    (s.pending = false → ∃ d k, s.busWrite 0x00C w =
      { s with
        pcmd := w
        pending := true
        status := { s.status with done := false, err := false, errCode := 0#8, lastOp := w.extractLsb' 24 8 }
        errInfo := 0#32
        delay := d
        draws := k })
    ∧ (s.pending = true → s.busWrite 0x00C w = { s with status := { s.status with ovr := true } })

/-! ### Reset -/

/-- R370, R371, R31: the value every register reads as after power-on, and the constants, which read so in every
state. (What the memories hold is unspecified: `State.reset` lists nothing, log 2.) -/
def Obligations.ResetRegisters : Prop :=
  (∀ p ∈ resetTable, State.reset.busValue p.1 = p.2)
    ∧ (∀ m, m < 8 → ∀ j, j < 7 → State.reset.busValue (0x100 + 0x20 * m + 4 * j) = 0#32)
    ∧ State.reset.pending = false ∧ State.reset.pcmd = 0#32 ∧ State.reset.irq = false ∧ State.reset.mem = []
    ∧ ∀ s : State, ∀ p ∈ constantTable, s.busValue p.1 = p.2

/-- The invariants hold after power-on. -/
def Obligations.ResetMeetsInvariants : Prop :=
  State.reset.mem.wf ∧ RegistersLegal State.reset ∧ TablesValid State.reset

/-- R372: a write of 1 to CTRL.SRST, in any state: every register at its reset value, PENDING and PCMD 0, and every
byte kept but for those that the abandoned command would write; the stream below BS_LEN is none of them. (Which bytes
an abandoned command would write is log 12's reading; the host's own queue and the count of draws are no registers of
OKC, log 20.) -/
def Obligations.SoftReset : Prop :=
  ∀ (s : State) (v : Word), v.getLsbD 1 = true →
    ∃ m k, s.busWrite 0x004 v =
        { State.reset with mem := m, draws := k, hostQueue := s.hostQueue, lastRead := s.lastRead }
      ∧ (∀ a, ¬ (s.pending = true ∧ ∃ i, decode s.pcmd = .ok i ∧ WouldWrite s i a) →
          ({ s with mem := m } : State).loadByte a = s.loadByte a)
      ∧ ∀ j, j < s.bsLen.toNat → j < 32768 → ({ s with mem := m } : State).streamBit j = s.streamBit j

/-! ### Invariants that every step keeps -/

/-- The memory keeps its canonical form (addresses strictly rising). -/
def Obligations.MemoryFormKept : Prop := ∀ s t : State, s.mem.wf → step s = .next t → t.mem.wf

/-- Every step keeps the form of the registers: reserved bits 0 (R32), the error registers consistent (R38, R43), a
pending command not yet done (R37), LAST_OP the opcode of PCMD (R42), the chain of VALID and its ranges (R44), Z only
with RES = 0 (R40). -/
def Obligations.RegistersLegalKept : Prop :=
  ∀ s t : State, RegistersLegal s → step s = .next t → RegistersLegal t

/-- Every step keeps the engine's tables what their VALID bits say: the field of GF_POLY while VALID.GF = 1 (R150,
R152), the generator of RS_E and RS_R0 in that field while VALID.RS = 1 (R183). -/
def Obligations.EngineTablesKept : Prop := ∀ s t : State, TablesValid s → step s = .next t → TablesValid t

/-! ### The Galois field -/

/-- R151, R152: GF_INIT of a primitive modulus completes and builds the tables of its field. -/
def Obligations.GfInitBuildsField : Prop :=
  ∀ s : State, 2 ≤ s.opa.toNat → s.opa.toNat < 2 ^ 17 → Primitive s.opa.toNat (Nat.log2 s.opa.toNat) →
    ∃ m,
      let t := completedRes
        { s with
          mem := m
          valid := { s.valid with gf := true, rs := false, rem := false, syn := false }
          gfPoly := s.opa
          gfM := BitVec.ofNat 32 (Nat.log2 s.opa.toNat) }
        (BitVec.ofNat 32 (Nat.log2 s.opa.toNat))
      let n := 2 ^ Nat.log2 s.opa.toNat - 1
      exec .gfInit s = .next t
        ∧ (∀ v, v < 65536 → t.tAlog v = if v < n then antilog s.opa.toNat (Nat.log2 s.opa.toNat) v else 0)
        ∧ (∀ v, v < n → t.tLog (t.tAlog v) = v) ∧ t.tLog 0 = 0xFFFF ∧ (∀ x, n < x → x < 65536 → t.tLog x = 0)
        ∧ FieldOk t
        ∧ SameOutside s t 0x40000 0xC0000

/-- R151, R153, R154: GF_INIT of an operand out of range changes nothing but the completion registers; GF_INIT of a
modulus that is not primitive clears the four VALID bits, keeps modulus and degree, and reports INTERNAL_DEFECT. -/
def Obligations.GfInitRefuses : Prop :=
  ∀ s : State,
    (s.opa.toNat < 2 ∨ 2 ^ 17 ≤ s.opa.toNat → exec .gfInit s = .next (failed s 0x06#8 0x01000000#32))
    ∧ (2 ≤ s.opa.toNat → s.opa.toNat < 2 ^ 17 → ¬ Primitive s.opa.toNat (Nat.log2 s.opa.toNat) →
        ∃ m k,
          let t := failed
            { s with
              mem := m
              draws := k
              valid := { s.valid with gf := false, rs := false, rem := false, syn := false }
              gfPoly := s.opa
              gfM := BitVec.ofNat 32 (Nat.log2 s.opa.toNat) } 0x04#8 0x01000000#32
          exec .gfInit s = .next t ∧ SameOutside s t 0x40000 0xC0000)

/-- R161, R167: GF_MUL and GF_ADD, the total commands of two elements. -/
def Obligations.GfMulAddCommands : Prop :=
  decode 0x02000000#32 = .ok .gfMul ∧ decode 0x08000000#32 = .ok .gfAdd ∧ ∀ s : State,
    (∀ i, i = .gfMul ∨ i = .gfAdd →
      (s.valid.gf = false → exec i s = .next (failed s 0x07#8 0#32))
      ∧ (s.valid.gf = true → 2 ^ s.gfM.toNat ≤ s.opa.toNat → exec i s = .next (failed s 0x06#8 0x01000000#32))
      ∧ (s.valid.gf = true → s.opa.toNat < 2 ^ s.gfM.toNat → 2 ^ s.gfM.toNat ≤ s.opb.toNat →
        exec i s = .next (failed s 0x06#8 0x02000000#32)))
    ∧ (s.valid.gf = true → s.opa.toNat < 2 ^ s.gfM.toNat → s.opb.toNat < 2 ^ s.gfM.toNat →
        exec .gfMul s = .next (completedRes s (BitVec.ofNat 32
          (if s.opa.toNat = 0 ∨ s.opb.toNat = 0 then 0
           else s.tAlog ((s.tLog s.opa.toNat + s.tLog s.opb.toNat) % (2 ^ s.gfM.toNat - 1)))))
        ∧ exec .gfAdd s = .next (completedRes s (s.opa ^^^ s.opb)))

/-- R162: GF_DIV. -/
def Obligations.GfDivCommand : Prop :=
  decode 0x03000000#32 = .ok .gfDiv ∧ ∀ s : State,
    (s.valid.gf = false → exec .gfDiv s = .next (failed s 0x07#8 0#32))
    ∧ (s.valid.gf = true → 2 ^ s.gfM.toNat ≤ s.opa.toNat → exec .gfDiv s = .next (failed s 0x06#8 0x01000000#32))
    ∧ (s.valid.gf = true → s.opa.toNat < 2 ^ s.gfM.toNat → 2 ^ s.gfM.toNat ≤ s.opb.toNat →
        exec .gfDiv s = .next (failed s 0x06#8 0x02000000#32))
    ∧ (s.valid.gf = true → s.opa.toNat < 2 ^ s.gfM.toNat → s.opb.toNat = 0 →
        exec .gfDiv s = .next (failed s 0x08#8 0#32))
    ∧ (s.valid.gf = true → s.opa.toNat < 2 ^ s.gfM.toNat → s.opb.toNat < 2 ^ s.gfM.toNat → s.opb.toNat ≠ 0 →
        exec .gfDiv s = .next (completedRes s (BitVec.ofNat 32
          (if s.opa.toNat = 0 then 0
           else s.tAlog (((s.tLog s.opa.toNat : Int) - (s.tLog s.opb.toNat : Int))
             % ((2 ^ s.gfM.toNat - 1 : Nat) : Int)).toNat))))

/-- R163, R165: GF_INV and GF_LOG, the commands of one nonzero element; OPB is not read. -/
def Obligations.GfInvLogCommands : Prop :=
  decode 0x04000000#32 = .ok .gfInv ∧ decode 0x06000000#32 = .ok .gfLog ∧ ∀ s : State,
    (∀ i, i = .gfInv ∨ i = .gfLog →
      (s.valid.gf = false → exec i s = .next (failed s 0x07#8 0#32))
      ∧ (s.valid.gf = true → 2 ^ s.gfM.toNat ≤ s.opa.toNat → exec i s = .next (failed s 0x06#8 0x01000000#32))
      ∧ (s.valid.gf = true → s.opa.toNat = 0 → exec i s = .next (failed s 0x08#8 0#32)))
    ∧ (s.valid.gf = true → s.opa.toNat < 2 ^ s.gfM.toNat → s.opa.toNat ≠ 0 →
        exec .gfInv s = .next (completedRes s (BitVec.ofNat 32
          (s.tAlog ((((2 ^ s.gfM.toNat - 1 : Nat) : Int) - (s.tLog s.opa.toNat : Int))
            % ((2 ^ s.gfM.toNat - 1 : Nat) : Int)).toNat)))
        ∧ exec .gfLog s = .next (completedRes s (BitVec.ofNat 32 (s.tLog s.opa.toNat))))

/-- R164, R166: GF_EXP and GF_POW, the commands with an unchecked exponent. -/
def Obligations.GfExpPowCommands : Prop :=
  decode 0x05000000#32 = .ok .gfExp ∧ decode 0x07000000#32 = .ok .gfPow ∧ ∀ s : State,
    (s.valid.gf = false → exec .gfExp s = .next (failed s 0x07#8 0#32)
      ∧ exec .gfPow s = .next (failed s 0x07#8 0#32))
    ∧ (s.valid.gf = true → 2 ^ s.gfM.toNat ≤ s.opa.toNat → exec .gfPow s = .next (failed s 0x06#8 0x01000000#32))
    ∧ (s.valid.gf = true →
        exec .gfExp s = .next (completedRes s (BitVec.ofNat 32 (s.tAlog (s.opa.toNat % (2 ^ s.gfM.toNat - 1))))))
    ∧ (s.valid.gf = true → s.opa.toNat < 2 ^ s.gfM.toNat →
        exec .gfPow s = .next (completedRes s (BitVec.ofNat 32
          (if s.opa.toNat = 0 then (if s.opb.toNat = 0 then 1 else 0)
           else s.tAlog ((s.tLog s.opa.toNat * s.opb.toNat) % (2 ^ s.gfM.toNat - 1))))))

/-- R155, R158 to R167: with valid tables the seven field commands compute in GF(2)[x] modulo the modulus: product,
quotient, inverse, powers of `α`, discrete logarithm, power, sum. -/
def Obligations.FieldCommandsCompute : Prop :=
  ∀ s : State, s.valid.gf = true → FieldOk s →
    (s.opa.toNat < 2 ^ s.gfM.toNat → s.opb.toNat < 2 ^ s.gfM.toNat →
      (∃ t, exec .gfMul s = .next t ∧ t.res.toNat < 2 ^ s.gfM.toNat
        ∧ elt s t.res.toNat = elt s s.opa.toNat * elt s s.opb.toNat)
      ∧ (∃ t, exec .gfAdd s = .next t ∧ t.res.toNat < 2 ^ s.gfM.toNat
        ∧ elt s t.res.toNat = elt s s.opa.toNat + elt s s.opb.toNat)
      ∧ (s.opb.toNat ≠ 0 → ∃ t, exec .gfDiv s = .next t ∧ t.res.toNat < 2 ^ s.gfM.toNat
        ∧ elt s t.res.toNat * elt s s.opb.toNat = elt s s.opa.toNat))
    ∧ (s.opa.toNat < 2 ^ s.gfM.toNat → s.opa.toNat ≠ 0 →
      (∃ t, exec .gfInv s = .next t ∧ t.res.toNat < 2 ^ s.gfM.toNat
        ∧ elt s t.res.toNat * elt s s.opa.toNat = 1)
      ∧ ∃ t, exec .gfLog s = .next t ∧ t.res.toNat < 2 ^ s.gfM.toNat - 1
        ∧ alpha s ^ t.res.toNat = elt s s.opa.toNat)
    ∧ (∃ t, exec .gfExp s = .next t ∧ t.res.toNat < 2 ^ s.gfM.toNat
        ∧ elt s t.res.toNat = alpha s ^ s.opa.toNat)
    ∧ (s.opa.toNat < 2 ^ s.gfM.toNat →
        ∃ t, exec .gfPow s = .next t ∧ t.res.toNat < 2 ^ s.gfM.toNat
          ∧ elt s t.res.toNat = elt s s.opa.toNat ^ s.opb.toNat)

/-- R168: the field laws of the table functions that the field and Reed-Solomon commands use. -/
def Obligations.FieldLaws : Prop :=
  ∀ s : State, FieldOk s → ∀ a b c, a < 2 ^ s.gfM.toNat → b < 2 ^ s.gfM.toNat → c < 2 ^ s.gfM.toNat →
    s.gfmul a b < 2 ^ s.gfM.toNat ∧ s.gfmul a b = s.gfmul b a
    ∧ s.gfmul (s.gfmul a b) c = s.gfmul a (s.gfmul b c)
    ∧ s.gfmul a (b ^^^ c) = s.gfmul a b ^^^ s.gfmul a c
    ∧ s.gfmul a 1 = a ∧ s.gfmul a 0 = 0
    ∧ (a ≠ 0 → s.gfinv a < 2 ^ s.gfM.toNat ∧ s.gfmul a (s.gfinv a) = 1)
    ∧ (b ≠ 0 → s.gfdiv a b = s.gfmul a (s.gfinv b))
    ∧ (a ≠ 0 → ∀ j k, s.gfpow a (j + k) = s.gfmul (s.gfpow a j) (s.gfpow a k))

/-! ### Reed-Solomon -/

/-- R180: RS_INIT, its refusals and its effect; the coefficients are those of the rule's loop. -/
def Obligations.RsInitCommand : Prop :=
  ∀ s : State,
    (s.valid.gf = false → exec .rsInit s = .next (failed s 0x07#8 0#32))
    ∧ (s.valid.gf = true → s.opa.toNat = 0 ∨ 4096 < s.opa.toNat →
        exec .rsInit s = .next (failed s 0x06#8 0x01000000#32))
    ∧ (s.valid.gf = true → 1 ≤ s.opa.toNat → s.opa.toNat ≤ 4096 →
        ∃ m,
          let t := completed
            { s with
              mem := m
              rsE := s.opa
              rsR0 := s.opb
              valid := { s.valid with rs := true, rem := false, syn := false } }
          exec .rsInit s = .next t
            ∧ (∀ k, k ≤ s.opa.toNat → t.tGen k = (s.genCoeffs s.opb.toNat s.opa.toNat).getD k 0)
            ∧ SameOutside s t 0x28000 (0x28000 + 4 * (s.opa.toNat + 1)))

/-- R181: after RS_INIT in a valid field, T.GEN is the monic polynomial with the E consecutive roots from `α^r0`. -/
def Obligations.GeneratorPolynomial : Prop :=
  ∀ s : State, s.valid.gf = true → FieldOk s → 1 ≤ s.opa.toNat → s.opa.toNat ≤ 4096 →
    ∃ t, exec .rsInit s = .next t
      ∧ coeffPoly s (s.opa.toNat + 1) t.tGen
          = ∏ i ∈ Finset.range s.opa.toNat, (Polynomial.X - Polynomial.C (alpha s ^ (s.opb.toNat + i)))
      ∧ t.tGen s.opa.toNat = 1
      ∧ elt s (t.tGen 0)
          = alpha s ^ (s.opa.toNat * s.opb.toNat + s.opa.toNat * (s.opa.toNat - 1) / 2)
      ∧ ∀ k, k ≤ s.opa.toNat → t.tGen k < 2 ^ s.gfM.toNat

/-- R185, R191: the refusals that RS_ENCODE and RS_SYND share, the lowest failing codeword reported. -/
def Obligations.RsBlockRefusals : Prop :=
  ∀ (s : State) (i : Instr), i = .rsEncode ∨ i = .rsSynd →
    (s.valid.rs = false → exec i s = .next (failed s 0x07#8 1#32))
    ∧ (s.valid.rs = true → 4096 < s.opa.toNat → exec i s = .next (failed s 0x06#8 0x01000000#32))
    ∧ (s.valid.rs = true → s.opa.toNat ≤ 4096 → 4096 < s.opb.toNat + s.opa.toNat →
        exec i s = .next (failed s 0x06#8 0x02000000#32))
    ∧ (s.valid.rs = true → BlockFits s → ∀ k, k < s.opa.toNat → 2 ^ s.gfM.toNat ≤ s.tCw (s.opb.toNat + k) →
        (∀ j, j < k → s.tCw (s.opb.toNat + j) < 2 ^ s.gfM.toNat) →
        exec i s = .next (failed s 0x06#8 (0x04000000#32 ||| BitVec.ofNat 32 (s.opb.toNat + k))))

/-- R185: RS_ENCODE completes and writes the coefficients of its shift register, the block's `d(x) x^E mod g(x)`
(stated by `RemainderOfDivision`); the premise on RS_E is kept by every step (`RegistersLegalKept`). -/
def Obligations.RsEncodeCommand : Prop :=
  ∀ s : State, s.valid.rs = true → s.rsE.toNat ≤ 4096 → BlockFits s → BlockElements s →
    ∃ m,
      let t := completed { s with mem := m, valid := { s.valid with rem := true } }
      exec .rsEncode s = .next t
        ∧ (∀ k, k < s.rsE.toNat → t.tRem k = (s.remainder s.block).getD k 0)
        ∧ SameOutside s t 0x24000 (0x24000 + 4 * s.rsE.toNat)

/-- R186: T.REM is the remainder of the division of `d(x) x^E` by the generator. -/
def Obligations.RemainderOfDivision : Prop :=
  ∀ s : State, s.valid.rs = true → FieldOk s → GeneratorOk s → BlockFits s → BlockElements s →
    ∃ t, exec .rsEncode s = .next t
      ∧ coeffPoly s s.rsE.toNat t.tRem
          = (codePoly s s.block * Polynomial.X ^ s.rsE.toNat) %ₘ coeffPoly s (s.rsE.toNat + 1) s.tGen
      ∧ ∀ k, k < s.rsE.toNat → t.tRem k < 2 ^ s.gfM.toNat

/-- R188: an all-zero data block has an all-zero EC block, whatever the tables hold. -/
def Obligations.ZeroDataZeroRemainder : Prop :=
  ∀ s : State, s.valid.rs = true → BlockFits s → (∀ i, i < s.opa.toNat → s.tCw (s.opb.toNat + i) = 0) →
    ∃ t, exec .rsEncode s = .next t ∧ ∀ k, k < s.rsE.toNat → t.tRem k = 0

/-- R191: RS_SYND completes, writes the Horner values, and counts the nonzero ones in RES. -/
def Obligations.RsSyndCommand : Prop :=
  ∀ s : State, s.valid.rs = true → s.rsE.toNat ≤ 4096 → BlockFits s → BlockElements s →
    ∃ m,
      let t := completedRes { s with mem := m, valid := { s.valid with syn := true } }
        (BitVec.ofNat 32 (((List.range s.rsE.toNat).filter
          (fun j => decide (s.horner (s.gfexp (s.rsR0.toNat + j)) s.block ≠ 0))).length))
      exec .rsSynd s = .next t
        ∧ (∀ j, j < s.rsE.toNat → t.tSyn j = s.horner (s.gfexp (s.rsR0.toNat + j)) s.block)
        ∧ SameOutside s t 0x30000 (0x30000 + 4 * s.rsE.toNat)

/-- R192: syndrome j is the value of the codeword polynomial at `α^(r0+j)`. -/
def Obligations.SyndromeValues : Prop :=
  ∀ s : State, s.valid.rs = true → FieldOk s → s.rsE.toNat ≤ 4096 → BlockFits s → BlockElements s →
    ∃ t, exec .rsSynd s = .next t
      ∧ ∀ j, j < s.rsE.toNat → t.tSyn j < 2 ^ s.gfM.toNat
          ∧ elt s (t.tSyn j) = (codePoly s s.block).eval (alpha s ^ (s.rsR0.toNat + j))

/-- R195: RS_APPEND, its refusals and its effect in both orders. -/
def Obligations.RsAppendCommand : Prop :=
  ∀ (s : State) (ord : EcOrder),
    (s.valid.rem = false → exec (.rsAppend ord) s = .next (failed s 0x07#8 2#32))
    ∧ (s.valid.rem = true → 4096 < s.opa.toNat → exec (.rsAppend ord) s = .next (failed s 0x06#8 0x01000000#32))
    ∧ (s.valid.rem = true → s.opa.toNat ≤ 4096 → 4096 < s.opb.toNat + s.opa.toNat + s.rsE.toNat →
        exec (.rsAppend ord) s = .next (failed s 0x06#8 0x02000000#32))
    ∧ (s.valid.rem = true → s.opb.toNat + s.opa.toNat + s.rsE.toNat ≤ 4096 →
        ∃ m,
          let t := completedRes { s with mem := m } (BitVec.ofNat 32 (s.opb.toNat + s.opa.toNat + s.rsE.toNat))
          exec (.rsAppend ord) s = .next t
            ∧ (∀ k, k < s.rsE.toNat → t.tCw (s.opb.toNat + s.opa.toNat + k) =
                match ord with
                | .reverse => s.tRem (s.rsE.toNat - 1 - k)
                | .ascending => s.tRem k)
            ∧ SameOutside s t (0x20000 + 4 * (s.opb.toNat + s.opa.toNat))
                (0x20000 + 4 * (s.opb.toNat + s.opa.toNat + s.rsE.toNat)))

/-- R193: encode, append in reverse order, and the syndromes of data plus EC are all zero. (The host's write of
`L + E` to OPA between the commands is the update of `opa`.) -/
def Obligations.RoundTrip : Prop :=
  ∀ s : State, s.valid.rs = true → FieldOk s → GeneratorOk s → BlockElements s →
    s.opb.toNat + s.opa.toNat + s.rsE.toNat ≤ 4096 →
    ∃ t u v, exec .rsEncode s = .next t ∧ exec (.rsAppend .reverse) t = .next u
      ∧ exec .rsSynd { u with opa := BitVec.ofNat 32 (s.opa.toNat + s.rsE.toNat) } = .next v
      ∧ v.status.err = false ∧ v.res = 0#32 ∧ ∀ j, j < s.rsE.toNat → v.tSyn j = 0

/-! ### Segmentation -/

/-- R215: the runs of a tag array partition its positions, are maximal, and keep their order. -/
def Obligations.RunsPartition : Prop :=
  ∀ tags : List Nat,
    (runs tags).flatMap (fun r => List.replicate (r.b - r.a) r.m) = tags
    ∧ (runs tags).Pairwise (fun x y => x.b ≤ y.a)
    ∧ (∀ p, p < tags.length → ∃ r ∈ runs tags, r.a ≤ p ∧ p < r.b)
    ∧ ∀ r ∈ runs tags, r.a < r.b ∧ r.b ≤ tags.length
        ∧ (∀ p, r.a ≤ p → p < r.b → tags[p]? = some r.m)
        ∧ (r.a = 0 ∨ tags[r.a - 1]? ≠ some r.m) ∧ (r.b = tags.length ∨ tags[r.b]? ≠ some r.m)

/-- R211, R212, R214, R216, R219, R227, R340: what the three segmentation commands refuse, in order: the length, the
configuration; the tags (SEG_RESOLVE, SEG_GATE); the lowest position without candidates, for SEG_GATE also one its tag
does not admit; and for SEG_GATE the errors of EMIT. -/
def Obligations.SegmentationRefusals : Prop :=
  ∀ s : State,
    (∀ i ∈ segCommands, 4096 < s.nChars.toNat → exec i s = .next (failed s 0x06#8 0x05000034#32))
    ∧ (∀ i ∈ segCommands, s.nChars.toNat ≤ 4096 → ¬ ConfigOk s →
        exec i s = .next (failed s 0x04#8 0x050000FF#32))
    ∧ (s.nChars.toNat ≤ 4096 → ConfigOk s →
        (∀ k info, k < s.nChars.toNat → (∀ j, j < k → HasCandidates s j) → CandidateError s k info →
          exec .segClassify s = .next (failed s 0x01#8 info)
          ∧ (TagsOk s true s.nChars.toNat → exec .segResolve s = .next (failed s 0x01#8 info)))
        ∧ (∀ k, k < s.nChars.toNat → TagsOk s true k → s.modeCount ≤ s.tMode k → s.tMode k ≠ 15 →
          exec .segResolve s = .next (failed s 0x04#8 (0x04000000#32 ||| BitVec.ofNat 32 k)))
        ∧ (∀ k, k < s.nChars.toNat → TagsOk s false k → s.modeCount ≤ s.tMode k →
          exec .segGate s = .next (failed s 0x04#8 (0x04000000#32 ||| BitVec.ofNat 32 k)))
        ∧ (TagsOk s false s.nChars.toNat → ∀ k info, k < s.nChars.toNat → (∀ j, j < k → Admitted s j) →
          AdmissionError s k info → exec .segGate s = .next (failed s 0x01#8 info))
        ∧ (TagsOk s false s.nChars.toNat → (∀ j, j < s.nChars.toNat → Admitted s j) → ∀ code info,
          CheckError s code info ∨ EmissionError s code info → exec .segGate s = .next (failed s code info)))

/-- R217, R218: SEG_CLASSIFY completes; a position has a mode exactly when SPEC has that one mode, else UNRES. -/
def Obligations.SegClassifyCommand : Prop :=
  ∀ s : State, s.nChars.toNat ≤ 4096 → ConfigOk s → (∀ i, i < s.nChars.toNat → HasCandidates s i) →
    ∃ m r,
      let t := completedRes { s with mem := m } r
      exec .segClassify s = .next t
        ∧ (∀ i, i < s.nChars.toNat →
            (∀ q, q < 8 → (t.tMode i = q ↔ specMask s i = 1#8 <<< q))
            ∧ ((∀ q, q < 8 → specMask s i ≠ 1#8 <<< q) → t.tMode i = 15))
        ∧ r = BitVec.ofNat 32 ((List.range s.nChars.toNat).filter (fun i => decide (t.tMode i = 15))).length
        ∧ SameOutside s t 0x14000 (0x14000 + 4 * s.nChars.toNat)

/-- R222: SEG_RESOLVE completes with every position resolved, resolved tags kept, new tags in SPEC, RES the number of
runs (R220); issuing it again changes no byte and gives the same RES. -/
def Obligations.SegResolveCommand : Prop :=
  ∀ s : State, ResolveReady s →
    ∃ m,
      let tags := (List.range s.nChars.toNat).map (fun i => ({ s with mem := m } : State).tMode i)
      let t := completedRes { s with mem := m } (BitVec.ofNat 32 (runs tags).length)
      exec .segResolve s = .next t
        ∧ (∀ i, i < s.nChars.toNat → t.tMode i < s.modeCount
            ∧ (s.tMode i ≠ 15 → t.tMode i = s.tMode i)
            ∧ (s.tMode i = 15 → (specMask s i).getLsbD (t.tMode i) = true))
        ∧ SameOutside s t 0x14000 (0x14000 + 4 * s.nChars.toNat)
        ∧ ∃ u, exec .segResolve t = .next u ∧ u.res = t.res ∧ ∀ a, u.loadByte a = t.loadByte a

/-- R220: how SEG_RESOLVE chooses the mode of an unresolved position: the previous mode if a candidate; else the next
resolved one if a candidate; else the lowest candidate reached from the previous mode by a shift; else the lowest. -/
def Obligations.SegResolveChoice : Prop :=
  ∀ s : State, ResolveReady s →
    ∃ t, exec .segResolve s = .next t ∧ ∀ i, i < s.nChars.toNat → s.tMode i = 15 →
      let prev := if i = 0 then s.initMode else t.tMode (i - 1)
      let nextIs (j : Nat) := i < j ∧ j < s.nChars.toNat ∧ s.tMode j ≠ 15 ∧ ∀ k, i < k → k < j → s.tMode k = 15
      let shiftTo (q : Nat) := (specMask s i).getLsbD q = true ∧ q ≠ prev ∧ (s.trans prev q).kind = .shift
      ((specMask s i).getLsbD prev = true → t.tMode i = prev)
        ∧ ((specMask s i).getLsbD prev = false →
            (∀ j, nextIs j → (specMask s i).getLsbD (s.tMode j) = true → t.tMode i = s.tMode j)
            ∧ ((∀ j, nextIs j → (specMask s i).getLsbD (s.tMode j) = false) →
                (∀ q, shiftTo q → (∀ p, p < q → ¬ shiftTo p) → t.tMode i = q)
                ∧ ((∀ q, ¬ shiftTo q) → ∀ q, (specMask s i).getLsbD q = true →
                    (∀ p, p < q → (specMask s i).getLsbD p = false) → t.tMode i = q)))

/-- R225 to R228, R230: SEG_GATE completes; it commits the folds of R227, one after the other, until no short run has a
strictly cheaper trial, RES counting them, at most as many as the stream had bits; it never makes the stream longer,
leaves its length exactly when RES = 0, and every tag it writes is admitted. -/
def Obligations.SegGateCommand : Prop :=
  ∀ (s : State) (b : Bits), GateReady s b →
    ∃ m n,
      let t := completedRes { s with mem := m } (BitVec.ofNat 32 n)
      exec .segGate s = .next t
        ∧ Folds s s.tags n t.tags ∧ n ≤ b.length
        ∧ (∀ j, ¬ Improvable s t.tags j)
        ∧ (∀ i, i < s.nChars.toNat → (candMask s i).getLsbD (t.tMode i) = true)
        ∧ (∃ c, s.emit t.tags = .ok c ∧ c.length ≤ b.length ∧ (c.length = b.length ↔ t.res = 0#32))
        ∧ SameOutside s t 0x14000 (0x14000 + 4 * s.nChars.toNat)

/-- R229: SEG_GATE on the tags SEG_GATE produced commits no fold and changes no byte. -/
def Obligations.SegGateIdempotent : Prop :=
  ∀ (s : State) (b : Bits), GateReady s b →
    ∃ t u, exec .segGate s = .next t ∧ exec .segGate t = .next u ∧ u.status.err = false ∧ u.res = 0#32
      ∧ ∀ a, u.loadByte a = t.loadByte a

/-! ### The bitstream -/

/-- R318, R244: NOP completes without effect; BS_CLEAR empties the stream. (What becomes of the bits of T.BS is
unspecified, R240; that they take free values is the model's choice, log 5.) -/
def Obligations.NopAndBsClear : Prop :=
  ∀ s : State, exec .nop s = .next (completed s)
    ∧ ∃ m k,
        let t := completed { s with mem := m, draws := k, bsLen := 0#32 }
        exec .bsClear s = .next t ∧ SameOutside s t 0x18000 0x19000

/-- R245, R241, R242: BS_APPEND, its refusals and its effect. -/
def Obligations.BsAppendCommand : Prop :=
  ∀ (s : State) (w : Nat),
    (32 < w → exec (.bsAppend w) s = .next (failed s 0x06#8 0x03000000#32))
    ∧ (w ≤ 32 → 32768 < s.bsLen.toNat → exec (.bsAppend w) s = .next (failed s 0x06#8 0x0500003C#32))
    ∧ (w ≤ 32 → s.bsLen.toNat ≤ 32768 → s.maxBits.toNat < s.bsLen.toNat + w →
        exec (.bsAppend w) s = .next (failed s 0x02#8 (0x01000000#32 ||| BitVec.ofNat 32 (s.bsLen.toNat + w))))
    ∧ (w ≤ 32 → s.bsLen.toNat ≤ 32768 → s.bsLen.toNat + w ≤ s.maxBits.toNat → 32768 < s.bsLen.toNat + w →
        exec (.bsAppend w) s = .next (failed s 0x02#8 (0x02000000#32 ||| BitVec.ofNat 32 (s.bsLen.toNat + w))))
    ∧ (w ≤ 32 → s.bsLen.toNat + w ≤ s.maxBits.toNat → s.bsLen.toNat + w ≤ 32768 →
        ∃ m,
          let t := completedRes { s with mem := m, bsLen := BitVec.ofNat 32 (s.bsLen.toNat + w) }
            (BitVec.ofNat 32 (s.bsLen.toNat + w))
          exec (.bsAppend w) s = .next t
            ∧ (∀ k, k < s.bsLen.toNat → t.streamBit k = s.streamBit k)
            ∧ (∀ k, k < w → t.streamBit (s.bsLen.toNat + k) = s.opa.getLsbD (w - 1 - k))
            ∧ SameOutside s t (0x18000 + 4 * (s.bsLen.toNat / 32)) (0x18000 + 4 * ((s.bsLen.toNat + w + 31) / 32)))

/-- R268, R241, R247, R252, R258: BUILD appends EMIT of the tags, or fails with the stream as it was: with the first
failing check of EMIT, the first path or value error of the emission, or a length above MAX_BITS or the buffer. (That
the bits at and above BS_LEN then take free values is the model's choice, log 5.) -/
def Obligations.BuildCommand : Prop :=
  ∀ s : State,
    (4096 < s.nChars.toNat → exec .build s = .next (failed s 0x06#8 0x05000034#32))
    ∧ (s.nChars.toNat ≤ 4096 → 32768 < s.bsLen.toNat → exec .build s = .next (failed s 0x06#8 0x0500003C#32))
    ∧ (s.nChars.toNat ≤ 4096 → ∀ b, s.emit s.tags = .ok b → s.bsLen.toNat + b.length ≤ s.maxBits.toNat →
        s.bsLen.toNat + b.length ≤ 32768 →
        ∃ m,
          let t := completedRes { s with mem := m, bsLen := BitVec.ofNat 32 (s.bsLen.toNat + b.length) }
            (BitVec.ofNat 32 b.length)
          exec .build s = .next t
            ∧ t.stream = s.stream ++ b
            ∧ SameOutside s t (0x18000 + 4 * (s.bsLen.toNat / 32))
                (0x18000 + 4 * ((s.bsLen.toNat + b.length + 31) / 32)))
    ∧ (s.nChars.toNat ≤ 4096 → s.bsLen.toNat ≤ 32768 → ∀ code info,
        CheckError s code info ∨ EmissionError s code info
          ∨ (∃ b, s.emit s.tags = .ok b ∧ s.maxBits.toNat < s.bsLen.toNat + b.length ∧ code = 0x02#8
              ∧ info = 0x01000000#32 ||| BitVec.ofNat 32 (min (s.bsLen.toNat + b.length) 0xFFFFFF))
          ∨ (∃ b, s.emit s.tags = .ok b ∧ s.bsLen.toNat + b.length ≤ s.maxBits.toNat
              ∧ 32768 < s.bsLen.toNat + b.length ∧ code = 0x02#8
              ∧ info = 0x02000000#32 ||| BitVec.ofNat 32 (min (s.bsLen.toNat + b.length) 0xFFFFFF)) →
        ∃ m k,
          let t := failed { s with mem := m, draws := k } code info
          exec .build s = .next t ∧ t.stream = s.stream
            ∧ SameOutside s t (0x18000 + 4 * (s.bsLen.toNat / 32)) 0x19000)

/-- R251, R252: a path is what the rule's recursion returns, and a failure is reported for the pair that was asked
for; a path is a chain of table entries from the first mode to the last, of at most 8 hops of at most 16 bits, and only
its last hop may be a SHIFT. -/
def Obligations.PathsAreChains : Prop :=
  ∀ (s : State) (a b : Nat),
    (∀ p, s.path a b = .ok p ↔ Resolves s 0 a b p)
    ∧ ((∀ p, ¬ Resolves s 0 a b p) →
        s.path a b = .error { kind := .internalDefect, info := 0x02000000#32 ||| BitVec.ofNat 32 (8 * a + b) })
    ∧ ∀ p, s.path a b = .ok p →
      p ≠ [] ∧ p.length ≤ 8 ∧ (p.head?.map Hop.src) = some a ∧ (p.getLast?.map Hop.dst) = some b
      ∧ p.IsChain (fun g h => g.dst = h.src)
      ∧ (∀ h ∈ p.dropLast, h.kind = .latch)
      ∧ ∀ h ∈ p, (h.kind = .latch ∨ h.kind = .shift) ∧ h.nbits ≤ 16
          ∧ h.kind = (s.trans h.src h.dst).kind ∧ h.nbits = (s.trans h.src h.dst).nbits
          ∧ h.code = (s.trans h.src h.dst).code

/-- R249, R250, R253 to R257, R262, R266: EMIT of any tags whose checks pass is what the rules' runs give, plain or
counted, with the terminator of the mode current at the end. Spelled out for one plain run of m, TABLE or DIRECT: nothing
but the value codes in the initial mode; the mode codes of a path of latches before them; or the latches once and the
shift code before each character as a group of one, the terminator then being that of the mode the shift was taken from.
For no characters, the terminator of the initial mode. -/
def Obligations.PlainRunEmission : Prop :=
  ∀ (s : State),
    (s.emitChecks [] = .ok () → s.emit [] = .ok (terminator s s.initMode))
    ∧ (∀ tags b, s.emitChecks tags = .ok () →
        (s.emit tags = .ok b ↔ ∃ c last, RunsEmitted s s.initMode (runs tags) c last ∧ b = c ++ terminator s last))
    ∧ ∀ (m k : Nat), s.emitChecks (List.replicate (k + 1) m) = .ok () → (s.mc m).hdrCount = false →
      (m = s.initMode → ∀ d, s.dataCodes m 0 (k + 1) (s.mc m).gn = .ok d →
        s.emit (List.replicate (k + 1) m) = .ok (d ++ terminator s m))
      ∧ (m ≠ s.initMode → ∀ q h, s.path s.initMode m = .ok (q ++ [h]) →
        (h.kind = .latch → ∀ d, s.dataCodes m 0 (k + 1) (s.mc m).gn = .ok d →
          s.emit (List.replicate (k + 1) m) = .ok (pathCode (q ++ [h]) ++ d ++ terminator s m))
        ∧ (h.kind = .shift → ∀ v : Nat → Nat, (∀ i, i ≤ k → s.value m i = .ok (v i)) →
          s.emit (List.replicate (k + 1) m)
            = .ok (pathCode q ++ (List.range (k + 1)).flatMap (fun i => hopCode h ++ bitsOf (v i : Int) ((s.mc m).gb 1))
                ++ terminator s h.src)))

/-- R257, R260 to R263, R266: what EMIT gives for one counted run, TABLE or DIRECT: in one chunk, the mode codes, the
count and the value codes, m staying current after latches and the mode the shift was taken from after a shift; in two
chunks, each with its own count, and with its own shift code after a shift. -/
def Obligations.CountedRunEmission : Prop :=
  ∀ (s : State) (m k : Nat), s.emitChecks (List.replicate (k + 1) m) = .ok () → (s.mc m).hdrCount = true →
    (k + 1 ≤ (s.mc m).chunkMax → ∀ d, s.dataCodes m 0 (k + 1) (s.mc m).gn = .ok d →
      (m = s.initMode →
        s.emit (List.replicate (k + 1) m) = .ok (countHeader (s.mc m) (k + 1) ++ d ++ terminator s m))
      ∧ (m ≠ s.initMode → ∀ q h, s.path s.initMode m = .ok (q ++ [h]) →
        s.emit (List.replicate (k + 1) m)
          = .ok (pathCode (q ++ [h]) ++ countHeader (s.mc m) (k + 1) ++ d ++ terminator s (modeAfter h))))
    ∧ (let c := (s.mc m).chunkMax
       c < k + 1 → k + 1 ≤ 2 * c → ∀ d e, s.dataCodes m 0 c (s.mc m).gn = .ok d →
        s.dataCodes m c (k + 1) (s.mc m).gn = .ok e →
        let first := countHeader (s.mc m) c ++ d
        let second := countHeader (s.mc m) (k + 1 - c) ++ e
        (m = s.initMode → s.emit (List.replicate (k + 1) m) = .ok (first ++ second ++ terminator s m))
        ∧ (m ≠ s.initMode → ∀ q h, s.path s.initMode m = .ok (q ++ [h]) →
          (h.kind = .latch → s.emit (List.replicate (k + 1) m)
              = .ok (pathCode (q ++ [h]) ++ first ++ second ++ terminator s m))
          ∧ (h.kind = .shift → s.emit (List.replicate (k + 1) m)
              = .ok (pathCode q ++ hopCode h ++ first ++ hopCode h ++ second ++ terminator s h.src))))

/-- R258: the value of a character, and the value errors. -/
def Obligations.CharacterValue : Prop :=
  ∀ (s : State) (m p : Nat),
    let tv := s.tVtab m (cidx (s.char p))
    let dv := s.char p - (s.mc m).base
    let bad : Except Err Nat := .error { kind := .invalidInput, info := 0x04000000#32 ||| BitVec.ofNat 32 p }
    ((s.mc m).vsrc = 0 → (s.mc m).gn ≤ 1 ∨ tv < (s.mc m).radix → s.value m p = .ok tv)
    ∧ ((s.mc m).vsrc = 0 → 1 < (s.mc m).gn → (s.mc m).radix ≤ tv → s.value m p = bad)
    ∧ ((s.mc m).vsrc ≠ 0 → 0 ≤ dv → dv < 2 ^ (s.mc m).gb 1 → (s.mc m).gn ≤ 1 ∨ dv < (s.mc m).radix →
        s.value m p = .ok dv.toNat)
    ∧ ((s.mc m).vsrc ≠ 0 → dv < 0 ∨ 2 ^ (s.mc m).gb 1 ≤ dv → s.value m p = bad)
    ∧ ((s.mc m).vsrc ≠ 0 → 0 ≤ dv → dv < 2 ^ (s.mc m).gb 1 → 1 < (s.mc m).gn → (s.mc m).radix ≤ dv →
        s.value m p = bad)

/-- R259: value codes in groups of g: a full group is one code of the radix sum, the rest follows; a last partial
group of k positions is one code of width GBk. The error raised is that of the lowest position without a
value. -/
def Obligations.GroupPacking : Prop :=
  ∀ (s : State) (m a b g : Nat) (v : Nat → Nat), 1 ≤ g → (∀ p, a ≤ p → p < b → s.value m p = .ok (v p)) →
    (a + g ≤ b → ∃ rest, s.dataCodes m (a + g) b g = .ok rest
      ∧ s.dataCodes m a b g = .ok (bitsOf
          ((∑ t ∈ Finset.range g, v (a + t) * (s.mc m).radix ^ (g - 1 - t) : Nat) : Int) ((s.mc m).gb g) ++ rest))
    ∧ (a < b → b < a + g →
        s.dataCodes m a b g = .ok (bitsOf
          ((∑ t ∈ Finset.range (b - a), v (a + t) * (s.mc m).radix ^ (b - a - 1 - t) : Nat) : Int)
          ((s.mc m).gb (b - a))))
    ∧ (b ≤ a → s.dataCodes m a b g = .ok [])
    ∧ ∀ e, s.value m b = .error e → ∀ c, b < c → a ≤ b → s.dataCodes m a c g = .error e

/-! ### Capacity -/

/-- R298, R282 to R284, R286: SPLIT, its refusals and its effect; the codewords are slices of an output in which the
stream survives, each forced bit is the complement of the one before, and the pad pattern fills the rest. -/
def Obligations.SplitCommand : Prop :=
  ∀ (s : State) (w : Nat),
    (w = 0 ∨ 16 < w ∨ (s.ctrl.getLsbD 2 = true ∧ w = 1) →
      exec (.split w) s = .next (failed s 0x06#8 0x03000000#32))
    ∧ (1 ≤ w → w ≤ 16 → ¬ (s.ctrl.getLsbD 2 = true ∧ w = 1) →
      (32768 < s.bsLen.toNat → exec (.split w) s = .next (failed s 0x06#8 0x0500003C#32))
      ∧ (s.bsLen.toNat ≤ 32768 → 4096 < (padded s w).rbits.length / w →
          exec (.split w) s = .next (failed { s with valid := { s.valid with sel := false } } 0x02#8
            (0x04000000#32 ||| BitVec.ofNat 32 ((padded s w).rbits.length / w))))
      ∧ (s.bsLen.toNat ≤ 32768 → (padded s w).rbits.length / w ≤ 4096 →
          ∃ m,
            let t := completedRes
              { s with
                mem := m
                selSize := 0xFFFFFFFF#32
                selW := BitVec.ofNat 32 w
                dataCw := BitVec.ofNat 32 ((padded s w).rbits.length / w)
                ecCw := 0#32
                stuffLen := BitVec.ofNat 32 (padded s w).rbits.length
                stuffIns := BitVec.ofNat 32 (padded s w).ins
                valid := { s.valid with sel := true } }
              (BitVec.ofNat 32 ((padded s w).rbits.length / w))
            exec (.split w) s = .next t
              ∧ (∃ l, StuffedOutput s w (padded s w).rbits.reverse (padded s w).ins l (padded s w).rbits.length)
              ∧ (∀ k, k < (padded s w).rbits.length / w →
                  t.tCw k = valOf (((padded s w).rbits.reverse.drop (k * w)).take w))
              ∧ SameOutside s t 0x20000 (0x20000 + 4 * ((padded s w).rbits.length / w))))

/-- R282, R283, R286, R298: without stuffing, SPLIT cuts the stream and pads its last codeword with the pad pattern. -/
def Obligations.SplitWithoutStuffing : Prop :=
  ∀ (s : State) (w : Nat), s.ctrl.getLsbD 2 = false → 1 ≤ w → w ≤ 16 → s.bsLen.toNat ≤ 32768 →
    (s.bsLen.toNat + w - 1) / w ≤ 4096 →
    ∃ t, exec (.split w) s = .next t ∧ t.dataCw.toNat = (s.bsLen.toNat + w - 1) / w ∧ t.stuffIns = 0#32
      ∧ t.stuffLen.toNat = (s.bsLen.toNat + w - 1) / w * w
      ∧ ∀ k, k < (s.bsLen.toNat + w - 1) / w →
          t.tCw k = valOf ((List.range w).map (fun j =>
            if k * w + j < s.bsLen.toNat then s.streamBit (k * w + j)
            else s.padPat.getLsbD (s.padLen - 1 - (k * w + j - s.bsLen.toNat) % s.padLen)))

/-- R291, R292, R282 to R286: SELECT takes the first considered size that fits, and writes its codewords and result
registers; the codewords are slices of the stuffed and padded stream, extended with FILL_EN = 1 by the fill pattern to
the largest multiple of the width that the capacity holds. -/
def Obligations.SelectFirstFit : Prop :=
  ∀ (s : State) (ecc : Nat) (fixed : Bool) (minSize x : Nat), SelectReady s minSize →
    Considered s fixed minSize x → (∀ y, minSize ≤ y → y < x → Skipped s ecc y) → WidthOk s x → Fits s ecc x →
    (chosen s ecc x).rbits.length / s.sizeW x ≤ s.sizeTotal x → (chosen s ecc x).rbits.length / s.sizeW x ≤ 4096 →
    ∃ m,
      let o := chosen s ecc x
      let d := o.rbits.length / s.sizeW x
      let t := completedRes
        { s with
          mem := m
          selSize := BitVec.ofNat 32 x
          selW := BitVec.ofNat 32 (s.sizeW x)
          dataCw := BitVec.ofNat 32 d
          ecCw := BitVec.ofNat 32 (s.sizeTotal x - d)
          stuffLen := BitVec.ofNat 32 o.rbits.length
          stuffIns := BitVec.ofNat 32 o.ins
          valid := { s.valid with sel := true } }
        (BitVec.ofNat 32 x)
      exec (.select ecc fixed minSize) s = .next t
        ∧ (∃ l1 l2, StuffedOutput s (s.sizeW x) o.rbits.reverse o.ins l1 l2
            ∧ (s.ctrl.getLsbD 3 = false → o.rbits.length = l2)
            ∧ (s.ctrl.getLsbD 3 = true → o.rbits.length = s.sizeCap x ecc / s.sizeW x * s.sizeW x))
        ∧ (∀ k, k < d → t.tCw k = valOf ((o.rbits.reverse.drop (k * s.sizeW x)).take (s.sizeW x)))
        ∧ SameOutside s t 0x20000 (0x20000 + 4 * d)

/-- R292, R294: the refusals of SELECT: the pre-checks change nothing; no size that fits, and a defective size
reached by the scan, clear VALID.SEL. -/
def Obligations.SelectRefusals : Prop :=
  ∀ (s : State) (ecc : Nat) (fixed : Bool) (minSize : Nat),
    (s.sizeCount.toNat ≤ minSize →
      exec (.select ecc fixed minSize) s = .next (failed s 0x06#8 0x03000000#32))
    ∧ (minSize < s.sizeCount.toNat → 32 < s.sizeCount.toNat →
      exec (.select ecc fixed minSize) s = .next (failed s 0x06#8 0x05000044#32))
    ∧ (minSize < s.sizeCount.toNat → s.sizeCount.toNat ≤ 32 → 32768 < s.bsLen.toNat →
      exec (.select ecc fixed minSize) s = .next (failed s 0x06#8 0x0500003C#32))
    ∧ (SelectReady s minSize → (∀ x, Considered s fixed minSize x → Skipped s ecc x) →
      exec (.select ecc fixed minSize) s
        = .next (failed { s with valid := { s.valid with sel := false } } 0x02#8 (0x03000000#32 ||| s.bsLen)))
    ∧ (SelectReady s minSize → ∀ x, Considered s fixed minSize x →
      (∀ y, minSize ≤ y → y < x → Skipped s ecc y) → s.sizeW x ≠ 0 →
      ¬ WidthOk s x ∨ (Fits s ecc x ∧ (s.sizeTotal x < (chosen s ecc x).rbits.length / s.sizeW x
        ∨ 4096 < (chosen s ecc x).rbits.length / s.sizeW x)) →
      exec (.select ecc fixed minSize) s
        = .next (failed { s with valid := { s.valid with sel := false } } 0x04#8
            (0x03000000#32 ||| BitVec.ofNat 32 x)))

/-- R293: the result registers of a successful SELECT agree with each other and with the size table. -/
def Obligations.SelectResults : Prop :=
  ∀ (s t : State) (ecc : Nat) (fixed : Bool) (minSize : Nat),
    exec (.select ecc fixed minSize) s = .next t → t.status.err = false →
    t.stuffLen.toNat = t.dataCw.toNat * t.selW.toNat ∧ t.stuffLen.toNat ≤ s.sizeCap t.selSize.toNat ecc
      ∧ t.ecCw.toNat + t.dataCw.toNat = s.sizeTotal t.selSize.toNat

/-- R295: the automatic and the forced path give the same state. -/
def Obligations.AutomaticForcedAgree : Prop :=
  ∀ (s t : State) (ecc minSize : Nat), exec (.select ecc false minSize) s = .next t → t.status.err = false →
    exec (.select ecc true t.selSize.toNat) s = .next t

/-- R296: with capacities that do not rise with the level, a higher level selects no smaller size, and fails where
the lower one fails. -/
def Obligations.CapacityMonotone : Prop :=
  ∀ (s t u : State) (ecc minSize : Nat), ecc < 3 →
    (∀ x, x < 32 → s.sizeCap x (ecc + 1) ≤ s.sizeCap x ecc) →
    exec (.select ecc false minSize) s = .next t → exec (.select (ecc + 1) false minSize) s = .next u →
    t.status.errCode ≠ 0x04#8 → u.status.errCode ≠ 0x04#8 →
    (u.status.err = false → t.status.err = false ∧ t.selSize.toNat ≤ u.selSize.toNat)
      ∧ (t.status.errCode = 0x02#8 → u.status.errCode = 0x02#8)

/-- R287: with stuffing, no data codeword that SELECT or SPLIT writes is all zeros or all ones. -/
def Obligations.NoAllEqualCodeword : Prop :=
  ∀ (s t : State) (i : Instr),
    (∃ ecc fixed minSize, i = .select ecc fixed minSize) ∨ (∃ w, i = .split w) →
    s.ctrl.getLsbD 2 = true → exec i s = .next t → t.status.err = false →
    2 ≤ t.selW.toNat ∧ ∀ k, k < t.dataCw.toNat → t.tCw k ≠ 0 ∧ t.tCw k ≠ 2 ^ t.selW.toNat - 1

/-! ### Whole-machine rules -/

/-- R312, R315, R33, R34, R38, R40, R43 to R46, R53: every command completes; none writes OPA, OPB, a configuration
register, CTRL, OVR, AERR, LAST_OP or PCMD, nor a byte its rule does not name; every other register is written by the
commands whose rules name it alone, and ERRINFO only with an error. (The host's side, hostQueue, lastRead and delay, is
the model's own.) -/
def Obligations.CommandsComplete : Prop :=
  ∀ (i : Instr) (s : State), ∃ t, exec i s = .next t
    ∧ t.pending = false ∧ t.status.done = true ∧ (t.status.err = true ↔ t.status.errCode ≠ 0#8)
    ∧ t.opa = s.opa ∧ t.opb = s.opb ∧ t.ctrl = s.ctrl ∧ t.nChars = s.nChars ∧ t.modeCfg = s.modeCfg
    ∧ t.maxBits = s.maxBits ∧ t.sizeCount = s.sizeCount ∧ t.padCfg = s.padCfg ∧ t.padPat = s.padPat
    ∧ t.fillPat = s.fillPat ∧ t.modecfg = s.modecfg ∧ t.pcmd = s.pcmd ∧ t.status.ovr = s.status.ovr
    ∧ t.status.aerr = s.status.aerr ∧ t.status.lastOp = s.status.lastOp
    ∧ t.hostQueue = s.hostQueue ∧ t.lastRead = s.lastRead ∧ t.delay = s.delay
    ∧ (t.status.err = false → t.errInfo = s.errInfo)
    ∧ (i = .nop ∨ i = .rsInit ∨ i = .rsEncode ∨ i = .bsClear → t.res = s.res ∧ t.status.z = s.status.z)
    ∧ (i ≠ .gfInit → t.gfPoly = s.gfPoly ∧ t.gfM = s.gfM ∧ t.valid.gf = s.valid.gf)
    ∧ (i ≠ .rsInit → t.rsE = s.rsE ∧ t.rsR0 = s.rsR0)
    ∧ (i ≠ .gfInit → i ≠ .rsInit → t.valid.rs = s.valid.rs)
    ∧ (i ≠ .gfInit → i ≠ .rsInit → i ≠ .rsEncode → t.valid.rem = s.valid.rem)
    ∧ (i ≠ .gfInit → i ≠ .rsInit → i ≠ .rsSynd → t.valid.syn = s.valid.syn)
    ∧ ((∀ ecc fixed k, i ≠ .select ecc fixed k) → (∀ w, i ≠ .split w) →
        t.valid.sel = s.valid.sel ∧ t.selSize = s.selSize ∧ t.selW = s.selW ∧ t.dataCw = s.dataCw ∧ t.ecCw = s.ecCw
          ∧ t.stuffLen = s.stuffLen ∧ t.stuffIns = s.stuffIns)
    ∧ (i ≠ .bsClear → i ≠ .build → (∀ w, i ≠ .bsAppend w) → t.bsLen = s.bsLen)
    ∧ ∀ a, ¬ Written s i a → t.loadByte a = s.loadByte a

/-- R341, R331: what a failing command leaves: its error is one its row of R331 lists; RES and Z as they were; and
nothing else changed but GF_INIT's field after its pre-check, the free bits of T.BS after BUILD's, and VALID.SEL after
SELECT's and SPLIT's. -/
def Obligations.FailureEffects : Prop :=
  ∀ (i : Instr) (s t : State), exec i s = .next t → t.status.err = true →
    t.res = s.res ∧ t.status.z = s.status.z ∧ RaisedBy t.status.errCode i ∧
    match i with
    | .gfInit =>
      t = failed s 0x06#8 t.errInfo
      ∨ ∃ m k, t = failed
          { s with
            mem := m
            draws := k
            valid := { s.valid with gf := false, rs := false, rem := false, syn := false }
            gfPoly := s.opa
            gfM := BitVec.ofNat 32 (Nat.log2 s.opa.toNat) } 0x04#8 t.errInfo
        ∧ SameOutside s t 0x40000 0xC0000
    | .build =>
      t = failed s 0x06#8 t.errInfo
      ∨ t.status.errCode ≠ 0x06#8 ∧ (∃ m k, t = failed { s with mem := m, draws := k } t.status.errCode t.errInfo)
        ∧ (∀ j, j < s.bsLen.toNat → t.streamBit j = s.streamBit j) ∧ SameOutside s t 0x18000 0x19000
    | .select _ _ _ | .split _ =>
      t = failed s 0x06#8 t.errInfo
      ∨ t.status.errCode ≠ 0x06#8
        ∧ t = failed { s with valid := { s.valid with sel := false } } t.status.errCode t.errInfo
    | _ => t = failed s t.status.errCode t.errInfo

/-- R350: the interrupt is a level, `CTRL.IE AND STATUS.DONE`: what raises it and what lowers it. -/
def Obligations.InterruptLevel : Prop :=
  ∀ s : State,
    s.irq = (s.ctrl.getLsbD 0 && s.status.done)
    ∧ (∀ (i : Instr) (t : State), exec i s = .next t → t.irq = s.ctrl.getLsbD 0)
    ∧ (∀ v : Word, v.getLsbD 1 = false → v.getLsbD 0 = true → (s.busWrite 0x004 v).irq = s.status.done)
    ∧ (∀ v : Word, v.getLsbD 1 = true → (s.busWrite 0x008 v).irq = false)
    ∧ (∀ v : Word, v.getLsbD 0 = false → (s.busWrite 0x004 v).irq = false)
    ∧ (∀ w : Word, s.pending = false → (s.busWrite 0x00C w).irq = false)
    ∧ (∀ v : Word, v.getLsbD 1 = true → (s.busWrite 0x004 v).irq = false)

/-- R39: OVR and AERR are sticky: a step clears one only when it is a host write of 1 to that bit of STATUS or a soft
reset. -/
def Obligations.StickyFlags : Prop :=
  ∀ s t : State, step s = .next t →
    (s.status.ovr = true → t.status.ovr = false → ∃ a v rest, s.hostQueue = .write a v :: rest
      ∧ ((a = 0x008#20 ∧ v.getLsbD 3 = true) ∨ (a = 0x004#20 ∧ v.getLsbD 1 = true)))
    ∧ (s.status.aerr = true → t.status.aerr = false → ∃ a v rest, s.hostQueue = .write a v :: rest
      ∧ ((a = 0x008#20 ∧ v.getLsbD 4 = true) ∨ (a = 0x004#20 ∧ v.getLsbD 1 = true)))

/-! ### The host bus -/

/-- R380: what the host may do while a command is pending, and how everything else is refused. (Whether AERR is set
too is said of the addresses that R96 to R98 name without doubt; the two windows of logs 10 and 11, and numbers above
the 20-bit map, are left open.) -/
def Obligations.BusyAccesses : Prop :=
  ∀ s : State, s.pending = true →
    (∀ a, ReadAdmitted a → s.busRead a = { s with lastRead := some (s.busValue a) })
    ∧ (∀ v : Word, s.busWrite 0x008 v =
        { s with
          status := { s.status with
            done := s.status.done && !v.getLsbD 1
            err := s.status.err && !v.getLsbD 2
            ovr := s.status.ovr && !v.getLsbD 3
            aerr := s.status.aerr && !v.getLsbD 4 } })
    ∧ (∀ v : Word, v.getLsbD 1 = false →
        s.busWrite 0x004 v = { s with ctrl := (s.ctrl &&& 0xFFFFFFFE#32) ||| (v &&& 1#32) })
    ∧ (∀ v : Word, v.getLsbD 1 = true → s.busWrite 0x004 v = s.softReset)
    ∧ (∀ a, ¬ ReadAdmitted a → ∃ e, s.busRead a = { flagged s e true with lastRead := some 0#32 }
        ∧ (a % 4 ≠ 0 ∨ ReservedAddress a → e = true)
        ∧ ((storedRegister a).isSome = true ∨ (storedMemory a).isSome = true ∨ ReadOnlyAddress a ∨ a = 0x00C →
            e = false))
    ∧ (∀ a v, a ≠ 0x004 → a ≠ 0x008 → ∃ e, s.busWrite a v = flagged s e true
        ∧ (ReadOnlyAddress a ∨ ReservedAddress a ∨ a % 4 ≠ 0 → e = true)
        ∧ ((storedRegister a).isSome = true ∨ (storedMemory a).isSome = true ∨ a = 0x00C → e = false))

/-- R96 to R99: misaligned accesses, accesses to reserved addresses (but for two windows that the model settles, logs
10 and 11) and writes to read-only locations do nothing but set AERR, and OVR too while busy; a write to STATUS and a
read of CMD are none of them. -/
def Obligations.RefusedAccesses : Prop :=
  ∀ s : State,
    (∀ a, a % 4 ≠ 0 ∨ ReservedAddress a →
      s.busRead a = { flagged s true s.pending with lastRead := some 0#32 }
      ∧ ∀ v, s.busWrite a v = flagged s true s.pending)
    ∧ (∀ a v, ReadOnlyAddress a → s.busWrite a v = flagged s true s.pending)
    ∧ (s.status.aerr = false → ∀ v, (s.busWrite 0x008 v).status.aerr = false)
    ∧ (s.pending = false → s.busRead 0x00C = { s with lastRead := some 0#32 })

/-- R93, R94, R31, R32, R35, R41, R44, R56, R62 to R74: while idle a host write stores the field bits of the word and
nothing else; a write to STATUS clears the flags written 1; a write to CTRL without SRST stores IE, STUFF_EN and
FILL_EN; and a host read of any register or memory returns what is held and changes nothing (but the record of the word
returned, log 9). -/
def Obligations.StoredLocations : Prop :=
  ∀ s : State, s.pending = false →
    (∀ off mask v, storedRegister off = some mask →
      (s.busWrite off v).busValue off = v &&& mask
      ∧ (s.busWrite off v).mem = s.mem
      ∧ (∀ o, o < 0x200 → o ≠ off → targetOf o ≠ .reserved → o % 4 = 0 →
          (s.busWrite off v).busValue o = s.busValue o)
      ∧ s.busRead off = { s with lastRead := some (s.busValue off) })
    ∧ (∀ a mask v, storedMemory a = some mask →
      (∃ m, s.busWrite a v = { s with mem := m })
      ∧ (s.busWrite a v).busValue a = v &&& mask
      ∧ SameOutside s (s.busWrite a v) a (a + 4)
      ∧ s.busRead a = { s with lastRead := some (s.busValue a) })
    ∧ (∀ v : Word, s.busWrite 0x008 v =
        { s with
          status := { s.status with
            done := s.status.done && !v.getLsbD 1
            err := s.status.err && !v.getLsbD 2
            ovr := s.status.ovr && !v.getLsbD 3
            aerr := s.status.aerr && !v.getLsbD 4 } })
    ∧ (∀ v : Word, v.getLsbD 1 = false → s.busWrite 0x004 v = { s with ctrl := v &&& 0x0000000D#32 })
    ∧ RegisterReads s ∧ MemoryReads s
end

