-- ==== Sys2Proof/Laws/Memory.lean ====
section
/-! SUPPORT. The laws of memory: what a read gives after a write, and that every memory operation keeps the
canonical form. -/

namespace Sys2Proof.Laws

open Sys2Proof Sys2Proof.Machine

/-! ### Lists of cells -/

theorem lookup_eq_none_of_forall_ne (m : Memory) (a : Nat) (h : ∀ c ∈ m, c.1 ≠ a) : m.lookup a = none := by
  induction m with
  | nil => rfl
  | cons c cs ih =>
    have hc : (a == c.1) = false := by simpa using fun e => h c (by simp) e.symm
    rw [List.lookup_cons, hc]
    exact ih (fun d hd => h d (List.mem_cons_of_mem _ hd))

theorem lookup_append (m n : Memory) (a : Nat) : (m ++ n).lookup a = (m.lookup a).or (n.lookup a) := by
  induction m with
  | nil => simp
  | cons c cs ih =>
    rw [List.cons_append, List.lookup_cons, List.lookup_cons]
    split
    · simp
    · exact ih

theorem lookup_filter_of_true (m : Memory) (a : Nat) (p : Nat → Bool) (h : p a = true) :
    (m.filter (fun c => p c.1)).lookup a = m.lookup a := by
  induction m with
  | nil => rfl
  | cons c cs ih =>
    rw [List.filter_cons, List.lookup_cons]
    by_cases hc : a = c.1
    · subst hc
      rw [if_pos h, List.lookup_cons_self, beq_self_eq_true]
    · have hb : (a == c.1) = false := by simpa using hc
      rw [hb]
      split
      · rw [List.lookup_cons, hb]
        exact ih
      · exact ih

theorem lookup_filter_of_false (m : Memory) (a : Nat) (p : Nat → Bool) (h : p a = false) :
    (m.filter (fun c => p c.1)).lookup a = none := by
  apply lookup_eq_none_of_forall_ne
  intro c hc e
  have := (List.mem_filter.1 hc).2
  rw [e, h] at this
  exact Bool.noConfusion this

/-! ### Splice -/

theorem read?_splice_inside (m : Memory) {lo hi a : Nat} (new : Memory) (h : lo ≤ a ∧ a < hi) :
    (m.splice lo hi new).read? a = new.lookup a := by
  unfold Memory.read? Memory.splice
  rw [lookup_append, lookup_append,
    lookup_filter_of_false m a (fun x => decide (x < lo)) (by simp; omega),
    lookup_filter_of_false m a (fun x => decide (hi ≤ x)) (by simp; omega)]
  simp

theorem read?_splice_outside (m : Memory) {lo hi a : Nat} (new : Memory) (h : a < lo ∨ hi ≤ a) (hlh : lo ≤ hi)
    (hn : ∀ c ∈ new, lo ≤ c.1 ∧ c.1 < hi) : (m.splice lo hi new).read? a = m.read? a := by
  unfold Memory.read? Memory.splice
  have hnew : new.lookup a = none :=
    lookup_eq_none_of_forall_ne _ _ (fun c hc e => by have := hn c hc; omega)
  rw [lookup_append, lookup_append, hnew]
  rcases h with h | h
  · rw [lookup_filter_of_true m a (fun x => decide (x < lo)) (by simpa using h),
      lookup_filter_of_false m a (fun x => decide (hi ≤ x)) (by simp; omega)]
    simp
  · rw [lookup_filter_of_false m a (fun x => decide (x < lo)) (by simp; omega),
      lookup_filter_of_true m a (fun x => decide (hi ≤ x)) (by simpa using h)]
    simp

/-- A splice keeps the canonical form. -/
theorem wf_splice (m : Memory) {lo hi : Nat} (new : Memory) (hm : m.wf) (hw : new.wf) (hlh : lo ≤ hi)
    (hn : ∀ c ∈ new, lo ≤ c.1 ∧ c.1 < hi) : (m.splice lo hi new).wf := by
  unfold Memory.wf Memory.splice at *
  rw [List.append_assoc, List.pairwise_append, List.pairwise_append]
  refine ⟨hm.filter _, ⟨hw, hm.filter _, ?_⟩, ?_⟩
  · intro x hx y hy
    have := hn x hx
    have := (List.mem_filter.1 hy).2
    simp at this
    omega
  · intro x hx y hy
    have h1 := (List.mem_filter.1 hx).2
    simp at h1
    rcases List.mem_append.1 hy with hy | hy
    · have := hn y hy
      omega
    · have h2 := (List.mem_filter.1 hy).2
      simp at h2
      omega

/-! ### Words as cells -/

theorem mem_wordCells {a : Nat} {ws : List Word} {c : Host.Cell} (h : c ∈ wordCells a ws) :
    a ≤ c.1 ∧ c.1 < a + 4 * ws.length := by
  induction ws generalizing a with
  | nil => simp [wordCells] at h
  | cons w ws ih =>
    simp only [wordCells, List.mem_append] at h
    simp only [List.length_cons]
    rcases h with h | h
    · simp only [laneCells, List.mem_cons, List.not_mem_nil, or_false] at h
      rcases h with rfl | rfl | rfl | rfl <;> simp <;> omega
    · have := ih h
      omega

theorem wf_wordCells (a : Nat) (ws : List Word) : (wordCells a ws).wf := by
  induction ws generalizing a with
  | nil => exact List.Pairwise.nil
  | cons w ws ih =>
    unfold Memory.wf wordCells
    rw [List.pairwise_append]
    refine ⟨?_, ih (a + 4), ?_⟩
    · simp [laneCells]
    · intro x hx y hy
      have := mem_wordCells hy
      simp only [laneCells, List.mem_cons, List.not_mem_nil, or_false] at hx
      rcases hx with rfl | rfl | rfl | rfl <;> simp <;> omega

theorem lookup_wordCells (a : Nat) (ws : List Word) (i j : Nat) (hi : i < ws.length) (hj : j < 4) :
    (wordCells a ws).lookup (a + 4 * i + j) = some ((ws[i]).extractLsb' (8 * j) 8) := by
  induction ws generalizing a i with
  | nil => simp at hi
  | cons w ws ih =>
    unfold wordCells
    rw [lookup_append]
    cases i with
    | zero =>
      have hl : (laneCells a w).lookup (a + 4 * 0 + j) = some (w.extractLsb' (8 * j) 8) := by
        have : j = 0 ∨ j = 1 ∨ j = 2 ∨ j = 3 := by omega
        have ne (x y : Nat) (h : x ≠ y) : (x == y) = false := by simpa using h
        rcases this with rfl | rfl | rfl | rfl <;> unfold laneCells <;> simp only [List.lookup_cons]
        · simp
        · rw [ne _ a (by omega)]
          simp
        · rw [ne _ a (by omega), ne _ (a + 1) (by omega)]
          simp
        · rw [ne _ a (by omega), ne _ (a + 1) (by omega), ne _ (a + 2) (by omega)]
          simp
      rw [hl]
      simp
    | succ i =>
      have hl : (laneCells a w).lookup (a + 4 * (i + 1) + j) = none := by
        apply lookup_eq_none_of_forall_ne
        intro c hc
        simp only [laneCells, List.mem_cons, List.not_mem_nil, or_false] at hc
        rcases hc with rfl | rfl | rfl | rfl <;> simp <;> omega
      have e : a + 4 * (i + 1) + j = a + 4 + 4 * i + j := by omega
      rw [hl, e, ih (a + 4) i (by simpa using hi)]
      simp

@[simp] theorem length_maskWords (a : Nat) (ws : List Word) : (maskWords a ws).length = ws.length := by
  induction ws generalizing a with
  | nil => rfl
  | cons w ws ih => simp [maskWords, ih]

theorem getElem_maskWords (a : Nat) (ws : List Word) (i : Nat) (h : i < (maskWords a ws).length) :
    (maskWords a ws)[i] = ws[i]'(by simpa using h) &&& fieldMask (a + 4 * i) := by
  induction ws generalizing a i with
  | nil => simp [maskWords] at h
  | cons w ws ih =>
    cases i with
    | zero => simp [maskWords]
    | succ i =>
      have e : a + 4 * (i + 1) = a + 4 + 4 * i := by omega
      simp only [maskWords, List.getElem_cons_succ]
      rw [ih, e]

/-! ### Stores and loads -/

/-- Every store of words keeps the canonical form. -/
theorem wf_writeWords (m : Memory) (a : Nat) (ws : List Word) (hm : m.wf) : (m.writeWords a ws).wf :=
  wf_splice m _ hm (wf_wordCells a ws) (by omega) (fun _ hc => mem_wordCells hc)

theorem wf_storeWords (s : State) (a : Nat) (ws : List Word) (h : s.mem.wf) : (s.storeWords a ws).mem.wf :=
  wf_writeWords _ _ _ h

theorem wf_storeNats (s : State) (a : Nat) (vs : List Nat) (h : s.mem.wf) : (s.storeNats a vs).mem.wf :=
  wf_storeWords _ _ _ h

theorem wf_forgetWords (s : State) (a n : Nat) (h : s.mem.wf) : (s.forgetWords a n).mem.wf :=
  wf_storeWords _ _ _ h

theorem wf_storeStream (s : State) (j n : Nat) (f : Nat → Bool) (h : s.mem.wf) : (s.storeStream j n f).mem.wf :=
  wf_storeWords _ _ _ h

theorem wf_putBits (s : State) (p : Nat) (t : Bits) (h : s.mem.wf) : (s.putBits p t).mem.wf := by
  unfold State.putBits
  split
  · exact h
  · exact wf_storeStream _ _ _ _ h

theorem wf_forgetStreamFrom (s : State) (p : Nat) (h : s.mem.wf) : (s.forgetStreamFrom p).mem.wf :=
  wf_storeStream _ _ _ _ h

/-- The memory after power-on has the canonical form. -/
theorem wf_reset : State.reset.mem.wf := List.Pairwise.nil

/-- A store leaves every byte outside its words as it was. -/
theorem loadByte_storeWords_outside (s : State) (a : Nat) (ws : List Word) (b : Nat)
    (h : b < a ∨ a + 4 * ws.length ≤ b) : (s.storeWords a ws).loadByte b = s.loadByte b := by
  unfold State.loadByte State.storeWords Memory.writeWords
  simp only
  rw [read?_splice_outside _ _ (by simpa using h) (by omega) (fun c hc => mem_wordCells hc)]

theorem loadByte_storeWords_inside (s : State) (a : Nat) (ws : List Word) (i j : Nat) (hi : i < ws.length)
    (hj : j < 4) :
    (s.storeWords a ws).loadByte (a + 4 * i + j) = (ws[i] &&& fieldMask (a + 4 * i)).extractLsb' (8 * j) 8 := by
  unfold State.loadByte State.storeWords Memory.writeWords
  simp only
  have hi' : i < (maskWords a ws).length := by simpa using hi
  rw [read?_splice_inside _ _ (by simp; omega), lookup_wordCells _ _ i j hi' hj, getElem_maskWords]
  rfl

theorem lanes_append (w : Word) :
    (w.extractLsb' 24 8 ++ w.extractLsb' 16 8 ++ w.extractLsb' 8 8 ++ w.extractLsb' 0 8 : BitVec 32) = w := by
  ext i hi
  simp only [BitVec.getElem_append, BitVec.getElem_extractLsb']
  split
  · simp [BitVec.getLsbD_eq_getElem hi]
  · split
    · rw [show 8 + (i - 8) = i by omega, BitVec.getLsbD_eq_getElem hi]
    · split
      · rw [show 16 + (i - 8 - 8) = i by omega, BitVec.getLsbD_eq_getElem hi]
      · rw [show 24 + (i - 8 - 8 - 8) = i by omega, BitVec.getLsbD_eq_getElem hi]

/-- A load of a stored entry gives the value stored, restricted to the entry's fields. -/
theorem load_storeWords_inside (s : State) (a : Nat) (ws : List Word) (i : Nat) (hi : i < ws.length) :
    (s.storeWords a ws).load (a + 4 * i) = ws[i] &&& fieldMask (a + 4 * i) := by
  have h := fun j hj => loadByte_storeWords_inside s a ws i j hi hj
  unfold State.load State.rawWord
  rw [h 3 (by omega), h 2 (by omega), h 1 (by omega), show a + 4 * i = a + 4 * i + 0 by rfl, h 0 (by omega)]
  simp only [Nat.add_zero, Nat.mul_zero, Nat.mul_one, Nat.reduceMul]
  rw [lanes_append, BitVec.and_assoc, BitVec.and_self]

/-- A store leaves every entry outside its words as it was. -/
theorem load_storeWords_outside (s : State) (a : Nat) (ws : List Word) (b : Nat)
    (h : b + 4 ≤ a ∨ a + 4 * ws.length ≤ b) : (s.storeWords a ws).load b = s.load b := by
  unfold State.load State.rawWord
  rw [loadByte_storeWords_outside _ _ _ _ (by omega), loadByte_storeWords_outside _ _ _ _ (by omega),
    loadByte_storeWords_outside _ _ _ _ (by omega), loadByte_storeWords_outside _ _ _ _ (by omega)]

/-- The loads of a state depend on its memory alone. -/
theorem load_congr {s t : State} (h : t.mem = s.mem) (a : Nat) : t.load a = s.load a := by
  simp [State.load, State.rawWord, State.loadByte, h]

/-- Entry k of a stored list of integers. -/
theorem entry_storeNats (s : State) (base : Nat) (vs : List Nat) (k : Nat) (hk : k < vs.length) :
    (s.storeNats base vs).entry base k = (BitVec.ofNat 32 vs[k] &&& fieldMask (base + 4 * k)).toNat := by
  unfold State.entry State.storeNats
  rw [load_storeWords_inside _ _ _ _ (by simpa using hk)]
  simp

/-! ### The bit stream -/

theorem valOf_append (a b : Bits) : valOf (a ++ b) = valOf a * 2 ^ b.length + valOf b := by
  unfold valOf
  rw [List.foldl_append]
  generalize a.foldl (fun acc b => 2 * acc + b.toNat) 0 = x
  induction b using List.reverseRecOn with
  | nil => simp
  | append_singleton b c ih => simp [List.foldl_append, ih, Nat.pow_succ]; ring

theorem valOf_lt (b : Bits) : valOf b < 2 ^ b.length := by
  induction b using List.reverseRecOn with
  | nil => simp [valOf]
  | append_singleton b c ih =>
    rw [valOf_append]
    cases c <;> simp [valOf, Nat.pow_succ] at * <;> omega

/-- Bit `n-1-i` of the value of n bits is bit i of the sequence (00_scope.md R13). -/
theorem testBit_valOf (b : Bits) (i : Nat) (h : i < b.length) : (valOf b).testBit (b.length - 1 - i) = b[i] := by
  induction b using List.reverseRecOn with
  | nil => simp at h
  | append_singleton b c ih =>
    rw [valOf_append]
    simp only [List.length_append, List.length_singleton] at h ⊢
    have hc : valOf [c] = c.toNat := by cases c <;> rfl
    rw [hc]
    by_cases hi : i = b.length
    · subst hi
      cases c <;> simp
    · have hlt : i < b.length := by omega
      rw [List.getElem_append_left hlt, ← ih hlt,
        show b.length + 1 - 1 - i = (b.length - 1 - i) + 1 by omega, Nat.testBit_succ]
      congr 1
      cases c <;> simp
      omega

/-- Bit `31 - i` of a packed word is the bit asked for. -/
theorem getMsbD_packWord (f : Nat → Bool) (i : Nat) (h : i < 32) : (packWord f).getMsbD i = f i := by
  have hl : ((List.range 32).map f).length = 32 := by simp
  have ht := testBit_valOf ((List.range 32).map f) i (by simpa using h)
  have e : ((List.range 32).map f).length - 1 - i = 32 - 1 - i := by omega
  rw [e] at ht
  unfold packWord
  rw [BitVec.getMsbD_eq_getLsbD, BitVec.getLsbD_ofNat, ht, List.getElem_map, List.getElem_range]
  have h31 : 32 - 1 - i < 32 := by omega
  simp [h, h31]

theorem fieldMask_bs (j : Nat) (h : j < 1024) : fieldMask (bsBase + 4 * j) = 0xFFFFFFFF#32 := by
  have : regionOf (bsBase + 4 * j) = .bs := by
    unfold regionOf bsBase cidxN
    repeat rw [if_neg (by omega)]
    rw [if_pos (by omega)]
  simp [fieldMask, this]

/-- What a rewrite of BS words leaves in the stream: the new bits inside, the old ones outside. -/
theorem streamBit_storeStream (s : State) (j0 n : Nat) (f : Nat → Bool) (k : Nat) (hn : j0 + n ≤ 1024) :
    (s.storeStream j0 n f).streamBit k = if j0 ≤ k / 32 ∧ k / 32 < j0 + n then f k else s.streamBit k := by
  unfold State.streamBit State.storeStream
  split
  · next h =>
    have e : bsBase + 4 * (k / 32) = bsBase + 4 * j0 + 4 * (k / 32 - j0) := by omega
    rw [e, load_storeWords_inside _ _ _ _ (by simp; omega), ← e, fieldMask_bs _ (by omega)]
    rw [show (0xFFFFFFFF#32) = BitVec.allOnes 32 by decide, BitVec.and_allOnes]
    simp only [List.getElem_map, List.getElem_range]
    rw [getMsbD_packWord _ _ (Nat.mod_lt _ (by omega))]
    congr 1
    omega
  · next h =>
    rw [load_storeWords_outside _ _ _ _ (by simp; omega)]

end Sys2Proof.Laws
end

