-- ==== Sys2Proof/Laws/State.lean ====
section
/-! SUPPORT. One lemma per field and per update of State, each true by `rfl`: no later proof unfolds a record update. -/

namespace Sys2Proof.Laws

open Sys2Proof Sys2Proof.Machine

variable (s : State)

/-! ### `State.writeRes` -/

@[simp] theorem writeRes_ctrl (v : Word) : (s.writeRes v).ctrl = s.ctrl := rfl
@[simp] theorem writeRes_status_done (v : Word) : (s.writeRes v).status.done = s.status.done := rfl
@[simp] theorem writeRes_status_err (v : Word) : (s.writeRes v).status.err = s.status.err := rfl
@[simp] theorem writeRes_status_ovr (v : Word) : (s.writeRes v).status.ovr = s.status.ovr := rfl
@[simp] theorem writeRes_status_aerr (v : Word) : (s.writeRes v).status.aerr = s.status.aerr := rfl
@[simp] theorem writeRes_status_z (v : Word) : (s.writeRes v).status.z = decide (v = 0) := rfl
@[simp] theorem writeRes_status_errCode (v : Word) : (s.writeRes v).status.errCode = s.status.errCode := rfl
@[simp] theorem writeRes_status_lastOp (v : Word) : (s.writeRes v).status.lastOp = s.status.lastOp := rfl
@[simp] theorem writeRes_opa (v : Word) : (s.writeRes v).opa = s.opa := rfl
@[simp] theorem writeRes_opb (v : Word) : (s.writeRes v).opb = s.opb := rfl
@[simp] theorem writeRes_res (v : Word) : (s.writeRes v).res = v := rfl
@[simp] theorem writeRes_errInfo (v : Word) : (s.writeRes v).errInfo = s.errInfo := rfl
@[simp] theorem writeRes_valid (v : Word) : (s.writeRes v).valid = s.valid := rfl
@[simp] theorem writeRes_gfPoly (v : Word) : (s.writeRes v).gfPoly = s.gfPoly := rfl
@[simp] theorem writeRes_gfM (v : Word) : (s.writeRes v).gfM = s.gfM := rfl
@[simp] theorem writeRes_rsE (v : Word) : (s.writeRes v).rsE = s.rsE := rfl
@[simp] theorem writeRes_rsR0 (v : Word) : (s.writeRes v).rsR0 = s.rsR0 := rfl
@[simp] theorem writeRes_nChars (v : Word) : (s.writeRes v).nChars = s.nChars := rfl
@[simp] theorem writeRes_modeCfg (v : Word) : (s.writeRes v).modeCfg = s.modeCfg := rfl
@[simp] theorem writeRes_bsLen (v : Word) : (s.writeRes v).bsLen = s.bsLen := rfl
@[simp] theorem writeRes_maxBits (v : Word) : (s.writeRes v).maxBits = s.maxBits := rfl
@[simp] theorem writeRes_sizeCount (v : Word) : (s.writeRes v).sizeCount = s.sizeCount := rfl
@[simp] theorem writeRes_padCfg (v : Word) : (s.writeRes v).padCfg = s.padCfg := rfl
@[simp] theorem writeRes_padPat (v : Word) : (s.writeRes v).padPat = s.padPat := rfl
@[simp] theorem writeRes_fillPat (v : Word) : (s.writeRes v).fillPat = s.fillPat := rfl
@[simp] theorem writeRes_selSize (v : Word) : (s.writeRes v).selSize = s.selSize := rfl
@[simp] theorem writeRes_selW (v : Word) : (s.writeRes v).selW = s.selW := rfl
@[simp] theorem writeRes_dataCw (v : Word) : (s.writeRes v).dataCw = s.dataCw := rfl
@[simp] theorem writeRes_ecCw (v : Word) : (s.writeRes v).ecCw = s.ecCw := rfl
@[simp] theorem writeRes_stuffLen (v : Word) : (s.writeRes v).stuffLen = s.stuffLen := rfl
@[simp] theorem writeRes_stuffIns (v : Word) : (s.writeRes v).stuffIns = s.stuffIns := rfl
@[simp] theorem writeRes_modecfg (v : Word) : (s.writeRes v).modecfg = s.modecfg := rfl
@[simp] theorem writeRes_pending (v : Word) : (s.writeRes v).pending = s.pending := rfl
@[simp] theorem writeRes_pcmd (v : Word) : (s.writeRes v).pcmd = s.pcmd := rfl
@[simp] theorem writeRes_mem (v : Word) : (s.writeRes v).mem = s.mem := rfl
@[simp] theorem writeRes_hostQueue (v : Word) : (s.writeRes v).hostQueue = s.hostQueue := rfl
@[simp] theorem writeRes_lastRead (v : Word) : (s.writeRes v).lastRead = s.lastRead := rfl
@[simp] theorem writeRes_delay (v : Word) : (s.writeRes v).delay = s.delay := rfl
@[simp] theorem writeRes_draws (v : Word) : (s.writeRes v).draws = s.draws := rfl
@[simp] theorem writeRes_loadByte (v : Word) (x : Nat) : (s.writeRes v).loadByte x = s.loadByte x := rfl
@[simp] theorem writeRes_load (v : Word) (x : Nat) : (s.writeRes v).load x = s.load x := rfl

/-! ### `State.writeResNat` -/

@[simp] theorem writeResNat_ctrl (v : Nat) : (s.writeResNat v).ctrl = s.ctrl := rfl
@[simp] theorem writeResNat_status_done (v : Nat) : (s.writeResNat v).status.done = s.status.done := rfl
@[simp] theorem writeResNat_status_err (v : Nat) : (s.writeResNat v).status.err = s.status.err := rfl
@[simp] theorem writeResNat_status_ovr (v : Nat) : (s.writeResNat v).status.ovr = s.status.ovr := rfl
@[simp] theorem writeResNat_status_aerr (v : Nat) : (s.writeResNat v).status.aerr = s.status.aerr := rfl
@[simp] theorem writeResNat_status_z (v : Nat) : (s.writeResNat v).status.z = decide (BitVec.ofNat 32 v = 0) := rfl
@[simp] theorem writeResNat_status_errCode (v : Nat) : (s.writeResNat v).status.errCode = s.status.errCode := rfl
@[simp] theorem writeResNat_status_lastOp (v : Nat) : (s.writeResNat v).status.lastOp = s.status.lastOp := rfl
@[simp] theorem writeResNat_opa (v : Nat) : (s.writeResNat v).opa = s.opa := rfl
@[simp] theorem writeResNat_opb (v : Nat) : (s.writeResNat v).opb = s.opb := rfl
@[simp] theorem writeResNat_res (v : Nat) : (s.writeResNat v).res = BitVec.ofNat 32 v := rfl
@[simp] theorem writeResNat_errInfo (v : Nat) : (s.writeResNat v).errInfo = s.errInfo := rfl
@[simp] theorem writeResNat_valid (v : Nat) : (s.writeResNat v).valid = s.valid := rfl
@[simp] theorem writeResNat_gfPoly (v : Nat) : (s.writeResNat v).gfPoly = s.gfPoly := rfl
@[simp] theorem writeResNat_gfM (v : Nat) : (s.writeResNat v).gfM = s.gfM := rfl
@[simp] theorem writeResNat_rsE (v : Nat) : (s.writeResNat v).rsE = s.rsE := rfl
@[simp] theorem writeResNat_rsR0 (v : Nat) : (s.writeResNat v).rsR0 = s.rsR0 := rfl
@[simp] theorem writeResNat_nChars (v : Nat) : (s.writeResNat v).nChars = s.nChars := rfl
@[simp] theorem writeResNat_modeCfg (v : Nat) : (s.writeResNat v).modeCfg = s.modeCfg := rfl
@[simp] theorem writeResNat_bsLen (v : Nat) : (s.writeResNat v).bsLen = s.bsLen := rfl
@[simp] theorem writeResNat_maxBits (v : Nat) : (s.writeResNat v).maxBits = s.maxBits := rfl
@[simp] theorem writeResNat_sizeCount (v : Nat) : (s.writeResNat v).sizeCount = s.sizeCount := rfl
@[simp] theorem writeResNat_padCfg (v : Nat) : (s.writeResNat v).padCfg = s.padCfg := rfl
@[simp] theorem writeResNat_padPat (v : Nat) : (s.writeResNat v).padPat = s.padPat := rfl
@[simp] theorem writeResNat_fillPat (v : Nat) : (s.writeResNat v).fillPat = s.fillPat := rfl
@[simp] theorem writeResNat_selSize (v : Nat) : (s.writeResNat v).selSize = s.selSize := rfl
@[simp] theorem writeResNat_selW (v : Nat) : (s.writeResNat v).selW = s.selW := rfl
@[simp] theorem writeResNat_dataCw (v : Nat) : (s.writeResNat v).dataCw = s.dataCw := rfl
@[simp] theorem writeResNat_ecCw (v : Nat) : (s.writeResNat v).ecCw = s.ecCw := rfl
@[simp] theorem writeResNat_stuffLen (v : Nat) : (s.writeResNat v).stuffLen = s.stuffLen := rfl
@[simp] theorem writeResNat_stuffIns (v : Nat) : (s.writeResNat v).stuffIns = s.stuffIns := rfl
@[simp] theorem writeResNat_modecfg (v : Nat) : (s.writeResNat v).modecfg = s.modecfg := rfl
@[simp] theorem writeResNat_pending (v : Nat) : (s.writeResNat v).pending = s.pending := rfl
@[simp] theorem writeResNat_pcmd (v : Nat) : (s.writeResNat v).pcmd = s.pcmd := rfl
@[simp] theorem writeResNat_mem (v : Nat) : (s.writeResNat v).mem = s.mem := rfl
@[simp] theorem writeResNat_hostQueue (v : Nat) : (s.writeResNat v).hostQueue = s.hostQueue := rfl
@[simp] theorem writeResNat_lastRead (v : Nat) : (s.writeResNat v).lastRead = s.lastRead := rfl
@[simp] theorem writeResNat_delay (v : Nat) : (s.writeResNat v).delay = s.delay := rfl
@[simp] theorem writeResNat_draws (v : Nat) : (s.writeResNat v).draws = s.draws := rfl
@[simp] theorem writeResNat_loadByte (v : Nat) (x : Nat) : (s.writeResNat v).loadByte x = s.loadByte x := rfl
@[simp] theorem writeResNat_load (v : Nat) (x : Nat) : (s.writeResNat v).load x = s.load x := rfl

/-! ### `State.takeError` -/

@[simp] theorem takeError_ctrl (e : Err) : (s.takeError e).ctrl = s.ctrl := rfl
@[simp] theorem takeError_status_done (e : Err) : (s.takeError e).status.done = true := rfl
@[simp] theorem takeError_status_err (e : Err) : (s.takeError e).status.err = true := rfl
@[simp] theorem takeError_status_ovr (e : Err) : (s.takeError e).status.ovr = s.status.ovr := rfl
@[simp] theorem takeError_status_aerr (e : Err) : (s.takeError e).status.aerr = s.status.aerr := rfl
@[simp] theorem takeError_status_z (e : Err) : (s.takeError e).status.z = s.status.z := rfl
@[simp] theorem takeError_status_errCode (e : Err) : (s.takeError e).status.errCode = e.kind.code := rfl
@[simp] theorem takeError_status_lastOp (e : Err) : (s.takeError e).status.lastOp = s.status.lastOp := rfl
@[simp] theorem takeError_opa (e : Err) : (s.takeError e).opa = s.opa := rfl
@[simp] theorem takeError_opb (e : Err) : (s.takeError e).opb = s.opb := rfl
@[simp] theorem takeError_res (e : Err) : (s.takeError e).res = s.res := rfl
@[simp] theorem takeError_errInfo (e : Err) : (s.takeError e).errInfo = e.info := rfl
@[simp] theorem takeError_valid (e : Err) : (s.takeError e).valid = s.valid := rfl
@[simp] theorem takeError_gfPoly (e : Err) : (s.takeError e).gfPoly = s.gfPoly := rfl
@[simp] theorem takeError_gfM (e : Err) : (s.takeError e).gfM = s.gfM := rfl
@[simp] theorem takeError_rsE (e : Err) : (s.takeError e).rsE = s.rsE := rfl
@[simp] theorem takeError_rsR0 (e : Err) : (s.takeError e).rsR0 = s.rsR0 := rfl
@[simp] theorem takeError_nChars (e : Err) : (s.takeError e).nChars = s.nChars := rfl
@[simp] theorem takeError_modeCfg (e : Err) : (s.takeError e).modeCfg = s.modeCfg := rfl
@[simp] theorem takeError_bsLen (e : Err) : (s.takeError e).bsLen = s.bsLen := rfl
@[simp] theorem takeError_maxBits (e : Err) : (s.takeError e).maxBits = s.maxBits := rfl
@[simp] theorem takeError_sizeCount (e : Err) : (s.takeError e).sizeCount = s.sizeCount := rfl
@[simp] theorem takeError_padCfg (e : Err) : (s.takeError e).padCfg = s.padCfg := rfl
@[simp] theorem takeError_padPat (e : Err) : (s.takeError e).padPat = s.padPat := rfl
@[simp] theorem takeError_fillPat (e : Err) : (s.takeError e).fillPat = s.fillPat := rfl
@[simp] theorem takeError_selSize (e : Err) : (s.takeError e).selSize = s.selSize := rfl
@[simp] theorem takeError_selW (e : Err) : (s.takeError e).selW = s.selW := rfl
@[simp] theorem takeError_dataCw (e : Err) : (s.takeError e).dataCw = s.dataCw := rfl
@[simp] theorem takeError_ecCw (e : Err) : (s.takeError e).ecCw = s.ecCw := rfl
@[simp] theorem takeError_stuffLen (e : Err) : (s.takeError e).stuffLen = s.stuffLen := rfl
@[simp] theorem takeError_stuffIns (e : Err) : (s.takeError e).stuffIns = s.stuffIns := rfl
@[simp] theorem takeError_modecfg (e : Err) : (s.takeError e).modecfg = s.modecfg := rfl
@[simp] theorem takeError_pending (e : Err) : (s.takeError e).pending = false := rfl
@[simp] theorem takeError_pcmd (e : Err) : (s.takeError e).pcmd = s.pcmd := rfl
@[simp] theorem takeError_mem (e : Err) : (s.takeError e).mem = s.mem := rfl
@[simp] theorem takeError_hostQueue (e : Err) : (s.takeError e).hostQueue = s.hostQueue := rfl
@[simp] theorem takeError_lastRead (e : Err) : (s.takeError e).lastRead = s.lastRead := rfl
@[simp] theorem takeError_delay (e : Err) : (s.takeError e).delay = s.delay := rfl
@[simp] theorem takeError_draws (e : Err) : (s.takeError e).draws = s.draws := rfl
@[simp] theorem takeError_loadByte (e : Err) (x : Nat) : (s.takeError e).loadByte x = s.loadByte x := rfl
@[simp] theorem takeError_load (e : Err) (x : Nat) : (s.takeError e).load x = s.load x := rfl

/-! ### `State.completeOk` -/

@[simp] theorem completeOk_ctrl : (s.completeOk).ctrl = s.ctrl := rfl
@[simp] theorem completeOk_status_done : (s.completeOk).status.done = true := rfl
@[simp] theorem completeOk_status_err : (s.completeOk).status.err = false := rfl
@[simp] theorem completeOk_status_ovr : (s.completeOk).status.ovr = s.status.ovr := rfl
@[simp] theorem completeOk_status_aerr : (s.completeOk).status.aerr = s.status.aerr := rfl
@[simp] theorem completeOk_status_z : (s.completeOk).status.z = s.status.z := rfl
@[simp] theorem completeOk_status_errCode : (s.completeOk).status.errCode = 0 := rfl
@[simp] theorem completeOk_status_lastOp : (s.completeOk).status.lastOp = s.status.lastOp := rfl
@[simp] theorem completeOk_opa : (s.completeOk).opa = s.opa := rfl
@[simp] theorem completeOk_opb : (s.completeOk).opb = s.opb := rfl
@[simp] theorem completeOk_res : (s.completeOk).res = s.res := rfl
@[simp] theorem completeOk_errInfo : (s.completeOk).errInfo = s.errInfo := rfl
@[simp] theorem completeOk_valid : (s.completeOk).valid = s.valid := rfl
@[simp] theorem completeOk_gfPoly : (s.completeOk).gfPoly = s.gfPoly := rfl
@[simp] theorem completeOk_gfM : (s.completeOk).gfM = s.gfM := rfl
@[simp] theorem completeOk_rsE : (s.completeOk).rsE = s.rsE := rfl
@[simp] theorem completeOk_rsR0 : (s.completeOk).rsR0 = s.rsR0 := rfl
@[simp] theorem completeOk_nChars : (s.completeOk).nChars = s.nChars := rfl
@[simp] theorem completeOk_modeCfg : (s.completeOk).modeCfg = s.modeCfg := rfl
@[simp] theorem completeOk_bsLen : (s.completeOk).bsLen = s.bsLen := rfl
@[simp] theorem completeOk_maxBits : (s.completeOk).maxBits = s.maxBits := rfl
@[simp] theorem completeOk_sizeCount : (s.completeOk).sizeCount = s.sizeCount := rfl
@[simp] theorem completeOk_padCfg : (s.completeOk).padCfg = s.padCfg := rfl
@[simp] theorem completeOk_padPat : (s.completeOk).padPat = s.padPat := rfl
@[simp] theorem completeOk_fillPat : (s.completeOk).fillPat = s.fillPat := rfl
@[simp] theorem completeOk_selSize : (s.completeOk).selSize = s.selSize := rfl
@[simp] theorem completeOk_selW : (s.completeOk).selW = s.selW := rfl
@[simp] theorem completeOk_dataCw : (s.completeOk).dataCw = s.dataCw := rfl
@[simp] theorem completeOk_ecCw : (s.completeOk).ecCw = s.ecCw := rfl
@[simp] theorem completeOk_stuffLen : (s.completeOk).stuffLen = s.stuffLen := rfl
@[simp] theorem completeOk_stuffIns : (s.completeOk).stuffIns = s.stuffIns := rfl
@[simp] theorem completeOk_modecfg : (s.completeOk).modecfg = s.modecfg := rfl
@[simp] theorem completeOk_pending : (s.completeOk).pending = false := rfl
@[simp] theorem completeOk_pcmd : (s.completeOk).pcmd = s.pcmd := rfl
@[simp] theorem completeOk_mem : (s.completeOk).mem = s.mem := rfl
@[simp] theorem completeOk_hostQueue : (s.completeOk).hostQueue = s.hostQueue := rfl
@[simp] theorem completeOk_lastRead : (s.completeOk).lastRead = s.lastRead := rfl
@[simp] theorem completeOk_delay : (s.completeOk).delay = s.delay := rfl
@[simp] theorem completeOk_draws : (s.completeOk).draws = s.draws := rfl
@[simp] theorem completeOk_loadByte (x : Nat) : (s.completeOk).loadByte x = s.loadByte x := rfl
@[simp] theorem completeOk_load (x : Nat) : (s.completeOk).load x = s.load x := rfl

/-! ### `State.issue` -/

@[simp] theorem issue_ctrl (w : Word) : (s.issue w).ctrl = s.ctrl := rfl
@[simp] theorem issue_status_done (w : Word) : (s.issue w).status.done = false := rfl
@[simp] theorem issue_status_err (w : Word) : (s.issue w).status.err = false := rfl
@[simp] theorem issue_status_ovr (w : Word) : (s.issue w).status.ovr = s.status.ovr := rfl
@[simp] theorem issue_status_aerr (w : Word) : (s.issue w).status.aerr = s.status.aerr := rfl
@[simp] theorem issue_status_z (w : Word) : (s.issue w).status.z = s.status.z := rfl
@[simp] theorem issue_status_errCode (w : Word) : (s.issue w).status.errCode = 0 := rfl
@[simp] theorem issue_status_lastOp (w : Word) : (s.issue w).status.lastOp = w.extractLsb' 24 8 := rfl
@[simp] theorem issue_opa (w : Word) : (s.issue w).opa = s.opa := rfl
@[simp] theorem issue_opb (w : Word) : (s.issue w).opb = s.opb := rfl
@[simp] theorem issue_res (w : Word) : (s.issue w).res = s.res := rfl
@[simp] theorem issue_errInfo (w : Word) : (s.issue w).errInfo = 0 := rfl
@[simp] theorem issue_valid (w : Word) : (s.issue w).valid = s.valid := rfl
@[simp] theorem issue_gfPoly (w : Word) : (s.issue w).gfPoly = s.gfPoly := rfl
@[simp] theorem issue_gfM (w : Word) : (s.issue w).gfM = s.gfM := rfl
@[simp] theorem issue_rsE (w : Word) : (s.issue w).rsE = s.rsE := rfl
@[simp] theorem issue_rsR0 (w : Word) : (s.issue w).rsR0 = s.rsR0 := rfl
@[simp] theorem issue_nChars (w : Word) : (s.issue w).nChars = s.nChars := rfl
@[simp] theorem issue_modeCfg (w : Word) : (s.issue w).modeCfg = s.modeCfg := rfl
@[simp] theorem issue_bsLen (w : Word) : (s.issue w).bsLen = s.bsLen := rfl
@[simp] theorem issue_maxBits (w : Word) : (s.issue w).maxBits = s.maxBits := rfl
@[simp] theorem issue_sizeCount (w : Word) : (s.issue w).sizeCount = s.sizeCount := rfl
@[simp] theorem issue_padCfg (w : Word) : (s.issue w).padCfg = s.padCfg := rfl
@[simp] theorem issue_padPat (w : Word) : (s.issue w).padPat = s.padPat := rfl
@[simp] theorem issue_fillPat (w : Word) : (s.issue w).fillPat = s.fillPat := rfl
@[simp] theorem issue_selSize (w : Word) : (s.issue w).selSize = s.selSize := rfl
@[simp] theorem issue_selW (w : Word) : (s.issue w).selW = s.selW := rfl
@[simp] theorem issue_dataCw (w : Word) : (s.issue w).dataCw = s.dataCw := rfl
@[simp] theorem issue_ecCw (w : Word) : (s.issue w).ecCw = s.ecCw := rfl
@[simp] theorem issue_stuffLen (w : Word) : (s.issue w).stuffLen = s.stuffLen := rfl
@[simp] theorem issue_stuffIns (w : Word) : (s.issue w).stuffIns = s.stuffIns := rfl
@[simp] theorem issue_modecfg (w : Word) : (s.issue w).modecfg = s.modecfg := rfl
@[simp] theorem issue_pending (w : Word) : (s.issue w).pending = true := rfl
@[simp] theorem issue_pcmd (w : Word) : (s.issue w).pcmd = w := rfl
@[simp] theorem issue_mem (w : Word) : (s.issue w).mem = s.mem := rfl
@[simp] theorem issue_hostQueue (w : Word) : (s.issue w).hostQueue = s.hostQueue := rfl
@[simp] theorem issue_lastRead (w : Word) : (s.issue w).lastRead = s.lastRead := rfl
@[simp] theorem issue_delay (w : Word) : (s.issue w).delay = Config.latency s.draws := rfl
@[simp] theorem issue_draws (w : Word) : (s.issue w).draws = s.draws + 1 := rfl
@[simp] theorem issue_loadByte (w : Word) (x : Nat) : (s.issue w).loadByte x = s.loadByte x := rfl
@[simp] theorem issue_load (w : Word) (x : Nat) : (s.issue w).load x = s.load x := rfl

/-! ### `State.storeWords` -/

@[simp] theorem storeWords_ctrl (a : Nat) (ws : List Word) : (s.storeWords a ws).ctrl = s.ctrl := rfl
@[simp] theorem storeWords_status (a : Nat) (ws : List Word) : (s.storeWords a ws).status = s.status := rfl
@[simp] theorem storeWords_opa (a : Nat) (ws : List Word) : (s.storeWords a ws).opa = s.opa := rfl
@[simp] theorem storeWords_opb (a : Nat) (ws : List Word) : (s.storeWords a ws).opb = s.opb := rfl
@[simp] theorem storeWords_res (a : Nat) (ws : List Word) : (s.storeWords a ws).res = s.res := rfl
@[simp] theorem storeWords_errInfo (a : Nat) (ws : List Word) : (s.storeWords a ws).errInfo = s.errInfo := rfl
@[simp] theorem storeWords_valid (a : Nat) (ws : List Word) : (s.storeWords a ws).valid = s.valid := rfl
@[simp] theorem storeWords_gfPoly (a : Nat) (ws : List Word) : (s.storeWords a ws).gfPoly = s.gfPoly := rfl
@[simp] theorem storeWords_gfM (a : Nat) (ws : List Word) : (s.storeWords a ws).gfM = s.gfM := rfl
@[simp] theorem storeWords_rsE (a : Nat) (ws : List Word) : (s.storeWords a ws).rsE = s.rsE := rfl
@[simp] theorem storeWords_rsR0 (a : Nat) (ws : List Word) : (s.storeWords a ws).rsR0 = s.rsR0 := rfl
@[simp] theorem storeWords_nChars (a : Nat) (ws : List Word) : (s.storeWords a ws).nChars = s.nChars := rfl
@[simp] theorem storeWords_modeCfg (a : Nat) (ws : List Word) : (s.storeWords a ws).modeCfg = s.modeCfg := rfl
@[simp] theorem storeWords_bsLen (a : Nat) (ws : List Word) : (s.storeWords a ws).bsLen = s.bsLen := rfl
@[simp] theorem storeWords_maxBits (a : Nat) (ws : List Word) : (s.storeWords a ws).maxBits = s.maxBits := rfl
@[simp] theorem storeWords_sizeCount (a : Nat) (ws : List Word) : (s.storeWords a ws).sizeCount = s.sizeCount := rfl
@[simp] theorem storeWords_padCfg (a : Nat) (ws : List Word) : (s.storeWords a ws).padCfg = s.padCfg := rfl
@[simp] theorem storeWords_padPat (a : Nat) (ws : List Word) : (s.storeWords a ws).padPat = s.padPat := rfl
@[simp] theorem storeWords_fillPat (a : Nat) (ws : List Word) : (s.storeWords a ws).fillPat = s.fillPat := rfl
@[simp] theorem storeWords_selSize (a : Nat) (ws : List Word) : (s.storeWords a ws).selSize = s.selSize := rfl
@[simp] theorem storeWords_selW (a : Nat) (ws : List Word) : (s.storeWords a ws).selW = s.selW := rfl
@[simp] theorem storeWords_dataCw (a : Nat) (ws : List Word) : (s.storeWords a ws).dataCw = s.dataCw := rfl
@[simp] theorem storeWords_ecCw (a : Nat) (ws : List Word) : (s.storeWords a ws).ecCw = s.ecCw := rfl
@[simp] theorem storeWords_stuffLen (a : Nat) (ws : List Word) : (s.storeWords a ws).stuffLen = s.stuffLen := rfl
@[simp] theorem storeWords_stuffIns (a : Nat) (ws : List Word) : (s.storeWords a ws).stuffIns = s.stuffIns := rfl
@[simp] theorem storeWords_modecfg (a : Nat) (ws : List Word) : (s.storeWords a ws).modecfg = s.modecfg := rfl
@[simp] theorem storeWords_pending (a : Nat) (ws : List Word) : (s.storeWords a ws).pending = s.pending := rfl
@[simp] theorem storeWords_pcmd (a : Nat) (ws : List Word) : (s.storeWords a ws).pcmd = s.pcmd := rfl
@[simp] theorem storeWords_mem (a : Nat) (ws : List Word) :
    (s.storeWords a ws).mem = s.mem.writeWords a (maskWords a ws) := rfl
@[simp] theorem storeWords_hostQueue (a : Nat) (ws : List Word) : (s.storeWords a ws).hostQueue = s.hostQueue := rfl
@[simp] theorem storeWords_lastRead (a : Nat) (ws : List Word) : (s.storeWords a ws).lastRead = s.lastRead := rfl
@[simp] theorem storeWords_delay (a : Nat) (ws : List Word) : (s.storeWords a ws).delay = s.delay := rfl
@[simp] theorem storeWords_draws (a : Nat) (ws : List Word) : (s.storeWords a ws).draws = s.draws := rfl

/-! ### `State.storeNats` -/

@[simp] theorem storeNats_ctrl (a : Nat) (vs : List Nat) : (s.storeNats a vs).ctrl = s.ctrl := rfl
@[simp] theorem storeNats_status (a : Nat) (vs : List Nat) : (s.storeNats a vs).status = s.status := rfl
@[simp] theorem storeNats_opa (a : Nat) (vs : List Nat) : (s.storeNats a vs).opa = s.opa := rfl
@[simp] theorem storeNats_opb (a : Nat) (vs : List Nat) : (s.storeNats a vs).opb = s.opb := rfl
@[simp] theorem storeNats_res (a : Nat) (vs : List Nat) : (s.storeNats a vs).res = s.res := rfl
@[simp] theorem storeNats_errInfo (a : Nat) (vs : List Nat) : (s.storeNats a vs).errInfo = s.errInfo := rfl
@[simp] theorem storeNats_valid (a : Nat) (vs : List Nat) : (s.storeNats a vs).valid = s.valid := rfl
@[simp] theorem storeNats_gfPoly (a : Nat) (vs : List Nat) : (s.storeNats a vs).gfPoly = s.gfPoly := rfl
@[simp] theorem storeNats_gfM (a : Nat) (vs : List Nat) : (s.storeNats a vs).gfM = s.gfM := rfl
@[simp] theorem storeNats_rsE (a : Nat) (vs : List Nat) : (s.storeNats a vs).rsE = s.rsE := rfl
@[simp] theorem storeNats_rsR0 (a : Nat) (vs : List Nat) : (s.storeNats a vs).rsR0 = s.rsR0 := rfl
@[simp] theorem storeNats_nChars (a : Nat) (vs : List Nat) : (s.storeNats a vs).nChars = s.nChars := rfl
@[simp] theorem storeNats_modeCfg (a : Nat) (vs : List Nat) : (s.storeNats a vs).modeCfg = s.modeCfg := rfl
@[simp] theorem storeNats_bsLen (a : Nat) (vs : List Nat) : (s.storeNats a vs).bsLen = s.bsLen := rfl
@[simp] theorem storeNats_maxBits (a : Nat) (vs : List Nat) : (s.storeNats a vs).maxBits = s.maxBits := rfl
@[simp] theorem storeNats_sizeCount (a : Nat) (vs : List Nat) : (s.storeNats a vs).sizeCount = s.sizeCount := rfl
@[simp] theorem storeNats_padCfg (a : Nat) (vs : List Nat) : (s.storeNats a vs).padCfg = s.padCfg := rfl
@[simp] theorem storeNats_padPat (a : Nat) (vs : List Nat) : (s.storeNats a vs).padPat = s.padPat := rfl
@[simp] theorem storeNats_fillPat (a : Nat) (vs : List Nat) : (s.storeNats a vs).fillPat = s.fillPat := rfl
@[simp] theorem storeNats_selSize (a : Nat) (vs : List Nat) : (s.storeNats a vs).selSize = s.selSize := rfl
@[simp] theorem storeNats_selW (a : Nat) (vs : List Nat) : (s.storeNats a vs).selW = s.selW := rfl
@[simp] theorem storeNats_dataCw (a : Nat) (vs : List Nat) : (s.storeNats a vs).dataCw = s.dataCw := rfl
@[simp] theorem storeNats_ecCw (a : Nat) (vs : List Nat) : (s.storeNats a vs).ecCw = s.ecCw := rfl
@[simp] theorem storeNats_stuffLen (a : Nat) (vs : List Nat) : (s.storeNats a vs).stuffLen = s.stuffLen := rfl
@[simp] theorem storeNats_stuffIns (a : Nat) (vs : List Nat) : (s.storeNats a vs).stuffIns = s.stuffIns := rfl
@[simp] theorem storeNats_modecfg (a : Nat) (vs : List Nat) : (s.storeNats a vs).modecfg = s.modecfg := rfl
@[simp] theorem storeNats_pending (a : Nat) (vs : List Nat) : (s.storeNats a vs).pending = s.pending := rfl
@[simp] theorem storeNats_pcmd (a : Nat) (vs : List Nat) : (s.storeNats a vs).pcmd = s.pcmd := rfl
@[simp] theorem storeNats_mem (a : Nat) (vs : List Nat) :
    (s.storeNats a vs).mem = s.mem.writeWords a (maskWords a (vs.map (BitVec.ofNat 32))) := rfl
@[simp] theorem storeNats_hostQueue (a : Nat) (vs : List Nat) : (s.storeNats a vs).hostQueue = s.hostQueue := rfl
@[simp] theorem storeNats_lastRead (a : Nat) (vs : List Nat) : (s.storeNats a vs).lastRead = s.lastRead := rfl
@[simp] theorem storeNats_delay (a : Nat) (vs : List Nat) : (s.storeNats a vs).delay = s.delay := rfl
@[simp] theorem storeNats_draws (a : Nat) (vs : List Nat) : (s.storeNats a vs).draws = s.draws := rfl

/-! ### `State.forgetWords` -/

@[simp] theorem forgetWords_ctrl (a n : Nat) : (s.forgetWords a n).ctrl = s.ctrl := rfl
@[simp] theorem forgetWords_status (a n : Nat) : (s.forgetWords a n).status = s.status := rfl
@[simp] theorem forgetWords_opa (a n : Nat) : (s.forgetWords a n).opa = s.opa := rfl
@[simp] theorem forgetWords_opb (a n : Nat) : (s.forgetWords a n).opb = s.opb := rfl
@[simp] theorem forgetWords_res (a n : Nat) : (s.forgetWords a n).res = s.res := rfl
@[simp] theorem forgetWords_errInfo (a n : Nat) : (s.forgetWords a n).errInfo = s.errInfo := rfl
@[simp] theorem forgetWords_valid (a n : Nat) : (s.forgetWords a n).valid = s.valid := rfl
@[simp] theorem forgetWords_gfPoly (a n : Nat) : (s.forgetWords a n).gfPoly = s.gfPoly := rfl
@[simp] theorem forgetWords_gfM (a n : Nat) : (s.forgetWords a n).gfM = s.gfM := rfl
@[simp] theorem forgetWords_rsE (a n : Nat) : (s.forgetWords a n).rsE = s.rsE := rfl
@[simp] theorem forgetWords_rsR0 (a n : Nat) : (s.forgetWords a n).rsR0 = s.rsR0 := rfl
@[simp] theorem forgetWords_nChars (a n : Nat) : (s.forgetWords a n).nChars = s.nChars := rfl
@[simp] theorem forgetWords_modeCfg (a n : Nat) : (s.forgetWords a n).modeCfg = s.modeCfg := rfl
@[simp] theorem forgetWords_bsLen (a n : Nat) : (s.forgetWords a n).bsLen = s.bsLen := rfl
@[simp] theorem forgetWords_maxBits (a n : Nat) : (s.forgetWords a n).maxBits = s.maxBits := rfl
@[simp] theorem forgetWords_sizeCount (a n : Nat) : (s.forgetWords a n).sizeCount = s.sizeCount := rfl
@[simp] theorem forgetWords_padCfg (a n : Nat) : (s.forgetWords a n).padCfg = s.padCfg := rfl
@[simp] theorem forgetWords_padPat (a n : Nat) : (s.forgetWords a n).padPat = s.padPat := rfl
@[simp] theorem forgetWords_fillPat (a n : Nat) : (s.forgetWords a n).fillPat = s.fillPat := rfl
@[simp] theorem forgetWords_selSize (a n : Nat) : (s.forgetWords a n).selSize = s.selSize := rfl
@[simp] theorem forgetWords_selW (a n : Nat) : (s.forgetWords a n).selW = s.selW := rfl
@[simp] theorem forgetWords_dataCw (a n : Nat) : (s.forgetWords a n).dataCw = s.dataCw := rfl
@[simp] theorem forgetWords_ecCw (a n : Nat) : (s.forgetWords a n).ecCw = s.ecCw := rfl
@[simp] theorem forgetWords_stuffLen (a n : Nat) : (s.forgetWords a n).stuffLen = s.stuffLen := rfl
@[simp] theorem forgetWords_stuffIns (a n : Nat) : (s.forgetWords a n).stuffIns = s.stuffIns := rfl
@[simp] theorem forgetWords_modecfg (a n : Nat) : (s.forgetWords a n).modecfg = s.modecfg := rfl
@[simp] theorem forgetWords_pending (a n : Nat) : (s.forgetWords a n).pending = s.pending := rfl
@[simp] theorem forgetWords_pcmd (a n : Nat) : (s.forgetWords a n).pcmd = s.pcmd := rfl
@[simp] theorem forgetWords_mem (a n : Nat) :
    (s.forgetWords a n).mem = s.mem.writeWords a (maskWords a (freeWords s.draws a n)) := rfl
@[simp] theorem forgetWords_hostQueue (a n : Nat) : (s.forgetWords a n).hostQueue = s.hostQueue := rfl
@[simp] theorem forgetWords_lastRead (a n : Nat) : (s.forgetWords a n).lastRead = s.lastRead := rfl
@[simp] theorem forgetWords_delay (a n : Nat) : (s.forgetWords a n).delay = s.delay := rfl
@[simp] theorem forgetWords_draws (a n : Nat) : (s.forgetWords a n).draws = s.draws := rfl

/-! ### `State.forgetEntries` -/

@[simp] theorem forgetEntries_ctrl (a n : Nat) : (s.forgetEntries a n).ctrl = s.ctrl := rfl
@[simp] theorem forgetEntries_status (a n : Nat) : (s.forgetEntries a n).status = s.status := rfl
@[simp] theorem forgetEntries_opa (a n : Nat) : (s.forgetEntries a n).opa = s.opa := rfl
@[simp] theorem forgetEntries_opb (a n : Nat) : (s.forgetEntries a n).opb = s.opb := rfl
@[simp] theorem forgetEntries_res (a n : Nat) : (s.forgetEntries a n).res = s.res := rfl
@[simp] theorem forgetEntries_errInfo (a n : Nat) : (s.forgetEntries a n).errInfo = s.errInfo := rfl
@[simp] theorem forgetEntries_valid (a n : Nat) : (s.forgetEntries a n).valid = s.valid := rfl
@[simp] theorem forgetEntries_gfPoly (a n : Nat) : (s.forgetEntries a n).gfPoly = s.gfPoly := rfl
@[simp] theorem forgetEntries_gfM (a n : Nat) : (s.forgetEntries a n).gfM = s.gfM := rfl
@[simp] theorem forgetEntries_rsE (a n : Nat) : (s.forgetEntries a n).rsE = s.rsE := rfl
@[simp] theorem forgetEntries_rsR0 (a n : Nat) : (s.forgetEntries a n).rsR0 = s.rsR0 := rfl
@[simp] theorem forgetEntries_nChars (a n : Nat) : (s.forgetEntries a n).nChars = s.nChars := rfl
@[simp] theorem forgetEntries_modeCfg (a n : Nat) : (s.forgetEntries a n).modeCfg = s.modeCfg := rfl
@[simp] theorem forgetEntries_bsLen (a n : Nat) : (s.forgetEntries a n).bsLen = s.bsLen := rfl
@[simp] theorem forgetEntries_maxBits (a n : Nat) : (s.forgetEntries a n).maxBits = s.maxBits := rfl
@[simp] theorem forgetEntries_sizeCount (a n : Nat) : (s.forgetEntries a n).sizeCount = s.sizeCount := rfl
@[simp] theorem forgetEntries_padCfg (a n : Nat) : (s.forgetEntries a n).padCfg = s.padCfg := rfl
@[simp] theorem forgetEntries_padPat (a n : Nat) : (s.forgetEntries a n).padPat = s.padPat := rfl
@[simp] theorem forgetEntries_fillPat (a n : Nat) : (s.forgetEntries a n).fillPat = s.fillPat := rfl
@[simp] theorem forgetEntries_selSize (a n : Nat) : (s.forgetEntries a n).selSize = s.selSize := rfl
@[simp] theorem forgetEntries_selW (a n : Nat) : (s.forgetEntries a n).selW = s.selW := rfl
@[simp] theorem forgetEntries_dataCw (a n : Nat) : (s.forgetEntries a n).dataCw = s.dataCw := rfl
@[simp] theorem forgetEntries_ecCw (a n : Nat) : (s.forgetEntries a n).ecCw = s.ecCw := rfl
@[simp] theorem forgetEntries_stuffLen (a n : Nat) : (s.forgetEntries a n).stuffLen = s.stuffLen := rfl
@[simp] theorem forgetEntries_stuffIns (a n : Nat) : (s.forgetEntries a n).stuffIns = s.stuffIns := rfl
@[simp] theorem forgetEntries_modecfg (a n : Nat) : (s.forgetEntries a n).modecfg = s.modecfg := rfl
@[simp] theorem forgetEntries_pending (a n : Nat) : (s.forgetEntries a n).pending = s.pending := rfl
@[simp] theorem forgetEntries_pcmd (a n : Nat) : (s.forgetEntries a n).pcmd = s.pcmd := rfl
@[simp] theorem forgetEntries_mem (a n : Nat) :
    (s.forgetEntries a n).mem = s.mem.writeWords a (maskWords a (freeWords s.draws a n)) := rfl
@[simp] theorem forgetEntries_hostQueue (a n : Nat) : (s.forgetEntries a n).hostQueue = s.hostQueue := rfl
@[simp] theorem forgetEntries_lastRead (a n : Nat) : (s.forgetEntries a n).lastRead = s.lastRead := rfl
@[simp] theorem forgetEntries_delay (a n : Nat) : (s.forgetEntries a n).delay = s.delay := rfl
@[simp] theorem forgetEntries_draws (a n : Nat) : (s.forgetEntries a n).draws = s.draws + 1 := rfl

/-! ### `State.nextDraw` -/

@[simp] theorem nextDraw_ctrl : (s.nextDraw).ctrl = s.ctrl := rfl
@[simp] theorem nextDraw_status : (s.nextDraw).status = s.status := rfl
@[simp] theorem nextDraw_opa : (s.nextDraw).opa = s.opa := rfl
@[simp] theorem nextDraw_opb : (s.nextDraw).opb = s.opb := rfl
@[simp] theorem nextDraw_res : (s.nextDraw).res = s.res := rfl
@[simp] theorem nextDraw_errInfo : (s.nextDraw).errInfo = s.errInfo := rfl
@[simp] theorem nextDraw_valid : (s.nextDraw).valid = s.valid := rfl
@[simp] theorem nextDraw_gfPoly : (s.nextDraw).gfPoly = s.gfPoly := rfl
@[simp] theorem nextDraw_gfM : (s.nextDraw).gfM = s.gfM := rfl
@[simp] theorem nextDraw_rsE : (s.nextDraw).rsE = s.rsE := rfl
@[simp] theorem nextDraw_rsR0 : (s.nextDraw).rsR0 = s.rsR0 := rfl
@[simp] theorem nextDraw_nChars : (s.nextDraw).nChars = s.nChars := rfl
@[simp] theorem nextDraw_modeCfg : (s.nextDraw).modeCfg = s.modeCfg := rfl
@[simp] theorem nextDraw_bsLen : (s.nextDraw).bsLen = s.bsLen := rfl
@[simp] theorem nextDraw_maxBits : (s.nextDraw).maxBits = s.maxBits := rfl
@[simp] theorem nextDraw_sizeCount : (s.nextDraw).sizeCount = s.sizeCount := rfl
@[simp] theorem nextDraw_padCfg : (s.nextDraw).padCfg = s.padCfg := rfl
@[simp] theorem nextDraw_padPat : (s.nextDraw).padPat = s.padPat := rfl
@[simp] theorem nextDraw_fillPat : (s.nextDraw).fillPat = s.fillPat := rfl
@[simp] theorem nextDraw_selSize : (s.nextDraw).selSize = s.selSize := rfl
@[simp] theorem nextDraw_selW : (s.nextDraw).selW = s.selW := rfl
@[simp] theorem nextDraw_dataCw : (s.nextDraw).dataCw = s.dataCw := rfl
@[simp] theorem nextDraw_ecCw : (s.nextDraw).ecCw = s.ecCw := rfl
@[simp] theorem nextDraw_stuffLen : (s.nextDraw).stuffLen = s.stuffLen := rfl
@[simp] theorem nextDraw_stuffIns : (s.nextDraw).stuffIns = s.stuffIns := rfl
@[simp] theorem nextDraw_modecfg : (s.nextDraw).modecfg = s.modecfg := rfl
@[simp] theorem nextDraw_pending : (s.nextDraw).pending = s.pending := rfl
@[simp] theorem nextDraw_pcmd : (s.nextDraw).pcmd = s.pcmd := rfl
@[simp] theorem nextDraw_mem : (s.nextDraw).mem = s.mem := rfl
@[simp] theorem nextDraw_hostQueue : (s.nextDraw).hostQueue = s.hostQueue := rfl
@[simp] theorem nextDraw_lastRead : (s.nextDraw).lastRead = s.lastRead := rfl
@[simp] theorem nextDraw_delay : (s.nextDraw).delay = s.delay := rfl
@[simp] theorem nextDraw_draws : (s.nextDraw).draws = s.draws + 1 := rfl
@[simp] theorem nextDraw_loadByte (x : Nat) : (s.nextDraw).loadByte x = s.loadByte x := rfl
@[simp] theorem nextDraw_load (x : Nat) : (s.nextDraw).load x = s.load x := rfl

/-! ### `State.storeTags` -/

@[simp] theorem storeTags_ctrl (tags : List Nat) : (s.storeTags tags).ctrl = s.ctrl := rfl
@[simp] theorem storeTags_status (tags : List Nat) : (s.storeTags tags).status = s.status := rfl
@[simp] theorem storeTags_opa (tags : List Nat) : (s.storeTags tags).opa = s.opa := rfl
@[simp] theorem storeTags_opb (tags : List Nat) : (s.storeTags tags).opb = s.opb := rfl
@[simp] theorem storeTags_res (tags : List Nat) : (s.storeTags tags).res = s.res := rfl
@[simp] theorem storeTags_errInfo (tags : List Nat) : (s.storeTags tags).errInfo = s.errInfo := rfl
@[simp] theorem storeTags_valid (tags : List Nat) : (s.storeTags tags).valid = s.valid := rfl
@[simp] theorem storeTags_gfPoly (tags : List Nat) : (s.storeTags tags).gfPoly = s.gfPoly := rfl
@[simp] theorem storeTags_gfM (tags : List Nat) : (s.storeTags tags).gfM = s.gfM := rfl
@[simp] theorem storeTags_rsE (tags : List Nat) : (s.storeTags tags).rsE = s.rsE := rfl
@[simp] theorem storeTags_rsR0 (tags : List Nat) : (s.storeTags tags).rsR0 = s.rsR0 := rfl
@[simp] theorem storeTags_nChars (tags : List Nat) : (s.storeTags tags).nChars = s.nChars := rfl
@[simp] theorem storeTags_modeCfg (tags : List Nat) : (s.storeTags tags).modeCfg = s.modeCfg := rfl
@[simp] theorem storeTags_bsLen (tags : List Nat) : (s.storeTags tags).bsLen = s.bsLen := rfl
@[simp] theorem storeTags_maxBits (tags : List Nat) : (s.storeTags tags).maxBits = s.maxBits := rfl
@[simp] theorem storeTags_sizeCount (tags : List Nat) : (s.storeTags tags).sizeCount = s.sizeCount := rfl
@[simp] theorem storeTags_padCfg (tags : List Nat) : (s.storeTags tags).padCfg = s.padCfg := rfl
@[simp] theorem storeTags_padPat (tags : List Nat) : (s.storeTags tags).padPat = s.padPat := rfl
@[simp] theorem storeTags_fillPat (tags : List Nat) : (s.storeTags tags).fillPat = s.fillPat := rfl
@[simp] theorem storeTags_selSize (tags : List Nat) : (s.storeTags tags).selSize = s.selSize := rfl
@[simp] theorem storeTags_selW (tags : List Nat) : (s.storeTags tags).selW = s.selW := rfl
@[simp] theorem storeTags_dataCw (tags : List Nat) : (s.storeTags tags).dataCw = s.dataCw := rfl
@[simp] theorem storeTags_ecCw (tags : List Nat) : (s.storeTags tags).ecCw = s.ecCw := rfl
@[simp] theorem storeTags_stuffLen (tags : List Nat) : (s.storeTags tags).stuffLen = s.stuffLen := rfl
@[simp] theorem storeTags_stuffIns (tags : List Nat) : (s.storeTags tags).stuffIns = s.stuffIns := rfl
@[simp] theorem storeTags_modecfg (tags : List Nat) : (s.storeTags tags).modecfg = s.modecfg := rfl
@[simp] theorem storeTags_pending (tags : List Nat) : (s.storeTags tags).pending = s.pending := rfl
@[simp] theorem storeTags_pcmd (tags : List Nat) : (s.storeTags tags).pcmd = s.pcmd := rfl
@[simp] theorem storeTags_mem (tags : List Nat) : (s.storeTags tags).mem = (s.storeNats modeBase tags).mem := rfl
@[simp] theorem storeTags_hostQueue (tags : List Nat) : (s.storeTags tags).hostQueue = s.hostQueue := rfl
@[simp] theorem storeTags_lastRead (tags : List Nat) : (s.storeTags tags).lastRead = s.lastRead := rfl
@[simp] theorem storeTags_delay (tags : List Nat) : (s.storeTags tags).delay = s.delay := rfl
@[simp] theorem storeTags_draws (tags : List Nat) : (s.storeTags tags).draws = s.draws := rfl

/-! ### `State.gfInitStart` -/

@[simp] theorem gfInitStart_ctrl : (s.gfInitStart).ctrl = s.ctrl := rfl
@[simp] theorem gfInitStart_status : (s.gfInitStart).status = s.status := rfl
@[simp] theorem gfInitStart_opa : (s.gfInitStart).opa = s.opa := rfl
@[simp] theorem gfInitStart_opb : (s.gfInitStart).opb = s.opb := rfl
@[simp] theorem gfInitStart_res : (s.gfInitStart).res = s.res := rfl
@[simp] theorem gfInitStart_errInfo : (s.gfInitStart).errInfo = s.errInfo := rfl
@[simp] theorem gfInitStart_valid_gf : (s.gfInitStart).valid.gf = false := rfl
@[simp] theorem gfInitStart_valid_rs : (s.gfInitStart).valid.rs = false := rfl
@[simp] theorem gfInitStart_valid_rem : (s.gfInitStart).valid.rem = false := rfl
@[simp] theorem gfInitStart_valid_syn : (s.gfInitStart).valid.syn = false := rfl
@[simp] theorem gfInitStart_valid_sel : (s.gfInitStart).valid.sel = s.valid.sel := rfl
@[simp] theorem gfInitStart_gfPoly : (s.gfInitStart).gfPoly = s.opa := rfl
@[simp] theorem gfInitStart_gfM : (s.gfInitStart).gfM = BitVec.ofNat 32 (Nat.log2 s.opaN) := rfl
@[simp] theorem gfInitStart_rsE : (s.gfInitStart).rsE = s.rsE := rfl
@[simp] theorem gfInitStart_rsR0 : (s.gfInitStart).rsR0 = s.rsR0 := rfl
@[simp] theorem gfInitStart_nChars : (s.gfInitStart).nChars = s.nChars := rfl
@[simp] theorem gfInitStart_modeCfg : (s.gfInitStart).modeCfg = s.modeCfg := rfl
@[simp] theorem gfInitStart_bsLen : (s.gfInitStart).bsLen = s.bsLen := rfl
@[simp] theorem gfInitStart_maxBits : (s.gfInitStart).maxBits = s.maxBits := rfl
@[simp] theorem gfInitStart_sizeCount : (s.gfInitStart).sizeCount = s.sizeCount := rfl
@[simp] theorem gfInitStart_padCfg : (s.gfInitStart).padCfg = s.padCfg := rfl
@[simp] theorem gfInitStart_padPat : (s.gfInitStart).padPat = s.padPat := rfl
@[simp] theorem gfInitStart_fillPat : (s.gfInitStart).fillPat = s.fillPat := rfl
@[simp] theorem gfInitStart_selSize : (s.gfInitStart).selSize = s.selSize := rfl
@[simp] theorem gfInitStart_selW : (s.gfInitStart).selW = s.selW := rfl
@[simp] theorem gfInitStart_dataCw : (s.gfInitStart).dataCw = s.dataCw := rfl
@[simp] theorem gfInitStart_ecCw : (s.gfInitStart).ecCw = s.ecCw := rfl
@[simp] theorem gfInitStart_stuffLen : (s.gfInitStart).stuffLen = s.stuffLen := rfl
@[simp] theorem gfInitStart_stuffIns : (s.gfInitStart).stuffIns = s.stuffIns := rfl
@[simp] theorem gfInitStart_modecfg : (s.gfInitStart).modecfg = s.modecfg := rfl
@[simp] theorem gfInitStart_pending : (s.gfInitStart).pending = s.pending := rfl
@[simp] theorem gfInitStart_pcmd : (s.gfInitStart).pcmd = s.pcmd := rfl
@[simp] theorem gfInitStart_mem : (s.gfInitStart).mem = s.mem := rfl
@[simp] theorem gfInitStart_hostQueue : (s.gfInitStart).hostQueue = s.hostQueue := rfl
@[simp] theorem gfInitStart_lastRead : (s.gfInitStart).lastRead = s.lastRead := rfl
@[simp] theorem gfInitStart_delay : (s.gfInitStart).delay = s.delay := rfl
@[simp] theorem gfInitStart_draws : (s.gfInitStart).draws = s.draws := rfl
@[simp] theorem gfInitStart_loadByte (x : Nat) : (s.gfInitStart).loadByte x = s.loadByte x := rfl
@[simp] theorem gfInitStart_load (x : Nat) : (s.gfInitStart).load x = s.load x := rfl

/-! ### `State.clearSel` -/

@[simp] theorem clearSel_ctrl : (s.clearSel).ctrl = s.ctrl := rfl
@[simp] theorem clearSel_status : (s.clearSel).status = s.status := rfl
@[simp] theorem clearSel_opa : (s.clearSel).opa = s.opa := rfl
@[simp] theorem clearSel_opb : (s.clearSel).opb = s.opb := rfl
@[simp] theorem clearSel_res : (s.clearSel).res = s.res := rfl
@[simp] theorem clearSel_errInfo : (s.clearSel).errInfo = s.errInfo := rfl
@[simp] theorem clearSel_valid_gf : (s.clearSel).valid.gf = s.valid.gf := rfl
@[simp] theorem clearSel_valid_rs : (s.clearSel).valid.rs = s.valid.rs := rfl
@[simp] theorem clearSel_valid_rem : (s.clearSel).valid.rem = s.valid.rem := rfl
@[simp] theorem clearSel_valid_syn : (s.clearSel).valid.syn = s.valid.syn := rfl
@[simp] theorem clearSel_valid_sel : (s.clearSel).valid.sel = false := rfl
@[simp] theorem clearSel_gfPoly : (s.clearSel).gfPoly = s.gfPoly := rfl
@[simp] theorem clearSel_gfM : (s.clearSel).gfM = s.gfM := rfl
@[simp] theorem clearSel_rsE : (s.clearSel).rsE = s.rsE := rfl
@[simp] theorem clearSel_rsR0 : (s.clearSel).rsR0 = s.rsR0 := rfl
@[simp] theorem clearSel_nChars : (s.clearSel).nChars = s.nChars := rfl
@[simp] theorem clearSel_modeCfg : (s.clearSel).modeCfg = s.modeCfg := rfl
@[simp] theorem clearSel_bsLen : (s.clearSel).bsLen = s.bsLen := rfl
@[simp] theorem clearSel_maxBits : (s.clearSel).maxBits = s.maxBits := rfl
@[simp] theorem clearSel_sizeCount : (s.clearSel).sizeCount = s.sizeCount := rfl
@[simp] theorem clearSel_padCfg : (s.clearSel).padCfg = s.padCfg := rfl
@[simp] theorem clearSel_padPat : (s.clearSel).padPat = s.padPat := rfl
@[simp] theorem clearSel_fillPat : (s.clearSel).fillPat = s.fillPat := rfl
@[simp] theorem clearSel_selSize : (s.clearSel).selSize = s.selSize := rfl
@[simp] theorem clearSel_selW : (s.clearSel).selW = s.selW := rfl
@[simp] theorem clearSel_dataCw : (s.clearSel).dataCw = s.dataCw := rfl
@[simp] theorem clearSel_ecCw : (s.clearSel).ecCw = s.ecCw := rfl
@[simp] theorem clearSel_stuffLen : (s.clearSel).stuffLen = s.stuffLen := rfl
@[simp] theorem clearSel_stuffIns : (s.clearSel).stuffIns = s.stuffIns := rfl
@[simp] theorem clearSel_modecfg : (s.clearSel).modecfg = s.modecfg := rfl
@[simp] theorem clearSel_pending : (s.clearSel).pending = s.pending := rfl
@[simp] theorem clearSel_pcmd : (s.clearSel).pcmd = s.pcmd := rfl
@[simp] theorem clearSel_mem : (s.clearSel).mem = s.mem := rfl
@[simp] theorem clearSel_hostQueue : (s.clearSel).hostQueue = s.hostQueue := rfl
@[simp] theorem clearSel_lastRead : (s.clearSel).lastRead = s.lastRead := rfl
@[simp] theorem clearSel_delay : (s.clearSel).delay = s.delay := rfl
@[simp] theorem clearSel_draws : (s.clearSel).draws = s.draws := rfl
@[simp] theorem clearSel_loadByte (x : Nat) : (s.clearSel).loadByte x = s.loadByte x := rfl
@[simp] theorem clearSel_load (x : Nat) : (s.clearSel).load x = s.load x := rfl

/-! ### `State.storeChoice` -/

@[simp] theorem storeChoice_ctrl (c : Choice) : (s.storeChoice c).ctrl = s.ctrl := rfl
@[simp] theorem storeChoice_status (c : Choice) : (s.storeChoice c).status = s.status := rfl
@[simp] theorem storeChoice_opa (c : Choice) : (s.storeChoice c).opa = s.opa := rfl
@[simp] theorem storeChoice_opb (c : Choice) : (s.storeChoice c).opb = s.opb := rfl
@[simp] theorem storeChoice_res (c : Choice) : (s.storeChoice c).res = s.res := rfl
@[simp] theorem storeChoice_errInfo (c : Choice) : (s.storeChoice c).errInfo = s.errInfo := rfl
@[simp] theorem storeChoice_valid_gf (c : Choice) : (s.storeChoice c).valid.gf = s.valid.gf := rfl
@[simp] theorem storeChoice_valid_rs (c : Choice) : (s.storeChoice c).valid.rs = s.valid.rs := rfl
@[simp] theorem storeChoice_valid_rem (c : Choice) : (s.storeChoice c).valid.rem = s.valid.rem := rfl
@[simp] theorem storeChoice_valid_syn (c : Choice) : (s.storeChoice c).valid.syn = s.valid.syn := rfl
@[simp] theorem storeChoice_valid_sel (c : Choice) : (s.storeChoice c).valid.sel = true := rfl
@[simp] theorem storeChoice_gfPoly (c : Choice) : (s.storeChoice c).gfPoly = s.gfPoly := rfl
@[simp] theorem storeChoice_gfM (c : Choice) : (s.storeChoice c).gfM = s.gfM := rfl
@[simp] theorem storeChoice_rsE (c : Choice) : (s.storeChoice c).rsE = s.rsE := rfl
@[simp] theorem storeChoice_rsR0 (c : Choice) : (s.storeChoice c).rsR0 = s.rsR0 := rfl
@[simp] theorem storeChoice_nChars (c : Choice) : (s.storeChoice c).nChars = s.nChars := rfl
@[simp] theorem storeChoice_modeCfg (c : Choice) : (s.storeChoice c).modeCfg = s.modeCfg := rfl
@[simp] theorem storeChoice_bsLen (c : Choice) : (s.storeChoice c).bsLen = s.bsLen := rfl
@[simp] theorem storeChoice_maxBits (c : Choice) : (s.storeChoice c).maxBits = s.maxBits := rfl
@[simp] theorem storeChoice_sizeCount (c : Choice) : (s.storeChoice c).sizeCount = s.sizeCount := rfl
@[simp] theorem storeChoice_padCfg (c : Choice) : (s.storeChoice c).padCfg = s.padCfg := rfl
@[simp] theorem storeChoice_padPat (c : Choice) : (s.storeChoice c).padPat = s.padPat := rfl
@[simp] theorem storeChoice_fillPat (c : Choice) : (s.storeChoice c).fillPat = s.fillPat := rfl
@[simp] theorem storeChoice_selSize (c : Choice) : (s.storeChoice c).selSize = c.size := rfl
@[simp] theorem storeChoice_selW (c : Choice) : (s.storeChoice c).selW = BitVec.ofNat 32 c.w := rfl
@[simp] theorem storeChoice_dataCw (c : Choice) : (s.storeChoice c).dataCw = BitVec.ofNat 32 c.count := rfl
@[simp] theorem storeChoice_ecCw (c : Choice) : (s.storeChoice c).ecCw = BitVec.ofNat 32 c.ec := rfl
@[simp] theorem storeChoice_stuffLen (c : Choice) :
    (s.storeChoice c).stuffLen = BitVec.ofNat 32 c.out.rbits.length := rfl
@[simp] theorem storeChoice_stuffIns (c : Choice) : (s.storeChoice c).stuffIns = BitVec.ofNat 32 c.out.ins := rfl
@[simp] theorem storeChoice_modecfg (c : Choice) : (s.storeChoice c).modecfg = s.modecfg := rfl
@[simp] theorem storeChoice_pending (c : Choice) : (s.storeChoice c).pending = s.pending := rfl
@[simp] theorem storeChoice_pcmd (c : Choice) : (s.storeChoice c).pcmd = s.pcmd := rfl
@[simp] theorem storeChoice_mem (c : Choice) :
    (s.storeChoice c).mem = (s.storeNats cwBase (codewords c.w c.bits)).mem := rfl
@[simp] theorem storeChoice_hostQueue (c : Choice) : (s.storeChoice c).hostQueue = s.hostQueue := rfl
@[simp] theorem storeChoice_lastRead (c : Choice) : (s.storeChoice c).lastRead = s.lastRead := rfl
@[simp] theorem storeChoice_delay (c : Choice) : (s.storeChoice c).delay = s.delay := rfl
@[simp] theorem storeChoice_draws (c : Choice) : (s.storeChoice c).draws = s.draws := rfl

/-! ### `State.flagAccess` -/

@[simp] theorem flagAccess_ctrl (a o : Bool) : (s.flagAccess a o).ctrl = s.ctrl := rfl
@[simp] theorem flagAccess_status_done (a o : Bool) : (s.flagAccess a o).status.done = s.status.done := rfl
@[simp] theorem flagAccess_status_err (a o : Bool) : (s.flagAccess a o).status.err = s.status.err := rfl
@[simp] theorem flagAccess_status_ovr (a o : Bool) : (s.flagAccess a o).status.ovr = (s.status.ovr || o) := rfl
@[simp] theorem flagAccess_status_aerr (a o : Bool) : (s.flagAccess a o).status.aerr = (s.status.aerr || a) := rfl
@[simp] theorem flagAccess_status_z (a o : Bool) : (s.flagAccess a o).status.z = s.status.z := rfl
@[simp] theorem flagAccess_status_errCode (a o : Bool) : (s.flagAccess a o).status.errCode = s.status.errCode := rfl
@[simp] theorem flagAccess_status_lastOp (a o : Bool) : (s.flagAccess a o).status.lastOp = s.status.lastOp := rfl
@[simp] theorem flagAccess_opa (a o : Bool) : (s.flagAccess a o).opa = s.opa := rfl
@[simp] theorem flagAccess_opb (a o : Bool) : (s.flagAccess a o).opb = s.opb := rfl
@[simp] theorem flagAccess_res (a o : Bool) : (s.flagAccess a o).res = s.res := rfl
@[simp] theorem flagAccess_errInfo (a o : Bool) : (s.flagAccess a o).errInfo = s.errInfo := rfl
@[simp] theorem flagAccess_valid (a o : Bool) : (s.flagAccess a o).valid = s.valid := rfl
@[simp] theorem flagAccess_gfPoly (a o : Bool) : (s.flagAccess a o).gfPoly = s.gfPoly := rfl
@[simp] theorem flagAccess_gfM (a o : Bool) : (s.flagAccess a o).gfM = s.gfM := rfl
@[simp] theorem flagAccess_rsE (a o : Bool) : (s.flagAccess a o).rsE = s.rsE := rfl
@[simp] theorem flagAccess_rsR0 (a o : Bool) : (s.flagAccess a o).rsR0 = s.rsR0 := rfl
@[simp] theorem flagAccess_nChars (a o : Bool) : (s.flagAccess a o).nChars = s.nChars := rfl
@[simp] theorem flagAccess_modeCfg (a o : Bool) : (s.flagAccess a o).modeCfg = s.modeCfg := rfl
@[simp] theorem flagAccess_bsLen (a o : Bool) : (s.flagAccess a o).bsLen = s.bsLen := rfl
@[simp] theorem flagAccess_maxBits (a o : Bool) : (s.flagAccess a o).maxBits = s.maxBits := rfl
@[simp] theorem flagAccess_sizeCount (a o : Bool) : (s.flagAccess a o).sizeCount = s.sizeCount := rfl
@[simp] theorem flagAccess_padCfg (a o : Bool) : (s.flagAccess a o).padCfg = s.padCfg := rfl
@[simp] theorem flagAccess_padPat (a o : Bool) : (s.flagAccess a o).padPat = s.padPat := rfl
@[simp] theorem flagAccess_fillPat (a o : Bool) : (s.flagAccess a o).fillPat = s.fillPat := rfl
@[simp] theorem flagAccess_selSize (a o : Bool) : (s.flagAccess a o).selSize = s.selSize := rfl
@[simp] theorem flagAccess_selW (a o : Bool) : (s.flagAccess a o).selW = s.selW := rfl
@[simp] theorem flagAccess_dataCw (a o : Bool) : (s.flagAccess a o).dataCw = s.dataCw := rfl
@[simp] theorem flagAccess_ecCw (a o : Bool) : (s.flagAccess a o).ecCw = s.ecCw := rfl
@[simp] theorem flagAccess_stuffLen (a o : Bool) : (s.flagAccess a o).stuffLen = s.stuffLen := rfl
@[simp] theorem flagAccess_stuffIns (a o : Bool) : (s.flagAccess a o).stuffIns = s.stuffIns := rfl
@[simp] theorem flagAccess_modecfg (a o : Bool) : (s.flagAccess a o).modecfg = s.modecfg := rfl
@[simp] theorem flagAccess_pending (a o : Bool) : (s.flagAccess a o).pending = s.pending := rfl
@[simp] theorem flagAccess_pcmd (a o : Bool) : (s.flagAccess a o).pcmd = s.pcmd := rfl
@[simp] theorem flagAccess_mem (a o : Bool) : (s.flagAccess a o).mem = s.mem := rfl
@[simp] theorem flagAccess_hostQueue (a o : Bool) : (s.flagAccess a o).hostQueue = s.hostQueue := rfl
@[simp] theorem flagAccess_lastRead (a o : Bool) : (s.flagAccess a o).lastRead = s.lastRead := rfl
@[simp] theorem flagAccess_delay (a o : Bool) : (s.flagAccess a o).delay = s.delay := rfl
@[simp] theorem flagAccess_draws (a o : Bool) : (s.flagAccess a o).draws = s.draws := rfl
@[simp] theorem flagAccess_loadByte (a o : Bool) (x : Nat) : (s.flagAccess a o).loadByte x = s.loadByte x := rfl
@[simp] theorem flagAccess_load (a o : Bool) (x : Nat) : (s.flagAccess a o).load x = s.load x := rfl

/-! ### `State.writeStatus` -/

@[simp] theorem writeStatus_ctrl (v : Word) : (s.writeStatus v).ctrl = s.ctrl := rfl
@[simp] theorem writeStatus_status_done (v : Word) : (s.writeStatus v).status.done = (s.status.done && !v.getLsbD 1) := rfl
@[simp] theorem writeStatus_status_err (v : Word) : (s.writeStatus v).status.err = (s.status.err && !v.getLsbD 2) := rfl
@[simp] theorem writeStatus_status_ovr (v : Word) : (s.writeStatus v).status.ovr = (s.status.ovr && !v.getLsbD 3) := rfl
@[simp] theorem writeStatus_status_aerr (v : Word) : (s.writeStatus v).status.aerr = (s.status.aerr && !v.getLsbD 4) := rfl
@[simp] theorem writeStatus_status_z (v : Word) : (s.writeStatus v).status.z = s.status.z := rfl
@[simp] theorem writeStatus_status_errCode (v : Word) : (s.writeStatus v).status.errCode = s.status.errCode := rfl
@[simp] theorem writeStatus_status_lastOp (v : Word) : (s.writeStatus v).status.lastOp = s.status.lastOp := rfl
@[simp] theorem writeStatus_opa (v : Word) : (s.writeStatus v).opa = s.opa := rfl
@[simp] theorem writeStatus_opb (v : Word) : (s.writeStatus v).opb = s.opb := rfl
@[simp] theorem writeStatus_res (v : Word) : (s.writeStatus v).res = s.res := rfl
@[simp] theorem writeStatus_errInfo (v : Word) : (s.writeStatus v).errInfo = s.errInfo := rfl
@[simp] theorem writeStatus_valid (v : Word) : (s.writeStatus v).valid = s.valid := rfl
@[simp] theorem writeStatus_gfPoly (v : Word) : (s.writeStatus v).gfPoly = s.gfPoly := rfl
@[simp] theorem writeStatus_gfM (v : Word) : (s.writeStatus v).gfM = s.gfM := rfl
@[simp] theorem writeStatus_rsE (v : Word) : (s.writeStatus v).rsE = s.rsE := rfl
@[simp] theorem writeStatus_rsR0 (v : Word) : (s.writeStatus v).rsR0 = s.rsR0 := rfl
@[simp] theorem writeStatus_nChars (v : Word) : (s.writeStatus v).nChars = s.nChars := rfl
@[simp] theorem writeStatus_modeCfg (v : Word) : (s.writeStatus v).modeCfg = s.modeCfg := rfl
@[simp] theorem writeStatus_bsLen (v : Word) : (s.writeStatus v).bsLen = s.bsLen := rfl
@[simp] theorem writeStatus_maxBits (v : Word) : (s.writeStatus v).maxBits = s.maxBits := rfl
@[simp] theorem writeStatus_sizeCount (v : Word) : (s.writeStatus v).sizeCount = s.sizeCount := rfl
@[simp] theorem writeStatus_padCfg (v : Word) : (s.writeStatus v).padCfg = s.padCfg := rfl
@[simp] theorem writeStatus_padPat (v : Word) : (s.writeStatus v).padPat = s.padPat := rfl
@[simp] theorem writeStatus_fillPat (v : Word) : (s.writeStatus v).fillPat = s.fillPat := rfl
@[simp] theorem writeStatus_selSize (v : Word) : (s.writeStatus v).selSize = s.selSize := rfl
@[simp] theorem writeStatus_selW (v : Word) : (s.writeStatus v).selW = s.selW := rfl
@[simp] theorem writeStatus_dataCw (v : Word) : (s.writeStatus v).dataCw = s.dataCw := rfl
@[simp] theorem writeStatus_ecCw (v : Word) : (s.writeStatus v).ecCw = s.ecCw := rfl
@[simp] theorem writeStatus_stuffLen (v : Word) : (s.writeStatus v).stuffLen = s.stuffLen := rfl
@[simp] theorem writeStatus_stuffIns (v : Word) : (s.writeStatus v).stuffIns = s.stuffIns := rfl
@[simp] theorem writeStatus_modecfg (v : Word) : (s.writeStatus v).modecfg = s.modecfg := rfl
@[simp] theorem writeStatus_pending (v : Word) : (s.writeStatus v).pending = s.pending := rfl
@[simp] theorem writeStatus_pcmd (v : Word) : (s.writeStatus v).pcmd = s.pcmd := rfl
@[simp] theorem writeStatus_mem (v : Word) : (s.writeStatus v).mem = s.mem := rfl
@[simp] theorem writeStatus_hostQueue (v : Word) : (s.writeStatus v).hostQueue = s.hostQueue := rfl
@[simp] theorem writeStatus_lastRead (v : Word) : (s.writeStatus v).lastRead = s.lastRead := rfl
@[simp] theorem writeStatus_delay (v : Word) : (s.writeStatus v).delay = s.delay := rfl
@[simp] theorem writeStatus_draws (v : Word) : (s.writeStatus v).draws = s.draws := rfl
@[simp] theorem writeStatus_loadByte (v : Word) (x : Nat) : (s.writeStatus v).loadByte x = s.loadByte x := rfl
@[simp] theorem writeStatus_load (v : Word) (x : Nat) : (s.writeStatus v).load x = s.load x := rfl

end Sys2Proof.Laws
end

