-- ==== Sys2Proof/Laws/Ops.lean ====
section
/-! SUPPORT. One lemma per shared operation, saying once what it can do. Later proofs cite these and do not unfold the
operations. -/

namespace Sys2Proof.Laws

open Sys2Proof Sys2Proof.Machine

/-! ### Checks -/

theorem bind_eq_ok {α β : Type} {x : Except Err α} {f : α → Except Err β} {b : β} :
    (x >>= f) = .ok b ↔ ∃ a, x = .ok a ∧ f a = .ok b := by
  cases x <;> simp [bind, Except.bind]

theorem bind_eq_error {α β : Type} {x : Except Err α} {f : α → Except Err β} {e : Err} :
    (x >>= f) = .error e ↔ x = .error e ∨ ∃ a, x = .ok a ∧ f a = .error e := by
  cases x <;> simp [bind, Except.bind]

theorem require_eq_ok {c : Bool} {e : Err} {u : Unit} : require c e = .ok u ↔ c = true := by
  cases c <;> simp [require]

theorem require_eq_error {c : Bool} {e e' : Err} : require c e = .error e' ↔ c = false ∧ e = e' := by
  cases c <;> simp [require]

theorem passes_eq_true {α : Type} {r : Except Err α} : passes r = true ↔ ∃ v, r = .ok v := by
  cases r <;> simp [passes]

theorem checkNChars_eq_ok {s : State} {u : Unit} : s.checkNChars = .ok u ↔ s.n ≤ charMaxN := by
  simp [State.checkNChars, require_eq_ok]

theorem checkBsLen_eq_ok {s : State} {u : Unit} : s.checkBsLen = .ok u ↔ s.bsLenN ≤ bsMaxBits := by
  simp [State.checkBsLen, require_eq_ok]

theorem needField_eq_ok {s : State} {u : Unit} : s.needField = .ok u ↔ s.valid.gf = true := by
  simp [State.needField, require_eq_ok]

theorem preA_eq_ok {s : State} {u : Unit} : s.preA = .ok u ↔ s.valid.gf = true ∧ s.opaN < s.gfSize := by
  simp [State.preA, State.needField, State.elemA, bind_eq_ok, require_eq_ok]

theorem preAB_eq_ok {s : State} {u : Unit} :
    s.preAB = .ok u ↔ s.valid.gf = true ∧ s.opaN < s.gfSize ∧ s.opbN < s.gfSize := by
  simp [State.preAB, State.needField, State.elemA, State.elemB, bind_eq_ok, require_eq_ok]

theorem nonzero_eq_ok {x : Nat} {u : Unit} : nonzero x = .ok u ↔ x ≠ 0 := by
  simp [nonzero, require_eq_ok]

theorem gfInitCheck_eq_ok {s : State} {u : Unit} :
    s.gfInitCheck = .ok u ↔ 2 ≤ s.opaN ∧ s.opaN < 2 ^ (mMax + 1) := by
  simp [State.gfInitCheck, require_eq_ok]

theorem rsInitCheck_eq_ok {s : State} {u : Unit} :
    s.rsInitCheck = .ok u ↔ s.valid.gf = true ∧ 1 ≤ s.opaN ∧ s.opaN ≤ eMax := by
  simp [State.rsInitCheck, State.needField, bind_eq_ok, require_eq_ok]

theorem rsBlockCheck_eq_ok {s : State} {u : Unit} :
    s.rsBlockCheck = .ok u ↔ s.valid.rs = true ∧ s.opaN ≤ cwMax ∧ s.opbN + s.opaN ≤ cwMax := by
  simp [State.rsBlockCheck, bind_eq_ok, require_eq_ok]

theorem rsAppendCheck_eq_ok {s : State} {u : Unit} :
    s.rsAppendCheck = .ok u ↔ s.valid.rem = true ∧ s.opaN ≤ cwMax ∧ s.opbN + s.opaN + s.ecLen ≤ cwMax := by
  simp [State.rsAppendCheck, bind_eq_ok, require_eq_ok]

theorem bsAppendCheck_eq_ok {s : State} {w : Nat} {u : Unit} :
    s.bsAppendCheck w = .ok u ↔ w ≤ 32 ∧ s.bsLenN ≤ bsMaxBits := by
  simp [State.bsAppendCheck, State.checkBsLen, bind_eq_ok, require_eq_ok]

theorem buildCheck_eq_ok {s : State} {u : Unit} :
    s.buildCheck = .ok u ↔ s.n ≤ charMaxN ∧ s.bsLenN ≤ bsMaxBits := by
  simp [State.buildCheck, State.checkNChars, State.checkBsLen, bind_eq_ok, require_eq_ok]

theorem selectCheck_eq_ok {s : State} {m : Nat} {u : Unit} :
    s.selectCheck m = .ok u ↔ m < s.sizeCount.toNat ∧ s.sizeCount.toNat ≤ sizeMax ∧ s.bsLenN ≤ bsMaxBits := by
  simp [State.selectCheck, State.checkBsLen, bind_eq_ok, require_eq_ok]

theorem splitCheck_eq_ok {s : State} {w : Nat} {u : Unit} :
    s.splitCheck w = .ok u ↔ (1 ≤ w ∧ w ≤ 16) ∧ ¬ (s.stuffEn = true ∧ w = 1) ∧ s.bsLenN ≤ bsMaxBits := by
  cases h : s.stuffEn <;> simp [State.splitCheck, State.checkBsLen, bind_eq_ok, require_eq_ok, h]

theorem segCheck_eq_ok {s : State} {u : Unit} :
    s.segCheck = .ok u ↔ s.n ≤ charMaxN ∧ 1 ≤ s.modeCount ∧ s.modeCount ≤ modeMax ∧ s.initMode < s.modeCount
      ∧ s.fallback < s.modeCount := by
  simp [State.segCheck, State.checkNChars, State.checkCfg, bind_eq_ok, require_eq_ok]

theorem checkElems_eq_ok {s : State} {k : Nat} {cs : List Nat} {u : Unit} :
    s.checkElems k cs = .ok u ↔ ∀ c ∈ cs, c < s.gfSize := by
  induction cs generalizing k with
  | nil => simp [State.checkElems]
  | cons c cs ih =>
    unfold State.checkElems
    split <;> simp_all

theorem checkTags_eq_ok {s : State} {al : Bool} {i : Nat} {ts : List Nat} {u : Unit} :
    s.checkTags al i ts = .ok u ↔ ∀ t ∈ ts, t < s.modeCount ∨ (al = true ∧ t = unres) := by
  induction ts generalizing i with
  | nil => simp [State.checkTags]
  | cons t ts ih =>
    unfold State.checkTags
    split <;> simp_all

theorem checkModes_eq_ok {s : State} {ms : List Nat} {u : Unit} :
    s.checkModes ms = .ok u ↔ ∀ m ∈ ms, (s.mc m).ok = true := by
  induction ms with
  | nil => simp [State.checkModes]
  | cons m ms ih =>
    unfold State.checkModes
    split <;> simp_all

theorem checkAdmits_eq_ok {s : State} {i : Nat} {ts : List Nat} {u : Unit} :
    s.checkAdmits i ts = .ok u ↔ ∀ k, (h : k < ts.length) → s.admits (i + k) ts[k] = .ok () := by
  induction ts generalizing i with
  | nil => simp [State.checkAdmits]
  | cons t ts ih =>
    unfold State.checkAdmits
    rw [bind_eq_ok]
    constructor
    · rintro ⟨a, h0, h1⟩ k hk
      cases k with
      | zero => simpa using h0
      | succ k =>
        have h := ih.1 h1 k (by simpa using hk)
        simpa [Nat.add_assoc, Nat.add_comm 1 k] using h
    · intro h
      refine ⟨(), h 0 (by simp), ih.2 fun k hk => ?_⟩
      have h := h (k + 1) (by simpa using hk)
      simpa [Nat.add_assoc, Nat.add_comm 1 k] using h

theorem forPositions_eq_ok {α : Type} {f : Nat → Except Err α} {ps : List Nat} {vs : List α} :
    forPositions f ps = .ok vs ↔ List.Forall₂ (fun p v => f p = .ok v) ps vs := by
  induction ps generalizing vs with
  | nil => simp [forPositions, eq_comm]
  | cons p ps ih =>
    simp only [forPositions, bind_eq_ok, List.forall₂_cons_left_iff]
    constructor
    · rintro ⟨v, hv, vs', hvs, h⟩
      cases h
      exact ⟨v, vs', hv, ih.1 hvs, rfl⟩
    · rintro ⟨v, vs', hv, hvs, rfl⟩
      exact ⟨v, hv, vs', ih.2 hvs, rfl⟩

/-! ### Completion -/

@[simp] theorem finish_ok (s t : State) : s.finish (.ok t) = t.completeOk := rfl
@[simp] theorem finish_error (s : State) (e : Err) : s.finish (.error e) = s.takeError e := rfl

/-- No error that a command raises has code NONE or the reserved code. -/
theorem code_ne_zero (k : ErrKind) : k.code ≠ 0#8 := by cases k <;> decide

theorem code_le (k : ErrKind) : k.code.toNat ≤ 8 := by cases k <;> decide

/-! ### The stream -/

/-- APPEND either gives the longer stream's state or refuses, the symbology's maximum first (R241). -/
theorem append_eq_ok {s t : State} {b : Bits} :
    s.append b = .ok t ↔ s.bsLen.toNat + b.length ≤ s.maxBits.toNat ∧ s.bsLen.toNat + b.length ≤ bsMaxBits
      ∧ t = { s.putBits s.bsLen.toNat b with bsLen := BitVec.ofNat 32 (s.bsLen.toNat + b.length) } := by
  simp only [State.append, bind_eq_ok, require_eq_ok, decide_eq_true_eq, pure, Except.pure, Except.ok.injEq]
  constructor
  · rintro ⟨_, h1, _, h2, rfl⟩
    exact ⟨h1, h2, rfl⟩
  · rintro ⟨h1, h2, rfl⟩
    exact ⟨(), h1, (), h2, rfl⟩

/-- Writing bits of the stream changes the memory alone. -/
theorem putBits_frame (s : State) (p : Nat) (b : Bits) : s.putBits p b = { s with mem := (s.putBits p b).mem } := by
  unfold State.putBits
  split <;> rfl

theorem forgetStreamFrom_frame (s : State) (p : Nat) :
    s.forgetStreamFrom p = { s with mem := (s.forgetStreamFrom p).mem } := rfl

/-- The bits a write of the stream leaves: the new ones inside, the old ones outside. -/
theorem streamBit_putBits (s : State) (p : Nat) (b : Bits) (k : Nat) (h : p + b.length ≤ bsMaxBits) :
    (s.putBits p b).streamBit k = if p ≤ k ∧ k < p + b.length then b.getD (k - p) false else s.streamBit k := by
  unfold State.putBits
  split
  · next hb => subst hb; simp; omega
  · next hb =>
    have hl : 0 < b.length := List.length_pos_iff.2 hb
    have hm : bsMaxBits = 32768 := rfl
    rw [streamBit_storeStream _ _ _ _ _ (by omega)]
    split
    · rfl
    · next h1 => rw [if_neg (by omega)]

/-- Bits below the position keep their value when the rest of the buffer becomes unspecified. -/
theorem streamBit_forgetStreamFrom (s : State) (p k : Nat) (h : k < p) (hp : p ≤ bsMaxBits) :
    (s.forgetStreamFrom p).streamBit k = s.streamBit k := by
  unfold State.forgetStreamFrom
  have hm : bsMaxBits = 32768 := rfl
  rw [streamBit_storeStream _ _ _ _ _ (by omega)]
  simp [h]

/-- A write of the stream leaves every byte outside the words it touches. -/
theorem loadByte_putBits_outside (s : State) (p : Nat) (b : Bits) (a : Nat)
    (h : a < bsBase + 4 * (p / 32) ∨ bsBase + 4 * ((p + b.length + 31) / 32) ≤ a) :
    (s.putBits p b).loadByte a = s.loadByte a := by
  unfold State.putBits
  split
  · rfl
  · next hb =>
    have hl : 0 < b.length := List.length_pos_iff.2 hb
    unfold State.storeStream
    rw [loadByte_storeWords_outside _ _ _ _ (by simp; omega)]

theorem loadByte_forgetStreamFrom_outside (s : State) (p a : Nat)
    (h : a < bsBase + 4 * (p / 32) ∨ bsBase + 4096 ≤ a) : (s.forgetStreamFrom p).loadByte a = s.loadByte a := by
  unfold State.forgetStreamFrom State.storeStream
  have hm : bsMaxBits = 32768 := rfl
  rw [loadByte_storeWords_outside _ _ _ _ (by simp; omega)]

/-! ### Soft reset -/

theorem forgetBits_frame (s : State) (p n : Nat) :
    s.forgetBits p n = { s with mem := (s.forgetBits p n).mem, draws := s.draws + 1 } := by
  unfold State.forgetBits State.nextDraw
  rw [putBits_frame]

theorem streamBit_forgetBits (s : State) (p n k : Nat) (h : p + n ≤ bsMaxBits) (hk : k < p ∨ p + n ≤ k) :
    (s.forgetBits p n).streamBit k = s.streamBit k := by
  show (s.putBits p _).streamBit k = _
  rw [streamBit_putBits _ _ _ _ (by simpa using h)]
  simp only [List.length_map, List.length_range]
  split
  · omega
  · rfl

theorem loadByte_forgetBits_outside (s : State) (p n a : Nat)
    (h : a < bsBase + 4 * (p / 32) ∨ bsBase + 4 * ((p + n + 31) / 32) ≤ a) :
    (s.forgetBits p n).loadByte a = s.loadByte a := by
  show (s.putBits p _).loadByte a = _
  exact loadByte_putBits_outside _ _ _ _ (by simpa using h)

/-- Abandoning a command changes memory and the count of draws alone (R372). -/
theorem abandon_frame (s : State) (i : Instr) :
    s.abandon i = { s with mem := (s.abandon i).mem, draws := (s.abandon i).draws } := by
  cases i <;> simp only [State.abandon, State.abandonBuild, State.abandonSelect] <;>
    first
      | rfl
      | (repeat' split) <;> first | rfl | (rw [forgetBits_frame])

/-! ### Steps -/

/-- The engine's step: the pending command's meaning, or the completion of an illegal word (R312, R313). -/
theorem step_engine {s : State} (h : s.engineTurn = true) :
    step s = match decode s.pcmd with
      | .ok i => exec i s
      | .error _ => .next (completeIllegal s) := (if_pos h).trans rfl

/-- The host's step (R310). -/
theorem step_host {s : State} (h : s.engineTurn = false) :
    step s = match s.hostQueue with
      | [] => .next s
      | t :: rest => .next (s.hostStep t rest) :=
  (if_neg (fun hc => by rw [h] at hc; cases hc)).trans rfl

end Sys2Proof.Laws
end

