-- ==== Sys2Proof/Laws/PerInstr.lean ====
section
/-! SUPPORT. The per-instruction family `MatchesRow`: the word of a well-formed command matches its row of the opcode
table, `word AND mask = match` (30_encoding.md R129). -/

namespace Sys2Proof.Laws.MatchesRow

open Sys2Proof

/-- Mask and match of a command's row (R128, R129). -/
def row : Instr → Word × Word
  | .nop => (0xFFFFFFFF#32, 0x00000000#32)
  | .gfInit => (0xFFFFFFFF#32, 0x01000000#32)
  | .gfMul => (0xFFFFFFFF#32, 0x02000000#32)
  | .gfDiv => (0xFFFFFFFF#32, 0x03000000#32)
  | .gfInv => (0xFFFFFFFF#32, 0x04000000#32)
  | .gfExp => (0xFFFFFFFF#32, 0x05000000#32)
  | .gfLog => (0xFFFFFFFF#32, 0x06000000#32)
  | .gfPow => (0xFFFFFFFF#32, 0x07000000#32)
  | .gfAdd => (0xFFFFFFFF#32, 0x08000000#32)
  | .rsInit => (0xFFFFFFFF#32, 0x10000000#32)
  | .rsEncode => (0xFFFFFFFF#32, 0x11000000#32)
  | .rsSynd => (0xFFFFFFFF#32, 0x12000000#32)
  | .rsAppend _ => (0xFFFFFFFE#32, 0x13000000#32)
  | .segClassify => (0xFFFFFFFF#32, 0x20000000#32)
  | .segResolve => (0xFFFFFFFF#32, 0x21000000#32)
  | .segGate => (0xFFFFFFFF#32, 0x22000000#32)
  | .bsClear => (0xFFFFFFFF#32, 0x28000000#32)
  | .bsAppend _ => (0xFFFFFFC0#32, 0x29000000#32)
  | .build => (0xFFFFFFFF#32, 0x2A000000#32)
  | .select _ _ _ => (0xFFE0FEFC#32, 0x30000000#32)
  | .split _ => (0xFFFFFFE0#32, 0x31000000#32)

/-- The word of the command matches its row. -/
def Statement (i : Instr) : Prop := i.wf = true → encode i &&& (row i).1 = (row i).2

theorem nop : Statement .nop := fun _ => by decide
theorem gfInit : Statement .gfInit := fun _ => by decide
theorem gfMul : Statement .gfMul := fun _ => by decide
theorem gfDiv : Statement .gfDiv := fun _ => by decide
theorem gfInv : Statement .gfInv := fun _ => by decide
theorem gfExp : Statement .gfExp := fun _ => by decide
theorem gfLog : Statement .gfLog := fun _ => by decide
theorem gfPow : Statement .gfPow := fun _ => by decide
theorem gfAdd : Statement .gfAdd := fun _ => by decide
theorem rsInit : Statement .rsInit := fun _ => by decide
theorem rsEncode : Statement .rsEncode := fun _ => by decide
theorem rsSynd : Statement .rsSynd := fun _ => by decide
theorem rsAppend (ord : EcOrder) : Statement (.rsAppend ord) := fun _ => by cases ord <;> decide
theorem segClassify : Statement .segClassify := fun _ => by decide
theorem segResolve : Statement .segResolve := fun _ => by decide
theorem segGate : Statement .segGate := fun _ => by decide
theorem bsClear : Statement .bsClear := fun _ => by decide

theorem bsAppend (width : Nat) : Statement (.bsAppend width) := fun h => by
  have all : ∀ w : Fin 64, encode (.bsAppend w) &&& 0xFFFFFFC0#32 = 0x29000000#32 := by decide
  exact all ⟨width, of_decide_eq_true h⟩

theorem build : Statement .build := fun _ => by decide

theorem select (ecc : Nat) (fixed : Bool) (minSize : Nat) : Statement (.select ecc fixed minSize) := fun h => by
  have all : ∀ e : Fin 4, ∀ f : Bool, ∀ m : Fin 32,
      encode (.select e f m) &&& 0xFFE0FEFC#32 = 0x30000000#32 := by decide
  have h := Bool.and_eq_true_iff.1 h
  exact all ⟨ecc, of_decide_eq_true h.1⟩ fixed ⟨minSize, of_decide_eq_true h.2⟩

theorem split (w : Nat) : Statement (.split w) := fun h => by
  have all : ∀ w : Fin 32, encode (.split w) &&& 0xFFFFFFE0#32 = 0x31000000#32 := by decide
  exact all ⟨w, of_decide_eq_true h⟩

end Sys2Proof.Laws.MatchesRow
end

