-- ==== Sys2Proof/Tests/Slice0.lean ====
section
/-! SUPPORT. The model's own tests: ill-formed terms, decoded words written out from the spec's encodings, one-step
checks against the spec's examples and vectors, and for every obligation with hypotheses a state that meets them. -/

set_option Elab.async false

namespace Sys2Proof.Tests

open Sys2Proof Sys2Proof.Machine Sys2Proof.Safety Sys2Proof.Claims

/-! ### WellFormed: an ill-formed term for each check -/

theorem test_wf_width : (Instr.bsAppend 64).wf = false ∧ (Instr.bsAppend 63).wf = true := by decide
theorem test_wf_ecc : (Instr.select 4 false 0).wf = false ∧ (Instr.select 3 false 0).wf = true := by decide
theorem test_wf_min_size : (Instr.select 0 true 32).wf = false ∧ (Instr.select 0 true 31).wf = true := by decide
theorem test_wf_split : (Instr.split 32).wf = false ∧ (Instr.split 31).wf = true := by decide

/-! ### Decode: words written bit by bit from 30_encoding.md R120 to R128 -/

theorem test_decode_nop : decode 0b00000000_000000000000000000000000#32 = .ok .nop := by decide
theorem test_decode_gfInit : decode 0b00000001_000000000000000000000000#32 = .ok .gfInit := by decide
theorem test_decode_gfMul : decode 0b00000010_000000000000000000000000#32 = .ok .gfMul := by decide
theorem test_decode_gfDiv : decode 0b00000011_000000000000000000000000#32 = .ok .gfDiv := by decide
theorem test_decode_gfInv : decode 0b00000100_000000000000000000000000#32 = .ok .gfInv := by decide
theorem test_decode_gfExp : decode 0b00000101_000000000000000000000000#32 = .ok .gfExp := by decide
theorem test_decode_gfLog : decode 0b00000110_000000000000000000000000#32 = .ok .gfLog := by decide
theorem test_decode_gfPow : decode 0b00000111_000000000000000000000000#32 = .ok .gfPow := by decide
theorem test_decode_gfAdd : decode 0b00001000_000000000000000000000000#32 = .ok .gfAdd := by decide
theorem test_decode_rsInit : decode 0b00010000_000000000000000000000000#32 = .ok .rsInit := by decide
theorem test_decode_rsEncode : decode 0b00010001_000000000000000000000000#32 = .ok .rsEncode := by decide
theorem test_decode_rsSynd : decode 0b00010010_000000000000000000000000#32 = .ok .rsSynd := by decide
theorem test_decode_rsAppend : decode 0b00010011_00000000000000000000000_1#32 = .ok (.rsAppend .ascending) := by decide
theorem test_decode_segClassify : decode 0b00100000_000000000000000000000000#32 = .ok .segClassify := by decide
theorem test_decode_segResolve : decode 0b00100001_000000000000000000000000#32 = .ok .segResolve := by decide
theorem test_decode_segGate : decode 0b00100010_000000000000000000000000#32 = .ok .segGate := by decide
theorem test_decode_bsClear : decode 0b00101000_000000000000000000000000#32 = .ok .bsClear := by decide
theorem test_decode_bsAppend : decode 0b00101001_000000000000000000_100001#32 = .ok (.bsAppend 33) := by decide
theorem test_decode_build : decode 0b00101010_000000000000000000000000#32 = .ok .build := by decide
theorem test_decode_select : decode 0b00110000_000_10010_0000000_1_000000_10#32 = .ok (.select 2 true 18) := by decide
theorem test_decode_split : decode 0b00110001_0000000000000000000_10011#32 = .ok (.split 19) := by decide
theorem test_decode_undefined : decode 0b00001001_000000000000000000000000#32 = .error .undefinedOpcode := by decide
theorem test_decode_reserved : decode 0b00110000_001_00000_0000000_0_000000_00#32 = .error .reservedBit := by decide
theorem test_decodeTableWord : decodeTableWord 32 0x29000005 = some (.bsAppend 5) := by decide

/-! ### Helpers -/

/-- The state after a command. -/
def run (i : Instr) (s : State) : State :=
  match exec i s with
  | .next t => t
  | _ => s

/-- The state after a step. -/
def stepped (s : State) : State :=
  match step s with
  | .next t => t
  | _ => s

/-- The error registers. -/
def report (s : State) : Bool × Nat × Nat := (s.status.err, s.status.errCode.toNat, s.errInfo.toNat)

/-- GF(0x13) of 95_test_vectors.md: the tables' element entries, `OPA = a`, `OPB = b`. -/
def gf16 (a b : Nat) : State :=
  let t := State.reset.storeNats alogBase [1, 2, 4, 8, 3, 6, 12, 11, 5, 10, 7, 14, 15, 13, 9]
  let u := t.storeNats logBase [0xFFFF, 0, 1, 4, 2, 8, 5, 10, 3, 14, 9, 7, 6, 13, 11, 12]
  { u with
    valid := { u.valid with gf := true }
    gfPoly := 0x13#32, gfM := 4#32, opa := BitVec.ofNat 32 a, opb := BitVec.ofNat 32 b }

/-- The same with the generator of `E = 5, r0 = 1` (41_rs.md R180) and a data block (R185). -/
def rs5 (len base : Nat) (cw : List Nat) : State :=
  let t := ((gf16 len base).storeNats genBase [1, 2, 6, 4, 11, 1]).storeNats cwBase cw
  { t with valid := { t.valid with rs := true }, rsE := 5#32, rsR0 := 1#32 }

/-- The same after RS_ENCODE of R185's example. -/
def rs5rem (len base : Nat) (cw : List Nat) : State :=
  let t := (rs5 len base cw).storeNats remBase [9, 10, 15, 13, 7]
  { t with valid := { t.valid with rem := true } }

/-- MODECFG of EX1 (95_test_vectors.md section 2.1), with MC_CTL of mode B as given. -/
def ex1Modes (b : Word) : Vector ModeRegs 8 :=
  #v[{ ModeRegs.reset with ctl := 1#32, gbits := 5#32 }, { ModeRegs.reset with ctl := 0x30001#32, gbits := 4#32 },
    { ModeRegs.reset with ctl := 1#32, gbits := 5#32 },
    { ModeRegs.reset with
      ctl := b, gbits := 8#32, hdrw := 0xB05#32, short := 0x1F#32, long := 0x1F0000#32, term := 0x00020002#32 },
    ModeRegs.reset, ModeRegs.reset, ModeRegs.reset, ModeRegs.reset]

/-- EX1 with the entries of the characters space, `!`, `0`, `1`, `A`, `B`, `a`, `b`, and a terminator in mode B. -/
def ex1 (b : Word) (chars tags : List Nat) : State :=
  let t := State.reset.storeNats transBase [0, 0x1E0501, 0x502, 0x1F0502]
  let t := t.storeNats (transBase + 32) [0xE0401, 0, 0x402, 3]
  let t := t.storeNats (clsBase + 4 * 48) [0xB, 0xC]
  let t := t.storeNats (clsBase + 4 * 64) [0xA, 0xA]
  let t := t.storeNats (clsBase + 4 * 81) [0x9, 0x9]
  let t := t.storeNats (clsBase + 4 * 113) [0x8, 0x8]
  let t := t.storeNats (vtabBase + 4 * 48) [1]
  let t := t.storeNats (vtabBase + 4 * 81) [2, 3]
  let t := t.storeNats (vtabBase + 0x800 + 4 * 48) [1]
  let t := t.storeNats (vtabBase + 0x800 + 4 * 64) [2, 3]
  let t := t.storeNats (vtabBase + 0x1000 + 4 * 49) [6]
  let t := t.storeNats (vtabBase + 0x1800 + 4 * 113) [0x61, 0x62]
  let t := t.storeNats charBase chars
  let t := t.storeNats modeBase tags
  { t with
    modecfg := ex1Modes b, modeCfg := 0x304#32, nChars := BitVec.ofNat 32 chars.length }

/-- MC_CTL of EX1's byte mode. -/
def byteMode : Word := 0x01000009#32

/-- A stream of BS words. -/
def stream (len : Nat) (ws : List Nat) (ctrl : Word) : State :=
  let t := State.reset.storeNats bsBase ws
  { t with bsLen := BitVec.ofNat 32 len, ctrl := ctrl }

/-- The same with size table T1 (95_test_vectors.md section 2.3). -/
def sized (len : Nat) (ws : List Nat) (ctrl : Word) : State :=
  let t := (stream len ws ctrl).storeNats sizeBase [6, 17, 102, 90, 66, 48]
  let t := t.storeNats (sizeBase + 32) [6, 40, 240, 200, 160, 120]
  let t := t.storeNats (sizeBase + 64) [8, 51, 408, 360, 300, 240]
  { t with sizeCount := 3#32 }

/-- Ten zero bits and two sizes of width 4, with stuffing. -/
def small : State :=
  let t := (stream 10 [0] 4).storeNats sizeBase [4, 7, 24, 16, 12, 8]
  let t := t.storeNats (sizeBase + 32) [4, 9, 32, 24, 20, 16]
  { t with sizeCount := 2#32 }

/-- A pending command whose completion is next. -/
def due (s : State) (w : Word) : State := s.withFetchWord 32 w.toNat

/-! ### One step of each command -/

/-- 45_control.md R318: STATUS reads 0x00000002. -/
theorem test_nop : (stepped (due State.reset 0#32)).statusWord = 2#32 := by decide +kernel

/-- 40_gf.md R151: the degree, and the order of the checks; R153: 0x1F is not primitive. -/
theorem test_gfInit :
    (run .gfInit { State.reset with opa := 0x13#32 }).res = 4#32
      ∧ (run .gfInit { State.reset with opa := 0x13#32 }).valid.gf = true
      ∧ report (run .gfInit { State.reset with opa := 0x1F#32 }) = (true, 4, 0x01000000) := by decide +kernel
theorem test_gfInit_tables :
    modulusOk 0x13 4 = true ∧ modulusOk 0x1F 4 = false ∧ modulusOk 2 1 = false ∧ modulusOk 3 1 = true
      ∧ (antilogTable 0x13 4) = [1, 2, 4, 8, 3, 6, 12, 11, 5, 10, 7, 14, 15, 13, 9] := by decide +kernel

/-- R161. -/
theorem test_gfMul : (run .gfMul (gf16 7 9)).res = 10#32 ∧ (run .gfMul (gf16 0 9)).status.z = true := by
  decide +kernel
/-- R162: the quotient with a negative difference of logarithms; a zero divisor. -/
theorem test_gfDiv :
    (run .gfDiv (gf16 7 9)).res = 14#32 ∧ report (run .gfDiv (gf16 0 0)) = (true, 8, 0) := by decide +kernel
/-- R163. -/
theorem test_gfInv : (run .gfInv (gf16 7 99)).res = 6#32 ∧ (run .gfInv (gf16 1 0)).res = 1#32 := by decide +kernel
/-- R164. -/
theorem test_gfExp : (run .gfExp (gf16 15 0)).res = 1#32 ∧ (run .gfExp (gf16 16 0)).res = 2#32 := by decide +kernel
/-- R165. -/
theorem test_gfLog :
    (run .gfLog (gf16 9 0)).res = 14#32 ∧ (run .gfLog (gf16 1 0)).status.z = true
      ∧ report (run .gfLog (gf16 0 0)) = (true, 8, 0) := by decide +kernel
/-- R166. -/
theorem test_gfPow :
    (run .gfPow (gf16 2 4)).res = 3#32 ∧ (run .gfPow (gf16 0 0)).res = 1#32 ∧ (run .gfPow (gf16 5 0)).res = 1#32 := by
  decide +kernel
/-- R167, and R156's order of checks. -/
theorem test_gfAdd :
    (run .gfAdd (gf16 7 9)).res = 14#32 ∧ report (run .gfAdd (gf16 16 16)) = (true, 6, 0x01000000)
      ∧ report (run .gfAdd State.reset) = (true, 7, 0) := by decide +kernel

/-- 41_rs.md R180. -/
theorem test_rsInit :
    let t := run .rsInit (gf16 5 1)
    (List.range 6).map t.tGen = [1, 2, 6, 4, 11, 1] ∧ t.rsE = 5#32 ∧ t.valid.rs = true := by decide +kernel
/-- R185. -/
theorem test_rsEncode :
    let t := run .rsEncode (rs5 6 0 [0, 0, 1, 2, 3, 4])
    (List.range 5).map t.tRem = [9, 10, 15, 13, 7] ∧ t.valid.rem = true ∧ t.res = 0#32 := by decide +kernel
/-- R185: the lowest codeword that is no element. -/
theorem test_rsEncode_element :
    report (run .rsEncode (rs5 3 1 [99, 1, 16, 17])) = (true, 6, 0x04000002) := by decide +kernel
/-- R191: a codeword with a changed symbol; RES counts the nonzero syndromes. -/
theorem test_rsSynd :
    let t := run .rsSynd (rs5 11 0 [0, 0, 0, 2, 3, 4, 7, 13, 15, 10, 9])
    (List.range 5).map t.tSyn = [5, 2, 10, 4, 7] ∧ t.res = 5#32 := by decide +kernel
/-- R195: both orders. -/
theorem test_rsAppend :
    (List.range 5).map (fun k => (run (.rsAppend .reverse) (rs5rem 6 0 [])).tCw (6 + k)) = [7, 13, 15, 10, 9]
      ∧ (run (.rsAppend .ascending) (rs5rem 6 0 [])).tCw 6 = 9
      ∧ (run (.rsAppend .ascending) (rs5rem 6 0 [])).res = 11#32 := by decide +kernel
/-- R195: NOT_READY(2), and the EC block past the end of the buffer. -/
theorem test_rsAppend_refused :
    report (run (.rsAppend .reverse) (rs5 6 0 [])) = (true, 7, 2)
      ∧ report (run (.rsAppend .reverse) (rs5rem 6 4086 [])) = (true, 6, 0x02000000) := by decide +kernel

/-- 42_segment.md R217: "A1 B". -/
theorem test_segClassify :
    let t := run .segClassify (ex1 byteMode [65, 49, 32, 66] [])
    (List.range 4).map t.tMode = [0, 1, 15, 0] ∧ t.res = 1#32 := by decide +kernel
/-- R211: a code below the sentinels at position 1. -/
theorem test_segClassify_refused :
    report (run .segClassify (ex1 byteMode [65, 0xFFFFFFEF] [])) = (true, 1, 0x01000001) := by decide +kernel
/-- R220: "A1 B". -/
theorem test_segResolve :
    let t := run .segResolve (ex1 byteMode [65, 49, 32, 66] [0, 1, 15, 0])
    (List.range 4).map t.tMode = [0, 1, 1, 0] ∧ t.res = 3#32 := by decide +kernel
/-- R227: "a1b" folds into B; "A1B" does not fold. -/
theorem test_segGate :
    (List.range 3).map (run .segGate (ex1 byteMode [97, 49, 98] [3, 1, 3])).tMode = [3, 3, 3]
      ∧ (run .segGate (ex1 byteMode [97, 49, 98] [3, 1, 3])).res = 1#32
      ∧ (run .segGate (ex1 byteMode [65, 49, 66] [0, 1, 0])).status.z = true := by decide +kernel

/-- 43_bitstream.md R244. -/
theorem test_bsClear : (run .bsClear (stream 5 [0xF0000000] 0)).bsLen = 0#32 := by decide +kernel
/-- R245: `BS_APPEND width=5` with OPA = 0x1E, across a word boundary; WIDTH 33 is refused. -/
theorem test_bsAppend :
    let t := run (.bsAppend 5) { stream 30 [0, 0] 0 with opa := 0x1E#32 }
    t.stream.drop 30 = [true, true, true, true, false] ∧ t.res = 35#32
      ∧ report (run (.bsAppend 33) (stream 0 [0] 0)) = (true, 6, 0x03000000) := by decide +kernel
/-- R241: stage 1 before stage 2. -/
theorem test_bsAppend_full :
    report (run (.bsAppend 1) (stream 32768 [] 0)) = (true, 2, 0x01008001)
      ∧ report (run (.bsAppend 1) { stream 32768 [] 0 with maxBits := 0xFFFFFFFF#32 }) = (true, 2, 0x02008001) := by
  decide +kernel
/-- R268: "A1B" is 00010 11110 0011 1110 00011. -/
theorem test_build :
    let t := run .build ((ex1 byteMode [65, 49, 66] [0, 1, 0]).storeNats bsBase [0])
    t.stream = [false, false, false, true, false, true, true, true, true, false, false, false, true, true,
      true, true, true, false, false, false, false, true, true] ∧ t.res = 23#32 := by decide +kernel
/-- R268: "a" in mode B is 11111 00001 01100001. -/
theorem test_build_shift :
    (run .build ((ex1 byteMode [97] [3]).storeNats bsBase [0])).stream = [true, true, true, true, true, false, false, false, false, true,
      false, true, true, false, false, false, false, true] := by decide +kernel

/-- 44_capacity.md R292: 70 zero bits with stuffing. -/
theorem test_select :
    let t := run (.select 1 false 0) (sized 70 [0, 0, 0] 4)
    t.selSize = 0#32 ∧ t.dataCw = 14#32 ∧ t.ecCw = 3#32 ∧ t.stuffIns = 14#32 ∧ t.tCw 13 = 1 := by decide +kernel
/-- R292: level 2 needs size 1; R294 and R292's refusals. -/
theorem test_select_next :
    (run (.select 2 false 0) (sized 70 [0, 0, 0] 4)).selSize = 1#32
      ∧ report (run (.select 2 true 0) (sized 70 [0, 0, 0] 4)) = (true, 2, 0x03000046) := by decide +kernel
/-- R298: `0000011111` with and without stuffing. -/
theorem test_split :
    (run (.split 6) (stream 10 [0x07C00000] 4)).stuffIns = 2#32
      ∧ (List.range 2).map (run (.split 6) (stream 10 [0x07C00000] 4)).tCw = [1, 62]
      ∧ (List.range 2).map (run (.split 6) (stream 10 [0x07C00000] 0)).tCw = [1, 63]
      ∧ report (run (.split 1) (stream 10 [0] 4)) = (true, 6, 0x03000000) := by decide +kernel

/-! ### The host bus -/

/-- 70_reset_and_hazards.md R380: a write refused while busy sets OVR; a write to CTRL keeps STUFF_EN. -/
theorem test_busy_write :
    let s := due { State.reset with ctrl := 4#32 } 0#32
    (s.busWrite 0x010 7#32).opa = 0#32 ∧ (s.busWrite 0x010 7#32).status.ovr = true
      ∧ (s.busWrite 0x004 9#32).ctrl = 5#32 := by decide +kernel
/-- R380: STATUS is read while busy, RES is not. -/
theorem test_busy_read :
    let s := due State.reset 0x02000000#32
    (s.busRead 0x008).lastRead = some 0x00020001#32 ∧ (s.busRead 0x008).status.ovr = false
      ∧ (s.busRead 0x018).lastRead = some 0#32 ∧ (s.busRead 0x018).status.ovr = true := by decide +kernel
/-- R372: a soft reset abandons the pending command. -/
theorem test_soft_reset :
    let t := (due { State.reset with opa := 5#32 } 0#32).busWrite 0x004 3#32
    t.pending = false ∧ t.opa = 0#32 ∧ t.ctrl = 0#32 ∧ t.status.done = false ∧ t.maxBits = 32768#32 := by
  decide +kernel
/-- R372, R219: an abandoned command that its checks would have refused leaves its region; SPLIT of 10 bits frees two
codewords. -/
theorem test_abandon :
    let s := due (ex1 byteMode [65, 0x10000] [3, 4]) 0x20000000#32
    let u := due { (stream 10 [0] 0).storeNats cwBase [7, 8, 9] with opa := 1#32 } 0x31000006#32
    (s.busWrite 0x004 2#32).busValue 0x14004 = 4#32 ∧ (u.busWrite 0x004 2#32).busValue 0x20008 = 9#32
      ∧ (u.busWrite 0x004 2#32).draws = u.draws + 1 ∧ (s.busWrite 0x004 2#32).draws = s.draws := by decide +kernel
/-- 20_memory.md R96 to R98. -/
theorem test_address_errors :
    (State.reset.busWrite 0x018 1#32).status.aerr = true ∧ (State.reset.busWrite 0x011 1#32).status.aerr = true
      ∧ (State.reset.busRead 0x2C004).status.aerr = true ∧ (State.reset.busRead 0x00C).status.aerr = false := by
  decide +kernel
/-- R94: the field bits of a TRANS entry and of MC_CTL. -/
theorem test_write_masks :
    (State.reset.busWrite 0x010FC 0xFFFFFFFF#32).busValue 0x010FC = 0xFFFF1F73#32
      ∧ (State.reset.busWrite 0x1E0 0xFFFFFFFF#32).busValue 0x1E0 = 0x01FFFF1F#32 := by decide +kernel
/-- 10_state.md R35: W1C; 60_exceptions.md R350: the interrupt follows. -/
theorem test_status_ack :
    let s := { stepped (due State.reset 0#32) with ctrl := 1#32 }
    s.irq = true ∧ (s.busWrite 0x008 0x1E#32).irq = false ∧ (s.busWrite 0x008 0x1C#32).irq = true := by decide +kernel
/-- 30_encoding.md R130: an illegal word. -/
theorem test_illegal :
    report (stepped (due State.reset 0x01000001#32)) = (true, 5, 0x01000001) := by decide +kernel

/-! ### Witnesses: states that meet the hypotheses of the obligations -/

theorem witness_DecodeOfEncode : (Instr.select 3 true 31).wf = true ∧ (Instr.bsAppend 63).wf = true := by decide

theorem witness_LegalWords : decode 0x30040103#32 = .ok (.select 3 true 4) := by decide

theorem witness_StepRunsPendingCommand :
    let s := due State.reset 0#32
    let q := { State.reset with hostQueue := [.read 0#20] }
    let r := { s with delay := 1, hostQueue := [.write 8#20 2#32] }
    (s.pending = true ∧ s.delay = 0 ∧ decode s.pcmd = .ok .nop)
      ∧ (q.pending = false ∧ q.hostQueue = .read 0#20 :: [])
      ∧ (r.delay ≠ 0 ∧ r.hostQueue = .write 8#20 2#32 :: [])
      ∧ (State.reset.pending = false ∧ State.reset.hostQueue = []) := by
  refine ⟨by decide +kernel, by decide +kernel, by decide +kernel, by decide +kernel⟩

theorem witness_IllegalWordCompletes :
    Illegal 0x01000001#32 ∧ Illegal 0xFF000000#32 ∧ State.reset.pending = false
      ∧ (due State.reset 0xFF000000#32).pending = true ∧ (due State.reset 0xFF000000#32).pcmd = 0xFF000000#32
      ∧ (due State.reset 0xFF000000#32).delay = 0 := by
  refine ⟨show (0x01000001#32 &&& 0x00FFFFFF#32) ≠ 0#32 by decide, trivial, by decide, by decide +kernel,
    by decide +kernel, by decide +kernel⟩

theorem witness_IssueByCmdWrite : State.reset.pending = false ∧ (due State.reset 0#32).pending = true := by
  decide +kernel

/-- What `exec` answers is what `run` names. -/
theorem eq_run {i : Instr} {s t : State} (h : exec i s = .next t) : t = run i s := by
  simp only [run, h]

/-- `exec` of a command gives the state `run` names, where it goes on. -/
theorem exec_run (i : Instr) (s : State) (h : ∃ t, exec i s = .next t) : exec i s = .next (run i s) := by
  obtain ⟨t, h⟩ := h
  simp only [run, h]

theorem select_goes (ecc : Nat) (fixed : Bool) (k : Nat) (s : State) : ∃ t, exec (.select ecc fixed k) s = .next t := by
  show ∃ t, execSelect ecc fixed k s = .next t
  unfold execSelect
  split
  · exact ⟨_, rfl⟩
  · split <;> exact ⟨_, rfl⟩

theorem split_goes (w : Nat) (s : State) : ∃ t, exec (.split w) s = .next t := by
  show ∃ t, execSplit w s = .next t
  unfold execSplit
  split
  · exact ⟨_, rfl⟩
  · dsimp only
    split <;> exact ⟨_, rfl⟩

theorem witness_SoftReset :
    (2#32).getLsbD 1 = true ∧ (4 < (stream 5 [0] 0).bsLen.toNat)
      ∧ WouldWrite (gf16 2 7) .rsInit (0x28000 + 11) ∧ ¬ WouldWrite (gf16 2 7) .rsInit (0x28000 + 12)
      ∧ WouldWrite (stream 10 [0] 0) (.split 6) 0x20007 ∧ ¬ WouldWrite (stream 10 [0] 0) (.split 6) 0x20008
      ∧ ¬ WouldWrite (stream 10 [0] 0) (.split 0) 0x20000 := by
  refine ⟨by decide, by decide +kernel, ⟨?_, _, exec_run _ _ ⟨_, rfl⟩, ?_⟩, ?_,
    ⟨?_, _, exec_run _ _ (split_goes _ _), ?_⟩, ?_, ?_⟩
  · unfold Written; decide +kernel
  · decide +kernel
  · rintro ⟨h, -⟩; revert h; unfold Written; decide +kernel
  · unfold Written; decide +kernel
  · decide +kernel
  · rintro ⟨-, t, h, -, ht⟩; rw [eq_run h] at ht; revert ht; decide +kernel
  · rintro ⟨-, t, h, he, -⟩; rw [eq_run h] at he; revert he; decide +kernel

theorem witness_MemoryFormKept : State.reset.mem.wf ∧ step State.reset = .next State.reset := ⟨by decide, rfl⟩

theorem witness_RegistersLegalKept : RegistersLegal State.reset ∧ step State.reset = .next State.reset := by
  refine ⟨?_, rfl⟩
  simp only [RegistersLegal, FieldsLegal, ModeRegsLegal, ErrorsLegal, PendingLegal, ValidLegal]
  decide

theorem gf16_fieldOk : FieldOk (gf16 7 9) := by unfold FieldOk; decide +kernel
theorem rs5_fieldOk : FieldOk (rs5 6 0 [0, 0, 1, 2, 3, 4]) := by unfold FieldOk; decide +kernel
theorem rs5_generatorOk : GeneratorOk (rs5 6 0 [0, 0, 1, 2, 3, 4]) := by unfold GeneratorOk; decide +kernel
theorem rs5_block :
    BlockFits (rs5 6 0 [0, 0, 1, 2, 3, 4]) ∧ BlockElements (rs5 6 0 [0, 0, 1, 2, 3, 4]) := by
  unfold BlockFits BlockElements; decide +kernel

theorem witness_EngineTablesKept :
    TablesValid (rs5 6 0 [0, 0, 1, 2, 3, 4]) ∧ (rs5 6 0 [0, 0, 1, 2, 3, 4]).valid.rs = true
      ∧ step (rs5 6 0 [0, 0, 1, 2, 3, 4]) = .next (rs5 6 0 [0, 0, 1, 2, 3, 4]) :=
  ⟨⟨fun _ => rs5_fieldOk, fun _ => ⟨rfl, rs5_generatorOk⟩⟩, rfl, rfl⟩

theorem witness_GfInitBuildsField : (2 ≤ 3 ∧ 3 < 2 ^ 17 ∧ Primitive 3 (Nat.log2 3)) ∧ Primitive 0x13 (Nat.log2 0x13)
    ∧ ({ State.reset with opa := 3#32 } : State).opa.toNat = 3 := by
  unfold Primitive; decide +kernel

theorem witness_GfInitRefuses :
    (1 < 2 ∧ 2 ^ 17 ≤ (0x20000#32).toNat) ∧ ¬ Primitive 2 (Nat.log2 2) ∧ ¬ Primitive 0x1F (Nat.log2 0x1F) := by
  unfold Primitive; decide +kernel

theorem witness_GfMulAddCommands :
    State.reset.valid.gf = false
      ∧ ((gf16 16 0).valid.gf = true ∧ 2 ^ (gf16 16 0).gfM.toNat ≤ (gf16 16 0).opa.toNat)
      ∧ ((gf16 15 16).opa.toNat < 2 ^ (gf16 15 16).gfM.toNat ∧ 2 ^ (gf16 15 16).gfM.toNat ≤ (gf16 15 16).opb.toNat)
      ∧ ((gf16 15 15).valid.gf = true ∧ (gf16 15 15).opa.toNat < 2 ^ (gf16 15 15).gfM.toNat
        ∧ (gf16 15 15).opb.toNat < 2 ^ (gf16 15 15).gfM.toNat) := by decide +kernel

theorem witness_GfDivCommand :
    State.reset.valid.gf = false
      ∧ ((gf16 16 0).valid.gf = true ∧ 2 ^ (gf16 16 0).gfM.toNat ≤ (gf16 16 0).opa.toNat)
      ∧ ((gf16 0 16).opa.toNat < 2 ^ (gf16 0 16).gfM.toNat ∧ 2 ^ (gf16 0 16).gfM.toNat ≤ (gf16 0 16).opb.toNat)
      ∧ ((gf16 15 0).valid.gf = true ∧ (gf16 15 0).opa.toNat < 2 ^ (gf16 15 0).gfM.toNat
        ∧ (gf16 15 0).opb.toNat = 0)
      ∧ ((gf16 15 1).valid.gf = true ∧ (gf16 15 1).opa.toNat < 2 ^ (gf16 15 1).gfM.toNat
        ∧ (gf16 15 1).opb.toNat < 2 ^ (gf16 15 1).gfM.toNat ∧ (gf16 15 1).opb.toNat ≠ 0) := by decide +kernel

theorem witness_GfInvLogCommands :
    State.reset.valid.gf = false
      ∧ ((gf16 16 0).valid.gf = true ∧ 2 ^ (gf16 16 0).gfM.toNat ≤ (gf16 16 0).opa.toNat)
      ∧ ((gf16 0 0).valid.gf = true ∧ (gf16 0 0).opa.toNat = 0)
      ∧ ((gf16 15 0).valid.gf = true ∧ (gf16 15 0).opa.toNat < 2 ^ (gf16 15 0).gfM.toNat
        ∧ (gf16 15 0).opa.toNat ≠ 0) := by decide +kernel

theorem witness_GfExpPowCommands :
    State.reset.valid.gf = false
      ∧ ((gf16 16 0).valid.gf = true ∧ 2 ^ (gf16 16 0).gfM.toNat ≤ (gf16 16 0).opa.toNat)
      ∧ ((gf16 0xFFFFFFFF 0).valid.gf = true)
      ∧ ((gf16 15 0xFFFFFFFF).valid.gf = true
        ∧ (gf16 15 0xFFFFFFFF).opa.toNat < 2 ^ (gf16 15 0xFFFFFFFF).gfM.toNat) := by decide +kernel

theorem witness_FieldCommandsCompute :
    FieldOk (gf16 7 9) ∧ (gf16 7 9).valid.gf = true ∧ (gf16 7 9).opa.toNat < 2 ^ (gf16 7 9).gfM.toNat
      ∧ (gf16 7 9).opb.toNat < 2 ^ (gf16 7 9).gfM.toNat ∧ (gf16 7 9).opa.toNat ≠ 0 ∧ (gf16 7 9).opb.toNat ≠ 0 :=
  ⟨gf16_fieldOk, by decide +kernel⟩

theorem witness_FieldLaws : FieldOk (gf16 7 9) ∧ 15 < 2 ^ (gf16 7 9).gfM.toNat ∧ 0 < 2 ^ (gf16 7 9).gfM.toNat :=
  ⟨gf16_fieldOk, by decide +kernel⟩

theorem witness_RsInitCommand :
    State.reset.valid.gf = false ∧ ((gf16 0 0).valid.gf = true ∧ (gf16 0 0).opa.toNat = 0)
      ∧ ((gf16 4097 0).valid.gf = true ∧ 4096 < (gf16 4097 0).opa.toNat)
      ∧ ((gf16 4096 1).valid.gf = true ∧ 1 ≤ (gf16 4096 1).opa.toNat ∧ (gf16 4096 1).opa.toNat ≤ 4096) := by
  decide +kernel

theorem witness_GeneratorPolynomial :
    FieldOk (gf16 7 9) ∧ (gf16 7 9).valid.gf = true ∧ 1 ≤ (gf16 7 9).opa.toNat ∧ (gf16 7 9).opa.toNat ≤ 4096 :=
  ⟨gf16_fieldOk, by decide +kernel⟩

theorem witness_RsBlockRefusals :
    State.reset.valid.rs = false ∧ ((rs5 4097 0 []).valid.rs = true ∧ 4096 < (rs5 4097 0 []).opa.toNat)
      ∧ ((rs5 4096 1 []).opa.toNat ≤ 4096 ∧ 4096 < (rs5 4096 1 []).opb.toNat + (rs5 4096 1 []).opa.toNat)
      ∧ ((rs5 2 0 [15, 16]).valid.rs = true ∧ BlockFits (rs5 2 0 [15, 16]) ∧ 1 < (rs5 2 0 [15, 16]).opa.toNat
        ∧ 2 ^ (rs5 2 0 [15, 16]).gfM.toNat ≤ (rs5 2 0 [15, 16]).tCw ((rs5 2 0 [15, 16]).opb.toNat + 1)
        ∧ ∀ j, j < 1 → (rs5 2 0 [15, 16]).tCw ((rs5 2 0 [15, 16]).opb.toNat + j)
          < 2 ^ (rs5 2 0 [15, 16]).gfM.toNat) := by
  unfold BlockFits; decide +kernel

theorem witness_RsEncodeCommand :
    (rs5 6 0 [0, 0, 1, 2, 3, 4]).valid.rs = true ∧ (rs5 6 0 [0, 0, 1, 2, 3, 4]).rsE.toNat ≤ 4096
      ∧ BlockFits (rs5 6 0 [0, 0, 1, 2, 3, 4]) ∧ BlockElements (rs5 6 0 [0, 0, 1, 2, 3, 4]) :=
  ⟨rfl, by decide +kernel, rs5_block⟩

theorem witness_RemainderOfDivision :
    (rs5 6 0 [0, 0, 1, 2, 3, 4]).valid.rs = true ∧ FieldOk (rs5 6 0 [0, 0, 1, 2, 3, 4])
      ∧ GeneratorOk (rs5 6 0 [0, 0, 1, 2, 3, 4]) ∧ BlockFits (rs5 6 0 [0, 0, 1, 2, 3, 4])
      ∧ BlockElements (rs5 6 0 [0, 0, 1, 2, 3, 4]) :=
  ⟨rfl, rs5_fieldOk, rs5_generatorOk, rs5_block⟩

theorem witness_ZeroDataZeroRemainder :
    (rs5 3 0 [0, 0, 0]).valid.rs = true ∧ BlockFits (rs5 3 0 [0, 0, 0])
      ∧ ∀ i, i < (rs5 3 0 [0, 0, 0]).opa.toNat →
        (rs5 3 0 [0, 0, 0]).tCw ((rs5 3 0 [0, 0, 0]).opb.toNat + i) = 0 := by
  unfold BlockFits; decide +kernel

theorem witness_RsSyndCommand :
    (rs5 6 0 [0, 0, 1, 2, 3, 4]).valid.rs = true ∧ (rs5 6 0 [0, 0, 1, 2, 3, 4]).rsE.toNat ≤ 4096
      ∧ BlockFits (rs5 6 0 [0, 0, 1, 2, 3, 4]) ∧ BlockElements (rs5 6 0 [0, 0, 1, 2, 3, 4]) :=
  ⟨rfl, by decide +kernel, rs5_block⟩

theorem witness_SyndromeValues :
    (rs5 6 0 [0, 0, 1, 2, 3, 4]).valid.rs = true ∧ FieldOk (rs5 6 0 [0, 0, 1, 2, 3, 4])
      ∧ (rs5 6 0 [0, 0, 1, 2, 3, 4]).rsE.toNat ≤ 4096 ∧ BlockFits (rs5 6 0 [0, 0, 1, 2, 3, 4])
      ∧ BlockElements (rs5 6 0 [0, 0, 1, 2, 3, 4]) :=
  ⟨rfl, rs5_fieldOk, by decide +kernel, rs5_block⟩

theorem witness_RsAppendCommand :
    State.reset.valid.rem = false ∧ ((rs5rem 4097 0 []).valid.rem = true ∧ 4096 < (rs5rem 4097 0 []).opa.toNat)
      ∧ ((rs5rem 4092 0 []).valid.rem = true ∧ (rs5rem 4092 0 []).opa.toNat ≤ 4096
        ∧ 4096 < (rs5rem 4092 0 []).opb.toNat + (rs5rem 4092 0 []).opa.toNat + (rs5rem 4092 0 []).rsE.toNat)
      ∧ ((rs5rem 4091 0 []).valid.rem = true
        ∧ (rs5rem 4091 0 []).opb.toNat + (rs5rem 4091 0 []).opa.toNat + (rs5rem 4091 0 []).rsE.toNat ≤ 4096) := by
  decide +kernel

theorem witness_RoundTrip :
    (rs5 6 0 [0, 0, 1, 2, 3, 4]).valid.rs = true ∧ FieldOk (rs5 6 0 [0, 0, 1, 2, 3, 4])
      ∧ GeneratorOk (rs5 6 0 [0, 0, 1, 2, 3, 4]) ∧ BlockElements (rs5 6 0 [0, 0, 1, 2, 3, 4])
      ∧ (rs5 6 0 [0, 0, 1, 2, 3, 4]).opb.toNat + (rs5 6 0 [0, 0, 1, 2, 3, 4]).opa.toNat
        + (rs5 6 0 [0, 0, 1, 2, 3, 4]).rsE.toNat ≤ 4096 :=
  ⟨rfl, rs5_fieldOk, rs5_generatorOk, rs5_block.2, by decide +kernel⟩

/-- EX1 without the transition from U to D. -/
def noPath : State := (ex1 byteMode [48] [1]).storeNats (transBase + 4) [0]

/-- EX1 with a character that mode B admits and has no value for. -/
def noValue : State := (ex1 byteMode [65, 97, 300] [0, 3, 3]).storeNats (clsBase + 4 * 272) [8]

/-- EX1 with GN = 0 in mode U. -/
def badMode : State :=
  let s := ex1 byteMode [65] [0]
  { s with modecfg := s.modecfg.set 0 ModeRegs.reset }

theorem noPath_error : EmissionError noPath 4#8 0x02000001#32 := by
  refine ⟨by unfold ChecksPass ConfigOk TagsOk ModeOk Admitted HasCandidates candMask; decide +kernel,
    [], ⟨1, 0, 1⟩, [], [], 0, by decide +kernel, .done 0, .inl ⟨by decide, ?_, rfl, by decide⟩⟩
  intro q h
  cases h with
  | direct _ _ _ _ _ hk => revert hk; decide +kernel
  | via _ _ _ _ _ _ _ hk => revert hk; decide +kernel

theorem noValue_error : EmissionError noValue 1#8 0x04000002#32 := by
  refine ⟨by unfold ChecksPass ConfigOk TagsOk ModeOk Admitted HasCandidates candMask; decide +kernel,
    [⟨0, 0, 1⟩], ⟨3, 1, 3⟩, [], bitsOf 2 5 ++ [], 0, by decide +kernel,
    .next _ _ _ _ _ _ _ (.stay ⟨0, 0, 1⟩ _ (by decide +kernel) (by decide +kernel)) (.done 0),
    .inr ⟨.inr ⟨[⟨0, 3, .shift, 5, 31⟩], by decide +kernel⟩, rfl, 2, by decide, by decide, ?_,
      ⟨{ kind := .invalidInput, info := 0x04000002#32 }, by decide +kernel⟩, by decide⟩⟩
  intro j h1 h2
  have h3 : 1 ≤ j := h1
  obtain rfl : j = 1 := by omega
  exact ⟨97, by decide +kernel⟩

theorem badMode_error : CheckError badMode 4#8 0x05000000#32 := by
  unfold CheckError ConfigOk TagsOk ModeOk; exact .inr (.inr (.inl ⟨by decide +kernel, by decide +kernel, 0, by decide +kernel⟩))

theorem witness_SegmentationRefusals :
    4096 < ({ ex1 byteMode [65] [] with nChars := 4097#32 } : State).nChars.toNat
      ∧ (State.reset.nChars.toNat ≤ 4096 ∧ ¬ ConfigOk State.reset)
      ∧ (let s := ex1 byteMode [65, 0x10000] [0, 15];
        s.nChars.toNat ≤ 4096 ∧ ConfigOk s ∧ 1 < s.nChars.toNat ∧ (∀ j, j < 1 → HasCandidates s j)
          ∧ CandidateError s 1 0x01000001#32 ∧ TagsOk s true s.nChars.toNat)
      ∧ CandidateError (ex1 byteMode [0xFFFFFFEF] []) 0 0x01000000#32
      ∧ CandidateError ((ex1 byteMode [0xFFFFFFF0] []).storeNats clsBase [0]) 0 0x02000000#32
      ∧ (let s := ex1 byteMode [65, 65] [15, 4];
        TagsOk s true 1 ∧ s.modeCount ≤ s.tMode 1 ∧ s.tMode 1 ≠ 15)
      ∧ (let s := ex1 byteMode [65, 65] [3, 15]; TagsOk s false 1 ∧ s.modeCount ≤ s.tMode 1)
      ∧ (let s := ex1 byteMode [65, 65] [0, 1];
        TagsOk s false s.nChars.toNat ∧ (∀ j, j < 1 → Admitted s j) ∧ AdmissionError s 1 0x03000001#32)
      ∧ (TagsOk badMode false badMode.nChars.toNat ∧ (∀ j, j < badMode.nChars.toNat → Admitted badMode j)) := by
  refine ⟨?_, ?_, ?_, ?_, ?_, ?_, ?_, ?_, ?_⟩ <;>
    simp only [ConfigOk, AdmissionError, CandidateError, Admitted, HasCandidates, candMask, TagsOk] <;> decide +kernel

theorem ex1_ready : ResolveReady (ex1 byteMode [65, 49, 32, 66] [0, 1, 15, 0]) := by
  unfold ResolveReady ConfigOk HasCandidates candMask; decide +kernel

theorem witness_SegClassifyCommand :
    (ex1 byteMode [65, 49, 32, 66] [0, 1, 15, 0]).nChars.toNat ≤ 4096
      ∧ ConfigOk (ex1 byteMode [65, 49, 32, 66] [0, 1, 15, 0])
      ∧ ∀ i, i < (ex1 byteMode [65, 49, 32, 66] [0, 1, 15, 0]).nChars.toNat →
        HasCandidates (ex1 byteMode [65, 49, 32, 66] [0, 1, 15, 0]) i :=
  ⟨ex1_ready.1, ex1_ready.2.1, ex1_ready.2.2.1⟩

theorem witness_SegResolveCommand : ResolveReady (ex1 byteMode [65, 49, 32, 66] [0, 1, 15, 0]) := ex1_ready

theorem witness_SegResolveChoice :
    ResolveReady (ex1 byteMode [65, 49, 32, 66] [0, 1, 15, 0])
      ∧ 2 < (ex1 byteMode [65, 49, 32, 66] [0, 1, 15, 0]).nChars.toNat
      ∧ (ex1 byteMode [65, 49, 32, 66] [0, 1, 15, 0]).tMode 2 = 15 := ⟨ex1_ready, by decide +kernel⟩

/-- "a1b" with tags B, D, B: R227's example of a fold. -/
def foldable : State := ex1 byteMode [97, 49, 98] [3, 1, 3]

theorem witness_SegGateCommand :
    (∃ b, GateReady (ex1 byteMode [65, 49, 66] [0, 1, 0]) b ∧ b.length = 23)
      ∧ ∃ b, GateReady foldable b ∧ b.length = 49 := by
  refine ⟨⟨bitsOf 0b00010_11110_0011_1110_00011 23, ?_, by decide⟩,
    ⟨(foldable.emit [3, 1, 3]).toOption.getD [], ?_, by decide +kernel⟩⟩ <;>
    (unfold GateReady ConfigOk; decide +kernel)

/-- R227: the D run of "a1b" folds into the mode of the run before. -/
theorem test_fold : Fold foldable foldable.tags [3, 3, 3] := by
  have ht : foldTargets foldable (runs foldable.tags) 1 = [3, 3, 3] := by decide +kernel
  have hc : foldable.emit [3, 3, 3] = .ok ((foldable.emit [3, 3, 3]).toOption.getD []) := by decide +kernel
  have hf : foldedTags foldable.tags ⟨1, 1, 2⟩ 3 = [3, 3, 3] := by decide +kernel
  have hb : foldable.emit foldable.tags = .ok ((foldable.emit foldable.tags).toOption.getD []) := by decide +kernel
  refine ⟨1, ⟨1, 1, 2⟩, 0, 3, _, _, by decide +kernel, by unfold Short; decide +kernel, ?_, by rw [ht]; rfl, hb,
    ⟨by decide, by unfold candMask; intro p h1 h2; obtain rfl : p = 1 := Nat.le_antisymm (Nat.lt_succ_iff.1 h2) h1; decide +kernel, hf ▸ hc⟩,
    by decide +kernel, ?_, hf.symm⟩
  · rintro i hi ⟨r, t, b, c, hr, hs, -⟩
    obtain rfl : i = 0 := Nat.lt_one_iff.1 hi
    have : (runs foldable.tags)[0]? = some ⟨3, 0, 1⟩ := by decide +kernel
    rw [this] at hr
    cases hr
    revert hs
    unfold Short
    decide +kernel
  · rintro l u d hu ⟨-, -, hd⟩
    rw [ht] at hu
    have : u = 3 := by simpa using List.mem_of_getElem? hu
    subst this
    rw [hf, hc] at hd
    cases hd
    exact ⟨le_rfl, fun h => absurd h (Nat.not_lt_zero _)⟩

theorem witness_SegGateIdempotent : ∃ b, GateReady foldable b ∧ b.length = 49 := witness_SegGateCommand.2

theorem witness_BsAppendCommand :
    (32 < 33) ∧ (32768 < ({ State.reset with bsLen := 32769#32 } : State).bsLen.toNat)
      ∧ (let s := { State.reset with bsLen := 32768#32 };
        s.bsLen.toNat ≤ 32768 ∧ s.maxBits.toNat < s.bsLen.toNat + 1)
      ∧ (let s := { State.reset with bsLen := 32768#32, maxBits := 32769#32 };
        s.bsLen.toNat + 1 ≤ s.maxBits.toNat ∧ 32768 < s.bsLen.toNat + 1)
      ∧ (let s := { State.reset with bsLen := 32736#32 };
        32 ≤ 32 ∧ s.bsLen.toNat + 32 ≤ s.maxBits.toNat ∧ s.bsLen.toNat + 32 ≤ 32768) := by decide +kernel

theorem witness_BuildCommand :
    (4096 < ({ State.reset with nChars := 4097#32 } : State).nChars.toNat)
      ∧ (32768 < ({ State.reset with bsLen := 32769#32 } : State).bsLen.toNat)
      ∧ (∃ b, (ex1 byteMode [97] [3]).emit (ex1 byteMode [97] [3]).tags = .ok b
        ∧ (ex1 byteMode [97] [3]).bsLen.toNat + b.length ≤ (ex1 byteMode [97] [3]).maxBits.toNat
        ∧ (ex1 byteMode [97] [3]).bsLen.toNat + b.length ≤ 32768)
      ∧ (let s := { ex1 byteMode [97] [3] with maxBits := 17#32 };
        ∃ b, s.emit s.tags = .ok b ∧ s.maxBits.toNat < s.bsLen.toNat + b.length)
      ∧ (let s := { ex1 byteMode [97] [3] with bsLen := 32751#32, maxBits := 32769#32 };
        ∃ b, s.emit s.tags = .ok b ∧ s.bsLen.toNat + b.length ≤ s.maxBits.toNat ∧ 32768 < s.bsLen.toNat + b.length)
      ∧ EmissionError noPath 4#8 0x02000001#32 ∧ EmissionError noValue 1#8 0x04000002#32
      ∧ CheckError badMode 4#8 0x05000000#32 := by
  refine ⟨by decide, by decide, ⟨bitsOf 0b11111_00001_01100001 18, ?_⟩, ⟨bitsOf 0b11111_00001_01100001 18, ?_⟩,
    ⟨bitsOf 0b11111_00001_01100001 18, ?_⟩, noPath_error, noValue_error, badMode_error⟩ <;>
    decide +kernel

/-- The path D to U to B of EX1. -/
def viaPath : List Hop := [⟨1, 0, .latch, 4, 14⟩, ⟨0, 3, .shift, 5, 31⟩]

theorem witness_PathsAreChains :
    (ex1 byteMode [] []).path 1 3 = .ok viaPath ∧ ∀ p, ¬ Resolves noPath 0 0 1 p := by
  refine ⟨by decide +kernel, fun q h => ?_⟩
  cases h with
  | direct _ _ _ _ _ hk => revert hk; decide +kernel
  | via _ _ _ _ _ _ _ hk => revert hk; decide +kernel

/-- EX1 starting in D. -/
def fromDigits (b : Word) (chars : List Nat) : State := { ex1 b chars [] with modeCfg := 0x314#32 }

theorem witness_PlainRunEmission :
    (ex1 byteMode [] []).emitChecks [] = .ok ()
      ∧ (let s := ex1 byteMode [65, 49, 97] [];
        s.emitChecks [0, 1, 3] = .ok ())
      ∧ (let s := ex1 byteMode [65, 66] [];
        s.emitChecks (List.replicate (1 + 1) 0) = .ok () ∧ (s.mc 0).hdrCount = false ∧ 0 = s.initMode
          ∧ s.dataCodes 0 0 (1 + 1) (s.mc 0).gn = .ok (bitsOf 0b00010_00011 10))
      ∧ (let s := ex1 byteMode [48, 49] [];
        s.emitChecks (List.replicate (1 + 1) 1) = .ok () ∧ (s.mc 1).hdrCount = false ∧ 1 ≠ s.initMode
          ∧ s.path s.initMode 1 = .ok ([] ++ [⟨0, 1, .latch, 5, 30⟩])
          ∧ s.dataCodes 1 0 (1 + 1) (s.mc 1).gn = .ok (bitsOf 0b0010_0011 8))
      ∧ (let s := fromDigits 9#32 [97, 98];
        s.emitChecks (List.replicate (1 + 1) 3) = .ok () ∧ (s.mc 3).hdrCount = false ∧ 3 ≠ s.initMode
          ∧ s.path s.initMode 3 = .ok ([⟨1, 0, .latch, 4, 14⟩] ++ [⟨0, 3, .shift, 5, 31⟩])
          ∧ ∀ i, i ≤ 1 → s.value 3 i = .ok (97 + i)) := by decide +kernel

/-- EX1 from D with counted chunks of one character in B, entered from U with the given kind of transition. -/
def oneEach (kind : Nat) (mode : Word) : State :=
  let t := (ex1 byteMode [97, 98] []).storeNats (transBase + 12) [0x1F0500 + kind]
  { t with modecfg := t.modecfg.set 3 { t.mc 3 with hdrw := 5#32, short := 1#32 }, modeCfg := mode }

theorem witness_CountedRunEmission :
    (let s := fromDigits byteMode [97, 98];
      s.emitChecks (List.replicate (1 + 1) 3) = .ok () ∧ (s.mc 3).hdrCount = true ∧ 1 + 1 ≤ (s.mc 3).chunkMax
        ∧ s.dataCodes 3 0 (1 + 1) (s.mc 3).gn = .ok (bitsOf 0x6162 16) ∧ 3 ≠ s.initMode
        ∧ s.path s.initMode 3 = .ok ([⟨1, 0, .latch, 4, 14⟩] ++ [⟨0, 3, .shift, 5, 31⟩]))
      ∧ (let s := { ex1 byteMode [97, 98] [] with modeCfg := 0x334#32 };
        s.emitChecks (List.replicate (1 + 1) 3) = .ok () ∧ (s.mc 3).hdrCount = true ∧ 1 + 1 ≤ (s.mc 3).chunkMax
          ∧ s.dataCodes 3 0 (1 + 1) (s.mc 3).gn = .ok (bitsOf 0x6162 16) ∧ 3 = s.initMode)
      ∧ (let s := oneEach 2 0x304#32;
        s.emitChecks (List.replicate (1 + 1) 3) = .ok () ∧ (s.mc 3).hdrCount = true ∧ (s.mc 3).chunkMax = 1
          ∧ s.dataCodes 3 0 1 (s.mc 3).gn = .ok (bitsOf 0x61 8) ∧ s.dataCodes 3 1 (1 + 1) (s.mc 3).gn = .ok (bitsOf 0x62 8)
          ∧ 3 ≠ s.initMode ∧ s.path s.initMode 3 = .ok ([] ++ [⟨0, 3, .shift, 5, 31⟩]))
      ∧ (let s := oneEach 1 0x304#32;
        s.emitChecks (List.replicate (1 + 1) 3) = .ok () ∧ (s.mc 3).chunkMax = 1
          ∧ s.path s.initMode 3 = .ok ([] ++ [⟨0, 3, .latch, 5, 31⟩]))
      ∧ (let s := oneEach 1 0x334#32;
        s.emitChecks (List.replicate (1 + 1) 3) = .ok () ∧ (s.mc 3).chunkMax = 1 ∧ 3 = s.initMode) := by decide +kernel

/-- A mode configuration with the given MC_CTL in mode 0. -/
def oneMode (ctl : Word) (chars vals : List Nat) : State :=
  let t := (State.reset.storeNats charBase chars).storeNats (vtabBase + 4 * 64) vals
  { t with
    modecfg := t.modecfg.set 0 { ModeRegs.reset with ctl := ctl, gbits := 0x000A0704#32 }, modeCfg := 1#32 }

theorem witness_CharacterValue :
    (let s := oneMode 0x0A03#32 [48] [9];
      (s.mc 0).vsrc = 0 ∧ s.tVtab 0 (cidx (s.char 0)) < (s.mc 0).radix)
      ∧ (let s := oneMode 0x0A03#32 [48] [10];
        (s.mc 0).vsrc = 0 ∧ 1 < (s.mc 0).gn ∧ (s.mc 0).radix ≤ s.tVtab 0 (cidx (s.char 0)))
      ∧ (let s := oneMode 0x0009#32 [15] [];
        (s.mc 0).vsrc ≠ 0 ∧ 0 ≤ s.char 0 - (s.mc 0).base ∧ s.char 0 - (s.mc 0).base < 2 ^ (s.mc 0).gb 1
          ∧ (s.mc 0).gn ≤ 1)
      ∧ (let s := oneMode 0x0009#32 [16, 0xFFFFFFFF] [];
        (s.mc 0).vsrc ≠ 0 ∧ 2 ^ (s.mc 0).gb 1 ≤ s.char 0 - (s.mc 0).base ∧ s.char 1 - (s.mc 0).base < 0)
      ∧ (let s := oneMode 0x0A0B#32 [10] [];
        (s.mc 0).vsrc ≠ 0 ∧ 0 ≤ s.char 0 - (s.mc 0).base ∧ s.char 0 - (s.mc 0).base < 2 ^ (s.mc 0).gb 1
          ∧ 1 < (s.mc 0).gn ∧ (s.mc 0).radix ≤ s.char 0 - (s.mc 0).base) := by decide +kernel

theorem witness_GroupPacking :
    (let s := oneMode 0x0A03#32 [48, 49, 49, 48] [7, 8];
      (∀ p, p < 4 → s.value 0 p = .ok (if p = 0 ∨ p = 3 then 7 else 8)) ∧ 0 + 3 ≤ 4 ∧ (3 < 4 ∧ 4 < 3 + 3) ∧ 4 ≤ 4)
      ∧ (let s := oneMode 0x0A03#32 [48, 49, 48] [7, 10];
        s.value 0 0 = .ok 7 ∧ s.value 0 1 = .error { kind := .invalidInput, info := 0x04000001#32 }) := by
  decide +kernel

theorem witness_SplitCommand :
    (0 = 0 ∧ 16 < 17 ∧ (stream 10 [0] 4).ctrl.getLsbD 2 = true)
      ∧ (¬ ((stream 32769 [0] 4).ctrl.getLsbD 2 = true ∧ 16 = 1) ∧ 32768 < (stream 32769 [0] 4).bsLen.toNat)
      ∧ ((stream 10 [0x07C00000] 4).bsLen.toNat ≤ 32768 ∧ ¬ ((stream 10 [0] 4).ctrl.getLsbD 2 = true ∧ 6 = 1)
        ∧ (padded (stream 10 [0x07C00000] 4) 6).rbits.length / 6 ≤ 4096) := by decide +kernel

theorem witness_SplitWithoutStuffing :
    (stream 10 [0x07C00000] 0).ctrl.getLsbD 2 = false ∧ (stream 10 [0x07C00000] 0).bsLen.toNat ≤ 32768
      ∧ ((stream 10 [0x07C00000] 0).bsLen.toNat + 6 - 1) / 6 ≤ 4096 ∧ 1 < (10 + 6 - 1) / 6 := by decide +kernel

theorem witness_SelectFirstFit :
    let s := small
    SelectReady s 0 ∧ Considered s false 0 1 ∧ (∀ y, 0 ≤ y → y < 1 → Skipped s 2 y) ∧ WidthOk s 1 ∧ Fits s 2 1
      ∧ (chosen s 2 1).rbits.length / s.sizeW 1 ≤ s.sizeTotal 1 ∧ (chosen s 2 1).rbits.length / s.sizeW 1 ≤ 4096 := by
  unfold SelectReady Considered Skipped WidthOk Fits chosen; decide +kernel

theorem witness_SelectRefusals :
    (small.sizeCount.toNat ≤ 3)
      ∧ (let s := { small with sizeCount := 33#32 };
        32 < s.sizeCount.toNat ∧ 0 < s.sizeCount.toNat)
      ∧ (32768 < ({ small with bsLen := 32769#32 } : State).bsLen.toNat ∧ 0 < { small with bsLen := 32769#32 }.sizeCount.toNat)
      ∧ (let s := { small with sizeCount := 1#32 };
        SelectReady s 0 ∧ Considered s true 0 0 ∧ Skipped s 2 0)
      ∧ (let s := small.storeNats sizeBase [1];
        SelectReady s 0 ∧ Considered s false 0 0 ∧ (∀ y, 0 ≤ y → y < 0 → Skipped s 2 y) ∧ s.sizeW 0 ≠ 0
          ∧ ¬ WidthOk s 0)
      ∧ (let s := small.storeNats sizeBase [4, 3];
        SelectReady s 0 ∧ Considered s false 0 0 ∧ s.sizeW 0 ≠ 0 ∧ Fits s 0 0
          ∧ s.sizeTotal 0 < (chosen s 0 0).rbits.length / s.sizeW 0) := by
  unfold SelectReady Considered Skipped WidthOk Fits chosen; decide +kernel

theorem witness_SelectResults :
    exec (.select 1 false 0) small = .next (run (.select 1 false 0) small)
      ∧ (run (.select 1 false 0) small).status.err = false := ⟨exec_run _ _ (select_goes _ _ _ _), by decide +kernel⟩

theorem witness_AutomaticForcedAgree :
    exec (.select 2 false 0) small = .next (run (.select 2 false 0) small)
      ∧ (run (.select 2 false 0) small).status.err = false := ⟨exec_run _ _ (select_goes _ _ _ _), by decide +kernel⟩

/-- The same with the capacities of levels 1 and 2 of every other size 0. -/
def twoSizes : State :=
  (List.range 30).foldl (fun u x => u.storeNats (sizeBase + 32 * (x + 2) + 12) [0, 0]) small

theorem twoSizes_caps : ∀ x, x < 32 → twoSizes.sizeCap x (1 + 1) ≤ twoSizes.sizeCap x 1 := by decide +kernel

theorem twoSizes_results :
    (run (.select 1 false 0) twoSizes).selSize = 0#32 ∧ (run (.select 2 false 0) twoSizes).selSize = 1#32
      ∧ (run (.select 1 false 0) twoSizes).status.errCode ≠ 4#8 ∧ (run (.select 2 false 0) twoSizes).status.errCode ≠ 4#8
      ∧ (run (.select 2 false 0) twoSizes).status.err = false := by decide +kernel

theorem witness_CapacityMonotone :
    (∀ x, x < 32 → twoSizes.sizeCap x (1 + 1) ≤ twoSizes.sizeCap x 1)
      ∧ exec (.select 1 false 0) twoSizes = .next (run (.select 1 false 0) twoSizes)
      ∧ exec (.select (1 + 1) false 0) twoSizes = .next (run (.select 2 false 0) twoSizes)
      ∧ (run (.select 1 false 0) twoSizes).status.errCode ≠ 4#8 ∧ (run (.select 2 false 0) twoSizes).status.errCode ≠ 4#8
      ∧ (run (.select 2 false 0) twoSizes).status.err = false :=
  ⟨twoSizes_caps, exec_run _ _ (select_goes _ _ _ _), exec_run _ _ (select_goes _ _ _ _), twoSizes_results.2.2⟩

theorem witness_NoAllEqualCodeword :
    small.ctrl.getLsbD 2 = true
      ∧ (run (.select 1 false 0) small).status.err = false
      ∧ (run (.split 6) small).status.err = false
      ∧ 1 < (run (.split 6) small).dataCw.toNat
      ∧ exec (.split 6) small = .next (run (.split 6) small) :=
  ⟨by decide +kernel, by decide +kernel, by decide +kernel, by decide +kernel, exec_run _ _ (split_goes _ _)⟩

theorem witness_CommandsComplete :
    ¬ Written (rs5 6 0 []) .rsEncode 0x24014 ∧ ¬ Written (stream 64 [] 0) .build 0x18007 := by
  constructor <;> unfold Written <;> decide +kernel

theorem witness_FailureEffects :
    exec .gfDiv (gf16 7 0) = .next (run .gfDiv (gf16 7 0)) ∧ (run .gfDiv (gf16 7 0)).status.err = true
      ∧ (run .gfInit { State.reset with opa := 0x1F#32 }).status.err = true
      ∧ (run .build (ex1 byteMode [65] [15])).status.err = true
      ∧ (run (.select 3 true 0) small).status.err = true :=
  ⟨exec_run _ _ ⟨_, rfl⟩, by decide +kernel, by decide +kernel, by decide +kernel, by decide +kernel⟩

theorem witness_InterruptLevel :
    exec .nop State.reset = .next (run .nop State.reset) ∧ State.reset.pending = false
      ∧ ((1#32).getLsbD 1 = false ∧ (1#32).getLsbD 0 = true) ∧ (2#32).getLsbD 1 = true ∧ (0#32).getLsbD 0 = false :=
  ⟨exec_run _ _ ⟨_, rfl⟩, by decide⟩

theorem witness_StickyFlags :
    let s := { State.reset.flagAccess true true with hostQueue := [.write 0x008#20 0x18#32] }
    (∃ t, step s = .next t ∧ t.status.ovr = false ∧ t.status.aerr = false)
      ∧ s.status.ovr = true ∧ s.status.aerr = true := by
  refine ⟨⟨_, rfl, ?_⟩, ?_⟩ <;> decide +kernel

theorem witness_BusyAccesses :
    (due State.reset 0#32).pending = true ∧ ReadAdmitted 0x0F8 ∧ ¬ ReadAdmitted 0x0FC ∧ ¬ ReadAdmitted 0x00C
      ∧ (0x00C ≠ 0x004 ∧ 0x00C ≠ 0x008) := by
  unfold ReadAdmitted; decide +kernel

theorem witness_RefusedAccesses :
    ReservedAddress 0x06C ∧ ReservedAddress 0xFFFFC ∧ ReadOnlyAddress 0x2C000 ∧ ReadOnlyAddress 0xBFFFC ∧ 0x011 % 4 ≠ 0
      ∧ State.reset.status.aerr = false ∧ State.reset.pending = false := by
  refine ⟨?_, ?_, ?_, ?_, by decide, rfl, rfl⟩ <;> simp [ReservedAddress, ReadOnlyAddress]

theorem witness_StoredLocations :
    State.reset.pending = false ∧ storedRegister 0x1F8 = some 0xFFFF001F#32 ∧ storedRegister 0x010 = some 0xFFFFFFFF#32
      ∧ storedMemory 0x02440 = some 0xFF#32 ∧ storedMemory 0x23FFC = some 0xFFFF#32 ∧ targetOf 0x014 ≠ .reserved
      ∧ (0xD#32).getLsbD 1 = false := by
  decide +kernel

end Sys2Proof.Tests
end

/-! SUPPORT. Which error kinds each check and each command can raise (60_exceptions.md R331, R340). -/

namespace Sys2Proof.Proofs

open Sys2Proof Sys2Proof.Machine Sys2Proof.Laws

/-- Every error of the computation is of one of the kinds `ks`. -/
structure Raises {α : Type} (ks : List ErrKind) (x : Except Err α) : Prop where
  kind_mem : ∀ e, x = .error e → e.kind ∈ ks

/-! ### How the kinds combine -/

namespace Raises

variable {α β : Type} {ks ls : List ErrKind}

theorem ok (a : α) : Raises ks (.ok a : Except Err α) := ⟨fun _ h => by cases h⟩

theorem error {k : ErrKind} (hk : k ∈ ks) (cls detail : Nat) :
    Raises ks (.error (mkErr k cls detail) : Except Err α) := ⟨fun _ h => by cases h; exact hk⟩

theorem mono {x : Except Err α} (h : Raises ks x) (hkl : ks ⊆ ls) : Raises ls x :=
  ⟨fun e he => hkl (h.kind_mem e he)⟩

theorem bind {x : Except Err α} {f : α → Except Err β} (hx : Raises ks x) (hf : ∀ a, Raises ks (f a)) :
    Raises ks (x >>= f) := by
  refine ⟨fun e he => ?_⟩
  rcases bind_eq_error.1 he with he | ⟨a, -, he⟩
  · exact hx.kind_mem e he
  · exact (hf a).kind_mem e he

theorem require {k : ErrKind} (hk : k ∈ ks) (c : Bool) (cls detail : Nat) :
    Raises ks (Machine.require c (mkErr k cls detail)) := by
  refine ⟨fun e he => ?_⟩
  obtain ⟨-, rfl⟩ := require_eq_error.1 he
  exact hk

theorem ite {c : Prop} [Decidable c] {x y : Except Err α} (hx : Raises ks x) (hy : Raises ks y) :
    Raises ks (if c then x else y) := by
  split
  · exact hx
  · exact hy

end Raises

theorem forPositions_raises {α : Type} {ks : List ErrKind} {f : Nat → Except Err α} (hf : ∀ p, Raises ks (f p)) :
    ∀ ps, Raises ks (forPositions f ps)
  | [] => .ok _
  | p :: ps => .bind (hf p) fun _ => .bind (forPositions_raises hf ps) fun _ => .ok _

/-! ### Operand checks (R336, R338; 40_gf.md R156) -/

section Checks

variable (s : State)

theorem checkNChars_raises : Raises [.illegalOperand] s.checkNChars := .require (by decide) ..
theorem checkBsLen_raises : Raises [.illegalOperand] s.checkBsLen := .require (by decide) ..
theorem needField_raises : Raises [.notReady] s.needField := .require (by decide) ..
theorem elemA_raises : Raises [.illegalOperand] s.elemA := .require (by decide) ..
theorem elemB_raises : Raises [.illegalOperand] s.elemB := .require (by decide) ..
theorem nonzero_raises (x : Nat) : Raises [.zeroDivisor] (nonzero x) := .require (by decide) ..
theorem gfInitCheck_raises : Raises [.illegalOperand] s.gfInitCheck := .require (by decide) ..

theorem preA_raises : Raises [.illegalOperand, .notReady] s.preA :=
  .bind ((needField_raises s).mono (by decide)) fun _ => (elemA_raises s).mono (by decide)

theorem preAB_raises : Raises [.illegalOperand, .notReady] s.preAB :=
  .bind ((needField_raises s).mono (by decide)) fun _ =>
    .bind ((elemA_raises s).mono (by decide)) fun _ => (elemB_raises s).mono (by decide)

theorem rsInitCheck_raises : Raises [.illegalOperand, .notReady] s.rsInitCheck :=
  .bind ((needField_raises s).mono (by decide)) fun _ => .require (by decide) ..

theorem rsBlockCheck_raises : Raises [.illegalOperand, .notReady] s.rsBlockCheck :=
  .bind (.require (by decide) ..) fun _ => .bind (.require (by decide) ..) fun _ => .require (by decide) ..

theorem rsAppendCheck_raises : Raises [.illegalOperand, .notReady] s.rsAppendCheck :=
  .bind (.require (by decide) ..) fun _ => .bind (.require (by decide) ..) fun _ => .require (by decide) ..

theorem checkElems_raises : ∀ k cs, Raises [.illegalOperand] (s.checkElems k cs)
  | _, [] => .ok _
  | _, _ :: _ => .ite (checkElems_raises _ _) (.error (by decide) ..)

theorem bsAppendCheck_raises (width : Nat) : Raises [.illegalOperand] (s.bsAppendCheck width) :=
  .bind (.require (by decide) ..) fun _ => checkBsLen_raises s

theorem buildCheck_raises : Raises [.illegalOperand] s.buildCheck :=
  .bind (checkNChars_raises s) fun _ => checkBsLen_raises s

theorem selectCheck_raises (minSize : Nat) : Raises [.illegalOperand] (s.selectCheck minSize) :=
  .bind (.require (by decide) ..) fun _ => .bind (.require (by decide) ..) fun _ => checkBsLen_raises s

theorem splitCheck_raises (w : Nat) : Raises [.illegalOperand] (s.splitCheck w) :=
  .bind (.require (by decide) ..) fun _ => .bind (.require (by decide) ..) fun _ => checkBsLen_raises s

theorem append_raises (b : Bits) : Raises [.capacityExceeded] (s.append b) :=
  .bind (.require (by decide) ..) fun _ => .bind (.require (by decide) ..) fun _ => .ok _

end Checks

/-! ### Segmentation and EMIT (42_segment.md R211 to R214, 43_bitstream.md R247 to R260) -/

/-- What EMIT and the segmentation commands raise after the length check: a bad character or value, or a defect of
the configuration. -/
def emitKinds : List ErrKind := [.invalidInput, .internalDefect]

section Emit

variable (s : State)

theorem checkCfg_raises : Raises emitKinds s.checkCfg := .require (by decide) ..

theorem segCheck_raises : Raises (.illegalOperand :: emitKinds) s.segCheck :=
  .bind ((checkNChars_raises s).mono (by decide)) fun _ => (checkCfg_raises s).mono (by decide)

theorem checkTags_raises (al : Bool) : ∀ i ts, Raises emitKinds (s.checkTags al i ts)
  | _, [] => .ok _
  | _, _ :: _ => .ite (checkTags_raises al _ _) (.error (by decide) ..)

theorem checkModes_raises : ∀ ms, Raises emitKinds (s.checkModes ms)
  | [] => .ok _
  | _ :: ms => .ite (checkModes_raises ms) (.error (by decide) ..)

theorem cand_raises (i : Nat) : Raises emitKinds (s.cand i) :=
  .bind (.require (by decide) ..) fun _ => .bind (.require (by decide) ..) fun _ => .ok _

theorem spec_raises (i : Nat) : Raises emitKinds (s.spec i) := .bind (cand_raises s i) fun _ => .ok _

theorem specs_raises : Raises emitKinds s.specs := forPositions_raises (spec_raises s) _

theorem admits_raises (i t : Nat) : Raises emitKinds (s.admits i t) :=
  .bind (cand_raises s i) fun _ => .require (by decide) ..

theorem checkAdmits_raises : ∀ i ts, Raises emitKinds (s.checkAdmits i ts)
  | _, [] => .ok _
  | i, t :: ts => .bind (admits_raises s i t) fun _ => checkAdmits_raises (i + 1) ts

theorem path_raises (a b : Nat) : Raises emitKinds (s.path a b) := by
  unfold State.path
  split
  · exact .ok _
  · exact .error (by decide) ..

theorem value_raises (m p : Nat) : Raises emitKinds (s.value m p) :=
  .bind (.require (by decide) ..) fun _ => .bind (.require (by decide) ..) fun _ => .ok _

theorem data_raises (m g b : Nat) : ∀ f q, Raises emitKinds (s.data m g b f q)
  | 0, _ => .ok _
  | f + 1, _ =>
    .ite (.bind (forPositions_raises (value_raises s m) _) fun _ => .bind (data_raises m g b f _) fun _ => .ok _)
      (.ok _)

theorem dataCodes_raises (m a b g : Nat) : Raises emitKinds (s.dataCodes m a b g) := data_raises s m g b _ _

theorem emitShifted_raises (m : Nat) : ∀ cur ps, Raises emitKinds (s.emitShifted m cur ps)
  | _, [] => .ok _
  | cur, _ :: ps =>
    .bind (path_raises s cur m) fun _ => .bind (dataCodes_raises ..) fun _ =>
      .bind (emitShifted_raises m _ ps) fun _ => .ok _

theorem emitPlain_raises (cur : Nat) (r : Run) : Raises emitKinds (s.emitPlain cur r) :=
  .ite (.bind (dataCodes_raises ..) fun _ => .ok _)
    (.bind (path_raises s cur r.m) fun _ =>
      .ite (.bind (dataCodes_raises ..) fun _ => .ok _) (emitShifted_raises ..))

theorem emitCounted_raises (m b : Nat) : ∀ f cur a, Raises emitKinds (s.emitCounted m b f cur a)
  | 0, _, _ => .ok _
  | f + 1, _, _ => by
    refine .ite (.ite (.bind (.ok _) ?_) (.bind (path_raises ..) ?_)) (.ok _)
    all_goals
      exact fun _ => .bind (dataCodes_raises ..) fun _ => .bind (emitCounted_raises m b f _ _) fun _ => .ok _

theorem emitRun_raises (cur : Nat) (r : Run) : Raises emitKinds (s.emitRun cur r) :=
  .ite (emitCounted_raises ..) (emitPlain_raises ..)

theorem emitRuns_raises : ∀ cur rs, Raises emitKinds (s.emitRuns cur rs)
  | _, [] => .ok _
  | _, _ :: rs => .bind (emitRun_raises ..) fun _ => .bind (emitRuns_raises _ rs) fun _ => .ok _

theorem emitChecks_raises (tags : List Nat) : Raises emitKinds (s.emitChecks tags) :=
  .bind (checkCfg_raises s) fun _ => .bind (checkTags_raises ..) fun _ =>
    .bind (checkModes_raises ..) fun _ => checkAdmits_raises ..

theorem emit_raises (tags : List Nat) : Raises emitKinds (s.emit tags) :=
  .bind (emitChecks_raises ..) fun _ => .bind (emitRuns_raises ..) fun _ => .ok _

end Emit

/-! ### SELECT (44_capacity.md R292, R294) -/

theorem trySize_raises (s : State) (ecc : Nat) (stream : Bits) (x : Nat) :
    Raises [.internalDefect] (s.trySize ecc stream x) :=
  .ite (.ok _) (.ite (.error (by decide) ..) (.ite (.ok _) (.ite (.error (by decide) ..) (.ok _))))

theorem scanSizes_raises (s : State) (ecc : Nat) (stream : Bits) :
    ∀ xs, Raises [.capacityExceeded, .internalDefect] (s.scanSizes ecc stream xs)
  | [] => .error (by decide) ..
  | x :: xs => by
    unfold State.scanSizes
    split
    case h_1 e he =>
      refine ⟨fun _ h => ?_⟩
      cases h
      exact ((trySize_raises s ecc stream x).mono (by decide)).kind_mem e he
    case h_2 => exact .ok _
    case h_3 => exact scanSizes_raises s ecc stream xs

/-! ### The work of each command -/

section Work

variable (s : State)

theorem gfMulWork_raises : Raises [.illegalOperand, .notReady] s.gfMulWork := .bind (preAB_raises s) fun _ => .ok _
theorem gfPowWork_raises : Raises [.illegalOperand, .notReady] s.gfPowWork := .bind (preA_raises s) fun _ => .ok _
theorem gfAddWork_raises : Raises [.illegalOperand, .notReady] s.gfAddWork := .bind (preAB_raises s) fun _ => .ok _
theorem gfExpWork_raises : Raises [.notReady] s.gfExpWork := .bind (needField_raises s) fun _ => .ok _

theorem gfDivWork_raises : Raises [.illegalOperand, .notReady, .zeroDivisor] s.gfDivWork :=
  .bind ((preAB_raises s).mono (by decide)) fun _ => .bind ((nonzero_raises _).mono (by decide)) fun _ => .ok _

theorem gfInvWork_raises : Raises [.illegalOperand, .notReady, .zeroDivisor] s.gfInvWork :=
  .bind ((preA_raises s).mono (by decide)) fun _ => .bind ((nonzero_raises _).mono (by decide)) fun _ => .ok _

theorem gfLogWork_raises : Raises [.illegalOperand, .notReady, .zeroDivisor] s.gfLogWork :=
  .bind ((preA_raises s).mono (by decide)) fun _ => .bind ((nonzero_raises _).mono (by decide)) fun _ => .ok _

theorem rsInitWork_raises : Raises [.illegalOperand, .notReady] s.rsInitWork :=
  .bind (rsInitCheck_raises s) fun _ => .ok _

theorem rsEncodeWork_raises : Raises [.illegalOperand, .notReady] s.rsEncodeWork :=
  .bind (rsBlockCheck_raises s) fun _ => .bind ((checkElems_raises s _ _).mono (by decide)) fun _ => .ok _

theorem rsSyndWork_raises : Raises [.illegalOperand, .notReady] s.rsSyndWork :=
  .bind (rsBlockCheck_raises s) fun _ => .bind ((checkElems_raises s _ _).mono (by decide)) fun _ => .ok _

theorem rsAppendWork_raises (ord : EcOrder) : Raises [.illegalOperand, .notReady] (s.rsAppendWork ord) :=
  .bind (rsAppendCheck_raises s) fun _ => .ok _

theorem segClassifyWork_raises : Raises (.illegalOperand :: emitKinds) s.segClassifyWork :=
  .bind (segCheck_raises s) fun _ => .bind ((specs_raises s).mono (by decide)) fun _ => .ok _

theorem segResolveWork_raises : Raises (.illegalOperand :: emitKinds) s.segResolveWork :=
  .bind (segCheck_raises s) fun _ => .bind ((checkTags_raises s ..).mono (by decide)) fun _ =>
    .bind ((specs_raises s).mono (by decide)) fun _ => .ok _

theorem segGateWork_raises : Raises (.illegalOperand :: emitKinds) s.segGateWork :=
  .bind (segCheck_raises s) fun _ => .bind ((checkTags_raises s ..).mono (by decide)) fun _ =>
    .bind ((checkAdmits_raises s ..).mono (by decide)) fun _ =>
      .bind ((emit_raises s _).mono (by decide)) fun _ => .ok _

theorem bsAppendWork_raises (width : Nat) : Raises [.capacityExceeded, .illegalOperand] (s.bsAppendWork width) :=
  .bind ((bsAppendCheck_raises s width).mono (by decide)) fun _ =>
    .bind ((append_raises s _).mono (by decide)) fun _ => .ok _

theorem buildWork_raises : Raises (.capacityExceeded :: emitKinds) s.buildWork :=
  .bind ((emit_raises s _).mono (by decide)) fun _ => .bind ((append_raises s _).mono (by decide)) fun _ => .ok _

end Work

end Sys2Proof.Proofs

/-! SUPPORT. What every command does, said once: its work changes the engine's registers and the memory only, keeps
VALID's promises and Z's, and then completes or takes an error of one of its kinds (45_control.md R312, R315;
60_exceptions.md R331). -/

namespace Sys2Proof.Proofs

open Sys2Proof Sys2Proof.Machine Sys2Proof.Laws Sys2Proof.Safety

/-! ### The work of a command -/

/-- `s` with what the work of a command may change taken from `u`: RES and Z, VALID, the registers of the field, of
the generator, of the stream and of the choice, the memory, and the count of draws. -/
def withWork (s u : State) : State :=
  { s with
    status := { s.status with z := u.status.z }
    res := u.res, valid := u.valid, gfPoly := u.gfPoly, gfM := u.gfM, rsE := u.rsE, rsR0 := u.rsR0, bsLen := u.bsLen
    selSize := u.selSize, selW := u.selW, dataCw := u.dataCw, ecCw := u.ecCw, stuffLen := u.stuffLen
    stuffIns := u.stuffIns, mem := u.mem, draws := u.draws }

/-- Z = 1 only with RES = 0 (R40). -/
def ZeroLegal (s : State) : Prop := s.status.z = true → s.res = 0

/-- The work of a command can lead from `s` to `u`, the completion registers not yet written. -/
structure WorkKeeps (s u : State) : Prop where
  frame : u = withWork s u
  valid : ValidLegal s → ValidLegal u
  zero : ZeroLegal s → ZeroLegal u

namespace WorkKeeps

variable {s t u : State}

theorem refl (s : State) : WorkKeeps s s := ⟨rfl, id, id⟩

theorem trans (hst : WorkKeeps s t) (htu : WorkKeeps t u) : WorkKeeps s u :=
  { frame := calc
      u = withWork t u := htu.frame
      _ = withWork (withWork s t) u := congrArg (withWork · u) hst.frame
      _ = withWork s u := rfl
    valid := htu.valid ∘ hst.valid
    zero := htu.zero ∘ hst.zero }

theorem errInfo (h : WorkKeeps s u) : u.errInfo = s.errInfo := (congrArg State.errInfo h.frame).trans rfl
theorem pcmd (h : WorkKeeps s u) : u.pcmd = s.pcmd := (congrArg State.pcmd h.frame).trans rfl
theorem lastOp (h : WorkKeeps s u) : u.status.lastOp = s.status.lastOp := (congrArg (·.status.lastOp) h.frame).trans rfl
theorem ovr (h : WorkKeeps s u) : u.status.ovr = s.status.ovr := (congrArg (·.status.ovr) h.frame).trans rfl
theorem aerr (h : WorkKeeps s u) : u.status.aerr = s.status.aerr := (congrArg (·.status.aerr) h.frame).trans rfl

/-- LAST_OP stays the opcode of PCMD (R42). -/
theorem opcode (h : WorkKeeps s u) (hs : s.status.lastOp = s.pcmd.extractLsb' 24 8) :
    u.status.lastOp = u.pcmd.extractLsb' 24 8 := by
  rw [h.lastOp, h.pcmd, hs]

theorem fields (h : WorkKeeps s u) (hs : FieldsLegal s) : FieldsLegal u := by
  rw [h.frame]
  exact hs

end WorkKeeps

section Operations

variable (s : State)

theorem storeNats_keeps (a : Nat) (vs : List Nat) : WorkKeeps s (s.storeNats a vs) := ⟨rfl, id, id⟩
theorem storeTags_keeps (tags : List Nat) : WorkKeeps s (s.storeTags tags) := ⟨rfl, id, id⟩
theorem forgetField_keeps : WorkKeeps s s.forgetField := ⟨rfl, id, id⟩
theorem forgetStreamFrom_keeps (p : Nat) : WorkKeeps s (s.forgetStreamFrom p) := ⟨rfl, id, id⟩
theorem nextDraw_keeps : WorkKeeps s s.nextDraw := ⟨rfl, id, id⟩
theorem setBsLen_keeps (v : Word) : WorkKeeps s { s with bsLen := v } := ⟨rfl, id, id⟩
theorem setValid_keeps {v : Valid} {m : Memory} (h : ValidLegal s → ValidLegal { s with valid := v }) :
    WorkKeeps s { s with mem := m, valid := v } := ⟨rfl, h, id⟩
theorem clearSel_keeps : WorkKeeps s s.clearSel := ⟨rfl, id, id⟩
theorem storeChoice_keeps (c : Choice) : WorkKeeps s (s.storeChoice c) := ⟨rfl, id, id⟩

theorem writeRes_keeps (v : Word) : WorkKeeps s (s.writeRes v) :=
  ⟨rfl, id, fun _ => of_decide_eq_true⟩

theorem writeResNat_keeps (v : Nat) : WorkKeeps s (s.writeResNat v) := writeRes_keeps s _

theorem putBits_keeps (p : Nat) (b : Bits) : WorkKeeps s (s.putBits p b) := by
  rw [putBits_frame]
  exact ⟨rfl, id, id⟩

theorem append_keeps {t : State} {b : Bits} (h : s.append b = .ok t) : WorkKeeps s t := by
  obtain ⟨-, -, rfl⟩ := append_eq_ok.1 h
  exact (putBits_keeps s _ b).trans (setBsLen_keeps _ _)

end Operations

/-! ### The meanings whose errors change nothing -/

/-- Where the computation succeeds, its state is one the work of a command can lead to. -/
structure Keeps (s : State) (x : Except Err State) : Prop where
  of_ok : ∀ u, x = .ok u → WorkKeeps s u

namespace Keeps

variable {α : Type} {s : State}

theorem pure {u : State} (h : WorkKeeps s u) : Keeps s (.ok u) := ⟨fun _ hu => by cases hu; exact h⟩

theorem bind {x : Except Err α} {f : α → Except Err State} (h : ∀ a, x = .ok a → Keeps s (f a)) :
    Keeps s (x >>= f) := by
  refine ⟨fun u hu => ?_⟩
  obtain ⟨a, hx, hf⟩ := bind_eq_ok.1 hu
  exact (h a hx).of_ok u hf

end Keeps

section Work

variable (s : State)

theorem gfMulWork_keeps : Keeps s s.gfMulWork := .bind fun _ _ => .pure (writeResNat_keeps s _)
theorem gfExpWork_keeps : Keeps s s.gfExpWork := .bind fun _ _ => .pure (writeResNat_keeps s _)
theorem gfPowWork_keeps : Keeps s s.gfPowWork := .bind fun _ _ => .pure (writeResNat_keeps s _)
theorem gfAddWork_keeps : Keeps s s.gfAddWork := .bind fun _ _ => .pure (writeResNat_keeps s _)
theorem gfDivWork_keeps : Keeps s s.gfDivWork := .bind fun _ _ => .bind fun _ _ => .pure (writeResNat_keeps s _)
theorem gfInvWork_keeps : Keeps s s.gfInvWork := .bind fun _ _ => .bind fun _ _ => .pure (writeResNat_keeps s _)
theorem gfLogWork_keeps : Keeps s s.gfLogWork := .bind fun _ _ => .bind fun _ _ => .pure (writeResNat_keeps s _)

/-- RS_INIT sets VALID.RS in a built field and with an EC length in range (R180). -/
theorem rsInitWork_keeps : Keeps s s.rsInitWork := by
  refine .bind fun _ hc => .pure ⟨rfl, fun hv => ?_, id⟩
  obtain ⟨hgf, hlo, hhi⟩ := rsInitCheck_eq_ok.1 hc
  obtain ⟨-, -, -, hm, -⟩ := hv
  exact ⟨nofun, nofun, fun _ => hgf, hm, fun _ => ⟨hlo, hhi⟩⟩

/-- RS_ENCODE sets VALID.REM only with VALID.RS (R185). -/
theorem rsEncodeWork_keeps : Keeps s s.rsEncodeWork := by
  refine .bind fun _ hc => .bind fun _ _ => .pure (setValid_keeps s fun hv => ?_)
  obtain ⟨hrs, -, -⟩ := rsBlockCheck_eq_ok.1 hc
  obtain ⟨-, hsyn, hgf, hm, he⟩ := hv
  exact ⟨fun _ => hrs, hsyn, hgf, hm, he⟩

/-- RS_SYND sets VALID.SYN only with VALID.RS (R191). -/
theorem rsSyndWork_keeps : Keeps s s.rsSyndWork := by
  refine .bind fun _ hc => .bind fun _ _ => .pure ((setValid_keeps s fun hv => ?_).trans (writeResNat_keeps _ _))
  obtain ⟨hrs, -, -⟩ := rsBlockCheck_eq_ok.1 hc
  obtain ⟨hrem, -, hgf, hm, he⟩ := hv
  exact ⟨hrem, fun _ => hrs, hgf, hm, he⟩

theorem rsAppendWork_keeps (ord : EcOrder) : Keeps s (s.rsAppendWork ord) :=
  .bind fun _ _ => .pure ((storeNats_keeps s _ _).trans (writeResNat_keeps _ _))

theorem segClassifyWork_keeps : Keeps s s.segClassifyWork :=
  .bind fun _ _ => .bind fun _ _ => .pure ((storeTags_keeps s _).trans (writeResNat_keeps _ _))

theorem segResolveWork_keeps : Keeps s s.segResolveWork :=
  .bind fun _ _ => .bind fun _ _ => .bind fun _ _ => .pure ((storeTags_keeps s _).trans (writeResNat_keeps _ _))

theorem segGateWork_keeps : Keeps s s.segGateWork :=
  .bind fun _ _ => .bind fun _ _ => .bind fun _ _ => .bind fun _ _ =>
    .pure ((storeTags_keeps s _).trans (writeResNat_keeps _ _))

theorem bsAppendWork_keeps (width : Nat) : Keeps s (s.bsAppendWork width) :=
  .bind fun _ _ => .bind fun _ ht => .pure ((append_keeps s ht).trans (writeRes_keeps _ _))

theorem buildWork_keeps : Keeps s s.buildWork :=
  .bind fun _ _ => .bind fun _ hu => .pure ((append_keeps s hu).trans (writeResNat_keeps _ _))

/-- GF_INIT clears the bits that promise anything before it works (R151). -/
theorem gfInitStart_keeps : WorkKeeps s s.gfInitStart := ⟨rfl, fun _ => ⟨nofun, nofun, nofun, nofun, nofun⟩, id⟩

/-- The degree of an operand that GF_INIT accepts is 1 to 16 (R151). -/
theorem gfInitStart_degree {u : Unit} (hc : s.gfInitCheck = .ok u) :
    1 ≤ s.gfInitStart.gfM.toNat ∧ s.gfInitStart.gfM.toNat ≤ 16 := by
  obtain ⟨hlo, hhi⟩ := gfInitCheck_eq_ok.1 hc
  have h0 : s.opaN ≠ 0 := by omega
  have hpos : 1 ≤ Nat.log2 s.opaN := (Nat.le_log2 h0).2 hlo
  have hlt : Nat.log2 s.opaN < 17 := (Nat.log2_lt h0).2 hhi
  rw [gfInitStart_gfM, BitVec.toNat_ofNat, Nat.mod_eq_of_lt (by omega)]
  omega

/-- GF_INIT of a modulus sets VALID.GF again, with the degree in range (R151). -/
theorem setGf_keeps {m : Memory} (hm : 1 ≤ s.gfM.toNat ∧ s.gfM.toNat ≤ 16) :
    WorkKeeps s { s with mem := m, valid := { s.valid with gf := true } } := by
  refine setValid_keeps s fun hv => ?_
  obtain ⟨hrem, hsyn, -, -, he⟩ := hv
  exact ⟨hrem, hsyn, fun _ => rfl, fun _ => hm, he⟩

end Work

/-! ### Completion -/

/-- The completion of a command with work from `s`, without an error or with one of the kinds `ks` (R312). -/
inductive Completes (ks : List ErrKind) (s : State) : State → Prop where
  | ok (u : State) : WorkKeeps s u → Completes ks s u.completeOk
  | error (u : State) (e : Err) : WorkKeeps s u → e.kind ∈ ks → Completes ks s (u.takeError e)

theorem Completes.mono {ks ls : List ErrKind} {s t : State} (h : Completes ks s t) (hkl : ks ⊆ ls) :
    Completes ls s t := by
  cases h with
  | ok u hu => exact .ok u hu
  | error u e hu he => exact .error u e hu (hkl he)

theorem finish_completes {ks : List ErrKind} {s : State} {x : Except Err State} (hr : Raises ks x) (hk : Keeps s x) :
    Completes ks s (s.finish x) := by
  cases x with
  | ok u => exact .ok u (hk.of_ok u rfl)
  | error e => exact .error s e (.refl s) (hr.kind_mem e rfl)

theorem execGfInit_completes (s : State) :
    ∃ t, execGfInit s = .next t ∧ Completes [.internalDefect, .illegalOperand] s t := by
  unfold execGfInit
  have hstart := gfInitStart_keeps s
  split
  case h_1 e he => exact ⟨_, rfl, .error s e (.refl s) (((gfInitCheck_raises s).mono (by decide)).kind_mem e he)⟩
  case h_2 u hc =>
    dsimp only
    split
    · exact ⟨_, rfl, .ok _ ((hstart.trans (setGf_keeps _ (gfInitStart_degree s hc))).trans (writeResNat_keeps _ _))⟩
    · exact ⟨_, rfl, .error _ _ (hstart.trans (forgetField_keeps _)) (by decide)⟩

theorem execBuild_completes (s : State) :
    ∃ t, execBuild s = .next t ∧ Completes (.capacityExceeded :: .illegalOperand :: emitKinds) s t := by
  unfold execBuild
  split
  case h_1 e he => exact ⟨_, rfl, .error s e (.refl s) (((buildCheck_raises s).mono (by decide)).kind_mem e he)⟩
  case h_2 =>
    split
    case h_1 t ht => exact ⟨_, rfl, .ok t ((buildWork_keeps s).of_ok t ht)⟩
    case h_2 e he =>
      exact ⟨_, rfl, .error _ e ((forgetStreamFrom_keeps s _).trans (nextDraw_keeps _))
        (((buildWork_raises s).mono (by decide)).kind_mem e he)⟩

theorem execSelect_completes (ecc : Nat) (fixed : Bool) (minSize : Nat) (s : State) :
    ∃ t, execSelect ecc fixed minSize s = .next t
      ∧ Completes [.capacityExceeded, .internalDefect, .illegalOperand] s t := by
  unfold execSelect
  split
  case h_1 e he =>
    exact ⟨_, rfl, .error s e (.refl s) (((selectCheck_raises s minSize).mono (by decide)).kind_mem e he)⟩
  case h_2 =>
    split
    case h_1 e he =>
      exact ⟨_, rfl, .error _ e (clearSel_keeps s)
        (((scanSizes_raises s ecc s.stream _).mono (by decide)).kind_mem e he)⟩
    case h_2 c _ => exact ⟨_, rfl, .ok _ ((storeChoice_keeps s c).trans (writeRes_keeps _ _))⟩

theorem execSplit_completes (w : Nat) (s : State) :
    ∃ t, execSplit w s = .next t ∧ Completes [.capacityExceeded, .illegalOperand] s t := by
  unfold execSplit
  split
  case h_1 e he => exact ⟨_, rfl, .error s e (.refl s) (((splitCheck_raises s w).mono (by decide)).kind_mem e he)⟩
  case h_2 =>
    dsimp only
    split
    · exact ⟨_, rfl, .error _ _ (clearSel_keeps s) List.mem_cons_self⟩
    · exact ⟨_, rfl, .ok _ ((storeChoice_keeps s _).trans (writeResNat_keeps _ _))⟩

/-- The kinds of error a command can complete with (R331). -/
def raisedKinds : Instr → List ErrKind
  | .nop | .bsClear => []
  | .gfInit => [.internalDefect, .illegalOperand]
  | .gfExp => [.notReady]
  | .gfMul | .gfPow | .gfAdd | .rsInit | .rsEncode | .rsSynd | .rsAppend _ => [.illegalOperand, .notReady]
  | .gfDiv | .gfInv | .gfLog => [.illegalOperand, .notReady, .zeroDivisor]
  | .segClassify | .segResolve | .segGate => .illegalOperand :: emitKinds
  | .bsAppend _ => [.capacityExceeded, .illegalOperand]
  | .build => .capacityExceeded :: .illegalOperand :: emitKinds
  | .select _ _ _ => [.capacityExceeded, .internalDefect, .illegalOperand]
  | .split _ => [.capacityExceeded, .illegalOperand]

/-- Every command completes (R315). -/
theorem exec_completes (i : Instr) (s : State) : ∃ t, exec i s = .next t ∧ Completes (raisedKinds i) s t := by
  cases i with
  | nop => exact ⟨_, rfl, .ok s (.refl s)⟩
  | gfInit => exact execGfInit_completes s
  | gfMul => exact ⟨_, rfl, finish_completes (gfMulWork_raises s) (gfMulWork_keeps s)⟩
  | gfDiv => exact ⟨_, rfl, finish_completes (gfDivWork_raises s) (gfDivWork_keeps s)⟩
  | gfInv => exact ⟨_, rfl, finish_completes (gfInvWork_raises s) (gfInvWork_keeps s)⟩
  | gfExp => exact ⟨_, rfl, finish_completes (gfExpWork_raises s) (gfExpWork_keeps s)⟩
  | gfLog => exact ⟨_, rfl, finish_completes (gfLogWork_raises s) (gfLogWork_keeps s)⟩
  | gfPow => exact ⟨_, rfl, finish_completes (gfPowWork_raises s) (gfPowWork_keeps s)⟩
  | gfAdd => exact ⟨_, rfl, finish_completes (gfAddWork_raises s) (gfAddWork_keeps s)⟩
  | rsInit => exact ⟨_, rfl, finish_completes (rsInitWork_raises s) (rsInitWork_keeps s)⟩
  | rsEncode => exact ⟨_, rfl, finish_completes (rsEncodeWork_raises s) (rsEncodeWork_keeps s)⟩
  | rsSynd => exact ⟨_, rfl, finish_completes (rsSyndWork_raises s) (rsSyndWork_keeps s)⟩
  | rsAppend ord => exact ⟨_, rfl, finish_completes (rsAppendWork_raises s ord) (rsAppendWork_keeps s ord)⟩
  | segClassify => exact ⟨_, rfl, finish_completes (segClassifyWork_raises s) (segClassifyWork_keeps s)⟩
  | segResolve => exact ⟨_, rfl, finish_completes (segResolveWork_raises s) (segResolveWork_keeps s)⟩
  | segGate => exact ⟨_, rfl, finish_completes (segGateWork_raises s) (segGateWork_keeps s)⟩
  | bsClear =>
    exact ⟨_, rfl, .ok _ (((forgetStreamFrom_keeps s 0).trans (setBsLen_keeps _ 0)).trans (nextDraw_keeps _))⟩
  | bsAppend width => exact ⟨_, rfl, finish_completes (bsAppendWork_raises s width) (bsAppendWork_keeps s width)⟩
  | build => exact execBuild_completes s
  | select ecc fixed minSize => exact execSelect_completes ecc fixed minSize s
  | split w => exact execSplit_completes w s

end Sys2Proof.Proofs

/-! SUPPORT. What a step and a host write can do: the cases of a step (45_control.md R310), the cases of a write
(20_memory.md R94), and the offsets of STATUS and CTRL (10_state.md R31). -/

namespace Sys2Proof.Proofs

open Sys2Proof Sys2Proof.Machine Sys2Proof.Laws Sys2Proof.Safety

/-! ### Steps -/

/-- Every kind of error but the reserved one (R331, R343). -/
def completionKinds : List ErrKind :=
  [.invalidInput, .capacityExceeded, .internalDefect, .illegalCommand, .illegalOperand, .notReady, .zeroDivisor]

theorem raisedKinds_subset (i : Instr) : raisedKinds i ⊆ completionKinds := by
  cases i <;> simp [raisedKinds, emitKinds, completionKinds]

/-- A step completes the pending command, makes the host's next transaction, or leaves an idle machine (R310). -/
theorem step_cases {s t : State} (h : step s = .next t) :
    (s.pending = true ∧ Completes completionKinds s t)
      ∨ (∃ x rest, s.hostQueue = x :: rest ∧ t = s.hostStep x rest)
      ∨ t = s := by
  cases he : s.engineTurn with
  | true =>
    obtain ⟨hp, -⟩ := Bool.and_eq_true_iff.1 he
    rw [step_engine he] at h
    refine .inl ⟨hp, ?_⟩
    split at h
    next i _ =>
      obtain ⟨u, hu, hc⟩ := exec_completes i s
      rw [hu] at h
      cases h
      exact hc.mono (raisedKinds_subset i)
    next =>
      cases h
      exact .error s _ (.refl s) (show ErrKind.illegalCommand ∈ completionKinds by decide)
  | false =>
    rw [step_host he] at h
    split at h
    next => exact .inr (.inr (by cases h; rfl))
    next x rest hq => exact .inr (.inl ⟨x, rest, hq, by cases h; rfl⟩)

/-! ### Host writes -/

/-- A host write is refused with flags, stores a word of memory, or writes a register (R94, R99). -/
theorem busWrite_cases (s : State) (a : Nat) (v : Word) :
    (∃ aerr ovr, s.busWrite a v = s.flagAccess aerr ovr)
      ∨ s.busWrite a v = s.storeWords a [v]
      ∨ ∃ r, a % 4 = 0 ∧ targetOf a = .reg r ∧ s.busWrite a v = s.writeReg r v := by
  unfold State.busWrite
  split
  next => exact .inl ⟨_, _, rfl⟩
  next h =>
    have hw : writeFault a = false := by
      cases hf : writeFault a
      · rfl
      · exact absurd (by simp [hf]) h
    have ha : a % 4 = 0 := by simpa [misaligned] using (Bool.or_eq_false_iff.1 hw).1
    cases ht : targetOf a with
    | reg r => exact .inr (.inr ⟨r, ha, rfl, rfl⟩)
    | mem => exact .inr (.inl rfl)
    | reserved => simp [writeFault, ht] at hw

theorem regOf_of_targetOf {a : Nat} {r : Reg} (h : targetOf a = .reg r) : regOf a = some r := by
  unfold targetOf at h
  split at h
  · split at h
    next hr => cases h; exact hr
    next => cases h
  · cases h
  · cases h

theorem lowRegOf_eq_status {n : Nat} (h : lowRegOf n = some .status) : n = 2 := by
  unfold lowRegOf at h
  split at h <;> simp_all

theorem lowRegOf_eq_ctrl {n : Nat} (h : lowRegOf n = some .ctrl) : n = 1 := by
  unfold lowRegOf at h
  split at h <;> simp_all

/-- A register that is neither an HWCFG nor of a MODECFG block has one of the low offsets (R31). -/
theorem lowRegOf_of_regOf {a : Nat} {r : Reg} (h : regOf a = some r) (hh : ∀ k, r ≠ .hwcfg k)
    (hm : ∀ m x, r ≠ .mode m x) : lowRegOf (a / 4) = some r := by
  unfold regOf at h
  split at h
  · exact h
  · split at h
    · cases h
      exact absurd rfl (hh _)
    · split at h
      · obtain ⟨x, -, hx⟩ := Option.map_eq_some_iff.1 h
        exact absurd hx.symm (hm _ x)
      · cases h

theorem targetOf_eq_status {a : Nat} (h : targetOf a = .reg .status) (ha : a % 4 = 0) : a = 0x008 := by
  have := lowRegOf_eq_status (lowRegOf_of_regOf (regOf_of_targetOf h) nofun nofun)
  omega

theorem targetOf_eq_ctrl {a : Nat} (h : targetOf a = .reg .ctrl) (ha : a % 4 = 0) : a = 0x004 := by
  have := lowRegOf_eq_ctrl (lowRegOf_of_regOf (regOf_of_targetOf h) nofun nofun)
  omega

/-- The bits of `w` lie in the mask `m`. -/
def Within (m w : Word) : Prop := w &&& m = w

theorem within_and (m w : Word) : Within m (w &&& m) := by
  rw [Within, BitVec.and_assoc, BitVec.and_self]

theorem Within.and_left {m w : Word} (h : Within m w) (x : Word) : Within m (x &&& w) := by
  rw [Within, BitVec.and_assoc, h]

theorem Within.or {m w x : Word} (hw : Within m w) (hx : Within m x) : Within m (w ||| x) := by
  rw [Within, BitVec.and_or_distrib_right, hw, hx]

/-- A write to CTRL without SRST changes CTRL alone, and only its held bits (R41, R380). -/
theorem writeCtrlFields_frame (s : State) (v : Word) :
    ∃ c, s.writeCtrlFields v = { s with ctrl := c } ∧ (Within ctrlMask s.ctrl → Within ctrlMask c) := by
  unfold State.writeCtrlFields
  split
  · have hie : Within ctrlMask 1#32 := rfl
    refine ⟨_, rfl, fun h => .or ?_ (hie.and_left v)⟩
    rw [BitVec.and_comm]
    exact h.and_left _
  · exact ⟨_, rfl, fun _ => within_and _ v⟩

end Sys2Proof.Proofs

/-! SUPPORT. The form of the registers (O11), kept by completion, by host writes, and so by every step. -/

namespace Sys2Proof.Proofs

open Sys2Proof Sys2Proof.Machine Sys2Proof.Laws Sys2Proof.Safety

/-! ### Completion (45_control.md R312) -/

theorem code_ne_reserved {k : ErrKind} (h : k ∈ completionKinds) : k.code ≠ 3#8 := by
  cases k with
  | configConflict => exact absurd h (by decide)
  | _ => decide

/-- A pending command completes into a legal state (R38, R42 to R44). -/
theorem Completes.legal {s t : State} (h : Completes completionKinds s t) (hs : RegistersLegal s)
    (hp : s.pending = true) : RegistersLegal t := by
  obtain ⟨hfields, -, ⟨hpending, hlast⟩, hvalid, hzero⟩ := hs
  obtain ⟨-, -, -, hinfo⟩ := hpending hp
  cases h with
  | ok u hu =>
    have herrors : ErrorsLegal u.completeOk :=
      ⟨by simp, by simp, nofun, fun _ => hu.errInfo.trans hinfo⟩
    exact ⟨hu.fields hfields, herrors, ⟨nofun, hu.opcode hlast⟩, hu.valid hvalid, hu.zero hzero⟩
  | error u e hu he =>
    have herrors : ErrorsLegal (u.takeError e) :=
      ⟨code_le _, code_ne_reserved he, fun _ => code_ne_zero _, fun h => absurd h (code_ne_zero _)⟩
    exact ⟨hu.fields hfields, herrors, ⟨nofun, hu.opcode hlast⟩, hu.valid hvalid, hu.zero hzero⟩

/-! ### Field registers (10_state.md R32) -/

theorem modeRegs_reset_legal : ModeRegsLegal ModeRegs.reset := by
  unfold ModeRegsLegal
  decide

/-- A host write to a register of a block keeps its field bits only (R56 to R61). -/
theorem modeRegs_set_legal {b : ModeRegs} (h : ModeRegsLegal b) (r : ModeReg) (v : Word) :
    ModeRegsLegal (b.set r v) := by
  obtain ⟨hctl, hgbits, hhdrw, hterm⟩ := h
  cases r with
  | ctl => exact ⟨within_and _ v, hgbits, hhdrw, hterm⟩
  | gbits => exact ⟨hctl, within_and _ v, hhdrw, hterm⟩
  | hdrw => exact ⟨hctl, hgbits, within_and _ v, hterm⟩
  | term => exact ⟨hctl, hgbits, hhdrw, within_and _ v⟩
  | vbase | short | long => exact ⟨hctl, hgbits, hhdrw, hterm⟩

theorem mc_legal {s : State} (h : FieldsLegal s) (m : Nat) : ModeRegsLegal (s.mc m) := by
  obtain ⟨-, -, -, hmodes⟩ := h
  unfold State.mc
  split
  next hm => exact hmodes ⟨m, hm⟩
  next => exact modeRegs_reset_legal

/-- A write to one block leaves every block legal (R56). -/
theorem setBlock_legal {s : State} (h : FieldsLegal s) {b : ModeRegs} (hb : ModeRegsLegal b) (m : Nat) :
    FieldsLegal { s with modecfg := s.modecfg.setIfInBounds m b } := by
  obtain ⟨hctrl, hmode, hpad, hmodes⟩ := h
  refine ⟨hctrl, hmode, hpad, fun k => ?_⟩
  by_cases hk : m = k.val
  · simpa [hk] using hb
  · simpa [Vector.getElem_setIfInBounds_ne k.isLt hk] using hmodes k

/-! ### Host transactions -/

theorem reset_legal : RegistersLegal State.reset := by
  have hmodes : ∀ m : Fin 8, ModeRegsLegal State.reset.modecfg[m] := fun m => by
    simpa [State.reset] using modeRegs_reset_legal
  exact ⟨⟨by decide, by decide, by decide, hmodes⟩, ⟨by decide, by decide, nofun, fun _ => rfl⟩, ⟨nofun, rfl⟩,
    ⟨nofun, nofun, nofun, nofun, nofun⟩, nofun⟩

/-- The registers' form says nothing of memory and of the model's own fields (R372). -/
theorem softReset_legal (s : State) : RegistersLegal s.softReset := by
  obtain ⟨hfields, herrors, hpending, hvalid, hzero⟩ := reset_legal
  exact ⟨hfields, herrors, hpending, hvalid, hzero⟩

/-- A new command has no completion yet (R37, R42, R311). -/
theorem issue_legal {s : State} (h : RegistersLegal s) (w : Word) : RegistersLegal (s.issue w) := by
  obtain ⟨hfields, -, -, hvalid, hzero⟩ := h
  exact ⟨hfields, ⟨by simp, by simp, nofun, fun _ => rfl⟩, ⟨fun _ => ⟨rfl, rfl, rfl, rfl⟩, rfl⟩, hvalid, hzero⟩

/-- Clearing completion bits does not make the error registers disagree (R35, R38). -/
theorem writeStatus_legal {s : State} (h : RegistersLegal s) (v : Word) : RegistersLegal (s.writeStatus v) := by
  obtain ⟨hfields, ⟨hle, hres, herr, hinfo⟩, ⟨hpending, hlast⟩, hvalid, hzero⟩ := h
  have herr' : (s.status.err && !v.getLsbD 2) = true → s.status.errCode ≠ 0 := fun hb =>
    herr (Bool.and_eq_true_iff.1 hb).1
  refine ⟨hfields, ⟨hle, hres, herr', hinfo⟩, ⟨fun hp => ?_, hlast⟩, hvalid, hzero⟩
  obtain ⟨hd, he, hcode, hi⟩ := hpending hp
  exact ⟨by simp [hd], by simp [he], hcode, hi⟩

/-- Every host write to a register keeps the registers' form (R32, R94). -/
theorem writeReg_legal {s : State} (h : RegistersLegal s) (r : Reg) (v : Word) : RegistersLegal (s.writeReg r v) := by
  obtain ⟨hfields, herrors, hpending, hvalid, hzero⟩ := id h
  obtain ⟨hctrl, hmode, hpad, hmodes⟩ := id hfields
  cases r with
  | ctrl =>
    simp only [State.writeReg]
    split
    · exact softReset_legal s
    · obtain ⟨c, hw, hc⟩ := writeCtrlFields_frame s v
      rw [hw]
      exact ⟨⟨hc hctrl, hmode, hpad, hmodes⟩, herrors, hpending, hvalid, hzero⟩
  | status => exact writeStatus_legal h v
  | cmd => exact issue_legal h v
  | modeCfg => exact ⟨⟨hctrl, within_and _ v, hpad, hmodes⟩, herrors, hpending, hvalid, hzero⟩
  | padCfg => exact ⟨⟨hctrl, hmode, within_and _ v, hmodes⟩, herrors, hpending, hvalid, hzero⟩
  | mode m x =>
    exact ⟨setBlock_legal hfields (modeRegs_set_legal (mc_legal hfields m) x v) m, herrors, hpending, hvalid, hzero⟩
  | _ => exact h

theorem flagAccess_legal {s : State} (h : RegistersLegal s) (aerr ovr : Bool) :
    RegistersLegal (s.flagAccess aerr ovr) := h

theorem busRead_legal {s : State} (h : RegistersLegal s) (a : Nat) : RegistersLegal (s.busRead a) := by
  unfold State.busRead
  split
  · exact flagAccess_legal h _ _
  · exact h

theorem busWrite_legal {s : State} (h : RegistersLegal s) (a : Nat) (v : Word) : RegistersLegal (s.busWrite a v) := by
  rcases busWrite_cases s a v with ⟨aerr, ovr, hw⟩ | hw | ⟨r, -, -, hw⟩
  · exact hw ▸ flagAccess_legal h aerr ovr
  · exact hw ▸ h
  · exact hw ▸ writeReg_legal h r v

theorem hostStep_legal {s : State} (h : RegistersLegal s) (x : HostTxn) (rest : List HostTxn) :
    RegistersLegal (s.hostStep x rest) := by
  have h' : RegistersLegal { s with hostQueue := rest, delay := s.delay - 1 } := h
  cases x with
  | read a => exact busRead_legal h' a.toNat
  | write a v => exact busWrite_legal h' a.toNat v

/-- Settles O11, by the cases of a step: a completion, a host transaction, or none. -/
theorem registersLegalKept : Obligations.RegistersLegalKept := by
  intro s t hs h
  rcases step_cases h with ⟨hp, hc⟩ | ⟨x, rest, -, rfl⟩ | rfl
  · exact hc.legal hs hp
  · exact hostStep_legal hs x rest
  · exact hs

end Sys2Proof.Proofs

/-! SUPPORT. The sticky flags over a step (O57), and what the registers read as after power-on (O7). -/

namespace Sys2Proof.Proofs

open Sys2Proof Sys2Proof.Machine Sys2Proof.Laws Sys2Proof.Safety Sys2Proof.Claims

/-! ### The sticky flags (10_state.md R39) -/

/-- OVR and AERR are still set where they were. -/
def FlagsKept (s t : State) : Prop :=
  (s.status.ovr = true → t.status.ovr = true) ∧ (s.status.aerr = true → t.status.aerr = true)

theorem Completes.flagsKept {ks : List ErrKind} {s t : State} (h : Completes ks s t) : FlagsKept s t := by
  cases h with
  | ok u hu => exact ⟨hu.ovr.trans, hu.aerr.trans⟩
  | error u e hu _ => exact ⟨hu.ovr.trans, hu.aerr.trans⟩

theorem flagAccess_flagsKept (s : State) (aerr ovr : Bool) : FlagsKept s (s.flagAccess aerr ovr) :=
  ⟨fun h => by simp [h], fun h => by simp [h]⟩

theorem busRead_flagsKept (s : State) (a : Nat) : FlagsKept s (s.busRead a) := by
  unfold State.busRead
  split
  · exact flagAccess_flagsKept s _ _
  · exact ⟨id, id⟩

/-- Of all register writes, only those of STATUS and the soft reset can clear a flag (R35, R372). -/
theorem writeReg_flagsKept (s : State) {r : Reg} {v : Word} (hs : r ≠ .status)
    (hc : r = .ctrl → v.getLsbD 1 = false) : FlagsKept s (s.writeReg r v) := by
  cases r with
  | status => exact absurd rfl hs
  | ctrl =>
    obtain ⟨c, hw, -⟩ := writeCtrlFields_frame s v
    simp only [State.writeReg, hc rfl, Bool.false_eq_true, if_false, hw]
    exact ⟨id, id⟩
  | _ => exact ⟨id, id⟩

/-- A host write keeps the flags, or is a write to STATUS, or a soft reset. -/
theorem busWrite_flags (s : State) (a : Nat) (v : Word) :
    FlagsKept s (s.busWrite a v)
      ∨ (a = 0x008 ∧ s.busWrite a v = s.writeStatus v)
      ∨ (a = 0x004 ∧ v.getLsbD 1 = true) := by
  rcases busWrite_cases s a v with ⟨aerr, ovr, h⟩ | h | ⟨r, ha, ht, h⟩
  · exact .inl (h ▸ flagAccess_flagsKept s aerr ovr)
  · exact .inl (h ▸ ⟨id, id⟩)
  · by_cases hs : r = .status
    · subst hs
      exact .inr (.inl ⟨targetOf_eq_status ht ha, h⟩)
    · by_cases hc : r = .ctrl → v.getLsbD 1 = false
      · exact .inl (h ▸ writeReg_flagsKept s hs hc)
      · obtain ⟨rfl, hv⟩ := Classical.not_imp.1 hc
        exact .inr (.inr ⟨targetOf_eq_ctrl ht ha, by simpa using hv⟩)

/-- What one step does to the flags. -/
theorem step_flags {s t : State} (h : step s = .next t) :
    FlagsKept s t ∨ ∃ a v rest, s.hostQueue = .write a v :: rest
      ∧ ((a = 0x008#20 ∧ t.status.ovr = (s.status.ovr && !v.getLsbD 3)
            ∧ t.status.aerr = (s.status.aerr && !v.getLsbD 4))
          ∨ (a = 0x004#20 ∧ v.getLsbD 1 = true)) := by
  rcases step_cases h with ⟨-, hc⟩ | ⟨x, rest, hq, rfl⟩ | rfl
  · exact .inl hc.flagsKept
  · cases x with
    | read a => exact .inl (busRead_flagsKept { s with hostQueue := rest, delay := s.delay - 1 } a.toNat)
    | write a v =>
      rcases busWrite_flags { s with hostQueue := rest, delay := s.delay - 1 } a.toNat v with
        hk | ⟨ha, hw⟩ | ⟨ha, hv⟩
      · exact .inl hk
      · refine .inr ⟨a, v, rest, hq, .inl ⟨BitVec.eq_of_toNat_eq ha, ?_⟩⟩
        simp only [State.hostStep, State.hostTxn, hw]
        exact ⟨rfl, rfl⟩
      · exact .inr ⟨a, v, rest, hq, .inr ⟨BitVec.eq_of_toNat_eq ha, hv⟩⟩
  · exact .inl ⟨id, id⟩

/-- Settles O57, by the cases of a step: only the two writes named can clear a flag. -/
theorem stickyFlags : Obligations.StickyFlags := by
  intro s t h
  rcases step_flags h with ⟨hovr, haerr⟩ | ⟨a, v, rest, hq, ⟨ha, hovr, haerr⟩ | hreset⟩
  · exact ⟨fun h1 h0 => by simp [hovr h1] at h0, fun h1 h0 => by simp [haerr h1] at h0⟩
  · exact ⟨fun h1 h0 => ⟨a, v, rest, hq, .inl ⟨ha, by simpa [h1, h0] using hovr⟩⟩,
      fun h1 h0 => ⟨a, v, rest, hq, .inl ⟨ha, by simpa [h1, h0] using haerr⟩⟩⟩
  · exact ⟨fun _ _ => ⟨a, v, rest, hq, .inr hreset⟩, fun _ _ => ⟨a, v, rest, hq, .inr hreset⟩⟩

/-! ### Reset values (10_state.md R31, R54 to R56) -/

/-- The words 0 to 6 of block m are the registers of MODECFG[m] (R56). -/
theorem targetOf_modeReg {m j : Nat} (hm : m < 8) (hj : j < 7) :
    ∃ r, modeRegOf j = some r ∧ targetOf (0x100 + 0x20 * m + 4 * j) = .reg (.mode m r) := by
  have hregs : regionOf (0x100 + 0x20 * m + 4 * j) = .regs := if_pos (by omega)
  have hreg : regOf (0x100 + 0x20 * m + 4 * j) = (modeRegOf j).map (.mode m) := by
    unfold regOf
    rw [if_neg (by omega), if_neg (by omega), if_pos (by omega)]
    congr 2 <;> omega
  obtain ⟨r, hr⟩ : ∃ r, modeRegOf j = some r := by
    interval_cases j <;> exact ⟨_, rfl⟩
  exact ⟨r, hr, by simp [targetOf, hregs, hreg, hr]⟩

theorem busValue_of_target {s : State} {a : Nat} {r : Reg} (h : targetOf a = .reg r) :
    s.busValue a = s.readReg r := by
  simp [State.busValue, h]

theorem mc_reset (m : Nat) : State.reset.mc m = ModeRegs.reset := by
  unfold State.mc
  split
  · simp [State.reset]
  · rfl

theorem readReg_mode_reset (m : Nat) (r : ModeReg) : State.reset.readReg (.mode m r) = 0#32 := by
  simp only [State.readReg, mc_reset]
  cases r <;> rfl

/-- ID and HWCFG0 to HWCFG6 read the same in every state (R54, R55). -/
theorem busValue_constantTable (s : State) : ∀ p ∈ constantTable, s.busValue p.1 = p.2 := by
  simp only [constantTable, List.forall_mem_cons]
  exact ⟨rfl, rfl, rfl, rfl, rfl, rfl, rfl, rfl, nofun⟩

/-- Settles O7: the tables by evaluation, the MODECFG blocks by their address map. -/
theorem resetRegisters : Obligations.ResetRegisters := by
  refine ⟨by decide, fun m hm j hj => ?_, rfl, rfl, rfl, rfl, busValue_constantTable⟩
  obtain ⟨r, -, ht⟩ := targetOf_modeReg hm hj
  rw [busValue_of_target ht, readReg_mode_reset]

end Sys2Proof.Proofs

/-! SUPPORT. Every step keeps the memory's canonical form (O10): each operation on memory does, so the work of each
command does, and what a soft reset frees does too. -/

namespace Sys2Proof.Proofs

open Sys2Proof Sys2Proof.Machine Sys2Proof.Laws

/-! ### The form over the operations -/

/-- The memory of `u` has the canonical form if that of `s` has it. -/
def FormKept (s u : State) : Prop := s.mem.wf → u.mem.wf

theorem FormKept.trans {s t u : State} (hst : FormKept s t) (htu : FormKept t u) : FormKept s u := htu ∘ hst

section Operations

variable (s : State)

theorem storeWords_formKept (a : Nat) (ws : List Word) : FormKept s (s.storeWords a ws) := wf_storeWords s a ws
theorem storeNats_formKept (a : Nat) (vs : List Nat) : FormKept s (s.storeNats a vs) := wf_storeNats s a vs
theorem forgetEntries_formKept (a n : Nat) : FormKept s (s.forgetEntries a n) := wf_forgetWords s a n
theorem forgetStreamFrom_formKept (p : Nat) : FormKept s (s.forgetStreamFrom p) := wf_forgetStreamFrom s p
theorem forgetBits_formKept (p n : Nat) : FormKept s (s.forgetBits p n) := wf_putBits s p _
theorem writeRes_formKept (v : Word) : FormKept s (s.writeRes v) := id
theorem storeChoice_formKept (c : Choice) : FormKept s (s.storeChoice c) := wf_storeNats s _ _

theorem forgetField_formKept : FormKept s s.forgetField := fun h =>
  wf_forgetWords _ logBase 65536 (wf_forgetWords s alogBase 65536 h)

theorem append_formKept {t : State} {b : Bits} (h : s.append b = .ok t) : FormKept s t := by
  obtain ⟨-, -, rfl⟩ := append_eq_ok.1 h
  exact wf_putBits s _ b

end Operations

/-! ### The form over the work of a command -/

/-- Where the computation succeeds, its state keeps the form. -/
structure FormKeeps (s : State) (x : Except Err State) : Prop where
  of_ok : ∀ u, x = .ok u → FormKept s u

namespace FormKeeps

variable {α : Type} {s : State}

theorem pure {u : State} (h : FormKept s u) : FormKeeps s (.ok u) := ⟨fun _ hu => by cases hu; exact h⟩

theorem bind {x : Except Err α} {f : α → Except Err State} (h : ∀ a, x = .ok a → FormKeeps s (f a)) :
    FormKeeps s (x >>= f) := by
  refine ⟨fun u hu => ?_⟩
  obtain ⟨a, hx, hf⟩ := bind_eq_ok.1 hu
  exact (h a hx).of_ok u hf

/-- An error completes with the memory as it was, so the completion keeps the form as the work does (R341). -/
theorem finish {x : Except Err State} (h : FormKeeps s x) : FormKept s (s.finish x) := by
  cases x with
  | ok u => exact h.of_ok u rfl
  | error e => exact id

end FormKeeps

theorem buildWork_formKeeps (s : State) : FormKeeps s s.buildWork :=
  .bind fun _ _ => .bind fun _ hu => .pure ((append_formKept s hu).trans (writeRes_formKept _ _))

/-! ### The form over a completion (45_control.md R312) -/

/-- Whatever next state the outcome has, it keeps the form. -/
def OutcomeKeepsForm (s : State) (o : Host.Outcome State Fault Refusal) : Prop := ∀ t, o = .next t → FormKept s t

theorem OutcomeKeepsForm.next {s t : State} (h : FormKept s t) : OutcomeKeepsForm s (.next t) :=
  fun _ hu => by cases hu; exact h

/-- Both tables of a field are stored, or become unspecified (R151, R154). -/
theorem execGfInit_keepsForm (s : State) : OutcomeKeepsForm s (execGfInit s) := by
  unfold execGfInit
  split
  case h_1 => exact .next id
  case h_2 =>
    dsimp only
    split
    · exact .next fun h => wf_storeNats _ logBase _ (wf_storeNats s.gfInitStart alogBase _ h)
    · exact .next (forgetField_formKept s.gfInitStart)

/-- BUILD appends to the stream, or leaves the rest of the buffer unspecified (R268, R341). -/
theorem execBuild_keepsForm (s : State) : OutcomeKeepsForm s (execBuild s) := by
  unfold execBuild
  split
  case h_1 => exact .next id
  case h_2 =>
    split
    case h_1 t ht => exact .next ((buildWork_formKeeps s).of_ok t ht)
    case h_2 => exact .next (forgetStreamFrom_formKept s _)

/-- SELECT stores its choice, or nothing (R292). -/
theorem execSelect_keepsForm (ecc : Nat) (fixed : Bool) (minSize : Nat) (s : State) :
    OutcomeKeepsForm s (execSelect ecc fixed minSize s) := by
  unfold execSelect
  split
  case h_1 => exact .next id
  case h_2 =>
    split
    case h_1 => exact .next id
    case h_2 c _ => exact .next (storeChoice_formKept s c)

/-- SPLIT stores its choice, or nothing (R298). -/
theorem execSplit_keepsForm (w : Nat) (s : State) : OutcomeKeepsForm s (execSplit w s) := by
  unfold execSplit
  split
  case h_1 => exact .next id
  case h_2 =>
    dsimp only
    split
    · exact .next id
    · exact .next (storeChoice_formKept s _)

theorem exec_keepsForm (i : Instr) (s : State) : OutcomeKeepsForm s (exec i s) := by
  cases i with
  | nop => exact .next id
  | gfInit => exact execGfInit_keepsForm s
  | gfMul | gfExp | gfPow | gfAdd => exact .next (FormKeeps.finish (.bind fun _ _ => .pure id))
  | gfDiv | gfInv | gfLog => exact .next (FormKeeps.finish (.bind fun _ _ => .bind fun _ _ => .pure id))
  | rsInit | rsAppend _ => exact .next (FormKeeps.finish (.bind fun _ _ => .pure (storeNats_formKept s _ _)))
  | rsEncode | rsSynd | segClassify =>
    exact .next (FormKeeps.finish (.bind fun _ _ => .bind fun _ _ => .pure (storeNats_formKept s _ _)))
  | segResolve =>
    exact .next (FormKeeps.finish
      (.bind fun _ _ => .bind fun _ _ => .bind fun _ _ => .pure (storeNats_formKept s _ _)))
  | segGate =>
    exact .next (FormKeeps.finish
      (.bind fun _ _ => .bind fun _ _ => .bind fun _ _ => .bind fun _ _ => .pure (storeNats_formKept s _ _)))
  | bsClear => exact .next (forgetStreamFrom_formKept s 0)
  | bsAppend _ =>
    exact .next (FormKeeps.finish
      (.bind fun _ _ => .bind fun _ ht => .pure ((append_formKept s ht).trans (writeRes_formKept _ _))))
  | build => exact execBuild_keepsForm s
  | select ecc fixed minSize => exact execSelect_keepsForm ecc fixed minSize s
  | split w => exact execSplit_keepsForm w s

/-! ### The form over a soft reset (70_reset_and_hazards.md R372) -/

theorem FormKept.ite {s t u : State} {c : Prop} [Decidable c] (ht : FormKept s t) (hu : FormKept s u) :
    FormKept s (if c then t else u) := by
  split
  · exact ht
  · exact hu

theorem abandonBuild_formKept (s : State) : FormKept s s.abandonBuild := by
  unfold State.abandonBuild
  split
  · exact forgetBits_formKept s _ _
  · exact forgetStreamFrom_formKept s _

theorem abandonSelect_formKept (s : State) (ecc : Nat) (fixed : Bool) (minSize : Nat) :
    FormKept s (s.abandonSelect ecc fixed minSize) := by
  unfold State.abandonSelect
  split
  · exact forgetEntries_formKept s _ _
  · exact id

/-- What an abandoned command would have written becomes unspecified by stores alone. -/
theorem abandon_formKept (s : State) (i : Instr) : FormKept s (s.abandon i) := by
  cases i with
  | nop | gfMul | gfDiv | gfInv | gfExp | gfLog | gfPow | gfAdd | bsClear => exact id
  | gfInit => exact .ite (forgetField_formKept s) id
  | rsInit | rsEncode | rsSynd | rsAppend _ | segClassify | segResolve | segGate | split _ =>
    exact .ite (forgetEntries_formKept s _ _) id
  | bsAppend width => exact .ite (forgetBits_formKept s _ _) id
  | build => exact .ite (abandonBuild_formKept s) id
  | select ecc fixed minSize => exact .ite (abandonSelect_formKept s ecc fixed minSize) id

theorem softReset_formKept (s : State) : FormKept s s.softReset := by
  show FormKept s s.abandonPending
  unfold State.abandonPending
  split
  · split
    · exact abandon_formKept s _
    · exact id
  · exact id

/-! ### The form over a host transaction (20_memory.md R93, R94) -/

/-- A write to a register changes memory only by a soft reset. -/
theorem writeReg_formKept (s : State) (r : Reg) (v : Word) : FormKept s (s.writeReg r v) := by
  cases r with
  | ctrl =>
    obtain ⟨c, hc, -⟩ := writeCtrlFields_frame s v
    exact .ite (softReset_formKept s) (hc ▸ id)
  | _ => exact id

theorem busWrite_formKept (s : State) (a : Nat) (v : Word) : FormKept s (s.busWrite a v) := by
  rcases busWrite_cases s a v with ⟨aerr, ovr, hw⟩ | hw | ⟨r, -, -, hw⟩
  · exact hw ▸ id
  · exact hw ▸ storeWords_formKept s a [v]
  · exact hw ▸ writeReg_formKept s r v

theorem busRead_formKept (s : State) (a : Nat) : FormKept s (s.busRead a) := .ite id id

theorem hostStep_formKept (s : State) (x : HostTxn) (rest : List HostTxn) : FormKept s (s.hostStep x rest) := by
  cases x with
  | read a => exact busRead_formKept { s with hostQueue := rest, delay := s.delay - 1 } a.toNat
  | write a v => exact busWrite_formKept { s with hostQueue := rest, delay := s.delay - 1 } a.toNat v

/-- Settles O10, by the cases of a step: the engine's completion, the host's transaction, or none. -/
theorem memoryFormKept : Obligations.MemoryFormKept := by
  intro s t hs h
  cases he : s.engineTurn with
  | true =>
    rw [step_engine he] at h
    split at h
    next i _ => exact exec_keepsForm i s t h hs
    next => exact OutcomeKeepsForm.next (t := completeIllegal s) id t h hs
  | false =>
    rw [step_host he] at h
    split at h
    next => cases h; exact hs
    next x rest _ => cases h; exact hostStep_formKept s x rest hs

end Sys2Proof.Proofs

/-! SUPPORT. The address map in closed form: the region of an address (20_memory.md R91), the offsets of the registers
(10_state.md R31), and so which accesses are refused (R96 to R98) or admitted. -/

namespace Sys2Proof.Proofs

open Sys2Proof Sys2Proof.Machine Sys2Proof.Laws Sys2Proof.Claims

/-! ### Regions (R91) -/

/-- The addresses of the map that no region's entries use (R91). -/
def InGap (a : Nat) : Prop :=
  (0x01100 ≤ a ∧ a < 0x02000) ∨ (0x02444 ≤ a ∧ a < 0x03000) ∨ (0x03400 ≤ a ∧ a < 0x04000)
    ∨ (0x04000 ≤ a ∧ a < 0x08000 ∧ 4 * 273 ≤ a % 0x800) ∨ (0x08000 ≤ a ∧ a < 0x10000)
    ∨ (0x19000 ≤ a ∧ a < 0x20000) ∨ (0x2C004 ≤ a ∧ a < 0x30000) ∨ (0x34000 ≤ a ∧ a < 0x40000) ∨ 0xC0000 ≤ a

/-- The bounds of a region, as R91 tabulates them. -/
def InRegion (r : Region) (a : Nat) : Prop :=
  match r with
  | .regs => a < 0x01000
  | .trans => 0x01000 ≤ a ∧ a < 0x01100
  | .cls => 0x02000 ≤ a ∧ a < 0x02444
  | .size => 0x03000 ≤ a ∧ a < 0x03400
  | .vtab => 0x04000 ≤ a ∧ a < 0x08000 ∧ a % 0x800 < 4 * 273
  | .char => 0x10000 ≤ a ∧ a < 0x14000
  | .mode => 0x14000 ≤ a ∧ a < 0x18000
  | .bs => 0x18000 ≤ a ∧ a < 0x19000
  | .cw => 0x20000 ≤ a ∧ a < 0x24000
  | .rem => 0x24000 ≤ a ∧ a < 0x28000
  | .gen => 0x28000 ≤ a ∧ a < 0x2C004
  | .syn => 0x30000 ≤ a ∧ a < 0x34000
  | .alog => 0x40000 ≤ a ∧ a < 0x80000
  | .log => 0x80000 ≤ a ∧ a < 0xC0000
  | .reserved => InGap a

/-- The bounds determine the region; the gaps are those R91 leaves; of them, the end of each table of T.VTAB and the
addresses past T.LOG stand apart. -/
theorem regionOf_eq {a : Nat} {r : Region} (h : InRegion r a) : regionOf a = r := by
  cases r with
  | regs => exact if_pos h
  | vtab =>
    obtain ⟨hlo, hhi, hmod⟩ := h
    unfold regionOf cidxN
    repeat rw [if_neg (by omega)]
    rw [if_pos hhi, if_pos (by omega)]
  | reserved =>
    unfold regionOf cidxN eMax
    rcases (h : InGap a) with h | h | h | ⟨hlo, hhi, hmod⟩ | h | h | h | h | h
    case inr.inr.inr.inl =>
      repeat rw [if_neg (by omega)]
      rw [if_pos hhi, if_neg (by omega)]
    case inr.inr.inr.inr.inr.inr.inr.inr => repeat rw [if_neg (by omega)]
    all_goals
      repeat rw [if_neg (by omega)]
      rw [if_pos (by omega)]
  | _ =>
    obtain ⟨hlo, hhi⟩ := h
    unfold regionOf cidxN eMax
    repeat rw [if_neg (by omega)]
    rw [if_pos hhi]

/-- A word of a memory: not a register, not in a gap. -/
theorem targetOf_of_inRegion {a : Nat} {r : Region} (h : InRegion r a) (hr : r ≠ .regs ∧ r ≠ .reserved) :
    targetOf a = .mem := by
  obtain ⟨hregs, hgap⟩ := hr
  unfold targetOf
  rw [regionOf_eq h]
  cases r with
  | regs => exact absurd rfl hregs
  | reserved => exact absurd rfl hgap
  | _ => rfl

theorem targetOf_of_inGap {a : Nat} (h : InGap a) : targetOf a = .reserved := by
  unfold targetOf
  rw [regionOf_eq (r := .reserved) h]

/-! ### Registers (10_state.md R31, R54 to R56) -/

/-- The word of a MODECFG block at which a register stands (R56). -/
def modeRegWord : ModeReg → Nat
  | .ctl => 0
  | .gbits => 1
  | .vbase => 2
  | .hdrw => 3
  | .short => 4
  | .long => 5
  | .term => 6

/-- The offset at which a register stands (R31). -/
def regOffset : Reg → Nat
  | .id => 0x000
  | .ctrl => 0x004
  | .status => 0x008
  | .cmd => 0x00C
  | .opa => 0x010
  | .opb => 0x014
  | .res => 0x018
  | .errInfo => 0x01C
  | .valid => 0x020
  | .gfPoly => 0x024
  | .gfM => 0x028
  | .rsE => 0x02C
  | .rsR0 => 0x030
  | .nChars => 0x034
  | .modeCfg => 0x038
  | .bsLen => 0x03C
  | .maxBits => 0x040
  | .sizeCount => 0x044
  | .padCfg => 0x048
  | .padPat => 0x04C
  | .fillPat => 0x050
  | .selSize => 0x054
  | .selW => 0x058
  | .dataCw => 0x05C
  | .ecCw => 0x060
  | .stuffLen => 0x064
  | .stuffIns => 0x068
  | .hwcfg k => 0x0E0 + 4 * k
  | .mode m r => 0x100 + 0x20 * m + 4 * modeRegWord r

theorem regOffset_of_lowRegOf {n : Nat} {r : Reg} (h : lowRegOf n = some r) : 4 * n = regOffset r := by
  unfold lowRegOf at h
  split at h <;> cases h <;> rfl

theorem modeRegWord_of_modeRegOf {n : Nat} {r : ModeReg} (h : modeRegOf n = some r) : n = modeRegWord r := by
  unfold modeRegOf at h
  split at h <;> cases h <;> rfl

/-- A register stands at one aligned offset only. -/
theorem eq_regOffset {a : Nat} {r : Reg} (h : targetOf a = .reg r) (ha : a % 4 = 0) : a = regOffset r := by
  have hreg := regOf_of_targetOf h
  unfold regOf at hreg
  split at hreg
  · have := regOffset_of_lowRegOf hreg
    omega
  · split at hreg
    · cases hreg
      simp only [regOffset]
      omega
    · split at hreg
      · obtain ⟨x, hx, rfl⟩ := Option.map_eq_some_iff.1 hreg
        have := modeRegWord_of_modeRegOf hx
        simp only [regOffset]
        omega
      · cases hreg

/-- Below 0x200 there are registers and reserved addresses only. -/
theorem exists_reg_of_lt {a : Nat} (h : a < 0x200) (hr : targetOf a ≠ .reserved) : ∃ r, targetOf a = .reg r := by
  unfold targetOf at hr ⊢
  rw [regionOf_eq (r := .regs) (show a < 0x1000 by omega)] at hr ⊢
  cases hreg : regOf a with
  | none => exact absurd (by simp [hreg]) hr
  | some r => exact ⟨r, rfl⟩

/-! ### Refused accesses (20_memory.md R96 to R99) -/

theorem targetOf_of_reservedAddress {a : Nat} (h : ReservedAddress a) : targetOf a = .reserved := by
  obtain ⟨-, -, h⟩ := h
  by_cases ha : a < 0x1000
  · have hreg : regOf a = none := by
      unfold regOf
      rw [if_neg (by omega), if_neg (by omega), if_neg (by omega)]
    simp [targetOf, regionOf_eq (r := .regs) ha, hreg]
  · exact targetOf_of_inGap (by unfold InGap; omega)

theorem targetOf_of_readOnlyRegister {a : Nat} (h : ReadOnlyAddress a) (hlt : a < 0x1000) :
    ∃ r, targetOf a = .reg r ∧ r.readOnly = true := by
  obtain ⟨ha, h⟩ := h
  obtain ⟨k, rfl⟩ : ∃ k, a = 4 * k := ⟨a / 4, by omega⟩
  have hk : k = 0 ∨ (6 ≤ k ∧ k ≤ 12) ∨ (21 ≤ k ∧ k ≤ 26) ∨ (56 ≤ k ∧ k ≤ 62) := by omega
  rcases hk with rfl | ⟨hlo, hhi⟩ | ⟨hlo, hhi⟩ | ⟨hlo, hhi⟩
  · exact ⟨_, rfl, rfl⟩
  all_goals interval_cases k <;> exact ⟨_, rfl, rfl⟩

/-- The memories of the engine, with entries of 16 bits (10_state.md R70 to R74). -/
theorem inRegion_of_readOnlyMemory {a : Nat} (h : ReadOnlyAddress a) (hge : 0x1000 ≤ a) :
    ∃ r ∈ [Region.rem, .gen, .syn, .alog, .log], InRegion r a := by
  obtain ⟨ha, h⟩ := h
  by_cases h1 : a < 0x28000
  · exact ⟨.rem, by decide, show _ ∧ _ by omega⟩
  by_cases h2 : a < 0x2C004
  · exact ⟨.gen, by decide, show _ ∧ _ by omega⟩
  by_cases h3 : a < 0x34000
  · exact ⟨.syn, by decide, show _ ∧ _ by omega⟩
  by_cases h4 : a < 0x80000
  · exact ⟨.alog, by decide, show _ ∧ _ by omega⟩
  · exact ⟨.log, by decide, show _ ∧ _ by omega⟩

/-! ### Memory words -/

/-- A word of a memory: the field bits of its entry, and whether the host may write it (R91, R98). -/
structure MemoryWord (a : Nat) (mask : Word) (readOnly : Bool) : Prop where
  aligned : a % 4 = 0
  target : targetOf a = .mem
  fields : fieldMask a = mask
  access : memReadOnly a = readOnly

/-- A word address of an engine's memory (10_state.md R70 to R74). -/
theorem memoryWord_of_readOnly {a : Nat} (h : ReadOnlyAddress a) (hge : 0x1000 ≤ a) :
    MemoryWord a 0xFFFF#32 true := by
  obtain ⟨r, hr, hin⟩ := inRegion_of_readOnlyMemory h hge
  obtain ⟨ha, -⟩ := h
  have hreg := regionOf_eq hin
  simp only [List.mem_cons, List.not_mem_nil, or_false] at hr
  refine ⟨ha, targetOf_of_inRegion hin ?_, ?_, ?_⟩ <;>
    rcases hr with rfl | rfl | rfl | rfl | rfl <;> simp [fieldMask, memReadOnly, hreg]

end Sys2Proof.Proofs

/-! SUPPORT. The accesses that the bus refuses (O59; 20_memory.md R96 to R99): they set their flags and do
nothing else. -/

namespace Sys2Proof.Proofs

open Sys2Proof Sys2Proof.Machine Sys2Proof.Laws Sys2Proof.Claims

/-! ### Refusal -/

section Refusal

variable {s : State} {a : Nat}

theorem readFault_of_refused (h : a % 4 ≠ 0 ∨ ReservedAddress a) : readFault a = true := by
  rcases h with h | h
  · simp [readFault, misaligned, h]
  · simp [readFault, targetOf_of_reservedAddress h]

theorem writeFault_of_refused (h : a % 4 ≠ 0 ∨ ReservedAddress a) : writeFault a = true := by
  rcases h with h | h
  · simp [writeFault, misaligned, h]
  · simp [writeFault, targetOf_of_reservedAddress h]

/-- Where R380 admits no read, a read is refused exactly while a command is pending. -/
theorem readBusy_eq_pending (h : a % 4 ≠ 0 ∨ readWhileBusy (targetOf a) = false) : s.readBusy a = s.pending := by
  rcases h with h | h <;> simp [State.readBusy, misaligned, h]

/-- Where R380 admits no write, a write is refused exactly while a command is pending. -/
theorem writeBusy_eq_pending (h : a % 4 ≠ 0 ∨ writeWhileBusy (targetOf a) = false) : s.writeBusy a = s.pending := by
  rcases h with h | h <;> simp [State.writeBusy, misaligned, h]

theorem busRead_of_readFault (h : readFault a = true) :
    s.busRead a = { flagged s true (s.readBusy a) with lastRead := some 0#32 } := by
  unfold State.busRead
  rw [if_pos (by simp [h]), h]
  rfl

theorem busWrite_of_writeFault (h : writeFault a = true) (v : Word) :
    s.busWrite a v = flagged s true (s.writeBusy a) := by
  unfold State.busWrite
  rw [if_pos (by simp [h]), h]
  rfl

theorem busRead_refused (h : a % 4 ≠ 0 ∨ ReservedAddress a) :
    s.busRead a = { flagged s true s.pending with lastRead := some 0#32 } := by
  have hbusy : readWhileBusy .reserved = false := rfl
  rw [busRead_of_readFault (readFault_of_refused h),
    readBusy_eq_pending (h.imp_right fun hr => targetOf_of_reservedAddress hr ▸ hbusy)]

theorem busWrite_refused (h : a % 4 ≠ 0 ∨ ReservedAddress a) (v : Word) :
    s.busWrite a v = flagged s true s.pending := by
  have hbusy : writeWhileBusy .reserved = false := rfl
  rw [busWrite_of_writeFault (writeFault_of_refused h),
    writeBusy_eq_pending (h.imp_right fun hr => targetOf_of_reservedAddress hr ▸ hbusy)]

/-- STATUS and CTRL, the registers R380 lets the host write while busy, are not read-only (R98). -/
theorem writeWhileBusy_of_readOnly {r : Reg} (h : r.readOnly = true) : writeWhileBusy (.reg r) = false := by
  cases r with
  | status | ctrl => exact absurd h (by decide)
  | _ => rfl

/-- A read-only location refuses writes, busy or not (R98, R380). -/
theorem writeFault_of_readOnlyAddress (h : ReadOnlyAddress a) :
    writeFault a = true ∧ writeWhileBusy (targetOf a) = false := by
  by_cases hlt : a < 0x1000
  · obtain ⟨r, ht, hro⟩ := targetOf_of_readOnlyRegister h hlt
    exact ⟨by simp [writeFault, ht, hro], by rw [ht, writeWhileBusy_of_readOnly hro]⟩
  · obtain ⟨-, ht, -, hro⟩ := memoryWord_of_readOnly h (by omega)
    exact ⟨by simp [writeFault, ht, hro], by rw [ht]; rfl⟩

theorem busWrite_readOnly (h : ReadOnlyAddress a) (v : Word) : s.busWrite a v = flagged s true s.pending := by
  obtain ⟨hf, hb⟩ := writeFault_of_readOnlyAddress h
  rw [busWrite_of_writeFault hf, writeBusy_eq_pending (.inr hb)]

end Refusal

/-! ### Accesses that nothing refuses -/

section Admitted

variable {s : State} {a : Nat}

theorem busRead_admitted (hf : readFault a = false) (hb : s.readBusy a = false) :
    s.busRead a = { s with lastRead := some (s.busValue a) } :=
  if_neg (by simp [hf, hb])

/-- A read of a register while idle (R93). -/
theorem readsAs_of_reg (hp : s.pending = false) {r : Reg} {v : Word} (ht : targetOf a = .reg r) (ha : a % 4 = 0)
    (hv : s.readReg r = v) : ReadsAs s a v := by
  subst hv
  rw [ReadsAs, busRead_admitted (by simp [readFault, misaligned, ha, ht]) (by simp [State.readBusy, hp]),
    busValue_of_target ht]

/-- A write to a register that takes one, while idle (R94). -/
theorem busWrite_of_reg (hp : s.pending = false) {r : Reg} (ht : targetOf a = .reg r) (ha : a % 4 = 0)
    (hr : r.readOnly = false) (v : Word) : s.busWrite a v = s.writeReg r v := by
  unfold State.busWrite
  rw [if_neg (by simp [writeFault, State.writeBusy, misaligned, ha, ht, hr, hp]), ht]

/-- The write-1-to-clear of STATUS is admitted while busy too (R35, R380). -/
theorem busWrite_status (s : State) (v : Word) : s.busWrite 0x008 v = s.writeStatus v := by
  have ht : targetOf 0x008 = .reg .status := rfl
  unfold State.busWrite
  rw [if_neg (by simp [writeFault, State.writeBusy, writeWhileBusy, misaligned, ht, Reg.readOnly]), ht]
  rfl

end Admitted

/-- Settles O59, by the targets of the refused addresses. -/
theorem refusedAccesses : Obligations.RefusedAccesses := by
  intro s
  refine ⟨fun a h => ⟨busRead_refused h, busWrite_refused h⟩, fun a v h => busWrite_readOnly h v, fun haerr v => ?_,
    fun hp => readsAs_of_reg hp (r := .cmd) rfl rfl rfl⟩
  rw [busWrite_status]
  simp [haerr]

end Sys2Proof.Proofs

/-! SUPPORT. What an idle host write stores (20_memory.md R94): the registers that take it, and the memories. -/

namespace Sys2Proof.Proofs

open Sys2Proof Sys2Proof.Machine Sys2Proof.Laws Sys2Proof.Claims

/-! ### Registers (10_state.md R32) -/

/-- The field bits of a register that holds what the host writes; CTRL, STATUS and CMD are apart. -/
def storedMask : Reg → Option Word
  | .opa | .opb | .nChars | .bsLen | .maxBits | .sizeCount | .padPat | .fillPat => some 0xFFFFFFFF#32
  | .modeCfg => some modeCfgMask
  | .padCfg => some padCfgMask
  | .mode m r => if m < 8 then some r.mask else none
  | .id | .ctrl | .status | .cmd | .res | .errInfo | .valid | .gfPoly | .gfM | .rsE | .rsR0 => none
  | .selSize | .selW | .dataCw | .ecCw | .stuffLen | .stuffIns => none
  | .hwcfg _ => none

theorem storedMask_mode {m : Nat} {r : ModeReg} {mask : Word} (h : storedMask (.mode m r) = some mask) :
    m < 8 ∧ r.mask = mask := by
  by_cases hm : m < 8
  · exact ⟨hm, by simpa [storedMask, hm] using h⟩
  · simp [storedMask, hm] at h

theorem readOnly_of_storedMask {r : Reg} {mask : Word} (h : storedMask r = some mask) : r.readOnly = false := by
  cases r <;> first | rfl | cases h

/-- Word j of a MODECFG block takes the fields of its register (R56 to R61). -/
theorem target_of_modeWord {off j : Nat} {mask : Word} (hoff : 0x100 ≤ off ∧ off < 0x200 ∧ off % 4 = 0)
    (hj : off / 4 % 8 = j) (hlt : j < 7) (hmask : (modeRegOf j).map ModeReg.mask = some mask) :
    ∃ r, targetOf off = .reg r ∧ off % 4 = 0 ∧ storedMask r = some mask := by
  obtain ⟨hlo, hhi, ha⟩ := hoff
  have hm : (off - 0x100) / 0x20 < 8 := by omega
  have hsplit : 0x100 + 0x20 * ((off - 0x100) / 0x20) + 4 * j = off := by omega
  obtain ⟨r, hr, ht⟩ := targetOf_modeReg hm hlt
  rw [hr] at hmask
  exact ⟨_, hsplit ▸ ht, ha, by simpa [storedMask, hm] using hmask⟩

/-- Every offset that the map has a host write store at is one of these registers (R31, R56). -/
theorem target_of_storedRegister {off : Nat} {mask : Word} (h : storedRegister off = some mask) :
    ∃ r, targetOf off = .reg r ∧ off % 4 = 0 ∧ storedMask r = some mask := by
  unfold storedRegister at h
  obtain ⟨hoff, ⟨⟩⟩ | ⟨-, h⟩ := ite_eq_iff.1 h
  · rcases hoff with rfl | rfl | rfl | rfl | rfl | rfl | rfl | rfl <;> exact ⟨_, rfl, rfl, rfl⟩
  obtain ⟨rfl, ⟨⟩⟩ | ⟨-, h⟩ := ite_eq_iff.1 h
  · exact ⟨_, rfl, rfl, rfl⟩
  obtain ⟨rfl, ⟨⟩⟩ | ⟨-, h⟩ := ite_eq_iff.1 h
  · exact ⟨_, rfl, rfl, rfl⟩
  obtain ⟨hoff, h⟩ | ⟨-, ⟨⟩⟩ := ite_eq_iff.1 h
  split at h
  case h_8 => cases h
  all_goals
    next hj => exact target_of_modeWord hoff hj (by decide) h

/-! ### The blocks of MODECFG (R56) -/

theorem mc_eq_getElem (s : State) {m : Nat} (hm : m < 8) : s.mc m = s.modecfg[m] := dif_pos hm

theorem mc_setBlock_same (s : State) (b : ModeRegs) {m : Nat} (hm : m < 8) :
    State.mc { s with modecfg := s.modecfg.setIfInBounds m b } m = b := by
  simp [mc_eq_getElem _ hm]

theorem mc_setBlock_ne (s : State) (b : ModeRegs) {m k : Nat} (h : m ≠ k) :
    State.mc { s with modecfg := s.modecfg.setIfInBounds m b } k = s.mc k := by
  unfold State.mc
  split
  next hk => exact Vector.getElem_setIfInBounds_ne hk h
  next => rfl

theorem get_set_same (b : ModeRegs) (r : ModeReg) (v : Word) : (b.set r v).get r = v &&& r.mask := by
  cases r <;> rfl

theorem get_set_ne (b : ModeRegs) {r q : ModeReg} (v : Word) (h : q ≠ r) : (b.set r v).get q = b.get q := by
  cases r <;> cases q <;> first | rfl | exact absurd rfl h

/-! ### What a register reads as after a write -/

section WriteReg

variable (s : State) {r q : Reg} {mask : Word} (v : Word)

theorem readReg_writeReg_same (h : storedMask r = some mask) : (s.writeReg r v).readReg r = v &&& mask := by
  have hall : v &&& 0xFFFFFFFF#32 = v := BitVec.and_allOnes
  cases r with
  | mode m x =>
    obtain ⟨hm, rfl⟩ := storedMask_mode h
    simp only [State.writeReg, State.readReg, mc_setBlock_same s _ hm, get_set_same]
  | modeCfg | padCfg => cases h; rfl
  | opa | opb | nChars | bsLen | maxBits | sizeCount | padPat | fillPat => cases h; exact hall.symm
  | _ => cases h

theorem readReg_writeReg_ne (h : storedMask r = some mask) (hq : q ≠ r) :
    (s.writeReg r v).readReg q = s.readReg q := by
  cases r with
  | mode m x =>
    obtain ⟨hm, rfl⟩ := storedMask_mode h
    cases q with
    | mode k y =>
      simp only [State.writeReg, State.readReg]
      by_cases hk : m = k
      · subst hk
        have hy : y ≠ x := fun e => hq (e ▸ rfl)
        rw [mc_setBlock_same s _ hm, get_set_ne _ _ hy]
      · rw [mc_setBlock_ne s _ hk]
    | _ => rfl
  | opa | opb | nChars | modeCfg | bsLen | maxBits | sizeCount | padCfg | padPat | fillPat =>
    cases q <;> first | rfl | exact absurd rfl hq
  | _ => cases h

theorem writeReg_mem (h : storedMask r = some mask) : (s.writeReg r v).mem = s.mem := by
  cases r <;> first | rfl | cases h

end WriteReg

/-! ### Memories (R91) -/

/-- The regions of the memories a host may write (R91). -/
def hostRegions : List Region := [.trans, .cls, .size, .vtab, .char, .mode, .bs, .cw]

theorem memoryWord_of_inRegion {a : Nat} {r : Region} {mask : Word} (hr : r ∈ hostRegions) (ha : a % 4 = 0)
    (hin : InRegion r a) (hf : fieldMask a = mask) : MemoryWord a mask false := by
  have hmem : r ≠ .regs ∧ r ≠ .reserved := by
    constructor <;> rintro rfl <;> exact absurd hr (by decide)
  refine ⟨ha, targetOf_of_inRegion hin hmem, hf, ?_⟩
  unfold memReadOnly
  rw [regionOf_eq hin]
  cases r with
  | rem | gen | syn | alog | log => exact absurd hr (by decide)
  | _ => rfl

/-- The field bits of a region's entries (10_state.md R62 to R74); those of T.SIZE depend on the word too. -/
def entryFields : Region → Word
  | .trans => 0xFFFF1F73#32
  | .cls => 0x000000FF#32
  | .char | .bs => 0xFFFFFFFF#32
  | .mode => 0x0000000F#32
  | .vtab | .cw | .rem | .gen | .syn | .alog | .log => 0x0000FFFF#32
  | .size | .regs | .reserved => 0#32

theorem fieldMask_eq {a : Nat} {r : Region} (h : InRegion r a) (hr : r ≠ .size) : fieldMask a = entryFields r := by
  unfold fieldMask
  rw [regionOf_eq h]
  cases r with
  | size => exact absurd rfl hr
  | _ => rfl

/-- The words of a SIZE entry: W, five words of 16 bits, and two without a field (R65; log 10). -/
theorem fieldMask_size {a : Nat} (h : InRegion .size a) :
    fieldMask a = if a / 4 % 8 = 0 then 0x0000001F#32 else if a / 4 % 8 ≤ 5 then 0x0000FFFF#32 else 0#32 := by
  have hj : (a - sizeBase) / 4 % 8 = a / 4 % 8 := by
    obtain ⟨hlo, hhi⟩ := h
    unfold sizeBase
    omega
  have hlt : a / 4 % 8 < 8 := Nat.mod_lt _ (by decide)
  unfold fieldMask
  rw [regionOf_eq h, hj]
  generalize a / 4 % 8 = j at hlt
  interval_cases j <;> rfl

/-- A region where every entry has the same fields. -/
theorem memoryWord_of_plain {a : Nat} {mask : Word} (r : Region) (hr : r ∈ hostRegions ∧ r ≠ .size) (ha : a % 4 = 0)
    (hin : InRegion r a) (hm : some (entryFields r) = some mask) : MemoryWord a mask false := by
  obtain ⟨hhost, hsize⟩ := hr
  exact memoryWord_of_inRegion hhost ha hin ((fieldMask_eq hin hsize).trans (Option.some.inj hm))

/-- Every word that the map has a host write store at is of a memory that takes it (R91, R62 to R69). -/
theorem memoryWord_of_stored {a : Nat} {mask : Word} (h : storedMemory a = some mask) : MemoryWord a mask false := by
  unfold storedMemory at h
  obtain ⟨-, ⟨⟩⟩ | ⟨ha, h⟩ := ite_eq_iff.1 h
  replace ha : a % 4 = 0 := not_not.1 ha
  obtain ⟨hin, hm⟩ | ⟨-, h⟩ := ite_eq_iff.1 h
  · exact memoryWord_of_plain .trans (by decide) ha hin hm
  obtain ⟨⟨hlo, hhi⟩, hm⟩ | ⟨-, h⟩ := ite_eq_iff.1 h
  · exact memoryWord_of_plain .cls (by decide) ha ⟨hlo, by omega⟩ hm
  obtain ⟨hin, h⟩ | ⟨-, h⟩ := ite_eq_iff.1 h
  · refine memoryWord_of_inRegion (r := .size) (by decide) ha hin ((fieldMask_size hin).trans ?_)
    obtain ⟨h0, hm⟩ | ⟨h0, h⟩ := ite_eq_iff.1 h
    · exact (if_pos h0).trans (Option.some.inj hm)
    · obtain ⟨h5, hm⟩ | ⟨-, ⟨⟩⟩ := ite_eq_iff.1 h
      exact (if_neg h0).trans ((if_pos h5).trans (Option.some.inj hm))
  obtain ⟨⟨hlo, hhi⟩, h⟩ | ⟨-, h⟩ := ite_eq_iff.1 h
  · obtain ⟨hused, hm⟩ | ⟨-, ⟨⟩⟩ := ite_eq_iff.1 h
    exact memoryWord_of_plain .vtab (by decide) ha ⟨hlo, hhi, by omega⟩ hm
  obtain ⟨hin, hm⟩ | ⟨-, h⟩ := ite_eq_iff.1 h
  · exact memoryWord_of_plain .char (by decide) ha hin hm
  obtain ⟨hin, hm⟩ | ⟨-, h⟩ := ite_eq_iff.1 h
  · exact memoryWord_of_plain .mode (by decide) ha hin hm
  obtain ⟨hin, hm⟩ | ⟨-, h⟩ := ite_eq_iff.1 h
  · exact memoryWord_of_plain .bs (by decide) ha hin hm
  obtain ⟨hin, hm⟩ | ⟨-, ⟨⟩⟩ := ite_eq_iff.1 h
  exact memoryWord_of_plain .cw (by decide) ha hin hm

theorem busValue_of_mem {s : State} {a : Nat} (h : targetOf a = .mem) : s.busValue a = s.load a := by
  simp [State.busValue, h]

/-! ### Idle accesses -/

section Idle

variable {s : State} (hp : s.pending = false)
include hp

/-- A write to CTRL without SRST stores its held bits (R41). -/
theorem busWrite_ctrl {v : Word} (hv : v.getLsbD 1 = false) :
    s.busWrite 0x004 v = { s with ctrl := v &&& 0x0000000D#32 } := by
  rw [busWrite_of_reg hp (r := .ctrl) rfl rfl rfl]
  exact (if_neg (Bool.not_eq_true _ ▸ hv)).trans (if_neg (Bool.not_eq_true _ ▸ hp))

/-- A stored register takes its field bits, and no other register and no byte changes (R32, R94). -/
theorem storedRegister_access {off : Nat} {mask : Word} (h : storedRegister off = some mask) (v : Word) :
    (s.busWrite off v).busValue off = v &&& mask
      ∧ (s.busWrite off v).mem = s.mem
      ∧ (∀ o, o < 0x200 → o ≠ off → targetOf o ≠ .reserved → o % 4 = 0 →
          (s.busWrite off v).busValue o = s.busValue o)
      ∧ s.busRead off = { s with lastRead := some (s.busValue off) } := by
  obtain ⟨r, ht, ha, hmask⟩ := target_of_storedRegister h
  rw [busWrite_of_reg hp ht ha (readOnly_of_storedMask hmask)]
  refine ⟨?_, writeReg_mem s v hmask, fun o ho hne hres hoa => ?_, ?_⟩
  · rw [busValue_of_target ht, readReg_writeReg_same s v hmask]
  · obtain ⟨q, hq⟩ := exists_reg_of_lt ho hres
    have hqr : q ≠ r := fun e => hne (by rw [eq_regOffset hq hoa, eq_regOffset ht ha, e])
    rw [busValue_of_target hq, busValue_of_target hq, readReg_writeReg_ne s v hmask hqr]
  · exact readsAs_of_reg hp ht ha (busValue_of_target ht).symm

/-- A write to a memory word that takes it stores it (R94). -/
theorem MemoryWord.write {a : Nat} {mask : Word} (h : MemoryWord a mask false) (v : Word) :
    s.busWrite a v = s.storeWords a [v] := by
  obtain ⟨ha, ht, -, hro⟩ := h
  unfold State.busWrite
  rw [if_neg (by simp [writeFault, State.writeBusy, misaligned, ha, ht, hro, hp]), ht]

/-- A read of a memory word while idle (R93). -/
theorem MemoryWord.read {a : Nat} {mask : Word} {ro : Bool} (h : MemoryWord a mask ro) :
    s.busRead a = { s with lastRead := some (s.busValue a) } := by
  obtain ⟨ha, ht, -, -⟩ := h
  exact busRead_admitted (by simp [readFault, misaligned, ha, ht]) (by simp [State.readBusy, hp])

/-- A memory word takes its field bits, and no register and no other byte changes (R94). -/
theorem storedMemory_access {a : Nat} {mask : Word} (h : storedMemory a = some mask) (v : Word) :
    (∃ m, s.busWrite a v = { s with mem := m })
      ∧ (s.busWrite a v).busValue a = v &&& mask
      ∧ SameOutside s (s.busWrite a v) a (a + 4)
      ∧ s.busRead a = { s with lastRead := some (s.busValue a) } := by
  have hw := memoryWord_of_stored h
  rw [hw.write hp]
  refine ⟨⟨_, rfl⟩, ?_, fun b hb => loadByte_storeWords_outside s a [v] b hb, hw.read hp⟩
  rw [busValue_of_mem hw.target, ← hw.fields]
  exact load_storeWords_inside s a [v] 0 Nat.zero_lt_one

end Idle

end Sys2Proof.Proofs

/-! SUPPORT. What an idle host read returns (20_memory.md R93): every register and every memory entry; and so O60. -/

namespace Sys2Proof.Proofs

open Sys2Proof Sys2Proof.Machine Sys2Proof.Laws Sys2Proof.Claims

/-! ### The words STATUS and VALID (10_state.md R35, R44) -/

theorem getLsbD_bitAt (b : Bool) {i : Nat} (hi : i < 32) (j : Nat) :
    (bitAt b i).getLsbD j = (b && decide (i = j)) := by
  have hone : (1#32 <<< i).getLsbD j = decide (i = j) := by
    rw [← BitVec.twoPow_eq, BitVec.getLsbD_twoPow]
    simp [hi]
  cases b
  · simp [bitAt]
  · simpa [bitAt] using hone

/-- A byte placed at bit n of a word. -/
theorem getLsbD_placedByte (b : BitVec 8) (n j : Nat) :
    (b.zeroExtend 32 <<< n).getLsbD j = (decide (j < 32) && decide (n ≤ j) && b.getLsbD (j - n)) := by
  simp only [BitVec.getLsbD_shiftLeft, BitVec.truncate_eq_setWidth, BitVec.getLsbD_setWidth]
  grind

/-- Every bit of STATUS at the places of R35. -/
theorem getLsbD_statusWord (s : State) (j : Nat) :
    s.statusWord.getLsbD j =
      ((s.pending && decide (0 = j)) || (s.status.done && decide (1 = j)) || (s.status.err && decide (2 = j))
        || (s.status.ovr && decide (3 = j)) || (s.status.aerr && decide (4 = j)) || (s.status.z && decide (5 = j))
        || (decide (j < 32) && decide (8 ≤ j) && s.status.errCode.getLsbD (j - 8))
        || (decide (j < 32) && decide (16 ≤ j) && s.status.lastOp.getLsbD (j - 16))) := by
  simp (disch := decide) only [State.statusWord, BitVec.getLsbD_or, getLsbD_bitAt, getLsbD_placedByte]

theorem statusWord_bits (s : State) : StatusWord s s.statusWord := by
  have hbit := getLsbD_statusWord s
  refine ⟨?_, ?_, ?_, ?_, ?_, ?_, ?free6, ?errCode, ?lastOp, ?free24⟩
  case free6 | errCode | lastOp | free24 =>
    refine BitVec.eq_of_getLsbD_eq fun i hi => ?_
    simp only [BitVec.getLsbD_extractLsb', hbit]
    interval_cases i <;> simp
  all_goals
    rw [hbit]
    simp

/-- Every bit of VALID at the places of R44. -/
theorem getLsbD_validWord (s : State) (j : Nat) :
    s.validWord.getLsbD j =
      ((s.valid.gf && decide (0 = j)) || (s.valid.rs && decide (1 = j)) || (s.valid.rem && decide (2 = j))
        || (s.valid.syn && decide (3 = j)) || (s.valid.sel && decide (4 = j))) := by
  simp (disch := decide) only [State.validWord, BitVec.getLsbD_or, getLsbD_bitAt]

theorem validWord_bits (s : State) : ValidWord s s.validWord := by
  have hbit := getLsbD_validWord s
  refine ⟨?_, ?_, ?_, ?_, ?_, ?free5⟩
  case free5 =>
    refine BitVec.eq_of_getLsbD_eq fun i hi => ?_
    have hne : ∀ k, k < 5 → decide (k = 5 + i) = false := fun k hk => decide_eq_false (by omega)
    simp [hbit, hne]
  all_goals
    rw [hbit]
    simp

/-! ### Fields of memory entries -/

/-- A word with no field above its low byte is that byte (R63). -/
theorem setWidth_lowByte (w : Word) : ((w &&& 0xFF#32).extractLsb' 0 8).zeroExtend 32 = w &&& 0xFF#32 := by
  refine BitVec.eq_of_getLsbD_eq fun i hi => ?_
  have hmask : (0xFF#32 : Word).getLsbD i = decide (i < 8) := by
    rw [show (0xFF#32 : Word) = (BitVec.allOnes 8).setWidth 32 from rfl, BitVec.getLsbD_setWidth,
      BitVec.getLsbD_allOnes]
    simp [hi]
  simp only [BitVec.truncate_eq_setWidth, BitVec.getLsbD_setWidth, BitVec.getLsbD_extractLsb', BitVec.getLsbD_and,
    Nat.zero_add, hmask, hi, decide_true, Bool.true_and]
  by_cases h8 : i < 8 <;> simp [h8]

/-- Bit 31 - i of word j of T.BS is bit 32j + i of the stream (R68, R102). -/
theorem streamBit_eq_getLsbD (s : State) (j : Nat) {i : Nat} (hi : i < 32) :
    s.streamBit (32 * j + i) = (s.load (0x18000 + 4 * j)).getLsbD (31 - i) := by
  have hj : (32 * j + i) / 32 = j := by omega
  have hm : (32 * j + i) % 32 = i := by omega
  rw [State.streamBit, hj, hm, BitVec.getMsbD_eq_getLsbD, show bsBase = 0x18000 from rfl]
  simp [hi]

/-- KIND as R62 codes it. -/
theorem transKindOf_iff (b : BitVec 2) :
    (transKindOf b.toNat = .latch ↔ b = 1#2) ∧ (transKindOf b.toNat = .shift ↔ b = 2#2)
      ∧ (transKindOf b.toNat = .via ↔ b = 3#2) := by
  revert b
  decide

/-! ### Registers -/

section Idle

variable {s : State} (hp : s.pending = false)
include hp

theorem registerTable_reads : ∀ p ∈ registerTable s, ReadsAs s p.1 p.2 := by
  simp only [registerTable, constantTable, List.cons_append, List.nil_append, List.forall_mem_cons,
    List.not_mem_nil, IsEmpty.forall_iff, implies_true, and_true]
  and_intros <;> exact readsAs_of_reg hp rfl rfl rfl

theorem modeTable_reads (m : Fin 8) : ∀ p ∈ modeTable s.modecfg[m], ReadsAs s (0x100 + 0x20 * m.val + p.1) p.2 := by
  have hread : ∀ j r, modeRegOf j = some r → j < 7 →
      ReadsAs s (0x100 + 0x20 * m.val + 4 * j) (s.modecfg[m].get r) := by
    intro j r hr hj
    obtain ⟨q, hq, ht⟩ := targetOf_modeReg m.isLt hj
    cases hr.symm.trans hq
    exact readsAs_of_reg hp ht (by omega) (congrArg (ModeRegs.get · r) (mc_eq_getElem s m.isLt))
  simp only [modeTable, List.forall_mem_cons, List.not_mem_nil, IsEmpty.forall_iff, implies_true, and_true]
  exact ⟨hread 0 _ rfl (by decide), hread 1 _ rfl (by decide), hread 2 _ rfl (by decide), hread 3 _ rfl (by decide),
    hread 4 _ rfl (by decide), hread 5 _ rfl (by decide), hread 6 _ rfl (by decide)⟩

theorem registerReads_of_idle : RegisterReads s :=
  ⟨registerTable_reads hp, ⟨_, readsAs_of_reg hp (r := .status) rfl rfl rfl, statusWord_bits s⟩,
    ⟨_, readsAs_of_reg hp (r := .valid) rfl rfl rfl, validWord_bits s⟩, modeTable_reads hp⟩

/-! ### Memories -/

/-- A read of a word of a memory (R93). -/
theorem readsAs_load {a : Nat} (r : Region) (hr : r ≠ .regs ∧ r ≠ .reserved) (hin : InRegion r a) (ha : a % 4 = 0) :
    ReadsAs s a (s.load a) := by
  have ht := targetOf_of_inRegion hin hr
  rw [← busValue_of_mem ht]
  exact busRead_admitted (by simp [readFault, misaligned, ha, ht]) (by simp [State.readBusy, hp])

/-- An entry reads as the number by which the commands name it (R62 to R74). -/
theorem readsAs_entry {base k : Nat} (r : Region) (hr : r ≠ .regs ∧ r ≠ .reserved) (hin : InRegion r (base + 4 * k))
    (hb : base % 4 = 0) : ReadsAs s (base + 4 * k) (BitVec.ofNat 32 (s.entry base k)) := by
  have hv : BitVec.ofNat 32 (s.entry base k) = s.load (base + 4 * k) := by simp [State.entry]
  rw [hv]
  exact readsAs_load hp r hr hin (by omega)

/-- A read of a memory word gives the field bits of its bytes. -/
theorem readsAs_wordBytes {a : Nat} {mask : Word} {ro : Bool} (h : MemoryWord a mask ro) :
    ReadsAs s a (wordBytes s a &&& mask) := by
  rw [ReadsAs, h.read hp, busValue_of_mem h.target, ← h.fields]
  rfl

/-- A character reads as its code in 32 bits (R66). -/
theorem readsAs_char {k : Nat} (hk : k < 4096) : ReadsAs s (0x10000 + 4 * k) (BitVec.ofInt 32 (s.char k)) := by
  have hv : BitVec.ofInt 32 (s.char k) = s.load (0x10000 + 4 * k) := BitVec.ofInt_toInt
  rw [hv]
  exact readsAs_load hp .char (by decide) ⟨by omega, by omega⟩ (by omega)

/-- A class mask is the low byte of its word, and the word has no other field (R63). -/
theorem readsAs_class {x : Nat} (hx : x < 273) : ReadsAs s (0x02000 + 4 * x) ((s.tClass x).zeroExtend 32) := by
  have hin : InRegion .cls (0x02000 + 4 * x) := ⟨by omega, by omega⟩
  have hv : (s.tClass x).zeroExtend 32 = s.load (0x02000 + 4 * x) := by
    show ((s.rawWord _ &&& fieldMask _).extractLsb' 0 8).zeroExtend 32 = s.rawWord _ &&& fieldMask _
    rw [show clsBase = 0x02000 from rfl, fieldMask_eq hin nofun]
    exact setWidth_lowByte _
  rw [hv]
  exact readsAs_load hp .cls (by decide) hin (by omega)

theorem memoryReads_of_idle : MemoryReads s := by
  refine ⟨fun a mask h => readsAs_wordBytes hp (memoryWord_of_stored h),
    fun a h hge => readsAs_wordBytes hp (memoryWord_of_readOnly h hge),
    fun k hk => ⟨readsAs_char hp hk, ?mode, ?cw, ?rem, ?syn⟩, fun k hk => ?gen, fun k hk => ⟨?alog, ?log⟩,
    fun x hx => ⟨readsAs_class hp hx, fun m hm => ?vtab⟩, fun x hx => ⟨?width, ?total, fun ecc he => ?cap⟩,
    fun j hj => ⟨_, readsAs_load hp .bs (by decide) ⟨by omega, by omega⟩ (by omega),
      fun i hi => streamBit_eq_getLsbD s j hi⟩,
    fun a b ha hb => ⟨_, readsAs_load hp .trans (by decide) ⟨by omega, by omega⟩ (by omega), ?_⟩⟩
  case mode => exact readsAs_entry hp .mode (by decide) ⟨by omega, by omega⟩ rfl
  case cw => exact readsAs_entry hp .cw (by decide) ⟨by omega, by omega⟩ rfl
  case rem => exact readsAs_entry hp .rem (by decide) ⟨by omega, by omega⟩ rfl
  case syn => exact readsAs_entry hp .syn (by decide) ⟨by omega, by omega⟩ rfl
  case gen => exact readsAs_entry hp .gen (by decide) ⟨by omega, by omega⟩ rfl
  case alog => exact readsAs_entry hp .alog (by decide) ⟨by omega, by omega⟩ rfl
  case log => exact readsAs_entry hp .log (by decide) ⟨by omega, by omega⟩ rfl
  case vtab => exact readsAs_entry hp .vtab (by decide) ⟨by omega, by omega, by omega⟩ (by omega)
  case width =>
    exact readsAs_entry hp (base := 0x03000 + 0x20 * x) (k := 0) .size (by decide) ⟨by omega, by omega⟩ (by omega)
  case total =>
    exact readsAs_entry hp (base := 0x03000 + 0x20 * x) (k := 1) .size (by decide) ⟨by omega, by omega⟩ (by omega)
  case cap =>
    have haddr : 0x03000 + 0x20 * x + 8 + 4 * ecc = 0x03000 + 0x20 * x + 4 * (2 + ecc) := by omega
    rw [haddr]
    exact readsAs_entry hp .size (by decide) ⟨by omega, by omega⟩ (by omega)
  obtain ⟨hlatch, hshift, hvia⟩ := transKindOf_iff ((s.load (0x01000 + 4 * (8 * a + b))).extractLsb' 0 2)
  exact ⟨hlatch, hshift, hvia, rfl, rfl, rfl⟩

end Idle

/-- Settles O60, by the registers and memories that take a write, and the reads of each. -/
theorem storedLocations : Obligations.StoredLocations := fun s hp =>
  ⟨fun _ _ v h => storedRegister_access hp h v, fun _ _ v h => storedMemory_access hp h v, busWrite_status s,
    fun _ hv => busWrite_ctrl hp hv, registerReads_of_idle hp, memoryReads_of_idle hp⟩

end Sys2Proof.Proofs

/-! SUPPORT. The encoding of commands (30_encoding.md): bit fields of a word as masks and as numbers, the opcode map
read in both directions, and so the two halves of the correspondence, `encode_of_decode` and `decode_encode` (O2, O3).
From them the example words (O1) and the completion of an illegal word (O5). -/

namespace Sys2Proof.Proofs

open Sys2Proof Sys2Proof.Machine Sys2Proof.Laws Sys2Proof.Claims

/-! ### Bit fields (00_scope.md R12, 30_encoding.md R126) -/

/-- The ones at the places of `v[lo+len-1 : lo]`. -/
def fieldOnes (lo len : Nat) : Word := (BitVec.allOnes len).setWidth 32 <<< lo

theorem field_eq_div_mod (v : Word) (lo len : Nat) : v.field lo len = v.toNat / 2 ^ lo % 2 ^ len := by
  simp [Word.field, Nat.shiftRight_eq_div_pow]

theorem field_lt (v : Word) (lo len : Nat) : v.field lo len < 2 ^ len := (v.extractLsb' lo len).isLt

theorem field_one_cases (v : Word) (lo : Nat) : v.field lo 1 = 0 ∨ v.field lo 1 = 1 := by
  have hlt := field_lt v lo 1
  omega

theorem getLsbD_eq_decide_field (v : Word) (lo : Nat) : v.getLsbD lo = decide (v.field lo 1 = 1) := by
  rw [field_eq_div_mod, pow_one, ← Nat.testBit_eq_decide_div_mod_eq, BitVec.testBit_toNat]

/-- A field, put back at its place, is the word under the field's ones. -/
theorem ofNat_field_shiftLeft (v : Word) (lo len : Nat) :
    BitVec.ofNat 32 (v.field lo len) <<< lo = v &&& fieldOnes lo len := by
  refine BitVec.eq_of_getLsbD_eq fun i hi => ?_
  simp only [fieldOnes, Word.field, BitVec.getLsbD_shiftLeft, BitVec.getLsbD_ofNat, BitVec.getLsbD_and,
    BitVec.getLsbD_setWidth, BitVec.getLsbD_allOnes, BitVec.testBit_toNat, BitVec.getLsbD_extractLsb']
  by_cases hlo : lo ≤ i
  · rw [show lo + (i - lo) = i by omega]
    grind
  · simp [show i < lo by omega]

theorem ofNat_field (v : Word) (len : Nat) : BitVec.ofNat 32 (v.field 0 len) = v &&& fieldOnes 0 len := by
  rw [← ofNat_field_shiftLeft, BitVec.shiftLeft_zero]

theorem field_eq_zero_iff (v : Word) : v.field 0 24 = 0 ↔ v &&& 0x00FFFFFF#32 = 0#32 := by
  have hlt := field_lt v 0 24
  rw [show (0x00FFFFFF#32 : Word) = fieldOnes 0 24 by decide, ← ofNat_field, ← BitVec.toNat_inj, BitVec.toNat_ofNat,
    Nat.mod_eq_of_lt (by omega)]
  rfl

/-- Placing `a` above a `b` of `k` bits adds the two. -/
theorem toNat_shiftLeft_or {a b : Word} {k : Nat} (ha : a.toNat * 2 ^ k < 2 ^ 32) (hb : b.toNat < 2 ^ k) :
    (a <<< k ||| b).toNat = a.toNat * 2 ^ k + b.toNat := by
  rw [BitVec.toNat_or, BitVec.toNat_shiftLeft, Nat.shiftLeft_eq, Nat.mod_eq_of_lt ha, ← Nat.shiftLeft_eq,
    ← Nat.shiftLeft_add_eq_or_of_lt hb]

/-! ### The opcode map read forwards (R128) -/

theorem fieldBits_rsAppend (v : Word) : (Instr.rsAppend (ordOf v)).fieldBits = v &&& 1#32 := by
  have hbit : v &&& 1#32 = BitVec.ofNat 32 (v.field 0 1) := (ofNat_field v 1).symm
  rw [hbit, ordOf]
  rcases field_one_cases v 0 with h | h <;> rw [h] <;> rfl

theorem wf_select_iff {ecc minSize : Nat} {fixed : Bool} :
    (Instr.select ecc fixed minSize).wf = true ↔ ecc < 4 ∧ minSize < 32 := by
  simp [Instr.wf]

/-- The three fields of format S (R124) are the free bits of its word. -/
theorem fieldBits_select (v : Word) :
    (Instr.select (v.field 0 2) (v.getLsbD 8) (v.field 16 5)).fieldBits = v &&& 0x001F0103#32 := by
  have hfixed : (if v.getLsbD 8 then 1#32 else 0#32) = BitVec.ofNat 32 (v.field 8 1) := by
    rw [getLsbD_eq_decide_field]
    rcases field_one_cases v 8 with h | h <;> rw [h] <;> rfl
  have hones : (0x001F0103#32 : Word) = fieldOnes 16 5 ||| fieldOnes 8 1 ||| fieldOnes 0 2 := by decide
  rw [Instr.fieldBits, hfixed, ofNat_field_shiftLeft, ofNat_field_shiftLeft, ofNat_field, hones,
    BitVec.and_or_distrib_left, BitVec.and_or_distrib_left]

/-- What the map reads from a word: a command of that opcode and format, whose fields are the word's free bits and
fit their places. -/
theorem opcodeMap_inv {v : Word} {n : Nat} {f : Format} {i : Instr} (h : opcodeMap v n = some (f, i)) :
    i.opcode = n ∧ i.format = f ∧ i.fieldBits = v &&& ~~~f.mask ∧ i.wf = true := by
  have hn : (v &&& ~~~Format.n.mask) = 0#32 := BitVec.and_zero
  unfold opcodeMap at h
  split at h <;> cases h
  case h_13 => exact ⟨rfl, rfl, fieldBits_rsAppend v, rfl⟩
  case h_18 => exact ⟨rfl, rfl, ofNat_field v 6, decide_eq_true (field_lt v 0 6)⟩
  case h_20 =>
    exact ⟨rfl, rfl, fieldBits_select v,
      wf_select_iff.2 ⟨field_lt v 0 2, field_lt v 16 5⟩⟩
  case h_21 => exact ⟨rfl, rfl, ofNat_field v 5, decide_eq_true (field_lt v 0 5)⟩
  all_goals exact ⟨rfl, rfl, hn.symm, rfl⟩

/-- The reserved bits of an opcode are those of its format (R121 to R125, R128). -/
theorem reservedBits_eq (v : Word) (n : Nat) :
    reservedBits n = (opcodeMap v n).map fun p => p.1.mask &&& 0x00FFFFFF#32 := by
  have hn : Format.n.mask &&& 0x00FFFFFF#32 = 0x00FFFFFF#32 := by decide
  have ha : Format.a.mask &&& 0x00FFFFFF#32 = 0x00FFFFFE#32 := by decide
  have hw : Format.w.mask &&& 0x00FFFFFF#32 = 0x00FFFFC0#32 := by decide
  have hs : Format.s.mask &&& 0x00FFFFFF#32 = 0x00E0FEFC#32 := by decide
  have hp : Format.p.mask &&& 0x00FFFFFF#32 = 0x00FFFFE0#32 := by decide
  unfold reservedBits opcodeMap
  split <;> simp only [Option.map_some, Option.map_none, hn, ha, hw, hs, hp]

/-! ### Decoding, case by case (R130) -/

/-- A word decodes when its opcode is in the map and the reserved bits of the format are 0. -/
theorem decode_eq_ok_iff_opcodeMap {v : Word} {i : Instr} :
    decode v = .ok i ↔
      ∃ f, opcodeMap v (opcodeOf v) = some (f, i) ∧ v &&& (f.mask &&& 0x00FFFFFF#32) = 0#32 := by
  unfold decode
  cases hm : opcodeMap v (opcodeOf v) with
  | none => simp
  | some p =>
    obtain ⟨f, j⟩ := p
    simp only [← BitVec.and_assoc, ← field_eq_zero_iff]
    constructor
    · intro h
      split at h
      next hz => cases h; exact ⟨f, rfl, hz⟩
      next => cases h
    · rintro ⟨g, hg, hz⟩
      cases hg
      exact if_pos hz

/-- Legal words are the decoded ones. -/
theorem exists_decode_iff_not_illegal (v : Word) : (∃ i, decode v = .ok i) ↔ ¬ Illegal v := by
  have hop : opcodeOf v = v.toNat / 2 ^ 24 := by
    rw [opcodeOf, field_eq_div_mod, Nat.mod_eq_of_lt (by omega)]
  simp only [decode_eq_ok_iff_opcodeMap, Illegal, ← hop, reservedBits_eq v]
  cases opcodeMap v (opcodeOf v) with
  | none => simp
  | some p => simp [Prod.ext_iff, eq_comm]

/-! ### The word of a command (R120 to R125) -/

/-- A word whose reserved bits are 0 is its opcode above its free bits. -/
theorem opcode_or_free {v : Word} {f : Format} (h : v &&& (f.mask &&& 0x00FFFFFF#32) = 0#32) :
    BitVec.ofNat 32 (opcodeOf v) <<< 24 ||| (v &&& ~~~f.mask) = v := by
  have hones : (fieldOnes 24 8 ||| ~~~f.mask) ||| (f.mask &&& 0x00FFFFFF#32) = BitVec.allOnes 32 := by
    cases f <;> decide
  calc BitVec.ofNat 32 (opcodeOf v) <<< 24 ||| (v &&& ~~~f.mask)
      = v &&& (fieldOnes 24 8 ||| ~~~f.mask) := by
        rw [opcodeOf, ofNat_field_shiftLeft, BitVec.and_or_distrib_left]
    _ = v &&& ((fieldOnes 24 8 ||| ~~~f.mask) ||| (f.mask &&& 0x00FFFFFF#32)) := by
        rw [BitVec.and_or_distrib_left (z := f.mask &&& _), h, BitVec.or_zero]
    _ = v := by rw [hones, BitVec.and_allOnes]

theorem encode_of_decode {v : Word} {i : Instr} (h : decode v = .ok i) : encode i = v ∧ i.wf = true := by
  obtain ⟨f, hm, hz⟩ := decode_eq_ok_iff_opcodeMap.1 h
  obtain ⟨hop, -, hbits, hwf⟩ := opcodeMap_inv hm
  exact ⟨by rw [encode, hop, hbits, opcode_or_free hz], hwf⟩

theorem opcode_lt (i : Instr) : i.opcode < 256 := by
  cases i <;> simp [Instr.opcode]

/-- The fields of format S (R124), placed, are one number. -/
theorem toNat_fieldBits_select {ecc minSize : Nat} (fixed : Bool) (he : ecc < 4) (hm : minSize < 32) :
    (Instr.select ecc fixed minSize).fieldBits.toNat = 2 ^ 16 * minSize + (2 ^ 8 * fixed.toNat + ecc) := by
  have hecc : (BitVec.ofNat 32 ecc).toNat = ecc := Nat.mod_eq_of_lt (by omega)
  have hmin : (BitVec.ofNat 32 minSize).toNat = minSize := Nat.mod_eq_of_lt (by omega)
  have hfixed : (if fixed then 1#32 else 0#32).toNat = fixed.toNat := by cases fixed <;> rfl
  have hle := Bool.toNat_le fixed
  have hlow : ((if fixed then 1#32 else 0#32) <<< 8 ||| BitVec.ofNat 32 ecc).toNat = fixed.toNat * 2 ^ 8 + ecc := by
    rw [toNat_shiftLeft_or (by omega) (by omega), hfixed, hecc]
  rw [Instr.fieldBits, BitVec.or_assoc, toNat_shiftLeft_or (by omega) (by omega), hmin, hlow]
  omega

/-- A well-formed command's fields lie below OPCODE (R121 to R125). -/
theorem toNat_fieldBits_lt {i : Instr} (h : i.wf = true) : i.fieldBits.toNat < 2 ^ 24 := by
  cases i with
  | rsAppend ord => cases ord <;> decide
  | bsAppend width =>
    have hwidth : width < 64 := of_decide_eq_true h
    exact (Nat.mod_le _ _).trans_lt (by omega)
  | select ecc fixed minSize =>
    obtain ⟨hecc, hmin⟩ := wf_select_iff.1 h
    have hle := Bool.toNat_le fixed
    rw [toNat_fieldBits_select fixed hecc hmin]
    omega
  | split w =>
    have hw : w < 32 := of_decide_eq_true h
    exact (Nat.mod_le _ _).trans_lt (by omega)
  | _ => decide

theorem toNat_encode {i : Instr} (h : i.wf = true) :
    (encode i).toNat = 2 ^ 24 * i.opcode + i.fieldBits.toNat := by
  have hop := opcode_lt i
  have htoNat : (BitVec.ofNat 32 i.opcode).toNat = i.opcode := Nat.mod_eq_of_lt (by omega)
  rw [encode, toNat_shiftLeft_or (by omega) (toNat_fieldBits_lt h), htoNat, Nat.mul_comm]

theorem opcodeOf_encode {i : Instr} (h : i.wf = true) : opcodeOf (encode i) = i.opcode := by
  have hop := opcode_lt i
  have hbits := toNat_fieldBits_lt h
  rw [opcodeOf, field_eq_div_mod, toNat_encode h]
  omega

/-- A field within bits 23:0 of a command's word is that of its field bits. -/
theorem field_encode {i : Instr} (h : i.wf = true) {lo len : Nat} (hle : lo + len ≤ 24) :
    (encode i).field lo len = i.fieldBits.toNat / 2 ^ lo % 2 ^ len := by
  have hpow : 2 ^ 24 = 2 ^ lo * (2 ^ len * 2 ^ (24 - lo - len)) := by
    rw [← pow_add, ← pow_add]
    congr 1
    omega
  rw [field_eq_div_mod, toNat_encode h, hpow, Nat.mul_assoc, Nat.mul_add_div (by positivity), Nat.mul_assoc,
    Nat.mul_add_mod]

/-- A field that is all of the field bits (formats W and P: R123, R125). -/
theorem field_encode_of_fieldBits {i : Instr} (h : i.wf = true) {x len : Nat} (hbits : i.fieldBits = BitVec.ofNat 32 x)
    (hx : x < 2 ^ len) (hle : len ≤ 24) : (encode i).field 0 len = x := by
  have hword : x < 2 ^ 32 := hx.trans_le (Nat.pow_le_pow_right (by decide) (by omega))
  rw [field_encode h (by omega), hbits, BitVec.toNat_ofNat, pow_zero, Nat.div_one, Nat.mod_eq_of_lt hword,
    Nat.mod_eq_of_lt hx]

/-- The three fields of format S (R124). -/
theorem fields_encode_select {ecc minSize : Nat} {fixed : Bool} (h : (Instr.select ecc fixed minSize).wf = true) :
    (encode (.select ecc fixed minSize)).field 0 2 = ecc
      ∧ (encode (.select ecc fixed minSize)).getLsbD 8 = fixed
      ∧ (encode (.select ecc fixed minSize)).field 16 5 = minSize := by
  obtain ⟨hecc, hmin⟩ := wf_select_iff.1 h
  have hle := Bool.toNat_le fixed
  have hbits := toNat_fieldBits_select fixed hecc hmin
  have hmid : (encode (.select ecc fixed minSize)).field 8 1 = fixed.toNat := by
    rw [field_encode h (by decide), hbits]
    omega
  refine ⟨?_, ?_, ?_⟩
  · rw [field_encode h (by decide), hbits]
    omega
  · rw [getLsbD_eq_decide_field, hmid]
    cases fixed <;> rfl
  · rw [field_encode h (by decide), hbits]
    omega

/-- The map reads a well-formed command back from its word. -/
theorem opcodeMap_encode {i : Instr} (h : i.wf = true) : opcodeMap (encode i) i.opcode = some (i.format, i) := by
  cases i with
  | rsAppend ord => cases ord <;> rfl
  | bsAppend width =>
    have hfield : (encode (.bsAppend width)).field 0 6 = width :=
      field_encode_of_fieldBits h rfl (of_decide_eq_true h) (by decide)
    exact congrArg (fun x => some (Format.w, Instr.bsAppend x)) hfield
  | select ecc fixed minSize =>
    obtain ⟨hecc, hfixed, hmin⟩ := fields_encode_select h
    calc opcodeMap (encode (.select ecc fixed minSize)) 0x30
        = some (.s, .select ((encode (.select ecc fixed minSize)).field 0 2)
            ((encode (.select ecc fixed minSize)).getLsbD 8) ((encode (.select ecc fixed minSize)).field 16 5)) := rfl
      _ = some (.s, .select ecc fixed minSize) := by rw [hecc, hfixed, hmin]
  | split w =>
    have hfield : (encode (.split w)).field 0 5 = w :=
      field_encode_of_fieldBits h rfl (of_decide_eq_true h) (by decide)
    exact congrArg (fun x => some (Format.p, Instr.split x)) hfield
  | _ => rfl

/-- The reserved bits of a well-formed command's word are 0. -/
theorem encode_reserved {i : Instr} (h : i.wf = true) :
    encode i &&& (i.format.mask &&& 0x00FFFFFF#32) = 0#32 := by
  obtain ⟨-, -, hbits, -⟩ := opcodeMap_inv (opcodeMap_encode h)
  have hop : (BitVec.ofNat 32 i.opcode <<< 24) &&& 0x00FFFFFF#32 = 0#32 := by
    rw [← field_eq_zero_iff, field_eq_div_mod, BitVec.toNat_shiftLeft, Nat.shiftLeft_eq]
    omega
  have hfields : i.fieldBits &&& i.format.mask = 0#32 := by
    rw [hbits, BitVec.and_assoc, BitVec.not_and_self]
    exact BitVec.and_zero
  rw [encode, BitVec.and_or_distrib_right, ← BitVec.and_assoc i.fieldBits, hfields,
    BitVec.and_comm i.format.mask, ← BitVec.and_assoc, hop, BitVec.zero_and, BitVec.zero_and, BitVec.or_self]

theorem decode_encode {i : Instr} (h : i.wf = true) : decode (encode i) = .ok i :=
  decode_eq_ok_iff_opcodeMap.2 ⟨i.format, by rw [opcodeOf_encode h, opcodeMap_encode h], encode_reserved h⟩

/-- Settles O2: the map reads the fields back, and the reserved bits of the word are 0. -/
theorem decodeOfEncode : Obligations.DecodeOfEncode := fun _ h => decode_encode h

/-- Settles O3: a word is legal when the map has its opcode and the format's reserved bits are 0, and is then its opcode
above its free bits. -/
theorem legalWords : Obligations.LegalWords := fun v =>
  ⟨exists_decode_iff_not_illegal v, fun _ h => encode_of_decode h⟩

/-- Settles O1: the example words are the words of the commands named. -/
theorem encodingExamples : Obligations.EncodingExamples :=
  ⟨decode_encode (i := .nop) rfl, decode_encode (i := .gfInit) rfl, decode_encode (i := .gfMul) rfl,
    decode_encode (i := .rsInit) rfl, decode_encode (i := .rsEncode) rfl,
    decode_encode (i := .rsAppend .reverse) rfl, decode_encode (i := .rsAppend .ascending) rfl,
    decode_encode (i := .bsAppend 5) rfl, decode_encode (i := .build) rfl,
    decode_encode (i := .select 1 false 0) rfl, decode_encode (i := .select 3 true 4) rfl,
    decode_encode (i := .split 6) rfl, by decide⟩

/-! ### Illegal words (R130) -/

theorem decode_of_illegal {w : Word} (h : Illegal w) : ∃ e, decode w = .error e := by
  cases hd : decode w with
  | ok i => exact absurd h ((exists_decode_iff_not_illegal w).1 ⟨i, hd⟩)
  | error e => exact ⟨e, rfl⟩

/-- Idle, a write to CMD issues the word, legal or not (45_control.md R311). -/
theorem busWrite_cmd {s : State} (hp : s.pending = false) (w : Word) : s.busWrite 0x00C w = s.issue w :=
  busWrite_of_reg hp (r := .cmd) rfl rfl rfl w

theorem engineTurn_of_pending {s : State} (hp : s.pending = true) (hd : s.delay = 0 ∨ s.hostQueue = []) :
    s.engineTurn = true := by
  simpa [State.engineTurn, hp] using hd

/-- Settles O5: the decoder refuses the word, so the engine's step is its completion. -/
theorem illegalWordCompletes : Obligations.IllegalWordCompletes := by
  refine fun w hw => ⟨fun s hp => ?_, fun s hp hcmd hd => ?_⟩
  · rw [busWrite_cmd hp]
    exact ⟨issue_pending s w, issue_pcmd s w⟩
  · subst hcmd
    obtain ⟨e, he⟩ := decode_of_illegal hw
    rw [step_engine (engineTurn_of_pending hp hd), he]
    rfl

end Sys2Proof.Proofs

/-! SUPPORT. The field commands (40_gf.md R156, R157, R161 to R167): what their pre-checks refuse, and the results of
the commands that pass them (O15 to O18). -/

namespace Sys2Proof.Proofs

open Sys2Proof Sys2Proof.Machine Sys2Proof.Laws Sys2Proof.Claims

/-! ### The checks of the field commands (R156, R157) -/

section FieldCommands

variable {s : State} {i : Instr} {f : Unit → Except Err State}

theorem needField_of_not_valid (h : s.valid.gf = false) : s.needField = .error (mkErr .notReady 0 0) := by
  rw [State.needField, h]
  rfl

theorem elemA_of_ge (h : 2 ^ s.gfM.toNat ≤ s.opa.toNat) : s.elemA = .error (mkErr .illegalOperand 1 0) :=
  require_eq_error.2 ⟨decide_eq_false (Nat.not_lt.2 h), rfl⟩

theorem elemB_of_ge (h : 2 ^ s.gfM.toNat ≤ s.opb.toNat) : s.elemB = .error (mkErr .illegalOperand 2 0) :=
  require_eq_error.2 ⟨decide_eq_false (Nat.not_lt.2 h), rfl⟩

theorem elemA_of_lt (h : s.opa.toNat < 2 ^ s.gfM.toNat) : s.elemA = .ok () := require_eq_ok.2 (decide_eq_true h)

/-- What a command that needs the field refuses first. -/
theorem exec_needField_refuses (hi : exec i s = .next (s.finish (s.needField >>= f))) (hgf : s.valid.gf = false) :
    exec i s = .next (failed s 0x07#8 0#32) := by
  rw [hi, needField_of_not_valid hgf]
  rfl

/-- What a command with one element operand refuses, in the order of R156. -/
theorem exec_preA_refuses (hi : exec i s = .next (s.finish (s.preA >>= f))) :
    (s.valid.gf = false → exec i s = .next (failed s 0x07#8 0#32))
    ∧ (s.valid.gf = true → 2 ^ s.gfM.toNat ≤ s.opa.toNat → exec i s = .next (failed s 0x06#8 0x01000000#32)) := by
  refine ⟨fun hgf => ?_, fun hgf ha => ?_⟩
  · rw [hi, State.preA, needField_of_not_valid hgf]
    rfl
  · rw [hi, State.preA, needField_eq_ok (u := ()) |>.2 hgf, elemA_of_ge ha]
    rfl

/-- What a command with two element operands refuses, in the order of R156. -/
theorem exec_preAB_refuses (hi : exec i s = .next (s.finish (s.preAB >>= f))) :
    (s.valid.gf = false → exec i s = .next (failed s 0x07#8 0#32))
    ∧ (s.valid.gf = true → 2 ^ s.gfM.toNat ≤ s.opa.toNat → exec i s = .next (failed s 0x06#8 0x01000000#32))
    ∧ (s.valid.gf = true → s.opa.toNat < 2 ^ s.gfM.toNat → 2 ^ s.gfM.toNat ≤ s.opb.toNat →
        exec i s = .next (failed s 0x06#8 0x02000000#32)) := by
  refine ⟨fun hgf => ?_, fun hgf ha => ?_, fun hgf ha hb => ?_⟩
  · rw [hi, State.preAB, needField_of_not_valid hgf]
    rfl
  · rw [hi, State.preAB, needField_eq_ok (u := ()) |>.2 hgf, elemA_of_ge ha]
    rfl
  · rw [hi, State.preAB, needField_eq_ok (u := ()) |>.2 hgf, elemA_of_lt ha, elemB_of_ge hb]
    rfl

theorem exec_of_needField (hi : exec i s = .next (s.finish (s.needField >>= f))) (hgf : s.valid.gf = true) :
    exec i s = .next (s.finish (f ())) := by
  rw [hi, needField_eq_ok (u := ()) |>.2 hgf]
  rfl

theorem exec_of_preA (hi : exec i s = .next (s.finish (s.preA >>= f))) (hgf : s.valid.gf = true)
    (ha : s.opa.toNat < 2 ^ s.gfM.toNat) : exec i s = .next (s.finish (f ())) := by
  rw [hi, preA_eq_ok (u := ()) |>.2 ⟨hgf, ha⟩]
  rfl

theorem exec_of_preAB (hi : exec i s = .next (s.finish (s.preAB >>= f))) (hgf : s.valid.gf = true)
    (ha : s.opa.toNat < 2 ^ s.gfM.toNat) (hb : s.opb.toNat < 2 ^ s.gfM.toNat) :
    exec i s = .next (s.finish (f ())) := by
  rw [hi, preAB_eq_ok (u := ()) |>.2 ⟨hgf, ha, hb⟩]
  rfl

/-- The zero check after the pre-checks (R339). -/
theorem exec_nonzero_refuses {x : Nat} (hi : exec i s = .next (s.finish (nonzero x >>= f))) (hx : x = 0) :
    exec i s = .next (failed s 0x08#8 0#32) := by
  subst hx
  exact hi

theorem exec_of_nonzero {x : Nat} (hi : exec i s = .next (s.finish (nonzero x >>= f))) (hx : x ≠ 0) :
    exec i s = .next (s.finish (f ())) := by
  rw [hi, nonzero_eq_ok (u := ()) |>.2 hx]
  rfl

/-! ### Results (R161 to R167) -/

section Results

variable (hgf : s.valid.gf = true)
include hgf

theorem exec_gfExp : exec .gfExp s = .next (completedRes s (BitVec.ofNat 32 (s.gfexp s.opa.toNat))) :=
  (exec_of_needField (i := .gfExp) rfl hgf :)

variable (ha : s.opa.toNat < 2 ^ s.gfM.toNat)
include ha

theorem exec_gfPow : exec .gfPow s = .next (completedRes s (BitVec.ofNat 32 (s.gfpow s.opa.toNat s.opb.toNat))) :=
  (exec_of_preA (i := .gfPow) rfl hgf ha :)

theorem exec_gfInv (h0 : s.opa.toNat ≠ 0) :
    exec .gfInv s = .next (completedRes s (BitVec.ofNat 32 (s.gfinv s.opa.toNat))) :=
  (exec_of_nonzero (exec_of_preA (i := .gfInv) rfl hgf ha) h0 :)

theorem exec_gfLog (h0 : s.opa.toNat ≠ 0) :
    exec .gfLog s = .next (completedRes s (BitVec.ofNat 32 (s.gflog s.opa.toNat))) :=
  (exec_of_nonzero (exec_of_preA (i := .gfLog) rfl hgf ha) h0 :)

variable (hb : s.opb.toNat < 2 ^ s.gfM.toNat)
include hb

theorem exec_gfMul : exec .gfMul s = .next (completedRes s (BitVec.ofNat 32 (s.gfmul s.opa.toNat s.opb.toNat))) :=
  (exec_of_preAB (i := .gfMul) rfl hgf ha hb :)

theorem exec_gfAdd : exec .gfAdd s = .next (completedRes s (s.opa ^^^ s.opb)) := by
  have hxor : BitVec.ofNat 32 (s.opa.toNat ^^^ s.opb.toNat) = s.opa ^^^ s.opb := by
    rw [← BitVec.toNat_xor, BitVec.ofNat_toNat, BitVec.setWidth_eq]
  rw [exec_of_preAB (i := .gfAdd) rfl hgf ha hb, ← hxor]
  rfl

theorem exec_gfDiv (h0 : s.opb.toNat ≠ 0) :
    exec .gfDiv s = .next (completedRes s (BitVec.ofNat 32 (s.gfdiv s.opa.toNat s.opb.toNat))) :=
  (exec_of_nonzero (exec_of_preAB (i := .gfDiv) rfl hgf ha hb) h0 :)

end Results

end FieldCommands

/-- Settles O15: the checks of two element operands, then the results. -/
theorem gfMulAddCommands : Obligations.GfMulAddCommands := by
  refine ⟨decode_encode (i := .gfMul) rfl, decode_encode (i := .gfAdd) rfl, fun s => ⟨fun i hi => ?_, ?_⟩⟩
  · rcases hi with rfl | rfl
    · exact exec_preAB_refuses rfl
    · exact exec_preAB_refuses rfl
  · exact fun hgf ha hb => ⟨exec_gfMul hgf ha hb, exec_gfAdd hgf ha hb⟩

/-- Settles O16: the checks of two element operands, the zero check, then the result. -/
theorem gfDivCommand : Obligations.GfDivCommand := by
  refine ⟨decode_encode (i := .gfDiv) rfl, fun s => ?_⟩
  obtain ⟨hready, hopa, hopb⟩ := exec_preAB_refuses (i := .gfDiv) (s := s) rfl
  refine ⟨hready, hopa, hopb, fun hgf ha h0 => ?_, exec_gfDiv⟩
  have hb : s.opb.toNat < 2 ^ s.gfM.toNat := h0 ▸ Nat.two_pow_pos _
  exact exec_nonzero_refuses (exec_of_preAB (i := .gfDiv) rfl hgf ha hb) h0

/-- Settles O17: the checks of one element operand, the zero check, then the results. -/
theorem gfInvLogCommands : Obligations.GfInvLogCommands := by
  refine ⟨decode_encode (i := .gfInv) rfl, decode_encode (i := .gfLog) rfl, fun s => ⟨fun i hi => ?_, ?_⟩⟩
  · have hlt (h0 : s.opa.toNat = 0) : s.opa.toNat < 2 ^ s.gfM.toNat := h0 ▸ Nat.two_pow_pos _
    rcases hi with rfl | rfl
    · obtain ⟨hready, hopa⟩ := exec_preA_refuses (i := .gfInv) (s := s) rfl
      exact ⟨hready, hopa, fun hgf h0 =>
        exec_nonzero_refuses (exec_of_preA (i := .gfInv) rfl hgf (hlt h0)) h0⟩
    · obtain ⟨hready, hopa⟩ := exec_preA_refuses (i := .gfLog) (s := s) rfl
      exact ⟨hready, hopa, fun hgf h0 =>
        exec_nonzero_refuses (exec_of_preA (i := .gfLog) rfl hgf (hlt h0)) h0⟩
  · exact fun hgf ha h0 => ⟨exec_gfInv hgf ha h0, exec_gfLog hgf ha h0⟩

/-- Settles O18: GF_EXP checks the field alone, GF_POW its element too. -/
theorem gfExpPowCommands : Obligations.GfExpPowCommands := by
  refine ⟨decode_encode (i := .gfExp) rfl, decode_encode (i := .gfPow) rfl, fun s => ?_⟩
  obtain ⟨hready, hopa⟩ := exec_preA_refuses (i := .gfPow) (s := s) rfl
  exact ⟨fun hgf => ⟨exec_needField_refuses rfl hgf, hready hgf⟩, hopa, exec_gfExp, exec_gfPow⟩

end Sys2Proof.Proofs

/-! SUPPORT. Numbers as polynomials over GF(2) (40_gf.md R155), and the antilog sequence of a modulus (R151). -/

namespace Sys2Proof.Proofs

open Sys2Proof Sys2Proof.Machine Sys2Proof.Safety Sys2Proof.Claims

/-! ### The polynomial of a number (R155) -/

theorem coeff_toPoly (a i : Nat) : (toPoly a).coeff i = if i < 17 ∧ a.testBit i = true then 1 else 0 := by
  have hterm (k : Nat) : (if a.testBit k then (Polynomial.X : Polynomial (ZMod 2)) ^ k else 0).coeff i
      = if k = i then (if a.testBit i = true then 1 else 0) else 0 := by
    by_cases hk : k = i
    · subst hk
      split <;> simp
    · split <;> simp [Polynomial.coeff_X_pow, Ne.symm hk]
  simp only [toPoly, Polynomial.finsetSum_coeff, hterm, Finset.sum_ite_eq', Finset.mem_range, ite_and]

theorem toPoly_zero : toPoly 0 = 0 := by
  ext i
  simp [coeff_toPoly]

theorem toPoly_one : toPoly 1 = 1 := by
  ext i
  rw [coeff_toPoly, Polynomial.coeff_one]
  simp only [Nat.testBit_one_eq_true_iff_self_eq_zero]
  congr 1
  simp only [eq_iff_iff]
  omega

/-- Sums of polynomials over GF(2) are exclusive ors of numbers. -/
theorem toPoly_xor (a b : Nat) : toPoly (a ^^^ b) = toPoly a + toPoly b := by
  ext i
  simp only [Polynomial.coeff_add, coeff_toPoly, Nat.testBit_xor]
  by_cases hi : i < 17
  · cases a.testBit i <;> cases b.testBit i <;> simp [hi, CharTwo.add_self_eq_zero]
  · simp [hi]

theorem toPoly_two_mul {a : Nat} (h : a < 2 ^ 16) : toPoly (2 * a) = Polynomial.X * toPoly a := by
  ext i
  cases i with
  | zero => simp [coeff_toPoly]
  | succ i =>
    have hbit : (2 * a).testBit (i + 1) = a.testBit i := by simp [Nat.testBit_succ]
    rw [Polynomial.coeff_X_mul, coeff_toPoly, coeff_toPoly, hbit]
    by_cases hi : i = 16
    · subst hi
      simp [Nat.testBit_lt_two_pow h]
    · have hlt : i + 1 < 17 ↔ i < 17 := by omega
      simp only [hlt]

theorem degree_toPoly_lt {a m : Nat} (h : a < 2 ^ m) : (toPoly a).degree < m := by
  rw [Polynomial.degree_lt_iff_coeff_zero]
  intro i hi
  have hbit : a.testBit i = false := Nat.testBit_lt_two_pow (h.trans_le (Nat.pow_le_pow_right (by decide) hi))
  simp [coeff_toPoly, hbit]

theorem testBit_of_top {a m : Nat} (hlo : 2 ^ m ≤ a) (hhi : a < 2 ^ (m + 1)) : a.testBit m = true := by
  have hdiv : a / 2 ^ m = 1 := Nat.div_eq_of_lt_le (by omega) (by rw [pow_succ] at hhi; omega)
  simp [Nat.testBit_eq_decide_div_mod_eq, hdiv]

theorem le_degree_toPoly {a m : Nat} (hm : m ≤ 16) (hlo : 2 ^ m ≤ a) (hhi : a < 2 ^ (m + 1)) :
    (m : WithBot Nat) ≤ (toPoly a).degree := by
  apply Polynomial.le_degree_of_ne_zero
  simp [coeff_toPoly, testBit_of_top hlo hhi, Nat.lt_succ_of_le hm]

theorem eq_zero_of_toPoly_eq_zero {a : Nat} (ha : a < 2 ^ 17) (h : toPoly a = 0) : a = 0 := by
  refine Nat.eq_of_testBit_eq fun i => ?_
  have hcoeff := congrArg (Polynomial.coeff · i) h
  simp only [coeff_toPoly, Polynomial.coeff_zero, ite_eq_right_iff, one_ne_zero, imp_false, not_and,
    Bool.not_eq_true] at hcoeff
  rw [Nat.zero_testBit]
  by_cases hi : i < 17
  · exact hcoeff hi
  · exact Nat.testBit_lt_two_pow (ha.trans_le (Nat.pow_le_pow_right (by decide) (Nat.not_lt.1 hi)))

/-! ### The antilog sequence (R151) -/

/-- A number of degree m, the degree in range, with constant term 1 (R151, R153). -/
structure IsModulus (poly m : Nat) : Prop where
  one_le : 1 ≤ m
  le : m ≤ 16
  lo : 2 ^ m ≤ poly
  hi : poly < 2 ^ (m + 1)
  odd : poly % 2 = 1

/-- The rule's sequence is the iteration of the model's step. -/
theorem antilog_succ (poly m v : Nat) : antilog poly m (v + 1) = antilogNext poly m (antilog poly m v) := rfl

namespace IsModulus

variable {poly m : Nat} (h : IsModulus poly m)
include h

theorem one_lt_size : 1 < 2 ^ m := Nat.one_lt_two_pow (Nat.one_le_iff_ne_zero.1 h.one_le)

theorem size_le : 2 ^ m ≤ 2 ^ 16 := Nat.pow_le_pow_right (by decide) h.le

theorem antilogNext_lt {p : Nat} (hp : p < 2 ^ m) : antilogNext poly m p < 2 ^ m := by
  unfold antilogNext
  split
  next htop =>
    have h2p : 2 * p < 2 ^ (m + 1) := by rw [pow_succ]; omega
    refine Nat.lt_pow_two_of_testBit _ fun i hi => ?_
    rw [Nat.testBit_xor]
    rcases hi.eq_or_lt with rfl | hlt
    · rw [testBit_of_top htop h2p, testBit_of_top h.lo h.hi]
      rfl
    · have hpow : 2 ^ (m + 1) ≤ 2 ^ i := Nat.pow_le_pow_right (by decide) hlt
      rw [Nat.testBit_lt_two_pow (h2p.trans_le hpow), Nat.testBit_lt_two_pow (h.hi.trans_le hpow)]
      rfl
  next htop => omega

/-- A reduced double is odd, an unreduced one even: the step can be undone. -/
theorem antilogNext_injective {p q : Nat} (heq : antilogNext poly m p = antilogNext poly m q) : p = q := by
  have hodd (x : Nat) : (2 * x ^^^ poly) % 2 = 1 := by rw [Nat.xor_mod_two_eq]; have := h.odd; omega
  unfold antilogNext at heq
  split at heq <;> split at heq
  · have := Nat.xor_left_inj.1 heq
    omega
  · have := hodd p
    omega
  · have := hodd q
    omega
  · omega

theorem antilogNext_ne_zero {p : Nat} (hp : p ≠ 0) : antilogNext poly m p ≠ 0 := by
  have hzero : antilogNext poly m 0 = 0 := if_neg (by simp)
  exact fun heq => hp (h.antilogNext_injective (heq.trans hzero.symm))

theorem antilog_lt (v : Nat) : antilog poly m v < 2 ^ m := by
  induction v with
  | zero => exact h.one_lt_size
  | succ v ih => exact h.antilogNext_lt ih

theorem antilog_ne_zero (v : Nat) : antilog poly m v ≠ 0 := by
  induction v with
  | zero => exact one_ne_zero
  | succ v ih => exact h.antilogNext_ne_zero ih

end IsModulus

/-- A sequence that takes all the values `1..N` in its first N terms takes none twice. -/
theorem injective_of_surjective {n : Nat} {f : Nat → Nat} (hf : ∀ x, 1 ≤ x → x ≤ n → ∃ v, v < n ∧ f v = x)
    {i j : Nat} (hi : i < n) (hj : j < n) (heq : f i = f j) : i = j := by
  have hsub : Finset.Icc 1 n ⊆ (Finset.range n).image f := by
    intro x hx
    obtain ⟨h1, hn⟩ := Finset.mem_Icc.1 hx
    obtain ⟨v, hv, rfl⟩ := hf x h1 hn
    exact Finset.mem_image_of_mem f (Finset.mem_range.2 hv)
  have hcard : ((Finset.range n).image f).card = (Finset.range n).card :=
    le_antisymm Finset.card_image_le (by simpa using Finset.card_le_card hsub)
  exact Finset.injOn_of_card_image_eq hcard (by simpa using hi) (by simpa using hj) heq

/-- After its N terms a full sequence starts again at 1. -/
theorem IsModulus.antilog_period {poly m : Nat} (h : IsModulus poly m) (hp : Primitive poly m) :
    antilog poly m (2 ^ m - 1) = 1 := by
  obtain ⟨-, hsurj⟩ := hp
  have hlt := h.antilog_lt (2 ^ m - 1)
  have hne := h.antilog_ne_zero (2 ^ m - 1)
  obtain ⟨j, hj, heq⟩ := hsurj (antilog poly m (2 ^ m - 1)) (by omega) (by omega)
  cases j with
  | zero => exact heq.symm
  | succ j =>
    obtain ⟨n, hn⟩ : ∃ n, 2 ^ m - 1 = n + 1 := ⟨2 ^ m - 2, by omega⟩
    rw [hn, antilog_succ, antilog_succ] at heq
    have := injective_of_surjective hsurj (i := j) (j := n) (by omega) (by omega) (h.antilogNext_injective heq)
    omega

end Sys2Proof.Proofs

/-! SUPPORT. The field of a valid table (40_gf.md R150, R152, R155): its elements are the powers of `α`, the tables
convert between them and their exponents, and so the table functions are the operations of the quotient ring (O20,
O19). -/

namespace Sys2Proof.Proofs

open Sys2Proof Sys2Proof.Machine Sys2Proof.Safety Sys2Proof.Claims

/-! ### Numbers as elements of the quotient ring (R155) -/

section Elements

variable (s : State)

theorem elt_zero : elt s 0 = 0 := by rw [elt, toPoly_zero, map_zero]

theorem elt_one : elt s 1 = 1 := by rw [elt, toPoly_one, map_one]

theorem elt_xor (a b : Nat) : elt s (a ^^^ b) = elt s a + elt s b := by rw [elt, toPoly_xor, map_add, elt, elt]

theorem elt_modulus : elt s s.gfPoly.toNat = 0 := AdjoinRoot.mk_self

theorem elt_two_mul {a : Nat} (h : a < 2 ^ 16) : elt s (2 * a) = alpha s * elt s a := by
  rw [elt, toPoly_two_mul h, map_mul, AdjoinRoot.mk_X, alpha, elt]

end Elements

section Field

variable {s : State} (h : FieldOk s)
include h

/-! ### What the invariant says (R150, R152) -/

theorem FieldOk.isModulus : IsModulus s.gfPoly.toNat s.gfM.toNat := by
  obtain ⟨h1, h16, hlo, hhi, hodd, -, -⟩ := h
  exact ⟨h1, h16, hlo, hhi, hodd⟩

theorem FieldOk.tAlog_eq {v : Nat} (hv : v < s.gfN) : s.tAlog v = antilog s.gfPoly.toNat s.gfM.toNat v := by
  obtain ⟨-, -, -, -, -, halog, -⟩ := h
  exact halog v hv

theorem FieldOk.tLog_lt {x : Nat} (hx : x < 2 ^ s.gfM.toNat) (h0 : x ≠ 0) : s.tLog x < s.gfN := by
  obtain ⟨-, -, -, -, -, -, hlog⟩ := h
  exact (hlog x (by omega) (by omega)).1

theorem FieldOk.tAlog_tLog {x : Nat} (hx : x < 2 ^ s.gfM.toNat) (h0 : x ≠ 0) : s.tAlog (s.tLog x) = x := by
  obtain ⟨-, -, -, -, -, -, hlog⟩ := h
  exact (hlog x (by omega) (by omega)).2

theorem FieldOk.primitive : Primitive s.gfPoly.toNat s.gfM.toNat := by
  refine ⟨(FieldOk.isModulus h).odd, fun x h1 hx => ?_⟩
  have hlt := FieldOk.tLog_lt h (x := x) (by omega) (by omega)
  exact ⟨s.tLog x, hlt, by rw [← FieldOk.tAlog_eq h hlt, FieldOk.tAlog_tLog h (by omega) (by omega)]⟩

theorem FieldOk.gfN_pos : 0 < s.gfN :=
  Nat.sub_pos_of_lt (FieldOk.isModulus h).one_lt_size

theorem FieldOk.tAlog_lt {v : Nat} (hv : v < s.gfN) : s.tAlog v < 2 ^ s.gfM.toNat :=
  FieldOk.tAlog_eq h hv ▸ (FieldOk.isModulus h).antilog_lt v

/-! ### Elements are the powers of `α` (R152, R155) -/

/-- Different elements stand for different classes: their difference has a lower degree than the modulus. -/
theorem elt_injective {a b : Nat} (ha : a < 2 ^ s.gfM.toNat) (hb : b < 2 ^ s.gfM.toNat) (heq : elt s a = elt s b) :
    a = b := by
  have hm := FieldOk.isModulus h
  have hlt := Nat.xor_lt_two_pow ha hb
  have hdvd : toPoly s.gfPoly.toNat ∣ toPoly (a ^^^ b) := by
    rw [toPoly_xor, ← CharTwo.sub_eq_add]
    exact AdjoinRoot.mk_eq_mk.1 heq
  have hdeg : (toPoly (a ^^^ b)).degree < (toPoly s.gfPoly.toNat).degree :=
    (degree_toPoly_lt hlt).trans_le (le_degree_toPoly hm.le hm.lo hm.hi)
  have hzero := Polynomial.eq_zero_of_dvd_of_degree_lt hdvd hdeg
  exact Nat.xor_eq_zero_iff.1 (eq_zero_of_toPoly_eq_zero
    (hlt.trans_le (Nat.pow_le_pow_right (by decide) (hm.le.trans (by decide)))) hzero)

theorem elt_antilogNext {p : Nat} (hp : p < 2 ^ s.gfM.toNat) :
    elt s (antilogNext s.gfPoly.toNat s.gfM.toNat p) = alpha s * elt s p := by
  have hp16 := hp.trans_le (FieldOk.isModulus h).size_le
  unfold antilogNext
  split
  · rw [elt_xor, elt_modulus, add_zero, elt_two_mul s hp16]
  · exact elt_two_mul s hp16

theorem elt_antilog (v : Nat) : elt s (antilog s.gfPoly.toNat s.gfM.toNat v) = alpha s ^ v := by
  induction v with
  | zero => exact elt_one s
  | succ v ih =>
    rw [antilog_succ, elt_antilogNext h ((FieldOk.isModulus h).antilog_lt v), ih, pow_succ']

/-- `α` has the order N (R152). -/
theorem alpha_pow_gfN : alpha s ^ s.gfN = 1 := by
  have hperiod : antilog s.gfPoly.toNat s.gfM.toNat s.gfN = 1 :=
    (FieldOk.isModulus h).antilog_period (FieldOk.primitive h)
  rw [← elt_antilog h, hperiod, elt_one]

theorem elt_tAlog {v : Nat} (hv : v < s.gfN) : elt s (s.tAlog v) = alpha s ^ v := by
  rw [FieldOk.tAlog_eq h hv, elt_antilog h]

theorem alpha_pow_tLog {x : Nat} (hx : x < 2 ^ s.gfM.toNat) (h0 : x ≠ 0) : alpha s ^ s.tLog x = elt s x := by
  rw [← elt_tAlog h (FieldOk.tLog_lt h hx h0), FieldOk.tAlog_tLog h hx h0]

/-! ### The table functions (R158, R159, R162, R163, R166) -/

/-- The antilog of a reduced exponent (R159): a power of `α`. -/
theorem gfexp_spec (k : Nat) : s.gfexp k < 2 ^ s.gfM.toNat ∧ elt s (s.gfexp k) = alpha s ^ k := by
  have hlt : k % s.gfN < s.gfN := Nat.mod_lt k (FieldOk.gfN_pos h)
  refine ⟨FieldOk.tAlog_lt h hlt, ?_⟩
  rw [State.gfexp, elt_tAlog h hlt, ← pow_eq_pow_mod k (alpha_pow_gfN h)]

/-- The antilog of a reduced difference of exponents (R162, R163). -/
theorem elt_tAlog_sub (i j : Nat) :
    s.tAlog (((i : Int) - j) % (s.gfN : Int)).toNat < 2 ^ s.gfM.toNat
      ∧ elt s (s.tAlog (((i : Int) - j) % (s.gfN : Int)).toNat) * alpha s ^ j = alpha s ^ i := by
  have hn : (0 : Int) < s.gfN := Int.natCast_pos.2 (FieldOk.gfN_pos h)
  have hnonneg := Int.emod_nonneg ((i : Int) - j) hn.ne'
  have hlt := Int.emod_lt_of_pos ((i : Int) - j) hn
  generalize hk : (((i : Int) - j) % (s.gfN : Int)).toNat = k
  have hkn : k < s.gfN := by omega
  have hmod : (k + j) % s.gfN = i % s.gfN := by
    have hcast : (k : Int) = ((i : Int) - j) % (s.gfN : Int) := by omega
    zify
    rw [hcast, Int.emod_add_emod, sub_add_cancel]
  refine ⟨FieldOk.tAlog_lt h hkn, ?_⟩
  rw [elt_tAlog h hkn, ← pow_add, pow_eq_pow_mod (k + j) (alpha_pow_gfN h), hmod,
    ← pow_eq_pow_mod i (alpha_pow_gfN h)]

theorem gfinv_spec {a : Nat} (ha : a < 2 ^ s.gfM.toNat) (h0 : a ≠ 0) :
    s.gfinv a < 2 ^ s.gfM.toNat ∧ elt s (s.gfinv a) * elt s a = 1 := by
  obtain ⟨hlt, hmul⟩ := elt_tAlog_sub h s.gfN (s.tLog a)
  exact ⟨hlt, by rw [← alpha_pow_tLog h ha h0, ← alpha_pow_gfN h, ← hmul, State.gfinv]⟩

variable {a b : Nat} (ha : a < 2 ^ s.gfM.toNat) (hb : b < 2 ^ s.gfM.toNat)
include ha

theorem gfpow_spec (k : Nat) : s.gfpow a k < 2 ^ s.gfM.toNat ∧ elt s (s.gfpow a k) = elt s a ^ k := by
  unfold State.gfpow
  split
  next h0 =>
    subst h0
    split
    next hk =>
      subst hk
      exact ⟨(FieldOk.isModulus h).one_lt_size, by rw [elt_one, pow_zero]⟩
    next hk => exact ⟨Nat.two_pow_pos _, by rw [elt_zero, zero_pow hk]⟩
  next h0 =>
    obtain ⟨hlt, hexp⟩ := gfexp_spec h (s.tLog a * k)
    exact ⟨hlt, by rw [← alpha_pow_tLog h ha h0, ← pow_mul, ← hexp, State.gfexp]⟩

include hb

theorem gfmul_spec : s.gfmul a b < 2 ^ s.gfM.toNat ∧ elt s (s.gfmul a b) = elt s a * elt s b := by
  unfold State.gfmul
  split
  next h0 =>
    refine ⟨Nat.two_pow_pos _, ?_⟩
    rcases h0 with rfl | rfl
    · rw [elt_zero, zero_mul]
    · rw [elt_zero, mul_zero]
  next h0 =>
    obtain ⟨ha0, hb0⟩ := not_or.1 h0
    obtain ⟨hlt, hexp⟩ := gfexp_spec h (s.tLog a + s.tLog b)
    exact ⟨hlt, by rw [← alpha_pow_tLog h ha ha0, ← alpha_pow_tLog h hb hb0, ← pow_add, ← hexp, State.gfexp]⟩

theorem gfdiv_spec (h0 : b ≠ 0) : s.gfdiv a b < 2 ^ s.gfM.toNat ∧ elt s (s.gfdiv a b) * elt s b = elt s a := by
  unfold State.gfdiv
  split
  next ha0 =>
    subst ha0
    exact ⟨Nat.two_pow_pos _, by rw [elt_zero, zero_mul]⟩
  next ha0 =>
    rw [← alpha_pow_tLog h ha ha0, ← alpha_pow_tLog h hb h0]
    exact elt_tAlog_sub h (s.tLog a) (s.tLog b)

end Field

/-! ### The field laws (R168) -/

/-- Settles O20: elements are equal when their classes are, and the table functions are the operations there. -/
theorem fieldLaws : Obligations.FieldLaws := by
  intro s h a b c ha hb hc
  have hone : 1 < 2 ^ s.gfM.toNat := (FieldOk.isModulus h).one_lt_size
  have hxor := Nat.xor_lt_two_pow hb hc
  obtain ⟨hab, eab⟩ := gfmul_spec h ha hb
  obtain ⟨hba, eba⟩ := gfmul_spec h hb ha
  obtain ⟨hbc, ebc⟩ := gfmul_spec h hb hc
  obtain ⟨hac, eac⟩ := gfmul_spec h ha hc
  obtain ⟨habc, eabc⟩ := gfmul_spec h hab hc
  obtain ⟨habc', eabc'⟩ := gfmul_spec h ha hbc
  obtain ⟨haxor, eaxor⟩ := gfmul_spec h ha hxor
  obtain ⟨ha1, ea1⟩ := gfmul_spec h ha hone
  refine ⟨hab, ?_, ?_, ?_, ?_, ?_, fun ha0 => ?_, fun hb0 => ?_, fun ha0 j k => ?_⟩
  · exact elt_injective h hab hba (by rw [eab, eba, mul_comm])
  · exact elt_injective h habc habc' (by rw [eabc, eab, eabc', ebc, mul_assoc])
  · exact elt_injective h haxor (Nat.xor_lt_two_pow hab hac) (by rw [eaxor, elt_xor, elt_xor, eab, eac, mul_add])
  · exact elt_injective h ha1 ha (by rw [ea1, elt_one, mul_one])
  · exact if_pos (.inr rfl)
  · obtain ⟨hinv, einv⟩ := gfinv_spec h ha ha0
    obtain ⟨hmul, emul⟩ := gfmul_spec h ha hinv
    exact ⟨hinv, elt_injective h hmul hone (by rw [emul, mul_comm, einv, elt_one])⟩
  · obtain ⟨hinv, einv⟩ := gfinv_spec h hb hb0
    obtain ⟨hdiv, ediv⟩ := gfdiv_spec h ha hb hb0
    obtain ⟨hmul, emul⟩ := gfmul_spec h ha hinv
    exact elt_injective h hdiv hmul (by rw [emul, ← ediv, mul_assoc, mul_comm (elt s b), einv, mul_one])
  · obtain ⟨hj, ej⟩ := gfpow_spec h ha j
    obtain ⟨hk, ek⟩ := gfpow_spec h ha k
    obtain ⟨hjk, ejk⟩ := gfpow_spec h ha (j + k)
    obtain ⟨hmul, emul⟩ := gfmul_spec h hj hk
    exact elt_injective h hjk hmul (by rw [ejk, emul, ej, ek, pow_add])

end Sys2Proof.Proofs

/-! SUPPORT. The field commands in a valid field (O19): their results are those of the table functions. -/

namespace Sys2Proof.Proofs

open Sys2Proof Sys2Proof.Machine Sys2Proof.Safety Sys2Proof.Claims

/-- An element fits RES. -/
theorem completedRes_res {s : State} (h : FieldOk s) {r : Nat} (hr : r < 2 ^ s.gfM.toNat) :
    (completedRes s (BitVec.ofNat 32 r)).res.toNat = r := by
  have hsize := (FieldOk.isModulus h).size_le
  exact Nat.mod_eq_of_lt (by omega)

/-- Settles O19: each command's result is its table function's, and that is the operation of the quotient ring. -/
theorem fieldCommandsCompute : Obligations.FieldCommandsCompute := by
  intro s hgf h
  refine ⟨fun ha hb => ⟨?mul, ?add, fun hb0 => ?div⟩, fun ha ha0 => ⟨?inv, ?log⟩, ?exp, fun ha => ?pow⟩
  case mul =>
    have hspec := gfmul_spec h ha hb
    exact ⟨_, exec_gfMul hgf ha hb, by rwa [completedRes_res h hspec.1]⟩
  case add =>
    have hres : (completedRes s (s.opa ^^^ s.opb)).res.toNat = s.opa.toNat ^^^ s.opb.toNat := BitVec.toNat_xor ..
    exact ⟨_, exec_gfAdd hgf ha hb, by rw [hres]; exact ⟨Nat.xor_lt_two_pow ha hb, elt_xor s _ _⟩⟩
  case div =>
    have hspec := gfdiv_spec h ha hb hb0
    exact ⟨_, exec_gfDiv hgf ha hb hb0, by rwa [completedRes_res h hspec.1]⟩
  case inv =>
    have hspec := gfinv_spec h ha ha0
    exact ⟨_, exec_gfInv hgf ha ha0, by rwa [completedRes_res h hspec.1]⟩
  case log =>
    have hlt : s.gflog s.opa.toNat < s.gfN := FieldOk.tLog_lt h ha ha0
    refine ⟨_, exec_gfLog hgf ha ha0, ?_⟩
    rw [completedRes_res h (hlt.trans_le (Nat.sub_le _ _))]
    exact ⟨hlt, alpha_pow_tLog h ha ha0⟩
  case exp =>
    have hspec := gfexp_spec h s.opa.toNat
    exact ⟨_, exec_gfExp hgf, by rwa [completedRes_res h hspec.1]⟩
  case pow =>
    have hspec := gfpow_spec h ha s.opb.toNat
    exact ⟨_, exec_gfPow hgf ha, by rwa [completedRes_res h hspec.1]⟩

end Sys2Proof.Proofs

/-! SUPPORT. GF_INIT (40_gf.md R151 to R154): its check is that of a primitive modulus, and its tables are those of the
field (O13, O14). -/

namespace Sys2Proof.Proofs

open Sys2Proof Sys2Proof.Machine Sys2Proof.Laws Sys2Proof.Safety Sys2Proof.Claims

/-! ### The check of a modulus (R151, R153) -/

/-- An odd operand that GF_INIT accepts is a modulus of its degree (R151). -/
theorem isModulus_of_odd {poly : Nat} (hlo : 2 ≤ poly) (hhi : poly < 2 ^ 17) (hodd : poly % 2 = 1) :
    IsModulus poly (Nat.log2 poly) := by
  have h0 : poly ≠ 0 := by omega
  have hlt : Nat.log2 poly < 17 := (Nat.log2_lt h0).2 hhi
  exact ⟨(Nat.le_log2 h0).2 hlo, Nat.lt_succ_iff.1 hlt, Nat.log2_self_le h0, Nat.lt_log2_self, hodd⟩

theorem antilogSeq_eq_map (poly m n k : Nat) :
    antilogSeq poly m n (antilog poly m k) = (List.range' k n).map (antilog poly m) := by
  induction n generalizing k with
  | zero => rfl
  | succ n ih => rw [antilogSeq, ← antilog_succ, ih (k + 1), List.range'_succ, List.map_cons]

theorem antilogTable_eq_map (poly m : Nat) :
    antilogTable poly m = (List.range (2 ^ m - 1)).map (antilog poly m) := by
  rw [List.range_eq_range']
  exact antilogSeq_eq_map poly m (2 ^ m - 1) 0

theorem mem_antilogTable {poly m x : Nat} : x ∈ antilogTable poly m ↔ ∃ v, v < 2 ^ m - 1 ∧ antilog poly m v = x := by
  simp [antilogTable_eq_map]

theorem modulusOk_iff {poly : Nat} (hlo : 2 ≤ poly) (hhi : poly < 2 ^ 17) :
    modulusOk poly (Nat.log2 poly) = true ↔ Primitive poly (Nat.log2 poly) := by
  simp only [modulusOk, Primitive, Bool.and_eq_true, List.all_eq_true, decide_eq_true_eq, List.contains_iff_mem,
    List.mem_range, mem_antilogTable, Nat.testBit_zero]
  constructor
  · rintro ⟨⟨hodd, -⟩, hfull⟩
    refine ⟨hodd, fun x h1 hx => ?_⟩
    have hx' := hfull (x - 1) (by omega)
    rwa [Nat.sub_add_cancel h1] at hx'
  · rintro ⟨hodd, hfull⟩
    have hm := isModulus_of_odd hlo hhi hodd
    refine ⟨⟨hodd, ?_⟩, fun x hx => hfull (x + 1) (by omega) (by omega)⟩
    rintro x ⟨v, -, rfl⟩
    have hlt := hm.antilog_lt v
    have hne := hm.antilog_ne_zero v
    omega

/-! ### The contents of the tables (R152) -/

section Contents

variable {poly m : Nat}

theorem length_alogContents (hm : m ≤ 16) : (alogContents poly m).length = 65536 := by
  have hsize : 2 ^ m ≤ 2 ^ 16 := Nat.pow_le_pow_right (by decide) hm
  simp only [alogContents, antilogTable_eq_map, List.length_append, List.length_map, List.length_range,
    List.length_replicate]
  omega

theorem getElem_alogContents (v : Nat) (hv : v < (alogContents poly m).length) :
    (alogContents poly m)[v] = if v < 2 ^ m - 1 then antilog poly m v else 0 := by
  simp only [alogContents, antilogTable_eq_map, List.getElem_append, List.length_map, List.length_range]
  split <;> simp

theorem length_logContents : (logContents poly m).length = 65536 := by
  rw [logContents, List.length_map, List.length_range]

theorem getElem_logContents (x : Nat) (hx : x < (logContents poly m).length) :
    (logContents poly m)[x] = logEntry (antilogTable poly m) (2 ^ m - 1) x := by
  simp only [logContents, List.getElem_map, List.getElem_range]

/-- The logarithm of an element is its place in the sequence, which takes no value twice. -/
theorem logEntry_antilog (h : IsModulus poly m) (hp : Primitive poly m) {v : Nat} (hv : v < 2 ^ m - 1) :
    logEntry (antilogTable poly m) (2 ^ m - 1) (antilog poly m v) = v := by
  have hlt := h.antilog_lt v
  have hnodup : (antilogTable poly m).Nodup := by
    rw [antilogTable_eq_map]
    refine List.Nodup.map_on (fun i hi j hj => ?_) List.nodup_range
    exact injective_of_surjective hp.2 (List.mem_range.1 hi) (List.mem_range.1 hj)
  have hlen : v < (antilogTable poly m).length := by simpa [antilogTable_eq_map] using hv
  have hget : (antilogTable poly m)[v] = antilog poly m v := by simp [antilogTable_eq_map]
  rw [logEntry, if_neg (h.antilog_ne_zero v), if_pos (by omega), ← hget]
  exact hnodup.idxOf_getElem v hlen

/-- Every entry of T.LOG fits its 16 bits (10_state.md R74). -/
theorem logEntry_lt (hm : m ≤ 16) (x : Nat) : logEntry (antilogTable poly m) (2 ^ m - 1) x < 65536 := by
  have hsize : 2 ^ m ≤ 2 ^ 16 := Nat.pow_le_pow_right (by decide) hm
  have hidx : (antilogTable poly m).idxOf x ≤ (antilogTable poly m).length := List.idxOf_le_length
  rw [antilogTable_eq_map, List.length_map, List.length_range, ← antilogTable_eq_map] at hidx
  unfold logEntry
  split
  · decide
  · split <;> omega

end Contents

/-! ### The tables stored (R91, R152) -/

/-- An entry of 16 bits (10_state.md R69 to R74) holds a stored number below 2^16. -/
theorem entry_storeNats_of_lt {s : State} {base k : Nat} {vs : List Nat} (hk : k < vs.length)
    (hmask : fieldMask (base + 4 * k) = 0xFFFF#32) (hv : vs[k] < 65536) :
    (s.storeNats base vs).entry base k = vs[k] := by
  rw [entry_storeNats s base vs k hk, hmask, BitVec.toNat_and, BitVec.toNat_ofNat]
  have hones : (0xFFFF#32).toNat = 2 ^ 16 - 1 := rfl
  rw [hones, Nat.and_two_pow_sub_one_eq_mod]
  omega

/-- A store leaves the entries outside its words as they were. -/
theorem entry_storeNats_outside (s : State) {base base' k : Nat} {vs : List Nat}
    (h : base' + 4 * k + 4 ≤ base ∨ base + 4 * vs.length ≤ base' + 4 * k) :
    (s.storeNats base vs).entry base' k = s.entry base' k :=
  congrArg BitVec.toNat (load_storeWords_outside s base _ _ (by simpa using h))

theorem fieldMask_alog {k : Nat} (hk : k < 65536) : fieldMask (alogBase + 4 * k) = 0xFFFF#32 :=
  fieldMask_eq (r := .alog) (show _ ∧ _ by unfold alogBase; omega) (by decide)

theorem fieldMask_log {k : Nat} (hk : k < 65536) : fieldMask (logBase + 4 * k) = 0xFFFF#32 :=
  fieldMask_eq (r := .log) (show _ ∧ _ by unfold logBase; omega) (by decide)

/-- The two tables of a modulus, stored by GF_INIT (R152). -/
def storeTables (s : State) (poly m : Nat) : State :=
  (s.storeNats alogBase (alogContents poly m)).storeNats logBase (logContents poly m)

section Tables

variable {s : State} {poly m : Nat}

theorem tAlog_storeTables (h : IsModulus poly m) {v : Nat} (hv : v < 65536) :
    (storeTables s poly m).tAlog v = if v < 2 ^ m - 1 then antilog poly m v else 0 := by
  have hlen := length_alogContents (poly := poly) h.le
  have hget := getElem_alogContents (poly := poly) (m := m) v (by omega)
  have hlt := h.antilog_lt v
  have hsize := h.size_le
  rw [State.tAlog, storeTables, entry_storeNats_outside _ (.inl (by unfold alogBase logBase; omega)),
    entry_storeNats_of_lt (by omega) (fieldMask_alog hv) (by rw [hget]; split <;> omega), hget]

theorem tLog_storeTables (hm : m ≤ 16) {x : Nat} (hx : x < 65536) :
    (storeTables s poly m).tLog x = logEntry (antilogTable poly m) (2 ^ m - 1) x := by
  have hlen := length_logContents (poly := poly) (m := m)
  have hget := getElem_logContents (poly := poly) (m := m) x (by omega)
  rw [State.tLog, storeTables,
    entry_storeNats_of_lt (by omega) (fieldMask_log hx) (by rw [hget]; exact logEntry_lt hm x), hget]

theorem loadByte_storeTables (hm : m ≤ 16) {a : Nat} (ha : a < 0x40000 ∨ 0xC0000 ≤ a) :
    (storeTables s poly m).loadByte a = s.loadByte a := by
  have halog := length_alogContents (poly := poly) hm
  have hlog := length_logContents (poly := poly) (m := m)
  unfold storeTables State.storeNats
  rw [loadByte_storeWords_outside _ _ _ _ (by rw [List.length_map, hlog]; unfold logBase; omega),
    loadByte_storeWords_outside _ _ _ _ (by rw [List.length_map, halog]; unfold alogBase; omega)]

theorem entry_congr {t : State} (h : t.mem = s.mem) (base k : Nat) : t.entry base k = s.entry base k :=
  congrArg BitVec.toNat (load_congr h _)

end Tables

/-- A state with the tables of a primitive modulus (R150, R152). -/
structure HasTables (t : State) (poly m : Nat) : Prop where
  modulus : IsModulus poly m
  primitive : Primitive poly m
  mem : ∃ s, t.mem = (storeTables s poly m).mem

namespace HasTables

variable {t : State} {poly m : Nat} (h : HasTables t poly m)
include h

theorem tAlog_eq {v : Nat} (hv : v < 65536) : t.tAlog v = if v < 2 ^ m - 1 then antilog poly m v else 0 := by
  obtain ⟨s, hs⟩ := h.mem
  exact (entry_congr hs alogBase v).trans (tAlog_storeTables h.modulus hv)

theorem tLog_eq {x : Nat} (hx : x < 65536) : t.tLog x = logEntry (antilogTable poly m) (2 ^ m - 1) x := by
  obtain ⟨s, hs⟩ := h.mem
  exact (entry_congr hs logBase x).trans (tLog_storeTables h.modulus.le hx)

theorem tAlog_eq_antilog {v : Nat} (hv : v < 2 ^ m - 1) : t.tAlog v = antilog poly m v := by
  have hsize := h.modulus.size_le
  rw [h.tAlog_eq (by omega), if_pos hv]

/-- The logarithm undoes the antilog. -/
theorem tLog_tAlog {v : Nat} (hv : v < 2 ^ m - 1) : t.tLog (t.tAlog v) = v := by
  have hlt := h.modulus.antilog_lt v
  have hsize := h.modulus.size_le
  rw [h.tAlog_eq_antilog hv, h.tLog_eq (by omega), logEntry_antilog h.modulus h.primitive hv]

theorem fieldOk (hpoly : t.gfPoly.toNat = poly) (hm : t.gfM.toNat = m) : FieldOk t := by
  subst hpoly
  subst hm
  obtain ⟨h1, h16, hlo, hhi, hodd⟩ := h.modulus
  refine ⟨h1, h16, hlo, hhi, hodd, fun v hv => h.tAlog_eq_antilog hv, fun x h1 hx => ?_⟩
  obtain ⟨v, hv, rfl⟩ := h.primitive.2 x h1 hx
  rw [← h.tAlog_eq_antilog hv, h.tLog_tAlog hv]
  exact ⟨hv, rfl⟩

end HasTables

/-! ### The command (R151 to R154) -/

section Command

variable {s : State}

theorem exec_gfInit_refused (h : s.opa.toNat < 2 ∨ 2 ^ 17 ≤ s.opa.toNat) :
    exec .gfInit s = .next (failed s 0x06#8 0x01000000#32) := by
  have hcheck : s.gfInitCheck = .error (mkErr .illegalOperand 1 0) :=
    require_eq_error.2 ⟨decide_eq_false (by simp only [State.opaN, mMax]; omega), rfl⟩
  show execGfInit s = _
  rw [execGfInit, hcheck]
  rfl

variable (hlo : 2 ≤ s.opa.toNat) (hhi : s.opa.toNat < 2 ^ 17)
include hlo hhi

/-- Past its check GF_INIT asks whether the modulus is primitive. -/
theorem exec_gfInit_of_range :
    exec .gfInit s =
      if modulusOk s.opa.toNat (Nat.log2 s.opa.toNat) then
        .next (completedRes
          { s with
            mem := (storeTables s s.opa.toNat (Nat.log2 s.opa.toNat)).mem
            valid := { s.valid with gf := true, rs := false, rem := false, syn := false }
            gfPoly := s.opa
            gfM := BitVec.ofNat 32 (Nat.log2 s.opa.toNat) } (BitVec.ofNat 32 (Nat.log2 s.opa.toNat)))
      else .next (s.gfInitStart.forgetField.takeError (mkErr .internalDefect 1 0)) := by
  show execGfInit s = _
  rw [execGfInit, gfInitCheck_eq_ok (u := ()) |>.2 ⟨hlo, hhi⟩]
  rfl

theorem toNat_degree : (BitVec.ofNat 32 (Nat.log2 s.opa.toNat)).toNat = Nat.log2 s.opa.toNat := by
  have hlt : Nat.log2 s.opa.toNat < 17 := (Nat.log2_lt (by omega)).2 hhi
  exact Nat.mod_eq_of_lt (by omega)

end Command

theorem loadByte_forgetField (s : State) {a : Nat} (ha : a < 0x40000 ∨ 0xC0000 ≤ a) :
    s.forgetField.loadByte a = s.loadByte a := by
  have hlen (k b : Nat) : (freeWords k b 65536).length = 65536 := by rw [freeWords, List.length_map, List.length_range]
  rw [State.forgetField, nextDraw_loadByte, State.forgetWords,
    loadByte_storeWords_outside _ _ _ _ (by rw [hlen]; unfold logBase; omega), State.forgetWords,
    loadByte_storeWords_outside _ _ _ _ (by rw [hlen]; unfold alogBase; omega)]

/-- Settles O13: the modulus passes the check, and the tables stored are those of its field. -/
theorem gfInitBuildsField : Obligations.GfInitBuildsField := by
  intro s hlo hhi hp
  have hm := isModulus_of_odd hlo hhi hp.1
  refine ⟨(storeTables s s.opa.toNat (Nat.log2 s.opa.toNat)).mem, ?_⟩
  intro t n
  have ht : HasTables t s.opa.toNat (Nat.log2 s.opa.toNat) := ⟨hm, hp, s, rfl⟩
  refine ⟨?_, fun v hv => ht.tAlog_eq hv, fun v hv => ht.tLog_tAlog hv, ?_, fun x hn hx => ?_,
    ht.fieldOk rfl (toNat_degree hlo hhi), fun a ha => loadByte_storeTables hm.le ha⟩
  · rw [exec_gfInit_of_range hlo hhi, if_pos ((modulusOk_iff hlo hhi).2 hp)]
  · rw [ht.tLog_eq (by decide), logEntry, if_pos rfl]
  · rw [ht.tLog_eq hx, logEntry, if_neg (by omega), if_neg (by omega)]

/-- Settles O14: the operand check comes first, then that of the modulus. -/
theorem gfInitRefuses : Obligations.GfInitRefuses := by
  refine fun s => ⟨exec_gfInit_refused, fun hlo hhi hp => ?_⟩
  refine ⟨s.gfInitStart.forgetField.mem, s.draws + 1, ?_⟩
  intro t
  refine ⟨?_, fun a ha => loadByte_forgetField s.gfInitStart ha⟩
  rw [exec_gfInit_of_range hlo hhi, if_neg fun hok => hp ((modulusOk_iff hlo hhi).1 hok)]
  rfl

end Sys2Proof.Proofs

/-! SUPPORT. The memory frame of the commands: which bytes the work of each may write, none of them in the tables of the
field and the generator (10_state.md R69 to R74, 20_memory.md R91), and that it keeps the registers of both (R44 to
R46). -/

namespace Sys2Proof.Proofs

open Sys2Proof Sys2Proof.Machine Sys2Proof.Laws Sys2Proof.Safety Sys2Proof.Claims

/-! ### Lengths of what the commands store -/

theorem length_shiftIn (s : State) {gen q : List Nat} (d : Nat) (hq : q.length = gen.length) :
    (s.shiftIn gen q d).length = gen.length := by
  simp only [State.shiftIn, List.length_zipWith, List.length_cons, List.length_dropLast]
  omega

/-- The shift register keeps its E coefficients (41_rs.md R185). -/
theorem length_remainder (s : State) (data : List Nat) : (s.remainder data).length = s.ecLen := by
  have hgen : s.genLow.length = s.ecLen := by rw [State.genLow, List.length_map, List.length_range]
  have hfold (q : List Nat) (hq : q.length = s.genLow.length) :
      (data.foldl (s.shiftIn s.genLow) q).length = s.genLow.length := by
    induction data generalizing q with
    | nil => exact hq
    | cons d ds ih => exact ih _ (length_shiftIn s d hq)
  rw [State.remainder, hfold _ (by rw [List.length_replicate, hgen]), hgen]

theorem length_syndromes (s : State) (cs : List Nat) : (s.syndromes cs).length = s.ecLen := by
  rw [State.syndromes, List.length_map, List.length_range]

theorem length_ecBlock (s : State) (ord : EcOrder) : (s.ecBlock ord).length = s.ecLen := by
  cases ord <;> simp [State.ecBlock]

theorem length_tags (s : State) : s.tags.length = s.n := by rw [State.tags, List.length_map, List.length_range]

theorem length_specs {s : State} {sp : List (BitVec 8)} (h : s.specs = .ok sp) : sp.length = s.n := by
  have hlen := (forPositions_eq_ok.1 h).length_eq
  rw [← hlen, List.length_range]

theorem length_resolve (s : State) (prev : Nat) (ps : List (Nat × BitVec 8)) :
    (s.resolve prev ps).length = ps.length := by
  induction ps generalizing prev with
  | nil => rfl
  | cons p ps ih => simp only [State.resolve, List.length_cons, ih]

/-- The runs of tags lie within them (42_segment.md R215). -/
theorem mem_runsFrom {m a p : Nat} {ts : List Nat} (hap : a ≤ p) {r : Run} (h : r ∈ runsFrom m a p ts) :
    r.a ≤ r.b ∧ r.b ≤ p + ts.length := by
  induction ts generalizing m a p with
  | nil =>
    obtain rfl : r = ⟨m, a, p⟩ := by simpa [runsFrom] using h
    exact ⟨hap, le_rfl⟩
  | cons t ts ih =>
    rw [List.length_cons]
    unfold runsFrom at h
    split at h
    · have := ih (by omega) h
      omega
    · rcases List.mem_cons.1 h with rfl | h
      · exact ⟨hap, Nat.le_add_right p _⟩
      · have := ih (by omega) h
        omega

theorem mem_runs {tags : List Nat} {r : Run} (h : r ∈ runs tags) : r.a ≤ r.b ∧ r.b ≤ tags.length := by
  cases tags with
  | nil => cases h
  | cons t ts =>
    have := mem_runsFrom (Nat.zero_le 1) h
    rw [List.length_cons]
    omega

theorem length_setRun {tags : List Nat} {r : Run} (h : r.a ≤ r.b ∧ r.b ≤ tags.length) (t : Nat) :
    (setRun tags r t).length = tags.length := by
  simp only [setRun, List.length_append, List.length_take, List.length_replicate, List.length_drop]
  omega

/-- The trials of a fold are among those of its targets (R227). -/
theorem cheapest_mem {best : Option (Nat × List Nat)} {ts : List (Option (Nat × List Nat))} {x : Nat × List Nat}
    (h : cheapest best ts = some x) : best = some x ∨ some x ∈ ts := by
  induction ts generalizing best with
  | nil => exact .inl h
  | cons t ts ih =>
    have hcons : some x ∈ ts → some x ∈ t :: ts := List.mem_cons_of_mem t
    cases t with
    | none => exact (ih (best := best) (by cases best <;> exact h)).imp_right hcons
    | some t =>
      cases best with
      | none => exact .inr ((ih h).elim (fun e => e ▸ List.mem_cons_self) hcons)
      | some b =>
        rcases ih h with e | hm
        · split at e
          · exact .inr (e ▸ List.mem_cons_self)
          · exact .inl e
        · exact .inr (hcons hm)

theorem length_of_trial {s : State} {tags : List Nat} {r : Run} {t : Nat} {x : Nat × List Nat}
    (hr : r.a ≤ r.b ∧ r.b ≤ tags.length) (h : s.trial tags r t = some x) : x.2.length = tags.length := by
  unfold State.trial at h
  split at h
  · cases h
  · split at h
    · obtain ⟨c, -, rfl⟩ := Option.map_eq_some_iff.1 h
      exact length_setRun hr t
    · cases h

theorem length_of_bestFold {s : State} {tags : List Nat} {prev next : Option Run} {r : Run} {x : Nat × List Nat}
    (hr : r.a ≤ r.b ∧ r.b ≤ tags.length) (h : s.bestFold tags prev r next = some x) : x.2.length = tags.length := by
  rcases cheapest_mem h with e | hm
  · cases e
  · obtain ⟨t, -, ht⟩ := List.mem_map.1 hm
    exact length_of_trial hr ht

theorem length_of_firstFold {s : State} {tags : List Nat} {cost : Nat} {prev : Option Run} {rs : List Run}
    {x : Nat × List Nat} (hrs : ∀ r ∈ rs, r.a ≤ r.b ∧ r.b ≤ tags.length)
    (h : s.firstFold tags cost prev rs = some x) : x.2.length = tags.length := by
  induction rs generalizing prev with
  | nil => cases h
  | cons r rs ih =>
    have hrest := ih (prev := some r) fun q hq => hrs q (List.mem_cons_of_mem r hq)
    unfold State.firstFold at h
    split at h
    · split at h
      next c w hbest =>
        split at h
        · cases h
          exact length_of_bestFold (hrs r List.mem_cons_self) hbest
        · exact hrest h
      next => exact hrest h
    · exact hrest h

/-- Folding keeps the number of tags (R227). -/
theorem length_gate (s : State) (f : Nat) (tags : List Nat) (cost folds : Nat) :
    (s.gate f tags cost folds).1.length = tags.length := by
  induction f generalizing tags cost folds with
  | zero => rfl
  | succ f ih =>
    unfold State.gate
    split
    next c w hfold => rw [ih, length_of_firstFold (fun r hr => mem_runs hr) hfold]
    next => rfl

theorem length_codewords (w : Nat) (bits : Bits) : (codewords w bits).length = bits.length / w := by
  rw [codewords, List.length_map, List.length_range]

/-- A size that SELECT takes has a data block that fits T.CW (44_capacity.md R292). -/
theorem count_of_trySize {s : State} {ecc : Nat} {bits : Bits} {x : Nat} {c : Choice}
    (h : s.trySize ecc bits x = .ok (some c)) : c.count ≤ cwMax := by
  unfold State.trySize at h
  dsimp only at h
  obtain ⟨-, ⟨⟩⟩ | ⟨-, h⟩ := ite_eq_iff.1 h
  obtain ⟨-, ⟨⟩⟩ | ⟨-, h⟩ := ite_eq_iff.1 h
  obtain ⟨-, ⟨⟩⟩ | ⟨-, h⟩ := ite_eq_iff.1 h
  obtain ⟨-, ⟨⟩⟩ | ⟨hd, h⟩ := ite_eq_iff.1 h
  cases h
  exact Nat.not_lt.1 (not_or.1 hd).2

theorem count_of_scanSizes {s : State} {ecc : Nat} {bits : Bits} {xs : List Nat} {c : Choice}
    (h : s.scanSizes ecc bits xs = .ok c) : c.count ≤ cwMax := by
  induction xs with
  | nil => cases h
  | cons x xs ih =>
    unfold State.scanSizes at h
    split at h
    next => cases h
    next c' hc => cases h; exact count_of_trySize hc
    next => exact ih h

end Sys2Proof.Proofs

/-! SUPPORT. The frame of the commands: each keeps the registers of the field and of the generator, and every byte that
its rule does not name (R44 to R46, R80); GF_INIT and RS_INIT, whose rules name these, stand apart. -/

namespace Sys2Proof.Proofs

open Sys2Proof Sys2Proof.Machine Sys2Proof.Laws Sys2Proof.Safety Sys2Proof.Claims

/-! ### Frames -/

/-- VALID.GF, VALID.RS and the registers that describe the field and the generator (10_state.md R44 to R46). -/
def engineRegs (s : State) : Bool × Bool × Word × Word × Word × Word :=
  (s.valid.gf, s.valid.rs, s.gfPoly, s.gfM, s.rsE, s.rsR0)

/-- The bytes of T.GEN, and all from T.ALOG on (20_memory.md R91). -/
def EngineTable (a : Nat) : Prop := (0x28000 ≤ a ∧ a < 0x2C004) ∨ 0x40000 ≤ a

theorem not_engineTable {a : Nat} (h : a < 0x28000 ∨ (0x2C004 ≤ a ∧ a < 0x40000)) : ¬ EngineTable a := by
  unfold EngineTable
  omega

/-- A byte the rule of the command names; none of the engine's tables while the EC length is in range (R46). -/
def MayWrite (s : State) (i : Instr) (a : Nat) : Prop :=
  Written s i a ∧ ((s.valid.rs = true → s.rsE.toNat ≤ 4096) → ¬ EngineTable a)

/-- `u` is `s` for the engine's registers and for every byte that command `i` may not write. -/
structure Frame (s : State) (i : Instr) (u : State) : Prop where
  regs : engineRegs u = engineRegs s
  bytes : ∀ a, ¬ MayWrite s i a → u.loadByte a = s.loadByte a

section Frames

variable {s u : State} {i : Instr}

theorem Frame.refl (s : State) (i : Instr) : Frame s i s := ⟨rfl, fun _ _ => rfl⟩

theorem Frame.completeOk (h : Frame s i u) : Frame s i u.completeOk := ⟨h.regs, h.bytes⟩

theorem Frame.takeError (h : Frame s i u) (e : Err) : Frame s i (u.takeError e) := ⟨h.regs, h.bytes⟩

theorem Frame.writeRes (h : Frame s i u) (v : Word) : Frame s i (u.writeRes v) := ⟨h.regs, h.bytes⟩

theorem Frame.nextDraw (h : Frame s i u) : Frame s i u.nextDraw := ⟨h.regs, h.bytes⟩

theorem Frame.setValidRem (h : Frame s i u) : Frame s i { u with valid := { u.valid with rem := true } } :=
  ⟨h.regs, h.bytes⟩

theorem Frame.setValidSyn (h : Frame s i u) : Frame s i { u with valid := { u.valid with syn := true } } :=
  ⟨h.regs, h.bytes⟩

/-- A store within what the command may write. -/
theorem storeNats_frame {base n : Nat} {vs : List Nat} (hn : vs.length = n)
    (hw : ∀ a, base ≤ a → a < base + 4 * n → MayWrite s i a) : Frame s i (s.storeNats base vs) := by
  refine ⟨rfl, fun a ha => loadByte_storeWords_outside s base _ a ?_⟩
  rw [List.length_map, hn]
  by_contra hin
  exact ha (hw a (by omega) (by omega))

end Frames

/-! ### Frames of the memory operations -/

section Operations

variable {s : State} {i : Instr}

/-- Tags go to T.MODE (42_segment.md R217, R220, R227). -/
theorem storeTags_frame {tags : List Nat} (hlen : tags.length = s.n) (hn : s.n ≤ charMaxN)
    (hw : ∀ a, 0x14000 ≤ a ∧ a < 0x14000 + 4 * s.nChars.toNat → Written s i a) : Frame s i (s.storeTags tags) := by
  refine storeNats_frame hlen fun a hlo hhi => ⟨hw a ⟨hlo, hhi⟩, fun _ => not_engineTable ?_⟩
  unfold charMaxN at hn
  unfold modeBase at hlo hhi
  omega

/-- The codewords of a choice go to T.CW (44_capacity.md R292, R298). -/
theorem storeChoice_frame {c : Choice} (hc : c.count ≤ cwMax)
    (hw : ∀ a, 0x20000 ≤ a ∧ a < 0x24000 → Written s i a) : Frame s i (s.storeChoice c) := by
  have hlen : (codewords c.w c.bits).length = c.count := by
    rw [length_codewords, Choice.bits, List.length_reverse, Choice.count]
  have hstore : Frame s i (s.storeNats cwBase (codewords c.w c.bits)) := by
    refine storeNats_frame hlen fun a hlo hhi => ?_
    unfold cwMax at hc
    unfold cwBase at hlo hhi
    exact ⟨hw a (by omega), fun _ => not_engineTable (by omega)⟩
  exact ⟨hstore.regs, hstore.bytes⟩

theorem clearSel_frame : Frame s i s.clearSel := ⟨rfl, fun _ _ => rfl⟩

variable (hw : ∀ a, 0x18000 + 4 * (s.bsLen.toNat / 32) ≤ a ∧ a < 0x19000 → Written s i a)
include hw

/-- The bytes of T.BS from the word that holds bit BS_LEN on, which BS_APPEND and BUILD may write (R241). -/
theorem outside_of_not_mayWrite {a : Nat} (ha : ¬ MayWrite s i a) :
    a < bsBase + 4 * (s.bsLen.toNat / 32) ∨ bsBase + 4096 ≤ a := by
  by_contra hin
  unfold bsBase at hin
  exact ha ⟨hw a (by omega), fun _ => not_engineTable (by omega)⟩

theorem append_frame {t : State} {b : Bits} (h : s.append b = .ok t) : Frame s i t := by
  obtain ⟨-, hmax, rfl⟩ := append_eq_ok.1 h
  unfold bsMaxBits at hmax
  refine ⟨by rw [putBits_frame]; rfl, fun a ha => loadByte_putBits_outside s s.bsLen.toNat b a ?_⟩
  have := outside_of_not_mayWrite hw ha
  omega

theorem forgetRest_frame : Frame s i (s.forgetStreamFrom s.bsLenN) :=
  ⟨rfl, fun a ha => loadByte_forgetStreamFrom_outside s s.bsLenN a (outside_of_not_mayWrite hw ha)⟩

end Operations

/-! ### The work of each command -/

/-- What the computation yields, where it succeeds, has the property. -/
structure Yields {α : Type} (P : α → Prop) (x : Except Err α) : Prop where
  of_ok : ∀ u, x = .ok u → P u

theorem Yields.pure {α : Type} {P : α → Prop} {u : α} (h : P u) : Yields P (.ok u) :=
  ⟨fun _ hu => by cases hu; exact h⟩

theorem Yields.bind {α β : Type} {P : β → Prop} {x : Except Err α} {f : α → Except Err β}
    (h : ∀ a, x = .ok a → Yields P (f a)) : Yields P (x >>= f) := by
  refine ⟨fun u hu => ?_⟩
  obtain ⟨a, hx, hf⟩ := bind_eq_ok.1 hu
  exact (h a hx).of_ok u hf

/-- An error completes with what was there before (60_exceptions.md R341). -/
theorem Yields.finish {s : State} {i : Instr} {x : Except Err State} (h : Yields (Frame s i) x) :
    Frame s i (s.finish x) := by
  cases x with
  | ok u => exact (h.of_ok u rfl).completeOk
  | error e => exact (Frame.refl s i).takeError e

section Work

variable (s : State)

theorem rsEncodeWork_frame : Yields (Frame s .rsEncode) s.rsEncodeWork := by
  refine .bind fun _ hc => .bind fun _ _ => .pure (Frame.setValidRem ?_)
  obtain ⟨hrs, -, -⟩ := rsBlockCheck_eq_ok.1 hc
  refine storeNats_frame (length_remainder s s.block) fun a hlo hhi => ⟨⟨hlo, hhi⟩, fun hE => not_engineTable ?_⟩
  have hlen := hE hrs
  unfold remBase State.ecLen at hhi
  omega

theorem rsSyndWork_frame : Yields (Frame s .rsSynd) s.rsSyndWork := by
  refine .bind fun _ hc => .bind fun _ _ => .pure (Frame.writeRes (Frame.setValidSyn ?_) _)
  obtain ⟨hrs, -, -⟩ := rsBlockCheck_eq_ok.1 hc
  refine storeNats_frame (length_syndromes s s.block) fun a hlo hhi => ⟨⟨hlo, hhi⟩, fun hE => not_engineTable ?_⟩
  have hlen := hE hrs
  unfold synBase at hlo hhi
  unfold State.ecLen at hhi
  omega

theorem rsAppendWork_frame (ord : EcOrder) : Yields (Frame s (.rsAppend ord)) (s.rsAppendWork ord) := by
  refine .bind fun _ hc => .pure (Frame.writeRes ?_ _)
  obtain ⟨-, -, hfit⟩ := rsAppendCheck_eq_ok.1 hc
  unfold cwMax at hfit
  refine storeNats_frame (length_ecBlock s ord) fun a hlo hhi => ?_
  unfold State.opaN State.opbN State.ecLen at *
  unfold cwBase at hlo hhi
  exact ⟨show _ ∧ _ by omega, fun _ => not_engineTable (by omega)⟩

theorem segClassifyWork_frame : Yields (Frame s .segClassify) s.segClassifyWork := by
  refine .bind fun _ hc => .bind fun sp hsp => .pure (Frame.writeRes ?_ _)
  obtain ⟨hn, -⟩ := segCheck_eq_ok.1 hc
  exact storeTags_frame (by rw [List.length_map, length_specs hsp]) hn fun _ h => h

theorem segResolveWork_frame : Yields (Frame s .segResolve) s.segResolveWork := by
  refine .bind fun _ hc => .bind fun _ _ => .bind fun sp hsp => .pure (Frame.writeRes ?_ _)
  obtain ⟨hn, -⟩ := segCheck_eq_ok.1 hc
  refine storeTags_frame ?_ hn fun _ h => h
  rw [length_resolve, List.length_zip, length_tags, length_specs hsp, Nat.min_self]

theorem segGateWork_frame : Yields (Frame s .segGate) s.segGateWork := by
  refine .bind fun _ hc => .bind fun _ _ => .bind fun _ _ => .bind fun b _ => .pure (Frame.writeRes ?_ _)
  obtain ⟨hn, -⟩ := segCheck_eq_ok.1 hc
  have hlen : (s.gate (b.length + 1) s.tags b.length 0).1.length = s.n := by rw [length_gate, length_tags]
  exact storeTags_frame hlen hn fun _ h => h

theorem bsAppendWork_frame (width : Nat) : Yields (Frame s (.bsAppend width)) (s.bsAppendWork width) :=
  .bind fun _ _ => .bind fun _ ht => .pure ((append_frame (by exact fun _ h => h) ht).writeRes _)

theorem buildWork_frame : Yields (Frame s .build) s.buildWork :=
  .bind fun _ _ => .bind fun _ ht => .pure ((append_frame (by exact fun _ h => h) ht).writeRes _)

end Work

/-! ### Completions -/

/-- Whatever next state the outcome has, it is within the frame. -/
def OutcomeFrame (s : State) (i : Instr) (o : Host.Outcome State Fault Refusal) : Prop :=
  ∀ t, o = .next t → Frame s i t

theorem OutcomeFrame.next {s t : State} {i : Instr} (h : Frame s i t) : OutcomeFrame s i (.next t) :=
  fun _ hu => by cases hu; exact h

theorem execBsClear_frame (s : State) : OutcomeFrame s .bsClear (execBsClear s) := by
  refine .next ⟨rfl, fun a ha => loadByte_forgetStreamFrom_outside s 0 a ?_⟩
  by_contra hin
  unfold bsBase at hin
  exact ha ⟨show _ ∧ _ by omega, fun _ => not_engineTable (by omega)⟩

theorem execBuild_frame (s : State) : OutcomeFrame s .build (execBuild s) := by
  unfold execBuild
  split
  case h_1 e _ => exact .next ((Frame.refl s _).takeError e)
  case h_2 =>
    split
    case h_1 t ht => exact .next ((buildWork_frame s).of_ok t ht).completeOk
    case h_2 e _ => exact .next ((forgetRest_frame (by exact fun _ h => h)).nextDraw.takeError e)

theorem execSelect_frame (ecc : Nat) (fixed : Bool) (minSize : Nat) (s : State) :
    OutcomeFrame s (.select ecc fixed minSize) (execSelect ecc fixed minSize s) := by
  unfold execSelect
  split
  case h_1 e _ => exact .next ((Frame.refl s _).takeError e)
  case h_2 =>
    split
    case h_1 e _ => exact .next (clearSel_frame.takeError e)
    case h_2 c hc =>
      have hstore := storeChoice_frame (s := s) (i := .select ecc fixed minSize) (count_of_scanSizes hc) fun _ h => h
      exact .next (hstore.writeRes c.size).completeOk

theorem execSplit_frame (w : Nat) (s : State) : OutcomeFrame s (.split w) (execSplit w s) := by
  unfold execSplit
  split
  case h_1 e _ => exact .next ((Frame.refl s _).takeError e)
  case h_2 =>
    dsimp only
    split
    · exact .next (clearSel_frame.takeError _)
    next hc =>
      have hstore := storeChoice_frame (s := s) (i := .split w) (Nat.not_lt.1 hc) fun _ h => h
      exact .next (hstore.writeRes _).completeOk

/-- Every command but the two that build the tables is within the frame. -/
theorem exec_frame {i : Instr} (hgf : i ≠ .gfInit) (hrs : i ≠ .rsInit) (s : State) : OutcomeFrame s i (exec i s) := by
  cases i with
  | gfInit => exact absurd rfl hgf
  | rsInit => exact absurd rfl hrs
  | nop => exact .next (Frame.refl s _).completeOk
  | gfMul | gfExp | gfPow | gfAdd =>
    exact .next (Yields.finish (.bind fun _ _ => .pure ((Frame.refl s _).writeRes _)))
  | gfDiv | gfInv | gfLog =>
    exact .next (Yields.finish (.bind fun _ _ => .bind fun _ _ => .pure ((Frame.refl s _).writeRes _)))
  | rsEncode => exact .next (rsEncodeWork_frame s).finish
  | rsSynd => exact .next (rsSyndWork_frame s).finish
  | rsAppend ord => exact .next (rsAppendWork_frame s ord).finish
  | segClassify => exact .next (segClassifyWork_frame s).finish
  | segResolve => exact .next (segResolveWork_frame s).finish
  | segGate => exact .next (segGateWork_frame s).finish
  | bsClear => exact execBsClear_frame s
  | bsAppend width => exact .next (bsAppendWork_frame s width).finish
  | build => exact execBuild_frame s
  | select ecc fixed minSize => exact execSelect_frame ecc fixed minSize s
  | split w => exact execSplit_frame w s

end Sys2Proof.Proofs

/-! SUPPORT. The engine's tables over a step (O12): they depend on the engine's registers and the bytes of the tables
alone, GF_INIT and RS_INIT build them, and no other step changes them but a soft reset, which clears VALID. -/

namespace Sys2Proof.Proofs

open Sys2Proof Sys2Proof.Machine Sys2Proof.Laws Sys2Proof.Safety Sys2Proof.Claims

/-! ### What the invariants depend on -/

/-- Two states with the same field registers and field tables. -/
structure SameField (s t : State) : Prop where
  poly : t.gfPoly = s.gfPoly
  degree : t.gfM = s.gfM
  alog : ∀ k, t.tAlog k = s.tAlog k
  log : ∀ k, t.tLog k = s.tLog k

theorem load_congr_bytes {s t : State} {a : Nat} (h : ∀ b, a ≤ b → b < a + 4 → t.loadByte b = s.loadByte b) :
    t.load a = s.load a := by
  unfold State.load State.rawWord
  rw [h (a + 3) (by omega) (by omega), h (a + 2) (by omega) (by omega), h (a + 1) (by omega) (by omega),
    h a le_rfl (by omega)]

/-- The field tables are the bytes from T.ALOG on, whatever the index (20_memory.md R91). -/
theorem sameField_of_bytes {s t : State} (hpoly : t.gfPoly = s.gfPoly) (hm : t.gfM = s.gfM)
    (h : ∀ a, 0x40000 ≤ a → t.loadByte a = s.loadByte a) : SameField s t := by
  have hentry (base k : Nat) (hb : 0x40000 ≤ base) : t.entry base k = s.entry base k :=
    congrArg BitVec.toNat (load_congr_bytes fun b hlo _ => h b (by omega))
  exact ⟨hpoly, hm, fun k => hentry alogBase k (by decide), fun k => hentry logBase k (by decide)⟩

namespace SameField

variable {s t : State} (h : SameField s t)
include h

theorem gfN : t.gfN = s.gfN := congrArg (fun m : Word => 2 ^ m.toNat - 1) h.degree

theorem gfmul (a b : Nat) : t.gfmul a b = s.gfmul a b := by
  simp only [State.gfmul, h.alog, h.log, h.gfN]

theorem gfexp (k : Nat) : t.gfexp k = s.gfexp k := by
  simp only [State.gfexp, h.alog, h.gfN]

theorem mulRoot (root prev : Nat) (gs : List Nat) : t.mulRoot root prev gs = s.mulRoot root prev gs := by
  induction gs generalizing prev with
  | nil => rfl
  | cons g gs ih => simp only [State.mulRoot, ih, h.gfmul]

theorem genCoeffs (r0 n : Nat) : t.genCoeffs r0 n = s.genCoeffs r0 n := by
  induction n with
  | zero => rfl
  | succ n ih => simp only [State.genCoeffs, ih, h.gfexp, h.mulRoot]

theorem fieldOk (hs : FieldOk s) : FieldOk t := by
  simpa only [FieldOk, h.poly, h.degree, h.alog, h.log] using hs

end SameField

/-- The invariant depends on the engine's registers and the bytes of its tables alone. -/
theorem tablesValid_congr {s t : State} (hs : TablesValid s) (hregs : engineRegs t = engineRegs s)
    (hbytes : ∀ a, EngineTable a → t.loadByte a = s.loadByte a) : TablesValid t := by
  simp only [engineRegs, Prod.mk.injEq] at hregs
  obtain ⟨hgf, hrs, hpoly, hm, hE, hr0⟩ := hregs
  obtain ⟨hfield, hgen⟩ := hs
  have hsame := sameField_of_bytes hpoly hm fun a ha => hbytes a (.inr ha)
  refine ⟨fun hv => hsame.fieldOk (hfield (hgf ▸ hv)), fun hv => ?_⟩
  obtain ⟨hv', h1, h4096, hcoeffs⟩ := hgen (hrs ▸ hv)
  refine ⟨hgf.trans hv', hE ▸ h1, hE ▸ h4096, fun k hk => ?_⟩
  rw [hE] at hk
  rw [hE, hr0, hsame.genCoeffs, ← hcoeffs k hk]
  refine congrArg BitVec.toNat (load_congr_bytes fun b hlo hhi => hbytes b (.inl ?_))
  unfold genBase at hlo hhi
  omega

/-! ### The generator's coefficients (41_rs.md R180) -/

theorem length_mulRoot (s : State) (root prev : Nat) (gs : List Nat) :
    (s.mulRoot root prev gs).length = gs.length + 1 := by
  induction gs generalizing prev with
  | nil => rfl
  | cons g gs ih => rw [State.mulRoot, List.length_cons, ih, List.length_cons]

theorem length_genCoeffs (s : State) (r0 n : Nat) : (s.genCoeffs r0 n).length = n + 1 := by
  induction n with
  | zero => rfl
  | succ n ih => rw [State.genCoeffs, length_mulRoot, ih]

section Coefficients

variable {s : State} (h : FieldOk s)
include h

theorem mulRoot_lt {root prev : Nat} {gs : List Nat} (hroot : root < 2 ^ s.gfM.toNat) (hprev : prev < 2 ^ s.gfM.toNat)
    (hgs : ∀ g ∈ gs, g < 2 ^ s.gfM.toNat) : ∀ c ∈ s.mulRoot root prev gs, c < 2 ^ s.gfM.toNat := by
  induction gs generalizing prev with
  | nil => exact List.forall_mem_singleton.2 (FieldOk.isModulus h).one_lt_size
  | cons g gs ih =>
    obtain ⟨hg, hgs⟩ := List.forall_mem_cons.1 hgs
    exact List.forall_mem_cons.2 ⟨Nat.xor_lt_two_pow (gfmul_spec h hg hroot).1 hprev, ih hg hgs⟩

/-- The coefficients of the generator are elements. -/
theorem genCoeffs_lt (r0 n : Nat) : ∀ c ∈ s.genCoeffs r0 n, c < 2 ^ s.gfM.toNat := by
  induction n with
  | zero => exact List.forall_mem_singleton.2 (FieldOk.isModulus h).one_lt_size
  | succ n ih => exact mulRoot_lt h (gfexp_spec h _).1 (Nat.two_pow_pos _) ih

theorem tGen_storeNats {n r0 k : Nat} (hn : n ≤ 4096) (hk : k ≤ n) :
    (s.storeNats genBase (s.genCoeffs r0 n)).tGen k = (s.genCoeffs r0 n).getD k 0 := by
  have hlen : k < (s.genCoeffs r0 n).length := by rw [length_genCoeffs]; omega
  have hlt := genCoeffs_lt h r0 n _ (List.getElem_mem hlen)
  have hmask : fieldMask (genBase + 4 * k) = 0xFFFF#32 :=
    fieldMask_eq (r := .gen) (show _ ∧ _ by unfold genBase; omega) (by decide)
  rw [State.tGen, entry_storeNats_of_lt hlen hmask (hlt.trans_le (FieldOk.isModulus h).size_le),
    List.getD_eq_getElem _ _ hlen]

end Coefficients

/-! ### Commands -/

/-- GF_INIT builds a field, or leaves VALID.GF clear, or changes nothing (40_gf.md R151, R154). -/
theorem exec_gfInit_tablesValid {s t : State} (hs : TablesValid s) (h : exec .gfInit s = .next t) :
    TablesValid t := by
  by_cases hrange : s.opa.toNat < 2 ∨ 2 ^ 17 ≤ s.opa.toNat
  · cases (exec_gfInit_refused hrange).symm.trans h
    exact tablesValid_congr hs rfl fun _ _ => rfl
  · obtain ⟨hlo, hhi⟩ := not_or.1 hrange
    by_cases hp : Primitive s.opa.toNat (Nat.log2 s.opa.toNat)
    · obtain ⟨m, ht, -, -, -, -, hfield, -⟩ := gfInitBuildsField s (Nat.not_lt.1 hlo) (Nat.not_le.1 hhi) hp
      cases ht.symm.trans h
      exact ⟨fun _ => hfield, nofun⟩
    · obtain ⟨m, k, ht, -⟩ := (gfInitRefuses s).2 (Nat.not_lt.1 hlo) (Nat.not_le.1 hhi) hp
      cases ht.symm.trans h
      exact ⟨nofun, nofun⟩

/-- A field with the coefficients of a generator stored in T.GEN (41_rs.md R180). -/
theorem tablesValid_of_generator {s t : State} (hs : FieldOk s) (hgf : t.valid.gf = true) (hpoly : t.gfPoly = s.gfPoly)
    (hm : t.gfM = s.gfM) (h1 : 1 ≤ t.rsE.toNat) (h4096 : t.rsE.toNat ≤ 4096)
    (hmem : t.mem = (s.storeNats genBase (s.genCoeffs t.rsR0.toNat t.rsE.toNat)).mem) : TablesValid t := by
  have hsame : SameField s t := by
    refine sameField_of_bytes hpoly hm fun a ha => ?_
    rw [State.loadByte, hmem]
    refine loadByte_storeWords_outside s genBase _ a (.inr ?_)
    rw [List.length_map, length_genCoeffs]
    unfold genBase
    omega
  refine ⟨fun _ => hsame.fieldOk hs, fun _ => ⟨hgf, h1, h4096, fun k hk => ?_⟩⟩
  rw [hsame.genCoeffs, ← tGen_storeNats hs h4096 hk]
  exact entry_congr hmem genBase k

/-- RS_INIT builds the generator in the field it found (41_rs.md R180, R183). -/
theorem rsInitWork_tablesValid {s : State} (hs : TablesValid s) : Yields TablesValid s.rsInitWork := by
  refine .bind fun _ hc => .pure ?_
  obtain ⟨hgf, h1, h4096⟩ := rsInitCheck_eq_ok.1 hc
  exact tablesValid_of_generator (hs.1 hgf) hgf rfl rfl h1 h4096 rfl

/-- The completion registers are none of the engine's (45_control.md R312). -/
theorem completeOk_tablesValid {s : State} (hs : TablesValid s) : TablesValid s.completeOk :=
  tablesValid_congr hs rfl fun _ _ => rfl

theorem takeError_tablesValid {s : State} (hs : TablesValid s) (e : Err) : TablesValid (s.takeError e) :=
  tablesValid_congr hs rfl fun _ _ => rfl

theorem exec_rsInit_tablesValid {s t : State} (hs : TablesValid s) (h : exec .rsInit s = .next t) :
    TablesValid t := by
  have hwork := rsInitWork_tablesValid hs
  have hexec : exec .rsInit s = .next (s.finish s.rsInitWork) := rfl
  cases hexec.symm.trans h
  cases hw : s.rsInitWork with
  | ok u => exact completeOk_tablesValid (hwork.of_ok u hw)
  | error e => exact takeError_tablesValid hs e

/-- With VALID.RS the EC length is in range, so the frame of a command leaves the tables as they were. -/
theorem Frame.tablesValid {s t : State} {i : Instr} (h : Frame s i t) (hs : TablesValid s) : TablesValid t := by
  refine tablesValid_congr hs h.regs fun a ha => h.bytes a fun ⟨_, hfree⟩ => hfree (fun hrs => ?_) ha
  obtain ⟨-, -, h4096, -⟩ := hs.2 hrs
  exact h4096

theorem exec_tablesValid {s t : State} (hs : TablesValid s) (i : Instr) (h : exec i s = .next t) : TablesValid t := by
  by_cases hgf : i = .gfInit
  · exact exec_gfInit_tablesValid hs (hgf ▸ h)
  · by_cases hrs : i = .rsInit
    · exact exec_rsInit_tablesValid hs (hrs ▸ h)
    · exact (exec_frame hgf hrs s t h).tablesValid hs

/-! ### Host transactions (20_memory.md R98; 70_reset_and_hazards.md R372) -/

/-- A host write to a word of the engine's tables, or past them, is refused (R96, R98). -/
theorem busWrite_engineTable {s : State} {a : Nat} (hlt : a < 0x100000) {b : Nat} (hb : a ≤ b ∧ b < a + 4)
    (ht : EngineTable b) (v : Word) : s.busWrite a v = flagged s true s.pending := by
  unfold EngineTable at ht
  by_cases hmis : a % 4 ≠ 0
  · exact busWrite_refused (.inl hmis) v
  · by_cases hres : 0xC0000 ≤ a
    · exact busWrite_refused (.inr ⟨by omega, hlt, by omega⟩) v
    · exact busWrite_readOnly ⟨by omega, by omega⟩ v

/-- The registers of the engine take no host write (R98); a soft reset clears VALID (R372). -/
theorem writeReg_tablesValid {s : State} (hs : TablesValid s) (r : Reg) (v : Word) : TablesValid (s.writeReg r v) := by
  cases r with
  | ctrl =>
    simp only [State.writeReg]
    split
    · exact ⟨nofun, nofun⟩
    · obtain ⟨c, hw, -⟩ := writeCtrlFields_frame s v
      rw [hw]
      exact tablesValid_congr hs rfl fun _ _ => rfl
  | _ => exact tablesValid_congr hs rfl fun _ _ => rfl

theorem busWrite_tablesValid {s : State} (hs : TablesValid s) {a : Nat} (hlt : a < 0x100000) (v : Word) :
    TablesValid (s.busWrite a v) := by
  by_cases htable : ∃ b, (a ≤ b ∧ b < a + 4) ∧ EngineTable b
  · obtain ⟨b, hb, ht⟩ := htable
    rw [busWrite_engineTable hlt hb ht]
    exact tablesValid_congr hs rfl fun _ _ => rfl
  · rcases busWrite_cases s a v with ⟨aerr, ovr, hw⟩ | hw | ⟨r, -, -, hw⟩
    · exact hw ▸ tablesValid_congr hs rfl fun _ _ => rfl
    · rw [hw]
      refine tablesValid_congr hs rfl fun b hb => loadByte_storeWords_outside s a [v] b ?_
      by_contra hin
      rw [List.length_singleton] at hin
      exact htable ⟨b, by omega, hb⟩
    · exact hw ▸ writeReg_tablesValid hs r v

theorem hostStep_tablesValid {s : State} (hs : TablesValid s) (x : HostTxn) (rest : List HostTxn) :
    TablesValid (s.hostStep x rest) := by
  have hs' : TablesValid { s with hostQueue := rest, delay := s.delay - 1 } :=
    tablesValid_congr hs rfl fun _ _ => rfl
  cases x with
  | read a =>
    show TablesValid (State.busRead _ a.toNat)
    unfold State.busRead
    split <;> exact tablesValid_congr hs' rfl fun _ _ => rfl
  | write a v => exact busWrite_tablesValid hs' a.isLt v

/-- Settles O12, by the cases of a step: the engine's completion, the host's transaction, or none. -/
theorem engineTablesKept : Obligations.EngineTablesKept := by
  intro s t hs h
  cases he : s.engineTurn with
  | true =>
    rw [step_engine he] at h
    split at h
    next i _ => exact exec_tablesValid hs i h
    next => cases h; exact takeError_tablesValid hs _
  | false =>
    rw [step_host he] at h
    split at h
    next => cases h; exact hs
    next x rest _ => cases h; exact hostStep_tablesValid hs x rest

end Sys2Proof.Proofs

/-! SUPPORT. The numbers of the Reed-Solomon engine (41_rs.md R180, R185, R191): every operation stays below a power of
two that bounds its operands, be it the size of a valid field or that of an entry of 16 bits; so what is stored reads
back unchanged. -/

namespace Sys2Proof.Proofs

open Sys2Proof Sys2Proof.Machine Sys2Proof.Laws Sys2Proof.Safety Sys2Proof.Claims

/-! ### Entries of 16 bits (10_state.md R69 to R74) -/

/-- From T.CW on, an entry has 16 bits or none (20_memory.md R91). -/
theorem fieldMask_lt {a : Nat} (h : 0x20000 ≤ a) : (fieldMask a).toNat < 65536 := by
  obtain ⟨r, hr, hin⟩ : ∃ r, r ∈ [Region.cw, .rem, .gen, .syn, .alog, .log, .reserved] ∧ InRegion r a := by
    have hgap : InGap a ↔ (0x2C004 ≤ a ∧ a < 0x30000) ∨ (0x34000 ≤ a ∧ a < 0x40000) ∨ 0xC0000 ≤ a := by
      unfold InGap
      omega
    simp only [List.mem_cons, List.not_mem_nil, or_false, exists_eq_or_imp, exists_eq_left, InRegion, hgap]
    omega
  have hfields : ∀ r ∈ [Region.cw, .rem, .gen, .syn, .alog, .log, .reserved],
      r ≠ .size ∧ (entryFields r).toNat < 65536 := by decide
  obtain ⟨hsize, hlt⟩ := hfields r hr
  rwa [fieldMask_eq hin hsize]

theorem entry_lt {s : State} {base : Nat} (h : 0x20000 ≤ base) (k : Nat) : s.entry base k < 65536 := by
  rw [State.entry, State.load, BitVec.toNat_and]
  exact Nat.and_le_right.trans_lt (fieldMask_lt (by omega))

theorem fieldMask_cw {k : Nat} (hk : k < 4096) : fieldMask (cwBase + 4 * k) = 0xFFFF#32 :=
  fieldMask_eq (r := .cw) (show _ ∧ _ by unfold cwBase; omega) (by decide)

theorem fieldMask_rem {k : Nat} (hk : k < 4096) : fieldMask (remBase + 4 * k) = 0xFFFF#32 :=
  fieldMask_eq (r := .rem) (show _ ∧ _ by unfold remBase; omega) (by decide)

theorem fieldMask_gen {k : Nat} (hk : k ≤ 4096) : fieldMask (genBase + 4 * k) = 0xFFFF#32 :=
  fieldMask_eq (r := .gen) (show _ ∧ _ by unfold genBase; omega) (by decide)

theorem fieldMask_syn {k : Nat} (hk : k < 4096) : fieldMask (synBase + 4 * k) = 0xFFFF#32 :=
  fieldMask_eq (r := .syn) (show _ ∧ _ by unfold synBase; omega) (by decide)

/-- A list of numbers below 2^16, stored in entries of 16 bits, reads back. -/
theorem getD_of_storeNats {s : State} {base k : Nat} {vs : List Nat} (hk : k < vs.length)
    (hmask : fieldMask (base + 4 * k) = 0xFFFF#32) (hvs : ∀ v ∈ vs, v < 2 ^ 16) :
    (s.storeNats base vs).entry base k = vs.getD k 0 := by
  rw [entry_storeNats_of_lt hk hmask (hvs _ (List.getElem_mem hk)), List.getD_eq_getElem _ _ hk]

/-- A store leaves every byte outside its entries. -/
theorem storeNats_sameOutside (s : State) {base n : Nat} {vs : List Nat} (hn : vs.length = n) :
    SameOutside s (s.storeNats base vs) base (base + 4 * n) :=
  fun a ha => loadByte_storeWords_outside s base _ a (by rwa [List.length_map, hn])

/-! ### Bounds of the engine's numbers -/

theorem remainder_append_singleton (s : State) (cs : List Nat) (c : Nat) :
    s.remainder (cs ++ [c]) = s.shiftIn s.genLow (s.remainder cs) c := by
  rw [State.remainder, List.foldl_append]
  rfl

theorem horner_append_singleton (s : State) (z : Nat) (cs : List Nat) (c : Nat) :
    s.horner z (cs ++ [c]) = s.gfmul (s.horner z cs) z ^^^ c := by
  rw [State.horner, List.foldl_append]
  rfl

theorem mem_genLow {s : State} {c : Nat} (h : c ∈ s.genLow) : ∃ k, k < s.rsE.toNat ∧ s.tGen k = c := by
  simpa [State.genLow, State.ecLen] using h

theorem mem_block {s : State} {c : Nat} (h : c ∈ s.block) : ∃ i, i < s.opa.toNat ∧ s.tCw (s.opb.toNat + i) = c := by
  simpa [State.block, State.opaN, State.opbN] using h

/-- The table functions stay below 2^n on operands below 2^n. -/
structure ClosedBelow (s : State) (n : Nat) : Prop where
  one_lt : 1 < 2 ^ n
  gfmul_lt : ∀ a b, a < 2 ^ n → b < 2 ^ n → s.gfmul a b < 2 ^ n
  gfexp_lt : ∀ k, s.gfexp k < 2 ^ n

/-- Whatever the tables hold, their entries have 16 bits. -/
theorem closedBelow_word (s : State) : ClosedBelow s 16 := by
  refine ⟨by decide, fun a b _ _ => ?_, fun k => entry_lt (by decide) _⟩
  unfold State.gfmul
  split
  · decide
  · exact entry_lt (by decide) _

theorem FieldOk.closedBelow {s : State} (h : FieldOk s) : ClosedBelow s s.gfM.toNat :=
  ⟨(FieldOk.isModulus h).one_lt_size, fun _ _ ha hb => (gfmul_spec h ha hb).1, fun k => (gfexp_spec h k).1⟩

namespace ClosedBelow

variable {s : State} {n : Nat} (h : ClosedBelow s n)
include h

theorem mulRoot_lt {root prev : Nat} {gs : List Nat} (hroot : root < 2 ^ n) (hprev : prev < 2 ^ n)
    (hgs : ∀ g ∈ gs, g < 2 ^ n) : ∀ c ∈ s.mulRoot root prev gs, c < 2 ^ n := by
  induction gs generalizing prev with
  | nil => exact List.forall_mem_singleton.2 h.one_lt
  | cons g gs ih =>
    obtain ⟨hg, hgs⟩ := List.forall_mem_cons.1 hgs
    exact List.forall_mem_cons.2 ⟨Nat.xor_lt_two_pow (h.gfmul_lt g root hg hroot) hprev, ih hg hgs⟩

theorem genCoeffs_lt (r0 i : Nat) : ∀ c ∈ s.genCoeffs r0 i, c < 2 ^ n := by
  induction i with
  | zero => exact List.forall_mem_singleton.2 h.one_lt
  | succ i ih => exact h.mulRoot_lt (h.gfexp_lt _) (Nat.two_pow_pos n) ih

theorem shiftIn_lt {gen q : List Nat} {d : Nat} (hgen : ∀ g ∈ gen, g < 2 ^ n) (hq : ∀ c ∈ q, c < 2 ^ n)
    (hd : d < 2 ^ n) : ∀ c ∈ s.shiftIn gen q d, c < 2 ^ n := by
  have hcons : ∀ c ∈ 0 :: q, c < 2 ^ n := List.forall_mem_cons.2 ⟨Nat.two_pow_pos n, hq⟩
  have hfb : q.getLastD 0 ^^^ d < 2 ^ n := Nat.xor_lt_two_pow (hcons _ List.getLastD_mem_cons) hd
  have hprev : ∀ c ∈ 0 :: q.dropLast, c < 2 ^ n :=
    fun c hc => hcons c (List.cons_subset_cons 0 (List.dropLast_subset q) hc)
  intro c hc
  obtain ⟨k, hk, rfl⟩ := List.mem_iff_getElem.1 hc
  simp only [State.shiftIn, List.getElem_zipWith]
  exact Nat.xor_lt_two_pow (hprev _ (List.getElem_mem _)) (h.gfmul_lt _ _ hfb (hgen _ (List.getElem_mem _)))

/-- The coefficients of the shift register (R185). -/
theorem remainder_lt (hgen : ∀ g ∈ s.genLow, g < 2 ^ n) {cs : List Nat} (hcs : ∀ c ∈ cs, c < 2 ^ n) :
    ∀ c ∈ s.remainder cs, c < 2 ^ n := by
  induction cs using List.reverseRecOn with
  | nil => exact fun c hc => List.eq_of_mem_replicate hc ▸ Nat.two_pow_pos n
  | append_singleton cs d ih =>
    obtain ⟨hcs, hd⟩ := List.forall_mem_append.1 hcs
    rw [remainder_append_singleton]
    exact h.shiftIn_lt hgen (ih hcs) (hd d List.mem_cons_self)

/-- The value of Horner's rule (R191). -/
theorem horner_lt {z : Nat} (hz : z < 2 ^ n) {cs : List Nat} (hcs : ∀ c ∈ cs, c < 2 ^ n) : s.horner z cs < 2 ^ n := by
  induction cs using List.reverseRecOn with
  | nil => exact Nat.two_pow_pos n
  | append_singleton cs c ih =>
    obtain ⟨hcs, hc⟩ := List.forall_mem_append.1 hcs
    rw [horner_append_singleton]
    exact Nat.xor_lt_two_pow (h.gfmul_lt _ _ (ih hcs) hz) (hc c List.mem_cons_self)

end ClosedBelow

section Word

variable (s : State)

theorem genLow_lt_word : ∀ g ∈ s.genLow, g < 2 ^ 16 := by
  intro g hg
  obtain ⟨k, -, rfl⟩ := mem_genLow hg
  exact entry_lt (by decide) k

theorem block_lt_word : ∀ c ∈ s.block, c < 2 ^ 16 := by
  intro c hc
  obtain ⟨i, -, rfl⟩ := mem_block hc
  exact entry_lt (by decide) _

theorem remainder_lt_word : ∀ c ∈ s.remainder s.block, c < 2 ^ 16 :=
  (closedBelow_word s).remainder_lt (genLow_lt_word s) (block_lt_word s)

theorem syndromes_lt_word : ∀ c ∈ s.syndromes s.block, c < 2 ^ 16 := by
  intro c hc
  obtain ⟨j, -, rfl⟩ := List.mem_map.1 hc
  exact (closedBelow_word s).horner_lt ((closedBelow_word s).gfexp_lt _) (block_lt_word s)

theorem ecBlock_lt_word (ord : EcOrder) : ∀ c ∈ s.ecBlock ord, c < 2 ^ 16 := by
  have hrem : ∀ c ∈ (List.range s.ecLen).map s.tRem, c < 2 ^ 16 := by
    intro c hc
    obtain ⟨k, -, rfl⟩ := List.mem_map.1 hc
    exact entry_lt (by decide) k
  cases ord with
  | reverse => exact fun c hc => hrem c (List.mem_reverse.1 hc)
  | ascending => exact hrem

end Word

end Sys2Proof.Proofs

/-! SUPPORT. The Reed-Solomon commands (41_rs.md R180, R185, R188, R191, R195): what their checks refuse, and what the
commands that pass them store (O21, O23, O24, O26, O27, O29). -/

namespace Sys2Proof.Proofs

open Sys2Proof Sys2Proof.Machine Sys2Proof.Laws Sys2Proof.Safety Sys2Proof.Claims

/-! ### Commands that check first -/

section Checks

variable {s : State} {i : Instr} {α : Type} {x : Except Err α} {f : α → Except Err State}

theorem exec_of_check_error (hi : exec i s = .next (s.finish (x >>= f))) {e : Err} (hx : x = .error e) :
    exec i s = .next (s.takeError e) := by
  rw [hi, hx]
  rfl

theorem exec_of_check_ok (hi : exec i s = .next (s.finish (x >>= f))) {a : α} (hx : x = .ok a) :
    exec i s = .next (s.finish (f a)) := by
  rw [hi, hx]
  rfl

theorem require_bind_error {c : Bool} (hc : c = false) (e : Err) (g : Unit → Except Err α) :
    (require c e >>= g) = .error e :=
  bind_eq_error.2 (.inl (require_eq_error.2 ⟨hc, rfl⟩))

theorem require_bind_ok {c : Bool} (hc : c = true) (e : Err) (g : Unit → Except Err α) :
    (require c e >>= g) = g () := by
  rw [require_eq_ok (u := ()) |>.2 hc]
  rfl

end Checks

/-! ### RS_INIT (R180) -/

section RsInit

variable {s : State}

theorem rsInitCheck_notReady (h : s.valid.gf = false) : s.rsInitCheck = .error (mkErr .notReady 0 0) :=
  require_bind_error h ..

theorem rsInitCheck_length (hgf : s.valid.gf = true) (h : s.opa.toNat = 0 ∨ 4096 < s.opa.toNat) :
    s.rsInitCheck = .error (mkErr .illegalOperand 1 0) := by
  refine (require_bind_ok hgf ..).trans (require_eq_error.2 ⟨decide_eq_false ?_, rfl⟩)
  unfold State.opaN eMax
  omega

theorem exec_rsInit (hgf : s.valid.gf = true) (h1 : 1 ≤ s.opa.toNat) (h4096 : s.opa.toNat ≤ 4096) :
    exec .rsInit s = .next (completed
      { s with
        mem := (s.storeNats genBase (s.genCoeffs s.opb.toNat s.opa.toNat)).mem
        rsE := s.opa
        rsR0 := s.opb
        valid := { s.valid with rs := true, rem := false, syn := false } }) :=
  (exec_of_check_ok (i := .rsInit) rfl (rsInitCheck_eq_ok (u := ()) |>.2 ⟨hgf, h1, h4096⟩) :)

/-- The coefficients that RS_INIT stores read back, whatever the field tables hold. -/
theorem tGen_rsInit {n r0 k : Nat} (hn : n ≤ 4096) (hk : k ≤ n) :
    (s.storeNats genBase (s.genCoeffs r0 n)).tGen k = (s.genCoeffs r0 n).getD k 0 := by
  have hlen := length_genCoeffs s r0 n
  exact getD_of_storeNats (by omega) (fieldMask_gen (by omega)) ((closedBelow_word s).genCoeffs_lt r0 n)

end RsInit

/-- Settles O21: the two checks in order, then the store of the coefficients. -/
theorem rsInitCommand : Obligations.RsInitCommand := by
  refine fun s => ⟨fun hgf => exec_of_check_error rfl (rsInitCheck_notReady hgf),
    fun hgf hE => exec_of_check_error rfl (rsInitCheck_length hgf hE), fun hgf h1 h4096 =>
    ⟨_, exec_rsInit hgf h1 h4096, fun k hk => tGen_rsInit h4096 hk, ?_⟩⟩
  exact storeNats_sameOutside s (length_genCoeffs s _ _)

/-! ### The block of RS_ENCODE and RS_SYND (R185, R191) -/

section Block

variable {s : State}

theorem rsBlockCheck_notReady (h : s.valid.rs = false) : s.rsBlockCheck = .error (mkErr .notReady 0 1) :=
  require_bind_error h ..

theorem rsBlockCheck_length (hrs : s.valid.rs = true) (h : 4096 < s.opa.toNat) :
    s.rsBlockCheck = .error (mkErr .illegalOperand 1 0) :=
  (require_bind_ok hrs ..).trans (require_bind_error (decide_eq_false (Nat.not_le.2 h)) ..)

theorem rsBlockCheck_base (hrs : s.valid.rs = true) (hlen : s.opa.toNat ≤ 4096)
    (h : 4096 < s.opb.toNat + s.opa.toNat) : s.rsBlockCheck = .error (mkErr .illegalOperand 2 0) := by
  refine (require_bind_ok hrs ..).trans ((require_bind_ok (decide_eq_true hlen) ..).trans ?_)
  exact require_eq_error.2 ⟨decide_eq_false (Nat.not_le.2 h), rfl⟩

theorem rsBlockCheck_ok (hrs : s.valid.rs = true) (h : BlockFits s) : s.rsBlockCheck = .ok () :=
  rsBlockCheck_eq_ok.2 ⟨hrs, h⟩

/-- The lowest codeword that is no element is the one reported. -/
theorem checkElems_error {cs : List Nat} {j : Nat} (k : Nat) (hj : j < cs.length) (hbad : s.gfSize ≤ cs[j])
    (hlow : ∀ i, (hi : i < j) → cs[i] < s.gfSize) : s.checkElems k cs = .error (mkErr .illegalOperand 4 (k + j)) := by
  induction cs generalizing j k with
  | nil => cases hj
  | cons c cs ih =>
    unfold State.checkElems
    cases j with
    | zero => exact if_neg (Nat.not_lt.2 hbad)
    | succ j =>
      have hc : c < s.gfSize := hlow 0 (Nat.succ_pos j)
      rw [if_pos hc, ih (k + 1) (Nat.lt_of_succ_lt_succ hj) hbad fun i hi => hlow (i + 1) (Nat.succ_lt_succ hi),
        Nat.add_right_comm, Nat.add_assoc]

theorem length_block (s : State) : s.block.length = s.opa.toNat := by
  rw [State.block, List.length_map, List.length_range, State.opaN]

theorem getElem_block {i : Nat} (hi : i < s.block.length) : s.block[i] = s.tCw (s.opb.toNat + i) := by
  simp only [State.block, List.getElem_map, List.getElem_range, State.opbN]

theorem block_lt (h : BlockElements s) : ∀ c ∈ s.block, c < 2 ^ s.gfM.toNat := by
  intro c hc
  obtain ⟨i, hi, rfl⟩ := mem_block hc
  exact h i hi

theorem checkElems_block_ok (h : BlockElements s) : s.checkElems s.opbN s.block = .ok () :=
  checkElems_eq_ok.2 (block_lt h)

theorem checkElems_block_error {k : Nat} (hk : k < s.opa.toNat) (hbad : 2 ^ s.gfM.toNat ≤ s.tCw (s.opb.toNat + k))
    (hlow : ∀ j, j < k → s.tCw (s.opb.toNat + j) < 2 ^ s.gfM.toNat) :
    s.checkElems s.opbN s.block = .error (mkErr .illegalOperand 4 (s.opb.toNat + k)) := by
  have hlen := length_block s
  refine checkElems_error _ (by omega) ?_ fun j hj => ?_
  · rw [getElem_block]
    exact hbad
  · rw [getElem_block]
    exact hlow j hj

/-- What a command of the block refuses, in the order of R185. -/
theorem exec_block_refuses {i : Instr} {f : Unit → Except Err State}
    (hi : exec i s = .next (s.finish (s.rsBlockCheck >>= fun _ => s.checkElems s.opbN s.block >>= f))) :
    (s.valid.rs = false → exec i s = .next (failed s 0x07#8 1#32))
    ∧ (s.valid.rs = true → 4096 < s.opa.toNat → exec i s = .next (failed s 0x06#8 0x01000000#32))
    ∧ (s.valid.rs = true → s.opa.toNat ≤ 4096 → 4096 < s.opb.toNat + s.opa.toNat →
        exec i s = .next (failed s 0x06#8 0x02000000#32))
    ∧ (s.valid.rs = true → BlockFits s → ∀ k, k < s.opa.toNat → 2 ^ s.gfM.toNat ≤ s.tCw (s.opb.toNat + k) →
        (∀ j, j < k → s.tCw (s.opb.toNat + j) < 2 ^ s.gfM.toNat) →
        exec i s = .next (failed s 0x06#8 (0x04000000#32 ||| BitVec.ofNat 32 (s.opb.toNat + k)))) := by
  refine ⟨fun hrs => exec_of_check_error hi (rsBlockCheck_notReady hrs),
    fun hrs hL => exec_of_check_error hi (rsBlockCheck_length hrs hL),
    fun hrs hL hbase => exec_of_check_error hi (rsBlockCheck_base hrs hL hbase), fun hrs hfit k hk hbad hlow => ?_⟩
  exact exec_of_check_error (exec_of_check_ok hi (rsBlockCheck_ok hrs hfit)) (checkElems_block_error hk hbad hlow)

/-- A block that passes the checks is worked on. -/
theorem exec_of_block {i : Instr} {f : Unit → Except Err State}
    (hi : exec i s = .next (s.finish (s.rsBlockCheck >>= fun _ => s.checkElems s.opbN s.block >>= f)))
    (hrs : s.valid.rs = true) (hfit : BlockFits s) (helem : BlockElements s) :
    exec i s = .next (s.finish (f ())) :=
  exec_of_check_ok (exec_of_check_ok hi (rsBlockCheck_ok hrs hfit)) (checkElems_block_ok helem)

theorem exec_rsEncode (hrs : s.valid.rs = true) (hfit : BlockFits s) (helem : BlockElements s) :
    exec .rsEncode s = .next (completed
      { s with
        mem := (s.storeNats remBase (s.remainder s.block)).mem
        valid := { s.valid with rem := true } }) :=
  (exec_of_block (i := .rsEncode) rfl hrs hfit helem :)

theorem exec_rsSynd (hrs : s.valid.rs = true) (hfit : BlockFits s) (helem : BlockElements s) :
    exec .rsSynd s = .next (completedRes
      { s with
        mem := (s.storeNats synBase (s.syndromes s.block)).mem
        valid := { s.valid with syn := true } }
      (BitVec.ofNat 32 ((s.syndromes s.block).countP fun x => decide (x ≠ 0)))) :=
  (exec_of_block (i := .rsSynd) rfl hrs hfit helem :)

end Block

/-- Settles O23: both commands make the checks of the block, in one order. -/
theorem rsBlockRefusals : Obligations.RsBlockRefusals := by
  rintro s i (rfl | rfl)
  · exact exec_block_refuses rfl
  · exact exec_block_refuses rfl

/-! ### RS_ENCODE (R185, R188) -/

/-- Settles O24: the coefficients fit their entries, so they read back. -/
theorem rsEncodeCommand : Obligations.RsEncodeCommand := by
  intro s hrs hE hfit helem
  have hlen : (s.remainder s.block).length = s.rsE.toNat := length_remainder s s.block
  exact ⟨_, exec_rsEncode hrs hfit helem,
    fun k hk => getD_of_storeNats (hlen ▸ hk) (fieldMask_rem (by omega)) (remainder_lt_word s),
    storeNats_sameOutside s hlen⟩

/-- A zero codeword shifted into a register of zeros gives feedback 0 (R188). -/
theorem shiftIn_zero (s : State) {gen : List Nat} {n : Nat} (hn : gen.length = n) :
    s.shiftIn gen (List.replicate n 0) 0 = List.replicate n 0 := by
  have hfb : (List.replicate n 0).getLastD 0 = 0 := by
    rw [List.getLastD_eq_getLast?, List.getLast?_replicate]
    split <;> rfl
  have hmul (g : Nat) : s.gfmul 0 g = 0 := if_pos (.inl rfl)
  refine List.ext_getElem ?_ fun k hk _ => ?_
  · rw [length_shiftIn s 0 (by rw [List.length_replicate, hn]), List.length_replicate, hn]
  · simp only [State.shiftIn, List.getElem_zipWith, hfb, Nat.xor_self, hmul, Nat.xor_zero, List.getElem_replicate]
    cases k <;> simp

theorem remainder_zero (s : State) {cs : List Nat} (h : ∀ c ∈ cs, c = 0) :
    s.remainder cs = List.replicate s.ecLen 0 := by
  have hgen : s.genLow.length = s.ecLen := by rw [State.genLow, List.length_map, List.length_range]
  induction cs using List.reverseRecOn with
  | nil => rfl
  | append_singleton cs c ih =>
    obtain ⟨hcs, hc⟩ := List.forall_mem_append.1 h
    rw [remainder_append_singleton, ih hcs, List.forall_mem_singleton.1 hc, shiftIn_zero s hgen]

/-- Settles O26: a stored 0 reads as 0 wherever it goes, so the EC length needs no bound. -/
theorem zeroDataZeroRemainder : Obligations.ZeroDataZeroRemainder := by
  intro s hrs hfit hzero
  have helem : BlockElements s := fun i hi => hzero i hi ▸ Nat.two_pow_pos _
  refine ⟨_, exec_rsEncode hrs hfit helem, fun k hk => ?_⟩
  have hrem : s.remainder s.block = List.replicate s.ecLen 0 := remainder_zero s fun c hc => by
    obtain ⟨i, hi, rfl⟩ := mem_block hc
    exact hzero i hi
  have hstored : (s.storeNats remBase (s.remainder s.block)).tRem k = 0 := by
    rw [State.tRem, hrem, entry_storeNats _ _ _ _ (by rw [List.length_replicate]; exact hk), List.getElem_replicate]
    simp
  exact hstored

/-! ### RS_SYND (R191) -/

/-- Settles O27: the syndromes fit their entries, and counting the nonzero ones is filtering their indices. -/
theorem rsSyndCommand : Obligations.RsSyndCommand := by
  intro s hrs hE hfit helem
  have hlen : (s.syndromes s.block).length = s.rsE.toNat := length_syndromes s s.block
  have hcount : (s.syndromes s.block).countP (fun x => decide (x ≠ 0))
      = ((List.range s.rsE.toNat).filter
          (fun j => decide (s.horner (s.gfexp (s.rsR0.toNat + j)) s.block ≠ 0))).length := by
    rw [State.syndromes, List.countP_map, List.countP_eq_length_filter]
    rfl
  refine ⟨_, hcount ▸ exec_rsSynd hrs hfit helem, fun j hj => ?_, storeNats_sameOutside s hlen⟩
  have hstored : (s.storeNats synBase (s.syndromes s.block)).tSyn j = (s.syndromes s.block).getD j 0 :=
    getD_of_storeNats (hlen ▸ hj) (fieldMask_syn (by omega)) (syndromes_lt_word s)
  have hget : (s.syndromes s.block).getD j 0 = s.horner (s.gfexp (s.rsR0.toNat + j)) s.block := by
    rw [List.getD_eq_getElem _ _ (hlen ▸ hj)]
    simp only [State.syndromes, List.getElem_map, List.getElem_range, State.firstRoot]
  exact hstored.trans hget

/-! ### RS_APPEND (R195) -/

section RsAppend

variable {s : State} {ord : EcOrder}

theorem rsAppendCheck_notReady (h : s.valid.rem = false) : s.rsAppendCheck = .error (mkErr .notReady 0 2) :=
  require_bind_error h ..

theorem rsAppendCheck_length (hrem : s.valid.rem = true) (h : 4096 < s.opa.toNat) :
    s.rsAppendCheck = .error (mkErr .illegalOperand 1 0) :=
  (require_bind_ok hrem ..).trans (require_bind_error (decide_eq_false (Nat.not_le.2 h)) ..)

theorem rsAppendCheck_base (hrem : s.valid.rem = true) (hlen : s.opa.toNat ≤ 4096)
    (h : 4096 < s.opb.toNat + s.opa.toNat + s.rsE.toNat) : s.rsAppendCheck = .error (mkErr .illegalOperand 2 0) := by
  refine (require_bind_ok hrem ..).trans ((require_bind_ok (decide_eq_true hlen) ..).trans ?_)
  exact require_eq_error.2 ⟨decide_eq_false (Nat.not_le.2 h), rfl⟩

theorem exec_rsAppend (hrem : s.valid.rem = true) (hfit : s.opb.toNat + s.opa.toNat + s.rsE.toNat ≤ 4096) :
    exec (.rsAppend ord) s = .next (completedRes
      { s with mem := (s.storeNats (cwBase + 4 * (s.opb.toNat + s.opa.toNat)) (s.ecBlock ord)).mem }
      (BitVec.ofNat 32 (s.opb.toNat + s.opa.toNat + s.rsE.toNat))) := by
  have hlen : s.opa.toNat ≤ 4096 := by omega
  exact (exec_of_check_ok (i := .rsAppend ord) rfl (rsAppendCheck_eq_ok (u := ()) |>.2 ⟨hrem, hlen, hfit⟩) :)

/-- Codeword k of the EC block (R196). -/
theorem getD_ecBlock {k : Nat} (hk : k < s.rsE.toNat) :
    (s.ecBlock ord).getD k 0 = match ord with
      | .reverse => s.tRem (s.rsE.toNat - 1 - k)
      | .ascending => s.tRem k := by
  have hlen : k < (s.ecBlock ord).length := by rw [length_ecBlock]; exact hk
  rw [List.getD_eq_getElem _ _ hlen]
  cases ord <;> simp [State.ecBlock, State.ecLen]

/-- The appended codewords read back from T.CW. -/
theorem tCw_rsAppend (hfit : s.opb.toNat + s.opa.toNat + s.rsE.toNat ≤ 4096) {k : Nat} (hk : k < s.rsE.toNat) :
    (s.storeNats (cwBase + 4 * (s.opb.toNat + s.opa.toNat)) (s.ecBlock ord)).tCw (s.opb.toNat + s.opa.toNat + k)
      = (s.ecBlock ord).getD k 0 := by
  have haddr (p : Nat) : cwBase + 4 * (p + k) = cwBase + 4 * p + 4 * k := by omega
  rw [State.tCw, State.entry, haddr, ← State.entry]
  refine getD_of_storeNats (by rw [length_ecBlock]; exact hk) ?_ (ecBlock_lt_word s ord)
  rw [← haddr]
  exact fieldMask_cw (by omega)

end RsAppend

/-- Settles O29: the three checks in order, then the store of the EC block after the data. -/
theorem rsAppendCommand : Obligations.RsAppendCommand := by
  refine fun s ord => ⟨fun hrem => exec_of_check_error rfl (rsAppendCheck_notReady hrem),
    fun hrem hL => exec_of_check_error rfl (rsAppendCheck_length hrem hL),
    fun hrem hL hbase => exec_of_check_error rfl (rsAppendCheck_base hrem hL hbase), fun hrem hfit =>
    ⟨_, exec_rsAppend hrem hfit, fun k hk => (tCw_rsAppend hfit hk).trans (getD_ecBlock hk), ?_⟩⟩
  rw [Nat.mul_add 4 (_ + _), ← Nat.add_assoc]
  exact storeNats_sameOutside s (length_ecBlock s ord)

end Sys2Proof.Proofs

/-! SUPPORT. The blocks of the Reed-Solomon engine as polynomials over a valid field (41_rs.md R181, R186, R192): the
loop of RS_INIT multiplies by `x - α^i`, the shift register divides by the generator, and Horner's rule evaluates (O22,
O25, O28). -/

namespace Sys2Proof.Proofs

open Sys2Proof Sys2Proof.Machine Sys2Proof.Laws Sys2Proof.Safety Sys2Proof.Claims

/-! ### Coefficient lists -/

section CoefficientLists

variable (s : State)

theorem coeff_coeffPoly (n : Nat) (f : Nat → Nat) (k : Nat) :
    (coeffPoly s n f).coeff k = if k < n then elt s (f k) else 0 := by
  simp only [coeffPoly, Polynomial.finsetSum_coeff, Polynomial.coeff_C_mul_X_pow, Finset.sum_ite_eq, Finset.mem_range]

theorem coeffPoly_succ (n : Nat) (f : Nat → Nat) :
    coeffPoly s (n + 1) f = coeffPoly s n f + Polynomial.C (elt s (f n)) * Polynomial.X ^ n :=
  Finset.sum_range_succ ..

theorem degree_coeffPoly_lt (n : Nat) (f : Nat → Nat) : (coeffPoly s n f).degree < n := by
  rw [Polynomial.degree_lt_iff_coeff_zero]
  intro k hk
  rw [coeff_coeffPoly, if_neg (Nat.not_lt.2 hk)]

/-- The polynomial of a coefficient list, constant term first. -/
noncomputable def listPoly (cs : List Nat) : Polynomial (FieldOf s) := coeffPoly s cs.length fun k => cs.getD k 0

variable {s}

theorem coeffPoly_eq_listPoly {n : Nat} {f : Nat → Nat} {cs : List Nat} (hlen : cs.length = n)
    (h : ∀ k, k < n → f k = cs.getD k 0) : coeffPoly s n f = listPoly s cs := by
  subst hlen
  exact Finset.sum_congr rfl fun k hk => by rw [h k (Finset.mem_range.1 hk)]

variable (s)

theorem coeff_listPoly (cs : List Nat) (k : Nat) : (listPoly s cs).coeff k = elt s (cs.getD k 0) := by
  rw [listPoly, coeff_coeffPoly]
  split
  next => rfl
  next hk => rw [List.getD_eq_default _ _ (Nat.not_lt.1 hk), elt_zero]

theorem listPoly_nil : listPoly s [] = 0 := by rw [listPoly, coeffPoly, List.length_nil, Finset.sum_range_zero]

theorem listPoly_cons (c : Nat) (cs : List Nat) :
    listPoly s (c :: cs) = Polynomial.C (elt s c) + Polynomial.X * listPoly s cs := by
  ext k
  rw [coeff_listPoly, Polynomial.coeff_add]
  cases k with
  | zero => simp
  | succ k => rw [Polynomial.coeff_X_mul, coeff_listPoly, Polynomial.coeff_C_succ, zero_add, List.getD_cons_succ]

theorem listPoly_replicate_zero (n : Nat) : listPoly s (List.replicate n 0) = 0 := by
  induction n with
  | zero => exact listPoly_nil s
  | succ n ih => rw [List.replicate_succ, listPoly_cons, ih, elt_zero, map_zero, mul_zero, add_zero]

/-- A coefficient list whose leading term is 1 (R180). -/
theorem listPoly_singleton_one : listPoly s [1] = 1 := by
  rw [listPoly_cons, listPoly_nil, elt_one, map_one, mul_zero, add_zero]

theorem codePoly_append_singleton (cs : List Nat) (c : Nat) :
    codePoly s (cs ++ [c]) = codePoly s cs * Polynomial.X + Polynomial.C (elt s c) := by
  rw [codePoly, List.foldl_append]
  rfl

/-- A block followed by a coefficient list in reverse order (00_scope.md R17; 41_rs.md R187). -/
theorem codePoly_append_reverse (cs q : List Nat) :
    codePoly s (cs ++ q.reverse) = codePoly s cs * Polynomial.X ^ q.length + listPoly s q := by
  induction q with
  | nil => rw [List.reverse_nil, List.append_nil, List.length_nil, pow_zero, mul_one, listPoly_nil, add_zero]
  | cons c q ih =>
    rw [List.reverse_cons, ← List.append_assoc, codePoly_append_singleton, ih, listPoly_cons, List.length_cons,
      pow_succ]
    ring

end CoefficientLists

/-! ### The generator (R180, R181) -/

theorem getLast?_mulRoot (s : State) (root prev : Nat) (gs : List Nat) :
    (s.mulRoot root prev gs).getLast? = some 1 := by
  induction gs generalizing prev with
  | nil => rfl
  | cons g gs ih => rw [State.mulRoot, List.getLast?_cons, ih g, Option.getD_some]

theorem getLast?_genCoeffs (s : State) (r0 n : Nat) : (s.genCoeffs r0 n).getLast? = some 1 := by
  cases n with
  | zero => rfl
  | succ n => exact getLast?_mulRoot ..

/-- The generator is monic (R181). -/
theorem getD_genCoeffs_last (s : State) (r0 n : Nat) : (s.genCoeffs r0 n).getD n 0 = 1 := by
  have hlast := getLast?_genCoeffs s r0 n
  rw [List.getLast?_eq_getElem?, length_genCoeffs, Nat.add_sub_cancel] at hlast
  rw [List.getD_eq_getElem?_getD, hlast, Option.getD_some]

theorem sub_eq_add_poly {s : State} (p q : Polynomial (FieldOf s)) : p - q = p + q := ZModModule.sub_eq_add p q

theorem add_self_poly {s : State} (p : Polynomial (FieldOf s)) : p + p = 0 := ZModModule.add_self p

section Field

variable {s : State} (h : FieldOk s)
include h

theorem nontrivial_fieldOf : Nontrivial (FieldOf s) := by
  refine ⟨⟨elt s 0, elt s 1, fun heq => zero_ne_one (α := Nat) ?_⟩⟩
  exact elt_injective h (Nat.two_pow_pos _) (FieldOk.isModulus h).one_lt_size heq

/-- One turn of the loop of RS_INIT multiplies a monic list by `x + root`. -/
theorem listPoly_mulRoot {root prev : Nat} {gs : List Nat} (hroot : root < 2 ^ s.gfM.toNat)
    (hgs : ∀ g ∈ gs, g < 2 ^ s.gfM.toNat) (hmonic : (prev :: gs).getLast? = some 1) :
    listPoly s (s.mulRoot root prev gs) = Polynomial.C (elt s prev)
      + listPoly s gs * (Polynomial.X + Polynomial.C (elt s root)) := by
  induction gs generalizing prev with
  | nil =>
    obtain rfl : prev = 1 := by simpa using hmonic
    rw [State.mulRoot, listPoly_singleton_one, listPoly_nil, elt_one, map_one, zero_mul, add_zero]
  | cons g gs ih =>
    obtain ⟨hg, hgs⟩ := List.forall_mem_cons.1 hgs
    rw [List.getLast?_cons_cons] at hmonic
    obtain ⟨-, emul⟩ := gfmul_spec h hg hroot
    rw [State.mulRoot, listPoly_cons, ih hgs hmonic, listPoly_cons, elt_xor, emul, map_add, map_mul]
    ring

theorem listPoly_genCoeffs (r0 n : Nat) :
    listPoly s (s.genCoeffs r0 n)
      = ∏ i ∈ Finset.range n, (Polynomial.X - Polynomial.C (alpha s ^ (r0 + i))) := by
  induction n with
  | zero => exact listPoly_singleton_one s
  | succ n ih =>
    obtain ⟨hroot, eroot⟩ := gfexp_spec h (r0 + n)
    have hmonic : (0 :: s.genCoeffs r0 n).getLast? = some 1 := by
      rw [List.getLast?_cons, getLast?_genCoeffs, Option.getD_some]
    rw [Finset.prod_range_succ, ← ih, State.genCoeffs, listPoly_mulRoot h hroot (genCoeffs_lt h r0 n) hmonic, eroot,
      elt_zero, map_zero, zero_add, sub_eq_add_poly]

/-- The constant term of the generator is the product of its roots (R181). -/
theorem elt_getD_genCoeffs_zero (r0 n : Nat) :
    elt s ((s.genCoeffs r0 n).getD 0 0) = alpha s ^ (n * r0 + n * (n - 1) / 2) := by
  have hterm (i : Nat) : (Polynomial.X - Polynomial.C (alpha s ^ (r0 + i))).coeff 0 = alpha s ^ (r0 + i) := by
    rw [sub_eq_add_poly, Polynomial.coeff_add, Polynomial.coeff_X_zero, Polynomial.coeff_C_zero, zero_add]
  rw [← coeff_listPoly, listPoly_genCoeffs h, Polynomial.coeff_zero_prod]
  simp only [hterm]
  rw [Finset.prod_pow_eq_pow_sum, Finset.sum_add_distrib, Finset.sum_const, Finset.card_range, smul_eq_mul,
    Finset.sum_range_id]

end Field

/-- Settles O22: the entries of T.GEN are the coefficients of the loop, whose polynomial is the product. -/
theorem generatorPolynomial : Obligations.GeneratorPolynomial := by
  intro s hgf h h1 h4096
  have hlen := length_genCoeffs s s.opb.toNat s.opa.toNat
  obtain ⟨-, -, hinit⟩ := rsInitCommand s
  obtain ⟨m, hexec, hgen, -⟩ := hinit hgf h1 h4096
  refine ⟨_, hexec, ?_, ?_, ?_, fun k hk => ?_⟩
  · rw [coeffPoly_eq_listPoly hlen fun k hk => hgen k (Nat.lt_succ_iff.1 hk), listPoly_genCoeffs h]
  · rw [hgen _ le_rfl, getD_genCoeffs_last]
  · rw [hgen 0 (Nat.zero_le _), elt_getD_genCoeffs_zero h]
  · rw [hgen k hk, List.getD_eq_getElem _ _ (by omega)]
    exact genCoeffs_lt h _ _ _ (List.getElem_mem _)

/-! ### The shift register (R185, R186) -/

theorem length_genLow (s : State) : s.genLow.length = s.rsE.toNat := by
  rw [State.genLow, List.length_map, List.length_range, State.ecLen]

/-- Coefficient k of the register after a step: the one below it, plus the feedback's multiple of the generator's. -/
theorem getD_shiftIn (s : State) {gen q : List Nat} (d : Nat) (hlen : q.length = gen.length) {k : Nat}
    (hk : k < gen.length) :
    (s.shiftIn gen q d).getD k 0 = (0 :: q).getD k 0 ^^^ s.gfmul (q.getLastD 0 ^^^ d) (gen.getD k 0) := by
  have hk' : k < (s.shiftIn gen q d).length := by rwa [length_shiftIn s d hlen]
  rw [List.getD_eq_getElem _ _ hk', List.getD_eq_getElem _ _ hk,
    List.getD_eq_getElem _ _ (by rw [List.length_cons]; omega)]
  simp only [State.shiftIn, List.getElem_zipWith]
  cases k with
  | zero => rfl
  | succ k => rw [List.getElem_cons_succ, List.getElem_cons_succ, List.getElem_dropLast]

section Field

variable {s : State} (h : FieldOk s)
include h

/-- One step of the register: `x q + d x^E` is the feedback times the generator, plus the new register. -/
theorem listPoly_shiftIn {gen q : List Nat} {d : Nat} (hgen : ∀ g ∈ gen, g < 2 ^ s.gfM.toNat)
    (hq : ∀ c ∈ q, c < 2 ^ s.gfM.toNat) (hd : d < 2 ^ s.gfM.toNat) (hlen : q.length = gen.length)
    (hpos : 0 < gen.length) :
    Polynomial.X * listPoly s q + Polynomial.C (elt s d) * Polynomial.X ^ gen.length
      = Polynomial.C (elt s (q.getLastD 0 ^^^ d)) * (listPoly s gen + Polynomial.X ^ gen.length)
        + listPoly s (s.shiftIn gen q d) := by
  have hshift : Polynomial.X * listPoly s q = listPoly s (0 :: q) := by
    rw [listPoly_cons, elt_zero, map_zero, zero_add]
  have htop : (0 :: q).getD gen.length 0 = q.getLastD 0 := by
    obtain ⟨n, hn⟩ := Nat.exists_eq_add_of_lt hpos
    rw [List.getLastD_eq_getLast?, List.getLast?_eq_getElem?, hlen, hn]
    simp
  have hcons : ∀ c ∈ 0 :: q, c < 2 ^ s.gfM.toNat := List.forall_mem_cons.2 ⟨Nat.two_pow_pos _, hq⟩
  have hqlast : q.getLastD 0 < 2 ^ s.gfM.toNat := hcons _ List.getLastD_mem_cons
  rw [hshift]
  ext k
  simp only [Polynomial.coeff_add, Polynomial.coeff_C_mul, Polynomial.coeff_X_pow, coeff_listPoly]
  rcases lt_trichotomy k gen.length with hk | rfl | hk
  · have hg : gen.getD k 0 < 2 ^ s.gfM.toNat := by
      rw [List.getD_eq_getElem _ _ hk]
      exact hgen _ (List.getElem_mem hk)
    rw [if_neg hk.ne, getD_shiftIn s d hlen hk, elt_xor s ((0 :: q).getD k 0),
      (gfmul_spec h (Nat.xor_lt_two_pow hqlast hd) hg).2, mul_zero, add_zero, add_zero, add_left_comm,
      ZModModule.add_self, add_zero]
  · rw [if_pos rfl, htop, List.getD_eq_default _ _ le_rfl,
      List.getD_eq_default (s.shiftIn gen q d) _ (length_shiftIn s d hlen).le, elt_zero, elt_xor]
    ring
  · rw [if_neg hk.ne', List.getD_eq_default _ _ (by rw [List.length_cons]; omega), List.getD_eq_default gen _ hk.le,
      List.getD_eq_default (s.shiftIn gen q d) _ ((length_shiftIn s d hlen).trans_le hk.le), elt_zero]
    ring

/-- The register holds `d(x) x^E` modulo the generator (R186). -/
theorem generator_dvd_remainder (hgen : ∀ g ∈ s.genLow, g < 2 ^ s.gfM.toNat) (hE : 1 ≤ s.rsE.toNat) {cs : List Nat}
    (hcs : ∀ c ∈ cs, c < 2 ^ s.gfM.toNat) :
    listPoly s s.genLow + Polynomial.X ^ s.rsE.toNat
      ∣ codePoly s cs * Polynomial.X ^ s.rsE.toNat + listPoly s (s.remainder cs) := by
  induction cs using List.reverseRecOn with
  | nil =>
    have hzero : codePoly s [] * Polynomial.X ^ s.rsE.toNat + listPoly s (s.remainder []) = 0 := by
      show 0 * _ + listPoly s (List.replicate s.ecLen 0) = 0
      rw [listPoly_replicate_zero, zero_mul, add_zero]
    exact hzero ▸ dvd_zero _
  | append_singleton cs d ih =>
    obtain ⟨hcs, hd⟩ := List.forall_mem_append.1 hcs
    have hlen : (s.remainder cs).length = s.genLow.length := by rw [length_remainder, length_genLow, State.ecLen]
    have hq := (FieldOk.closedBelow h).remainder_lt hgen hcs
    have hstep := listPoly_shiftIn h hgen hq (hd d List.mem_cons_self) hlen (by rw [length_genLow]; omega)
    rw [length_genLow] at hstep
    obtain ⟨p, hp⟩ := ih hcs
    refine ⟨Polynomial.X * p + Polynomial.C (elt s ((s.remainder cs).getLastD 0 ^^^ d)), ?_⟩
    rw [codePoly_append_singleton, remainder_append_singleton]
    generalize listPoly s (s.shiftIn s.genLow (s.remainder cs) d) = r' at *
    generalize listPoly s (s.remainder cs) = r at *
    have hr := add_self_poly (Polynomial.X * r)
    have hr' := add_self_poly r'
    linear_combination Polynomial.X * hp + hstep - hr + hr'

end Field

/-! ### The generator stored in T.GEN (R183) -/

section Generator

variable {s : State} (h : FieldOk s) (hg : GeneratorOk s)
include hg

theorem GeneratorOk.one_le : 1 ≤ s.rsE.toNat := by
  obtain ⟨h1, -, -⟩ := hg
  exact h1

theorem GeneratorOk.le : s.rsE.toNat ≤ 4096 := by
  obtain ⟨-, h4096, -⟩ := hg
  exact h4096

theorem tGen_top : s.tGen s.rsE.toNat = 1 := by
  obtain ⟨-, -, hcoeffs⟩ := hg
  rw [hcoeffs _ le_rfl, getD_genCoeffs_last]

theorem coeffPoly_tGen :
    coeffPoly s (s.rsE.toNat + 1) s.tGen = listPoly s s.genLow + Polynomial.X ^ s.rsE.toNat := by
  have hlow : coeffPoly s s.rsE.toNat s.tGen = listPoly s s.genLow := by
    refine coeffPoly_eq_listPoly (length_genLow s) fun k hk => ?_
    rw [List.getD_eq_getElem _ _ (by rwa [length_genLow])]
    simp only [State.genLow, List.getElem_map, List.getElem_range]
  rw [coeffPoly_succ, hlow, tGen_top hg, elt_one, map_one, one_mul]

include h

theorem genLow_lt : ∀ g ∈ s.genLow, g < 2 ^ s.gfM.toNat := by
  intro g hmem
  obtain ⟨k, hk, rfl⟩ := mem_genLow hmem
  obtain ⟨-, -, hcoeffs⟩ := hg
  rw [hcoeffs k hk.le, List.getD_eq_getElem _ _ (by rw [length_genCoeffs]; omega)]
  exact genCoeffs_lt h _ _ _ (List.getElem_mem _)

theorem coeffPoly_tGen_eq_prod :
    coeffPoly s (s.rsE.toNat + 1) s.tGen
      = ∏ i ∈ Finset.range s.rsE.toNat, (Polynomial.X - Polynomial.C (alpha s ^ (s.rsR0.toNat + i))) := by
  obtain ⟨-, -, hcoeffs⟩ := hg
  rw [coeffPoly_eq_listPoly (length_genCoeffs s s.rsR0.toNat _) fun k hk => hcoeffs k (Nat.lt_succ_iff.1 hk),
    listPoly_genCoeffs h]

theorem tGen_dvd_remainder {cs : List Nat} (hcs : ∀ c ∈ cs, c < 2 ^ s.gfM.toNat) :
    coeffPoly s (s.rsE.toNat + 1) s.tGen
      ∣ codePoly s cs * Polynomial.X ^ s.rsE.toNat + listPoly s (s.remainder cs) := by
  rw [coeffPoly_tGen hg]
  exact generator_dvd_remainder h (genLow_lt h hg) (GeneratorOk.one_le hg) hcs

theorem monic_tGen : (coeffPoly s (s.rsE.toNat + 1) s.tGen).Monic := by
  rw [coeffPoly_tGen_eq_prod h hg]
  exact Polynomial.monic_prod_of_monic _ _ fun i _ => Polynomial.monic_X_sub_C _

theorem degree_tGen : (coeffPoly s (s.rsE.toNat + 1) s.tGen).degree = s.rsE.toNat := by
  have := nontrivial_fieldOf h
  rw [coeffPoly_tGen_eq_prod h hg, Polynomial.degree_prod_of_monic _ _ fun i _ => Polynomial.monic_X_sub_C _]
  simp only [Polynomial.degree_X_sub_C, Finset.sum_const, Finset.card_range, nsmul_eq_mul, mul_one]

theorem listPoly_remainder {cs : List Nat} (hcs : ∀ c ∈ cs, c < 2 ^ s.gfM.toNat) :
    listPoly s (s.remainder cs)
      = (codePoly s cs * Polynomial.X ^ s.rsE.toNat) %ₘ coeffPoly s (s.rsE.toNat + 1) s.tGen := by
  have := nontrivial_fieldOf h
  have hmonic := monic_tGen h hg
  have hdeg : (listPoly s (s.remainder cs)).degree < (coeffPoly s (s.rsE.toNat + 1) s.tGen).degree := by
    rw [degree_tGen h hg]
    exact (degree_coeffPoly_lt s _ _).trans_eq (congrArg Nat.cast (length_remainder s cs))
  rw [← (Polynomial.modByMonic_eq_self_iff hmonic).2 hdeg]
  refine (Polynomial.modByMonic_eq_of_dvd_sub hmonic ?_).symm
  rw [sub_eq_add_poly]
  exact tGen_dvd_remainder h hg hcs

end Generator

/-- Settles O25: the register's polynomial differs from `d(x) x^E` by a multiple of the monic generator, and has a lower
degree. -/
theorem remainderOfDivision : Obligations.RemainderOfDivision := by
  intro s hrs h hg hfit helem
  have hcs := block_lt helem
  have hlen : (s.remainder s.block).length = s.rsE.toNat := length_remainder s s.block
  obtain ⟨m, hexec, hrem, -⟩ := rsEncodeCommand s hrs (GeneratorOk.le hg) hfit helem
  refine ⟨_, hexec, ?_, fun k hk => ?_⟩
  · rw [coeffPoly_eq_listPoly hlen hrem, listPoly_remainder h hg hcs]
  · rw [hrem k hk, List.getD_eq_getElem _ _ (hlen ▸ hk)]
    exact (FieldOk.closedBelow h).remainder_lt (genLow_lt h hg) hcs _ (List.getElem_mem _)

/-! ### Syndromes (R191, R192) -/

/-- Horner's rule evaluates the block's polynomial (R192). -/
theorem elt_horner {s : State} (h : FieldOk s) {z : Nat} (hz : z < 2 ^ s.gfM.toNat) {cs : List Nat}
    (hcs : ∀ c ∈ cs, c < 2 ^ s.gfM.toNat) : elt s (s.horner z cs) = (codePoly s cs).eval (elt s z) := by
  induction cs using List.reverseRecOn with
  | nil => exact (elt_zero s).trans Polynomial.eval_zero.symm
  | append_singleton cs c ih =>
    obtain ⟨hcs, -⟩ := List.forall_mem_append.1 hcs
    have hlt := (FieldOk.closedBelow h).horner_lt hz hcs
    rw [horner_append_singleton, codePoly_append_singleton, elt_xor, (gfmul_spec h hlt hz).2, ih hcs,
      Polynomial.eval_add, Polynomial.eval_mul_X, Polynomial.eval_C]

/-- Settles O28: T.SYN holds the Horner values, which are those of the block's polynomial. -/
theorem syndromeValues : Obligations.SyndromeValues := by
  intro s hrs h hE hfit helem
  have hcs := block_lt helem
  obtain ⟨m, hexec, hsyn, -⟩ := rsSyndCommand s hrs hE hfit helem
  refine ⟨_, hexec, fun j hj => ?_⟩
  obtain ⟨hz, ez⟩ := gfexp_spec h (s.rsR0.toNat + j)
  rw [hsyn j hj, elt_horner h hz hcs, ez]
  exact ⟨(FieldOk.closedBelow h).horner_lt hz hcs, rfl⟩

end Sys2Proof.Proofs

/-! SUPPORT. Encoding, appending and checking a block (41_rs.md R187, R193): data and EC block together are a multiple
of the generator, so every syndrome is zero (O30). -/

namespace Sys2Proof.Proofs

open Sys2Proof Sys2Proof.Machine Sys2Proof.Laws Sys2Proof.Safety Sys2Proof.Claims

/-! ### The syndromes of a codeword -/

section Codeword

variable {s : State} (h : FieldOk s) (hg : GeneratorOk s)
include h hg

theorem remainder_lt {cs : List Nat} (hcs : ∀ c ∈ cs, c < 2 ^ s.gfM.toNat) :
    ∀ c ∈ s.remainder cs, c < 2 ^ s.gfM.toNat :=
  (FieldOk.closedBelow h).remainder_lt (genLow_lt h hg) hcs

/-- The data and its EC block in reverse order are a multiple of the generator (R187). -/
theorem tGen_dvd_codeword {cs : List Nat} (hcs : ∀ c ∈ cs, c < 2 ^ s.gfM.toNat) :
    coeffPoly s (s.rsE.toNat + 1) s.tGen ∣ codePoly s (cs ++ (s.remainder cs).reverse) := by
  rw [codePoly_append_reverse, length_remainder]
  exact tGen_dvd_remainder h hg hcs

theorem horner_codeword {cs : List Nat} (hcs : ∀ c ∈ cs, c < 2 ^ s.gfM.toNat) {j : Nat} (hj : j < s.rsE.toNat) :
    s.horner (s.gfexp (s.rsR0.toNat + j)) (cs ++ (s.remainder cs).reverse) = 0 := by
  obtain ⟨hz, ez⟩ := gfexp_spec h (s.rsR0.toNat + j)
  have hall : ∀ c ∈ cs ++ (s.remainder cs).reverse, c < 2 ^ s.gfM.toNat :=
    List.forall_mem_append.2 ⟨hcs, fun c hc => remainder_lt h hg hcs c (List.mem_reverse.1 hc)⟩
  have hroot : Polynomial.X - Polynomial.C (alpha s ^ (s.rsR0.toNat + j))
      ∣ coeffPoly s (s.rsE.toNat + 1) s.tGen := by
    rw [coeffPoly_tGen_eq_prod h hg]
    exact Finset.dvd_prod_of_mem (fun i => Polynomial.X - Polynomial.C (alpha s ^ (s.rsR0.toNat + i)))
      (Finset.mem_range.2 hj)
  refine elt_injective h ((FieldOk.closedBelow h).horner_lt hz hall) (Nat.two_pow_pos _) ?_
  rw [elt_horner h hz hall, ez, elt_zero]
  exact Polynomial.dvd_iff_isRoot.1 (hroot.trans (tGen_dvd_codeword h hg hcs))

end Codeword

/-! ### The state after RS_ENCODE and RS_APPEND -/

theorem SameField.horner {s t : State} (h : SameField s t) (z : Nat) (cs : List Nat) :
    t.horner z cs = s.horner z cs := by
  simp only [State.horner, h.gfmul]

/-- An entry of T.CW outside the bytes that changed. -/
theorem tCw_of_sameOutside {s t : State} {lo hi k : Nat} (h : SameOutside s t lo hi)
    (hk : 0x20000 + 4 * k + 4 ≤ lo ∨ hi ≤ 0x20000 + 4 * k) : t.tCw k = s.tCw k := by
  refine congrArg BitVec.toNat (load_congr_bytes fun b hlo hhi => h b ?_)
  unfold cwBase at hlo hhi
  omega

/-- `w` holds the data of `s` and, after it, the EC block of that data in reverse order, as the block to check. -/
structure HasCodeword (s w : State) : Prop where
  field : SameField s w
  ecLen : w.rsE = s.rsE
  firstRoot : w.rsR0 = s.rsR0
  base : w.opb = s.opb
  length : w.opa.toNat = s.opa.toNat + s.rsE.toNat
  data : ∀ i, i < s.opa.toNat → w.tCw (s.opb.toNat + i) = s.tCw (s.opb.toNat + i)
  ec : ∀ k, k < s.rsE.toNat →
    w.tCw (s.opb.toNat + s.opa.toNat + k) = (s.remainder s.block).getD (s.rsE.toNat - 1 - k) 0

namespace HasCodeword

variable {s w : State} (hw : HasCodeword s w)
include hw

theorem block_eq : w.block = s.block ++ (s.remainder s.block).reverse := by
  have hrem : (s.remainder s.block).length = s.rsE.toNat := length_remainder s s.block
  have hdata := length_block s
  refine List.ext_getElem ?_ fun i hi _ => ?_
  · rw [length_block, hw.length, List.length_append, List.length_reverse, hrem, hdata]
  · rw [length_block, hw.length] at hi
    rw [getElem_block, hw.base, List.getElem_append]
    split
    next hlt => rw [getElem_block, hw.data i (by omega)]
    next hge =>
      have hec := hw.ec (i - s.opa.toNat) (by omega)
      rw [show s.opb.toNat + s.opa.toNat + (i - s.opa.toNat) = s.opb.toNat + i by omega] at hec
      rw [hec, List.getD_eq_getElem _ _ (by omega), List.getElem_reverse]
      congr 1
      omega

variable (h : FieldOk s) (hg : GeneratorOk s) (helem : BlockElements s)
include h hg helem

theorem blockElements : BlockElements w := by
  have hall : ∀ c ∈ w.block, c < 2 ^ s.gfM.toNat := by
    rw [hw.block_eq]
    exact List.forall_mem_append.2
      ⟨block_lt helem, fun c hc => remainder_lt h hg (block_lt helem) c (List.mem_reverse.1 hc)⟩
  intro i hi
  rw [hw.field.degree, ← getElem_block (i := i) (by rwa [length_block])]
  exact hall _ (List.getElem_mem _)

theorem horner_eq_zero {j : Nat} (hj : j < w.rsE.toNat) :
    w.horner (w.gfexp (w.rsR0.toNat + j)) w.block = 0 := by
  rw [hw.ecLen] at hj
  rw [hw.field.horner, hw.field.gfexp, hw.firstRoot, hw.block_eq, horner_codeword h hg (block_lt helem) hj]

/-- RS_SYND of a codeword finds every syndrome zero. -/
theorem exec_rsSynd (hrs : w.valid.rs = true) (hfit : s.opb.toNat + s.opa.toNat + s.rsE.toNat ≤ 4096) :
    ∃ v, exec .rsSynd w = .next v ∧ v.status.err = false ∧ v.res = 0#32 ∧ ∀ j, j < s.rsE.toNat → v.tSyn j = 0 := by
  have hE : w.rsE.toNat ≤ 4096 := by rw [hw.ecLen]; omega
  have hblock : BlockFits w := by
    unfold BlockFits
    rw [hw.base, hw.length]
    omega
  obtain ⟨m, hexec, hsyn, -⟩ := rsSyndCommand w hrs hE hblock (hw.blockElements h hg helem)
  have hcount : (List.range w.rsE.toNat).filter
      (fun j => decide (w.horner (w.gfexp (w.rsR0.toNat + j)) w.block ≠ 0)) = [] := by
    refine List.filter_eq_nil_iff.2 fun j hj => ?_
    simp [hw.horner_eq_zero h hg helem (List.mem_range.1 hj)]
  refine ⟨_, hexec, rfl, ?_, fun j hj => ?_⟩
  · show BitVec.ofNat 32 _ = _
    rw [hcount]
    rfl
  · have hj' : j < w.rsE.toNat := by rwa [hw.ecLen]
    rw [hsyn j hj', hw.horner_eq_zero h hg helem hj']

end HasCodeword

/-- `s` after an RS_ENCODE that left the memory `m`. -/
def encodedState (s : State) (m : Memory) : State :=
  completed { s with mem := m, valid := { s.valid with rem := true } }

/-- `t` after an RS_APPEND that left the memory `m`. -/
def appendedState (t : State) (m : Memory) : State :=
  completedRes { t with mem := m } (BitVec.ofNat 32 (t.opb.toNat + t.opa.toNat + t.rsE.toNat))

/-- RS_ENCODE and RS_APPEND in reverse order leave a codeword behind (R187). -/
theorem exec_encode_append {s : State} (hrs : s.valid.rs = true) (helem : BlockElements s)
    (hfit : s.opb.toNat + s.opa.toNat + s.rsE.toNat ≤ 4096) :
    ∃ m m', exec .rsEncode s = .next (encodedState s m)
      ∧ exec (.rsAppend .reverse) (encodedState s m) = .next (appendedState (encodedState s m) m')
      ∧ HasCodeword s
        { appendedState (encodedState s m) m' with opa := BitVec.ofNat 32 (s.opa.toNat + s.rsE.toNat) } := by
  have hblock : BlockFits s := show _ ∧ _ by omega
  obtain ⟨m, ht, hrem, hmem⟩ := rsEncodeCommand s hrs (by omega) hblock helem
  obtain ⟨-, -, -, happend⟩ := rsAppendCommand (encodedState s m) .reverse
  obtain ⟨m', hu, hec, houtside⟩ := happend rfl hfit
  have hmem' : SameOutside (encodedState s m) (appendedState (encodedState s m) m')
      (0x20000 + 4 * (s.opb.toNat + s.opa.toNat)) (0x20000 + 4 * (s.opb.toNat + s.opa.toNat + s.rsE.toNat)) := houtside
  have hfield : SameField s (appendedState (encodedState s m) m') :=
    sameField_of_bytes rfl rfl fun a ha => (hmem' a (by omega)).trans (hmem a (by omega))
  refine ⟨m, m', ht, hu, ⟨hfield.poly, hfield.degree, hfield.alog, hfield.log⟩, rfl, rfl, rfl, ?_,
    fun i hi => ?_, fun k hk => ?_⟩
  · exact Nat.mod_eq_of_lt (by omega)
  · exact (tCw_of_sameOutside hmem' (.inl (by omega))).trans (tCw_of_sameOutside hmem (.inl (by omega)))
  · exact (hec k hk).trans (hrem (s.rsE.toNat - 1 - k) (by omega))

/-- Settles O30: RS_ENCODE and RS_APPEND leave a codeword behind, and RS_SYND finds its syndromes zero. -/
theorem roundTrip : Obligations.RoundTrip := by
  intro s hrs h hg helem hfit
  obtain ⟨m, m', ht, hu, hw⟩ := exec_encode_append hrs helem hfit
  obtain ⟨v, hv, hok, hres, hsyn⟩ := hw.exec_rsSynd h hg helem hrs hfit
  exact ⟨_, _, v, ht, hu, hv, hok, hres, hsyn⟩

end Sys2Proof.Proofs

/-! SUPPORT. The runs of a tag list (42_segment.md R215): their order, what each one is, and that they cover the
positions (O31). -/

namespace Sys2Proof.Proofs

open Sys2Proof Sys2Proof.Machine Sys2Proof.Laws Sys2Proof.Claims

/-- A maximal run of a tag list (R215). -/
structure IsRun (tags : List Nat) (r : Run) : Prop where
  nonempty : r.a < r.b
  fits : r.b ≤ tags.length
  mode : ∀ p, r.a ≤ p → p < r.b → tags[p]? = some r.m
  left : r.a = 0 ∨ tags[r.a - 1]? ≠ some r.m
  right : r.b = tags.length ∨ tags[r.b]? ≠ some r.m

theorem flatMap_runsFrom {m a p : Nat} (hap : a ≤ p) (ts : List Nat) :
    (runsFrom m a p ts).flatMap (fun r => List.replicate (r.b - r.a) r.m) = List.replicate (p - a) m ++ ts := by
  induction ts generalizing m a p with
  | nil => simp [runsFrom]
  | cons t ts ih =>
    unfold runsFrom
    split
    next htm =>
      rw [ih (by omega), Nat.sub_add_comm hap, List.replicate_succ', List.append_assoc, htm]
      rfl
    next =>
      rw [List.flatMap_cons, ih (Nat.le_add_right p 1), Nat.add_sub_cancel_left]
      rfl

/-- The runs spell the tags out in order (R215). -/
theorem flatMap_runs (tags : List Nat) :
    (runs tags).flatMap (fun r => List.replicate (r.b - r.a) r.m) = tags := by
  cases tags with
  | nil => rfl
  | cons t ts => exact flatMap_runsFrom (Nat.zero_le 1) ts

theorem le_start_of_mem_runsFrom {m a p : Nat} {ts : List Nat} (hap : a ≤ p) {r : Run}
    (h : r ∈ runsFrom m a p ts) : a ≤ r.a := by
  induction ts generalizing m a p with
  | nil => exact (List.mem_singleton.1 h ▸ le_rfl)
  | cons t ts ih =>
    unfold runsFrom at h
    split at h
    · exact ih (by omega) h
    · rcases List.mem_cons.1 h with rfl | h
      · exact le_rfl
      · exact hap.trans (ih (Nat.le_add_right p 1) h)

theorem pairwise_runsFrom {m a p : Nat} (hap : a ≤ p) (ts : List Nat) :
    (runsFrom m a p ts).Pairwise (fun x y => x.b ≤ y.a) := by
  induction ts generalizing m a p with
  | nil => exact List.pairwise_singleton ..
  | cons t ts ih =>
    unfold runsFrom
    split
    · exact ih (by omega)
    · exact List.pairwise_cons.2
        ⟨fun y hy => le_start_of_mem_runsFrom (Nat.le_add_right p 1) hy, ih (Nat.le_add_right p 1)⟩

/-- No run begins before the one before it ends (R215). -/
theorem pairwise_runs (tags : List Nat) : (runs tags).Pairwise (fun x y => x.b ≤ y.a) := by
  cases tags with
  | nil => exact List.Pairwise.nil
  | cons t ts => exact pairwise_runsFrom (Nat.zero_le 1) ts

theorem exists_mem_runsFrom {m a p : Nat} {ts : List Nat} {q : Nat} (haq : a ≤ q) (hq : q < p + ts.length) :
    ∃ r ∈ runsFrom m a p ts, r.a ≤ q ∧ q < r.b := by
  induction ts generalizing m a p with
  | nil => exact ⟨_, List.mem_singleton_self _, haq, hq⟩
  | cons t ts ih =>
    rw [List.length_cons] at hq
    unfold runsFrom
    split
    · exact ih haq (by omega)
    · by_cases hqp : q < p
      · exact ⟨_, List.mem_cons_self, haq, hqp⟩
      · obtain ⟨r, hr, hin⟩ := ih (m := t) (p := p + 1) (Nat.le_of_not_lt hqp) (by omega)
        exact ⟨r, List.mem_cons_of_mem _ hr, hin⟩

/-- Every position is in a run (R215). -/
theorem exists_mem_runs {tags : List Nat} {q : Nat} (hq : q < tags.length) :
    ∃ r ∈ runs tags, r.a ≤ q ∧ q < r.b := by
  cases tags with
  | nil => cases hq
  | cons t ts => exact exists_mem_runsFrom (Nat.zero_le q) (by rwa [Nat.add_comm])

/-- The runs found from position p on are maximal, when positions `a .. p-1` are all there is so far of a run of m. -/
theorem isRun_of_mem_runsFrom {tags : List Nat} {m a p : Nat} {ts : List Nat} (hts : tags.drop p = ts) (hap : a < p)
    (hp : p ≤ tags.length) (hmode : ∀ q, a ≤ q → q < p → tags[q]? = some m)
    (hleft : a = 0 ∨ tags[a - 1]? ≠ some m) {r : Run} (h : r ∈ runsFrom m a p ts) : IsRun tags r := by
  induction ts generalizing m a p with
  | nil =>
    obtain rfl := List.mem_singleton.1 h
    exact ⟨hap, hp, hmode, hleft, .inl (hp.antisymm (List.drop_eq_nil_iff.1 hts))⟩
  | cons t ts ih =>
    have hget : tags[p]? = some t := by
      have := congrArg (·[0]?) hts
      simpa using this
    have hlt : p < tags.length := (List.getElem?_eq_some_iff.1 hget).1
    have hdrop : tags.drop (p + 1) = ts := by
      rw [← List.drop_drop, hts]
      rfl
    unfold runsFrom at h
    split at h
    next htm =>
      refine ih hdrop (by omega) hlt (fun q haq hq => ?_) hleft h
      rcases Nat.lt_succ_iff_lt_or_eq.1 hq with hq | rfl
      · exact hmode q haq hq
      · rw [hget, htm]
    next htm =>
      rcases List.mem_cons.1 h with rfl | h
      · exact ⟨hap, hp, hmode, hleft, .inr (by simpa [hget] using htm)⟩
      · refine ih hdrop (Nat.lt_succ_self p) hlt (fun q hpq hq => ?_) (.inr ?_) h
        · rwa [Nat.le_antisymm (Nat.lt_succ_iff.1 hq) hpq]
        · rw [hmode (p - 1) (by omega) (by omega)]
          exact fun hmt => htm (Option.some.inj hmt).symm

/-- Every run is maximal (R215). -/
theorem isRun_of_mem_runs {tags : List Nat} {r : Run} (h : r ∈ runs tags) : IsRun tags r := by
  cases tags with
  | nil => cases h
  | cons t ts =>
    refine isRun_of_mem_runsFrom (p := 1) rfl Nat.zero_lt_one (by simp) (fun q _ hq => ?_) (.inl rfl) h
    rw [Nat.lt_one_iff.1 hq]
    rfl

/-- A run's mode is one of the tags. -/
theorem IsRun.mem {tags : List Nat} {r : Run} (h : IsRun tags r) : r.m ∈ tags :=
  List.mem_of_getElem? (h.mode r.a le_rfl h.nonempty)

/-- Settles O31: the runs spell out, are ordered, cover, and are maximal. -/
theorem runsPartition : Obligations.RunsPartition := fun tags =>
  ⟨flatMap_runs tags, pairwise_runs tags, fun _ hp => exists_mem_runs hp, fun _ hr =>
    have h := isRun_of_mem_runs hr
    ⟨h.nonempty, h.fits, h.mode, h.left, h.right⟩⟩

end Sys2Proof.Proofs

/-! SUPPORT. Candidate sets (42_segment.md R211, R213), the tags in T.MODE (10_state.md R67), and SEG_CLASSIFY (R217,
R218; O33). -/

namespace Sys2Proof.Proofs

open Sys2Proof Sys2Proof.Machine Sys2Proof.Laws Sys2Proof.Claims

/-! ### A function over positions (60_exceptions.md R340) -/

section Positions

variable {α : Type} {f : Nat → Except Err α}

theorem forPositions_eq_map {g : Nat → α} {ps : List Nat} (h : ∀ p ∈ ps, f p = .ok (g p)) :
    forPositions f ps = .ok (ps.map g) := by
  refine forPositions_eq_ok.2 ?_
  induction ps with
  | nil => exact .nil
  | cons p ps ih => exact .cons (h p List.mem_cons_self) (ih fun q hq => h q (List.mem_cons_of_mem p hq))

/-- The first failing position is the one reported. -/
theorem forPositions_eq_error {pre post : List Nat} {p : Nat} {e : Err} (hpre : ∀ q ∈ pre, ∃ v, f q = .ok v)
    (hp : f p = .error e) : forPositions f (pre ++ p :: post) = .error e := by
  induction pre with
  | nil => exact bind_eq_error.2 (.inl hp)
  | cons q pre ih =>
    obtain ⟨v, hv⟩ := hpre q List.mem_cons_self
    have hrest := ih fun q hq => hpre q (List.mem_cons_of_mem _ hq)
    exact bind_eq_error.2 (.inr ⟨v, hv, bind_eq_error.2 (.inl hrest)⟩)

end Positions

/-! ### Sets of modes -/

theorem mem_modesOf {c : BitVec 8} {q : Nat} : q ∈ modesOf c ↔ c.getLsbD q = true := by
  rw [modesOf, List.mem_filter, List.mem_range, and_iff_right_iff_imp]
  exact BitVec.lt_of_getLsbD

theorem modesOf_single : ∀ q, q < 8 → modesOf (1#8 <<< q) = [q] := by decide

theorem modesOf_injective {c d : BitVec 8} (h : modesOf c = modesOf d) : c = d :=
  BitVec.eq_of_getLsbD_eq fun q _ => Bool.eq_iff_iff.2 (by rw [← mem_modesOf, ← mem_modesOf, h])

theorem modesOf_ne_nil {c : BitVec 8} (h : c ≠ 0#8) : modesOf c ≠ [] := by
  have hzero : modesOf 0#8 = [] := by decide
  exact fun hnil => h (modesOf_injective (hnil.trans hzero.symm))

/-- The tag of a position is a mode exactly when that is the one mode of SPEC (R217, R218). -/
theorem classTag_eq_iff {c : BitVec 8} {q : Nat} (hq : q < 8) : classTag c = q ↔ c = 1#8 <<< q := by
  constructor
  · intro h
    unfold classTag at h
    split at h
    next m hm => exact modesOf_injective (by rw [hm, modesOf_single q hq, h])
    next => exact absurd hq (h ▸ by decide)
  · rintro rfl
    rw [classTag, modesOf_single q hq]

theorem classTag_eq_unres {c : BitVec 8} (h : ∀ q, q < 8 → c ≠ 1#8 <<< q) : classTag c = 15 := by
  unfold classTag
  split
  next m hm =>
    have hm8 : m < 8 := BitVec.lt_of_getLsbD (mem_modesOf.1 (hm ▸ List.mem_singleton_self m))
    exact absurd (modesOf_injective (hm.trans (modesOf_single m hm8).symm)) (h m hm8)
  next => rfl

theorem classTag_lt (c : BitVec 8) : classTag c < 16 := by
  by_cases h : ∃ q, q < 8 ∧ c = 1#8 <<< q
  · obtain ⟨q, hq, hc⟩ := h
    rw [(classTag_eq_iff hq).2 hc]
    omega
  · rw [classTag_eq_unres fun q hq hc => h ⟨q, hq, hc⟩]
    decide

/-! ### Candidate sets (R211, R213) -/

section Candidates

variable {s : State} {i : Nat}

theorem charOk_iff {c : Int} : charOk c = true ↔ -16 ≤ c ∧ c ≤ 65535 := decide_eq_true_iff

theorem cand_eq_ok {c : BitVec 8} : s.cand i = .ok c ↔ HasCandidates s i ∧ c = candMask s i := by
  simp only [State.cand, bind_eq_ok, require_eq_ok, charOk_iff, decide_eq_true_eq, pure, Except.pure, Except.ok.injEq,
    exists_and_left, exists_const, HasCandidates, and_assoc, eq_comm (b := c)]
  rfl

theorem cand_of_hasCandidates (h : HasCandidates s i) : s.cand i = .ok (candMask s i) := cand_eq_ok.2 ⟨h, rfl⟩

theorem spec_of_hasCandidates (h : HasCandidates s i) : s.spec i = .ok (specMask s i) := by
  rw [State.spec, cand_of_hasCandidates h]
  rfl

/-- CAND reports its reason and the position (R211). -/
theorem cand_eq_error {info : Word} (h : CandidateError s i info) :
    s.cand i = .error { kind := .invalidInput, info := info } := by
  rcases h with ⟨hrange, rfl⟩ | ⟨hlo, hhi, hmask, rfl⟩
  · refine require_bind_error (Bool.eq_false_iff.2 fun hok => ?_) ..
    have := charOk_iff.1 hok
    omega
  · refine (require_bind_ok (charOk_iff.2 ⟨hlo, hhi⟩) ..).trans (require_bind_error ?_ ..)
    exact decide_eq_false (not_not_intro hmask)

/-- A candidate is one of the MODE_COUNT modes (R211). -/
theorem lt_modeCount_of_candMask {q : Nat} (h : (candMask s i).getLsbD q = true) : q < s.modeCount := by
  rw [candMask, BitVec.getLsbD_and, BitVec.getLsbD_ofNat, Nat.testBit_two_pow_sub_one] at h
  simpa using (Bool.and_eq_true_iff.1 (Bool.and_eq_true_iff.1 h).2).2

theorem candMask_of_specMask {q : Nat} (h : (specMask s i).getLsbD q = true) : (candMask s i).getLsbD q = true := by
  unfold specMask at h
  split at h
  · exact h
  · exact (Bool.and_eq_true_iff.1 (BitVec.getLsbD_and ▸ h)).1

theorem specMask_ne_zero (h : HasCandidates s i) : specMask s i ≠ 0#8 := by
  obtain ⟨-, -, hmask⟩ := h
  unfold specMask
  split
  · exact hmask
  · assumption

theorem specs_eq (h : ∀ i, i < s.n → HasCandidates s i) : s.specs = .ok ((List.range s.n).map (specMask s)) :=
  forPositions_eq_map fun i hi => spec_of_hasCandidates (h i (List.mem_range.1 hi))

end Candidates

/-! ### The tags in T.MODE (10_state.md R67) -/

section Tags

variable {s : State} {tags : List Nat}

theorem fieldMask_mode {k : Nat} (hk : k < 4096) : fieldMask (modeBase + 4 * k) = 0xF#32 :=
  fieldMask_eq (r := .mode) (show _ ∧ _ by unfold modeBase; omega) (by decide)

/-- A tag is four bits. -/
theorem tMode_storeTags (hn : tags.length ≤ 4096) {k : Nat} (hk : k < tags.length) (hlt : tags[k] < 16) :
    (s.storeTags tags).tMode k = tags[k] := by
  have hones : (0xF#32).toNat = 2 ^ 4 - 1 := rfl
  rw [State.tMode, State.storeTags, entry_storeNats s modeBase tags k hk, fieldMask_mode (by omega), BitVec.toNat_and,
    BitVec.toNat_ofNat, hones, Nat.and_two_pow_sub_one_eq_mod]
  omega

/-- Tags of four bits read back. -/
theorem tags_storeTags (hlen : tags.length = s.n) (hn : s.n ≤ 4096) (hlt : ∀ t ∈ tags, t < 16) :
    (s.storeTags tags).tags = tags := by
  refine List.ext_getElem (by rw [length_tags, hlen]; rfl) fun k h1 h2 => ?_
  simp only [State.tags, List.getElem_map, List.getElem_range]
  exact tMode_storeTags (hlen ▸ hn) h2 (hlt _ (List.getElem_mem h2))

theorem storeTags_sameOutside (hlen : tags.length = s.n) :
    SameOutside s (s.storeTags tags) 0x14000 (0x14000 + 4 * s.nChars.toNat) := storeNats_sameOutside s hlen

/-- Storing the same tags again changes no byte. -/
theorem loadByte_storeTags_again {u : State} (hu : u.mem = (s.storeTags tags).mem) (a : Nat) :
    (u.storeTags tags).loadByte a = u.loadByte a := by
  have hbytes : u.loadByte a = (s.storeTags tags).loadByte a := by rw [State.loadByte, hu]; rfl
  rw [hbytes]
  by_cases ha : a < modeBase ∨ modeBase + 4 * (tags.map (BitVec.ofNat 32)).length ≤ a
  · exact (loadByte_storeWords_outside u modeBase _ a ha).trans hbytes
  · obtain ⟨i, j, hj, rfl⟩ : ∃ i j, j < 4 ∧ a = modeBase + 4 * i + j :=
      ⟨(a - modeBase) / 4, (a - modeBase) % 4, Nat.mod_lt _ (by decide), by omega⟩
    have hi : i < (tags.map (BitVec.ofNat 32)).length := by omega
    exact (loadByte_storeWords_inside u modeBase _ i j hi hj).trans
      (loadByte_storeWords_inside s modeBase _ i j hi hj).symm

end Tags

/-! ### What the commands check first (R212, R216) -/

theorem segCheck_ok {s : State} (hn : s.nChars.toNat ≤ 4096) (hc : ConfigOk s) : s.segCheck = .ok () :=
  segCheck_eq_ok.2 ⟨hn, hc⟩

/-! ### SEG_CLASSIFY (R217) -/

/-- The tags SEG_CLASSIFY gives the positions (R217). -/
def classTags (s : State) : List Nat := ((List.range s.n).map (specMask s)).map classTag

theorem length_classTags (s : State) : (classTags s).length = s.n := by
  rw [classTags, List.length_map, List.length_map, List.length_range]

theorem getElem_classTags {s : State} {i : Nat} (hi : i < (classTags s).length) :
    (classTags s)[i] = classTag (specMask s i) := by
  simp only [classTags, List.getElem_map, List.getElem_range]

theorem segClassifyWork_eq {s : State} (hn : s.nChars.toNat ≤ 4096) (hc : ConfigOk s)
    (hcand : ∀ i, i < s.nChars.toNat → HasCandidates s i) :
    s.segClassifyWork = .ok ((s.storeTags (classTags s)).writeResNat
      ((classTags s).countP fun t => decide (t = unres))) := by
  rw [State.segClassifyWork, segCheck_ok hn hc, specs_eq hcand]
  rfl

/-- Settles O33: every position has candidates, so each tag is that of its SPEC, and it reads back. -/
theorem segClassifyCommand : Obligations.SegClassifyCommand := by
  intro s hn hc hcand
  have hlen := length_classTags s
  have hread (i : Nat) (hi : i < s.n) : (s.storeTags (classTags s)).tMode i = classTag (specMask s i) := by
    have hget := getElem_classTags (hlen ▸ hi)
    exact (tMode_storeTags (hlen ▸ hn) (hlen ▸ hi) (hget ▸ classTag_lt _)).trans hget
  have hcount : (classTags s).countP (fun t => decide (t = unres))
      = ((List.range s.n).filter fun i => decide ((s.storeTags (classTags s)).tMode i = 15)).length := by
    rw [← List.countP_eq_length_filter]
    conv_lhs => rw [classTags, List.map_map, List.countP_map]
    refine List.countP_congr fun i hi => ?_
    rw [hread i (List.mem_range.1 hi)]
    rfl
  have hexec : exec .segClassify s = .next (s.finish s.segClassifyWork) := rfl
  rw [segClassifyWork_eq hn hc hcand] at hexec
  refine ⟨(s.storeTags (classTags s)).mem, _, hexec, fun i hi => ?_, ?_, storeTags_sameOutside hlen⟩
  · show (∀ q, q < 8 → ((s.storeTags (classTags s)).tMode i = q ↔ _)) ∧ (_ → (s.storeTags (classTags s)).tMode i = 15)
    rw [hread i hi]
    exact ⟨fun q hq => classTag_eq_iff hq, classTag_eq_unres⟩
  · exact congrArg _ hcount

end Sys2Proof.Proofs

/-! SUPPORT. SEG_RESOLVE (42_segment.md R220 to R222; O34, O35), and what the segmentation commands read of a state
whose T.MODE alone was rewritten. -/

namespace Sys2Proof.Proofs

open Sys2Proof Sys2Proof.Machine Sys2Proof.Laws Sys2Proof.Claims

/-! ### The lowest mode of a set -/

/-- The lowest mode of a set with a property is the first the model lists. -/
theorem headD_filter_modesOf {c : BitVec 8} {p : Nat → Bool} {q d : Nat} (hq : c.getLsbD q = true) (hp : p q = true)
    (hlow : ∀ r, r < q → c.getLsbD r = true → p r = false) : ((modesOf c).filter p).headD d = q := by
  have hfind : (List.range 8).find? (fun r => p r && c.getLsbD r) = some q := by
    refine List.find?_range_eq_some.2 ⟨by rw [hq, hp]; rfl, List.mem_range.2 (BitVec.lt_of_getLsbD hq), fun r hr => ?_⟩
    cases hc : c.getLsbD r with
    | false => simp
    | true => simp [hlow r hr hc]
  rw [List.headD_eq_head?_getD, modesOf, List.filter_filter, List.head?_filter, hfind]
  rfl

theorem headD_modesOf {c : BitVec 8} {q d : Nat} (hq : c.getLsbD q = true)
    (hlow : ∀ r, r < q → c.getLsbD r = false) : (modesOf c).headD d = q := by
  have h := headD_filter_modesOf (p := fun _ => true) (d := d) hq rfl fun r hr hc => by simp [hlow r hr] at hc
  rwa [List.filter_true] at h

/-! ### The choice for one position (R220) -/

section Choice

variable {s : State} {prev t : Nat} {nxt : Option Nat} {c : BitVec 8}

/-- The candidates that the mode before reaches by a shift (R220). -/
def shiftModes (s : State) (prev : Nat) (c : BitVec 8) : List Nat :=
  (modesOf c).filter (fun t => decide (t ≠ prev ∧ (s.trans prev t).kind = .shift))

theorem chooseMode_prev (h : c.getLsbD prev = true) : s.chooseMode prev nxt c = prev := if_pos h

theorem chooseMode_next (h : c.getLsbD prev = false) (ht : c.getLsbD t = true) : s.chooseMode prev (some t) c = t := by
  have hfilter : (some t).filter (fun t => c.getLsbD t) = some t := by simp [ht]
  rw [State.chooseMode, h, hfilter]
  rfl

theorem chooseMode_default (h : c.getLsbD prev = false) (hnxt : ∀ t, nxt = some t → c.getLsbD t = false) :
    s.chooseMode prev nxt c = (shiftModes s prev c).headD ((modesOf c).headD 0) := by
  have hfilter : nxt.filter (fun t => c.getLsbD t) = none :=
    Option.filter_eq_none_iff.2 fun t ht => by simp [hnxt t ht]
  rw [State.chooseMode, h, hfilter, ← shiftModes]
  cases shiftModes s prev c <;> rfl

/-- The mode chosen is a candidate (R220). -/
theorem chooseMode_mem (hc : c ≠ 0#8) : c.getLsbD (s.chooseMode prev nxt c) = true := by
  cases hprev : c.getLsbD prev with
  | true => rw [chooseMode_prev hprev, hprev]
  | false =>
    by_cases hnxt : ∃ t, nxt = some t ∧ c.getLsbD t = true
    · obtain ⟨t, rfl, ht⟩ := hnxt
      rw [chooseMode_next hprev ht, ht]
    · rw [chooseMode_default hprev fun t ht => Bool.eq_false_iff.2 fun hb => hnxt ⟨t, ht, hb⟩, ← mem_modesOf]
      cases hs : shiftModes s prev c with
      | cons q qs => exact (List.mem_filter.1 (hs ▸ List.mem_cons_self : q ∈ shiftModes s prev c)).1
      | nil =>
        obtain ⟨q, qs, hq⟩ := List.exists_cons_of_ne_nil (modesOf_ne_nil hc)
        rw [hq]
        exact List.mem_cons_self

end Choice

/-! ### All positions (R220) -/

/-- The tags and the SPEC sets of the positions, as SEG_RESOLVE takes them (R220). -/
def resolvePairs (s : State) : List (Nat × BitVec 8) := (List.range s.n).map fun i => (s.tMode i, specMask s i)

/-- The tags SEG_RESOLVE gives the positions (R220). -/
def resolvedTags (s : State) : List Nat := s.resolve s.initMode (resolvePairs s)

/-- Position j is the next resolved one after i (R220). -/
def NextResolved (s : State) (i j : Nat) : Prop :=
  i < j ∧ j < s.nChars.toNat ∧ s.tMode j ≠ 15 ∧ ∀ k, i < k → k < j → s.tMode k = 15

theorem nextResolved_eq_find? (ps : List (Nat × BitVec 8)) :
    nextResolved ps = (ps.map Prod.fst).find? (fun t => decide (t ≠ unres)) := by
  induction ps with
  | nil => rfl
  | cons p ps ih =>
    rw [List.map_cons, List.find?_cons, ← ih]
    by_cases hp : p.1 = unres <;> simp [nextResolved, hp]

/-- Each tag is kept where it is resolved, else chosen from the tag before, the next resolved one, and SPEC (R220). -/
theorem getElem?_resolve (s : State) (prev : Nat) {ps : List (Nat × BitVec 8)} {i t : Nat} {c : BitVec 8}
    (hi : ps[i]? = some (t, c)) :
    (s.resolve prev ps)[i]? = some
      (if t = unres then
        s.chooseMode (if i = 0 then prev else (s.resolve prev ps).getD (i - 1) 0) (nextResolved (ps.drop (i + 1))) c
      else t) := by
  induction ps generalizing prev i with
  | nil => cases hi
  | cons p ps ih =>
    cases i with
    | zero =>
      obtain rfl : p = (t, c) := by simpa using hi
      rfl
    | succ i =>
      rw [List.getElem?_cons_succ] at hi
      rw [State.resolve, List.getElem?_cons_succ, ih _ hi]
      cases i <;> rfl

/-- Tags that are all resolved stay (R222). -/
theorem resolve_of_resolved (s : State) (prev : Nat) {ps : List (Nat × BitVec 8)} (h : ∀ p ∈ ps, p.1 ≠ unres) :
    s.resolve prev ps = ps.map Prod.fst := by
  induction ps generalizing prev with
  | nil => rfl
  | cons p ps ih =>
    simp only [State.resolve, List.map_cons, if_neg (h p List.mem_cons_self),
      ih _ fun q hq => h q (List.mem_cons_of_mem p hq)]

section Resolve

variable {s : State}

theorem length_resolvedTags (s : State) : (resolvedTags s).length = s.n := by
  rw [resolvedTags, length_resolve, resolvePairs, List.length_map, List.length_range]

theorem map_fst_resolvePairs (s : State) : (resolvePairs s).map Prod.fst = s.tags := by
  rw [resolvePairs, List.map_map]
  rfl

theorem getElem_tags {k : Nat} (hk : k < s.tags.length) : s.tags[k] = s.tMode k := by
  simp only [State.tags, List.getElem_map, List.getElem_range]

/-- The lookahead finds the next resolved position (R220). -/
theorem nextResolved_eq_some {i t : Nat} :
    nextResolved ((resolvePairs s).drop (i + 1)) = some t ↔ ∃ j, NextResolved s i j ∧ s.tMode j = t := by
  have hlen : (s.tags.drop (i + 1)).length = s.n - (i + 1) := by rw [List.length_drop, length_tags]
  have hget (k : Nat) (hk : k < (s.tags.drop (i + 1)).length) : (s.tags.drop (i + 1))[k] = s.tMode (i + 1 + k) := by
    rw [List.getElem_drop, getElem_tags]
  rw [nextResolved_eq_find?, List.map_drop, map_fst_resolvePairs, List.find?_eq_some_iff_getElem]
  constructor
  · rintro ⟨ht, k, hk, hkt, hbefore⟩
    rw [hget] at hkt
    refine ⟨i + 1 + k, ⟨by omega, show _ < s.n by omega, hkt ▸ of_decide_eq_true ht, fun l hil hlk => ?_⟩, hkt⟩
    have hl := hbefore (l - (i + 1)) (by omega)
    rw [hget, show i + 1 + (l - (i + 1)) = l by omega] at hl
    by_contra hne
    rw [decide_eq_true (p := s.tMode l ≠ unres) hne] at hl
    cases hl
  · rintro ⟨j, ⟨hij, hjn, hj, hbefore⟩, rfl⟩
    have hjn' : j < s.n := hjn
    refine ⟨decide_eq_true hj, j - (i + 1), by omega, ?_, fun l hl => ?_⟩
    · rw [hget, show i + 1 + (j - (i + 1)) = j by omega]
    · rw [hget, hbefore (i + 1 + l) (by omega) (by omega)]
      rfl

theorem getD_resolvedTags {i : Nat} (hi : i < s.n) :
    (resolvedTags s).getD i 0 = if s.tMode i = 15 then
        s.chooseMode (if i = 0 then s.initMode else (resolvedTags s).getD (i - 1) 0)
          (nextResolved ((resolvePairs s).drop (i + 1))) (specMask s i)
      else s.tMode i := by
  have hpair : (resolvePairs s)[i]? = some (s.tMode i, specMask s i) := by
    rw [resolvePairs, List.getElem?_map, List.getElem?_range hi]
    rfl
  rw [List.getD_eq_getElem?_getD, resolvedTags, getElem?_resolve s s.initMode hpair]
  rfl

variable (h : ResolveReady s)
include h

theorem segResolveWork_eq :
    s.segResolveWork = .ok ((s.storeTags (resolvedTags s)).writeResNat (runs (resolvedTags s)).length) := by
  obtain ⟨hn, hc, hcand, htags⟩ := h
  have hcheck : s.checkTags true 0 s.tags = .ok () := by
    refine checkTags_eq_ok.2 fun t ht => ?_
    obtain ⟨i, hi, rfl⟩ := List.mem_map.1 ht
    exact (htags i (List.mem_range.1 hi)).imp_right fun h15 => ⟨rfl, h15⟩
  rw [State.segResolveWork, segCheck_ok hn hc, hcheck, specs_eq hcand, resolvedTags, resolvePairs, ← List.zip_map']
  rfl

/-- An unresolved position gets one of its SPEC modes (R222). -/
theorem specMask_resolvedTags {i : Nat} (hi : i < s.n) (h15 : s.tMode i = 15) :
    (specMask s i).getLsbD ((resolvedTags s).getD i 0) = true := by
  obtain ⟨-, -, hcand, -⟩ := h
  rw [getD_resolvedTags hi, if_pos h15]
  exact chooseMode_mem (specMask_ne_zero (hcand i hi))

theorem getD_resolvedTags_lt {i : Nat} (hi : i < s.n) : (resolvedTags s).getD i 0 < s.modeCount := by
  by_cases h15 : s.tMode i = 15
  · exact lt_modeCount_of_candMask (candMask_of_specMask (specMask_resolvedTags h hi h15))
  · obtain ⟨-, -, -, htags⟩ := h
    rw [getD_resolvedTags hi, if_neg h15]
    exact (htags i hi).resolve_right h15

theorem mem_resolvedTags_lt {t : Nat} (ht : t ∈ resolvedTags s) : t < s.modeCount := by
  obtain ⟨i, hi, rfl⟩ := List.mem_iff_getElem.1 ht
  have hlt := getD_resolvedTags_lt h (length_resolvedTags s ▸ hi)
  rwa [List.getD_eq_getElem _ _ hi] at hlt

theorem resolvedTags_lt_unres {t : Nat} (ht : t ∈ resolvedTags s) : t < 15 := by
  have hlt := mem_resolvedTags_lt h ht
  obtain ⟨-, ⟨-, hmc, -⟩, -⟩ := h
  omega

/-- What SEG_RESOLVE stores reads back. -/
theorem tMode_storeTags_resolved {i : Nat} (hi : i < s.n) :
    (s.storeTags (resolvedTags s)).tMode i = (resolvedTags s).getD i 0 := by
  have hlen := length_resolvedTags s
  have hlt := fun t ht => (resolvedTags_lt_unres h (t := t) ht).trans (Nat.lt_succ_self 15)
  obtain ⟨hn, -⟩ := h
  rw [tMode_storeTags (hlen ▸ hn) (hlen ▸ hi) (hlt _ (List.getElem_mem _)), List.getD_eq_getElem]

theorem tags_storeTags_resolved : (s.storeTags (resolvedTags s)).tags = resolvedTags s := by
  have hlt := fun t ht => (resolvedTags_lt_unres h (t := t) ht).trans (Nat.lt_succ_self 15)
  obtain ⟨hn, -⟩ := h
  exact tags_storeTags (length_resolvedTags s) hn hlt

/-- The state SEG_RESOLVE leaves (R220). -/
theorem exec_segResolve :
    exec .segResolve s = .next (completedRes { s with mem := (s.storeTags (resolvedTags s)).mem }
      (BitVec.ofNat 32 (runs (resolvedTags s)).length)) := by
  have hexec : exec .segResolve s = .next (s.finish s.segResolveWork) := rfl
  rw [segResolveWork_eq h] at hexec
  exact hexec

end Resolve

/-! ### What a rewrite of T.MODE leaves -/

/-- Two states with the same configuration and characters: what EMIT and the segmentation commands read but T.MODE
(20_memory.md R91, 42_segment.md R217, R220, R227). -/
structure SameSource (s t : State) : Prop where
  nChars : t.nChars = s.nChars
  modeCfg : t.modeCfg = s.modeCfg
  modecfg : t.modecfg = s.modecfg
  bytes : ∀ a, a < 0x14000 → t.loadByte a = s.loadByte a

theorem cidx_le (c : Int) : cidx c ≤ 272 := by
  unfold cidx sentCount
  split <;> omega

namespace SameSource

variable {s t : State} (h : SameSource s t)
include h

theorem load {a : Nat} (ha : a + 4 ≤ 0x14000) : t.load a = s.load a :=
  load_congr_bytes fun b _ hb => h.bytes b (by omega)

theorem char {i : Nat} (hi : i < 4096) : t.char i = s.char i :=
  congrArg BitVec.toInt (h.load (by unfold charBase; omega))

theorem tClass (c : Int) : t.tClass (cidx c) = s.tClass (cidx c) := by
  have hc := cidx_le c
  exact congrArg (BitVec.extractLsb' 0 8) (h.load (by unfold clsBase; omega))

theorem tVtab {m : Nat} (hm : m < 8) (c : Int) : t.tVtab m (cidx c) = s.tVtab m (cidx c) := by
  have hc := cidx_le c
  exact congrArg BitVec.toNat (h.load (by unfold vtabBase; omega))

theorem trans {a b : Nat} (ha : a < 8) (hb : b < 8) : t.trans a b = s.trans a b :=
  congrArg transOf (h.load (by unfold transBase; omega))

theorem mc (m : Nat) : t.mc m = s.mc m := by rw [State.mc, State.mc, h.modecfg]

theorem modeCount : t.modeCount = s.modeCount := by rw [State.modeCount, State.modeCount, h.modeCfg]

theorem initMode : t.initMode = s.initMode := by rw [State.initMode, State.initMode, h.modeCfg]

theorem fallback : t.fallback = s.fallback := by rw [State.fallback, State.fallback, h.modeCfg]

theorem configOk (hs : ConfigOk s) : ConfigOk t := by
  unfold ConfigOk
  rw [h.modeCount, h.initMode, h.fallback]
  exact hs

theorem candMask {i : Nat} (hi : i < 4096) : candMask t i = candMask s i := by
  rw [Claims.candMask, h.char hi, h.tClass, h.modeCount, Claims.candMask]

theorem hasCandidates {i : Nat} (hi : i < 4096) (hs : HasCandidates s i) : HasCandidates t i := by
  unfold HasCandidates
  rw [h.char hi, h.candMask hi]
  exact hs

end SameSource

/-- A command that stores tags and writes RES keeps what the segmentation commands read (R217, R220, R227). -/
theorem sameSource_storeTags (s : State) (tags : List Nat) (r : Word) :
    SameSource s (completedRes { s with mem := (s.storeTags tags).mem } r) :=
  ⟨rfl, rfl, rfl, fun a ha => loadByte_storeWords_outside s modeBase _ a (.inl ha)⟩

/-! ### SEG_RESOLVE -/

/-- After SEG_RESOLVE every tag is resolved, so SEG_RESOLVE is ready again, with the same tags to give (R222). -/
theorem resolvedTags_again {s t : State} (h : ResolveReady s) (hst : SameSource s t) (ht : t.tags = resolvedTags s) :
    ResolveReady t ∧ resolvedTags t = resolvedTags s := by
  have hlt (i : Nat) (hi : i < t.nChars.toNat) : t.tMode i ∈ resolvedTags s :=
    ht ▸ List.mem_map_of_mem (List.mem_range.2 hi)
  have hresolved : ∀ p ∈ resolvePairs t, p.1 ≠ unres := by
    intro p hp
    obtain ⟨i, hi, rfl⟩ := List.mem_map.1 hp
    exact (resolvedTags_lt_unres h (hlt i (List.mem_range.1 hi))).ne
  refine ⟨?_, by rw [resolvedTags, resolve_of_resolved t _ hresolved, map_fst_resolvePairs, ht]⟩
  have hmode := fun i hi => mem_resolvedTags_lt h (hlt i hi)
  obtain ⟨hn, hc, hcand, -⟩ := h
  rw [← hst.nChars] at hn
  refine ⟨hn, hst.configOk hc, fun i hi => ?_, fun i hi => .inl (hst.modeCount ▸ hmode i hi)⟩
  exact hst.hasCandidates (by omega) (hcand i (hst.nChars ▸ hi))

/-- Settles O34: the tags given are kept or chosen from SPEC; SEG_RESOLVE of them stores the same tags. -/
theorem segResolveCommand : Obligations.SegResolveCommand := by
  intro s h
  have hlen := length_resolvedTags s
  have htags := tags_storeTags_resolved h
  refine ⟨(s.storeTags (resolvedTags s)).mem, ?_⟩
  have hmap : (List.range s.nChars.toNat).map
      (fun i => ({ s with mem := (s.storeTags (resolvedTags s)).mem } : State).tMode i) = resolvedTags s := htags
  intro tags t
  have ht : t = completedRes { s with mem := (s.storeTags (resolvedTags s)).mem }
      (BitVec.ofNat 32 (runs (resolvedTags s)).length) :=
    congrArg (fun ts => completedRes _ (BitVec.ofNat 32 (runs ts).length)) hmap
  have hmode (i : Nat) (hi : i < s.nChars.toNat) : t.tMode i = (resolvedTags s).getD i 0 := by
    rw [ht]
    exact tMode_storeTags_resolved h hi
  obtain ⟨hready, hagain⟩ := resolvedTags_again h (t := t) (ht ▸ sameSource_storeTags s _ _) (ht ▸ htags)
  refine ⟨ht ▸ exec_segResolve h, fun i hi => ?_, fun a ha => ?_, _, exec_segResolve hready, ?_, fun a => ?_⟩
  · rw [hmode i hi]
    refine ⟨getD_resolvedTags_lt h hi, fun h15 => ?_, specMask_resolvedTags h hi⟩
    rw [getD_resolvedTags hi, if_neg h15]
  · rw [ht]
    exact storeTags_sameOutside hlen a ha
  · rw [hagain, ht]
    rfl
  · rw [hagain]
    exact loadByte_storeTags_again (s := s) (u := t) (ht ▸ rfl) a

/-- Settles O35: the cases of the choice, at the position's own lookbehind and lookahead. -/
theorem segResolveChoice : Obligations.SegResolveChoice := by
  intro s h
  refine ⟨_, exec_segResolve h, fun i hi h15 => ?_⟩
  intro prev nextIs shiftTo
  have hmode (k : Nat) (hk : k < s.n) : (completedRes { s with mem := (s.storeTags (resolvedTags s)).mem }
      (BitVec.ofNat 32 (runs (resolvedTags s)).length)).tMode k = (resolvedTags s).getD k 0 :=
    tMode_storeTags_resolved h hk
  have hprev : prev = if i = 0 then s.initMode else (resolvedTags s).getD (i - 1) 0 := by
    show (if i = 0 then s.initMode else _) = _
    rw [hmode (i - 1) (Nat.lt_of_le_of_lt (Nat.sub_le i 1) hi)]
  have hchoice := getD_resolvedTags (s := s) hi
  rw [if_pos h15, ← hprev] at hchoice
  rw [hmode i hi, hchoice]
  refine ⟨chooseMode_prev, fun hnot => ⟨fun j hj hbit => ?_, fun hnext => ?_⟩⟩
  · rw [nextResolved_eq_some.2 ⟨j, hj, rfl⟩, chooseMode_next hnot hbit]
  · rw [chooseMode_default hnot fun t ht => by obtain ⟨j, hj, rfl⟩ := nextResolved_eq_some.1 ht; exact hnext j hj]
    refine ⟨fun q ⟨hq, hshift⟩ hlow => ?_, fun hnone q hq hlow => ?_⟩
    · refine headD_filter_modesOf hq (decide_eq_true hshift) fun r hr hbit => ?_
      exact decide_eq_false fun hs => hlow r hr ⟨hbit, hs⟩
    · have hempty : shiftModes s prev (specMask s i) = [] :=
        List.filter_eq_nil_iff.2 fun r hr hs => hnone r ⟨mem_modesOf.1 hr, of_decide_eq_true hs⟩
      rw [hempty]
      exact headD_modesOf hq hlow

end Sys2Proof.Proofs

/-! SUPPORT. The paths of the transition table (43_bitstream.md R251, R252): what the model's search finds is what the
rule's recursion returns, and the last hop of a path can be taken again. -/

namespace Sys2Proof.Proofs

open Sys2Proof Sys2Proof.Machine Sys2Proof.Laws Sys2Proof.Claims

section Paths

variable {s : State}

/-- The hop that a LATCH or SHIFT entry of the transition table gives (R252). -/
def hopAt (s : State) (x y : Nat) : Hop := ⟨x, y, (s.trans x y).kind, (s.trans x y).nbits, (s.trans x y).code⟩

/-- The entry is one a path can take directly (R252). -/
structure IsHop (s : State) (x y : Nat) : Prop where
  nbits : (s.trans x y).nbits ≤ 16
  kind : (s.trans x y).kind = .latch ∨ (s.trans x y).kind = .shift

theorem via_lt (s : State) (x y : Nat) : (s.trans x y).via < 8 := field_lt _ 4 3

theorem pathFrom_of_isHop {x y : Nat} (h : IsHop s x y) (k : Nat) : s.pathFrom (k + 1) x y = some [hopAt s x y] := by
  obtain ⟨hbits, hkind⟩ := h
  have hle : ¬ (s.trans x y).nbits > 16 := Nat.not_lt.2 hbits
  unfold State.pathFrom hopAt
  rcases hkind with hk | hk <;> simp only [hk, if_neg hle]

theorem pathOk_iff {q : List Hop} : pathOk q = true ↔ q.length ≤ 8 ∧ ∀ h ∈ q.dropLast, h.kind = .latch := by
  simp [pathOk]

/-- The model's search answers with paths of the rule's recursion (R252). -/
theorem resolves_of_pathFrom {k d x y : Nat} {p : List Hop} (hd : d + k = 4) (h : s.pathFrom k x y = some p) :
    Resolves s d x y p := by
  induction k generalizing d x y p with
  | zero => cases h
  | succ k ih =>
    simp only [State.pathFrom] at h
    split at h
    · cases h
    next hbits =>
      have hbits := Nat.le_of_not_lt hbits
      split at h
      next => cases h
      next hk =>
        cases h
        exact hk ▸ .direct d x y (by omega) hbits (.inl hk)
      next hk =>
        cases h
        exact hk ▸ .direct d x y (by omega) hbits (.inr hk)
      next hk =>
        split at h
        · cases h
        next hvia =>
          obtain ⟨hx, hy, hlt⟩ : _ ≠ x ∧ _ ≠ y ∧ ¬ s.modeCount ≤ _ := by simpa only [not_or] using hvia
          split at h
          next q r hq hr =>
            split at h
            next hok =>
              cases h
              obtain ⟨hlen, hlatch⟩ := pathOk_iff.1 hok
              exact .via d x y q r (by omega) hbits hk hx hy (Nat.lt_of_not_le hlt) (ih (by omega) hq)
                (ih (by omega) hr) hlen hlatch
            next => cases h
          next => cases h

/-- A path ends with an entry into the mode asked for, taken from the first mode or from one of the eight (R252). -/
theorem last_of_resolves {d x y : Nat} {p : List Hop} (h : Resolves s d x y p) :
    ∃ q z, p = q ++ [hopAt s z y] ∧ IsHop s z y ∧ (z = x ∨ z < 8) := by
  induction h with
  | direct d x y _ hbits hk => exact ⟨[], x, rfl, ⟨hbits, hk⟩, .inl rfl⟩
  | via d x y p q _ _ _ _ _ _ _ _ _ _ _ ih =>
    obtain ⟨q', z, rfl, hhop, hz⟩ := ih
    refine ⟨p ++ q', z, (List.append_assoc ..).symm, hhop, .inr ?_⟩
    rcases hz with rfl | hz
    · exact via_lt s x y
    · exact hz

/-- A path has at most 8 hops of at most 16 bits (R252). -/
theorem bounds_of_resolves {d x y : Nat} {p : List Hop} (h : Resolves s d x y p) :
    p.length ≤ 8 ∧ ∀ g ∈ p, g.nbits ≤ 16 := by
  induction h with
  | direct d x y _ hbits _ => exact ⟨by simp, fun g hg => List.mem_singleton.1 hg ▸ hbits⟩
  | via d x y p q _ _ _ _ _ _ _ _ hlen _ ihp ihq =>
    exact ⟨hlen, fun g hg => (List.mem_append.1 hg).elim (ihp.2 g) (ihq.2 g)⟩

theorem path_eq_ok {a b : Nat} {p : List Hop} : s.path a b = .ok p ↔ s.pathFrom 4 a b = some p := by
  unfold State.path
  cases s.pathFrom 4 a b <;> simp

theorem resolves_of_path {a b : Nat} {p : List Hop} (h : s.path a b = .ok p) : Resolves s 0 a b p :=
  resolves_of_pathFrom rfl (path_eq_ok.1 h)

theorem path_of_isHop {a b : Nat} (h : IsHop s a b) : s.path a b = .ok [hopAt s a b] :=
  path_eq_ok.2 (pathFrom_of_isHop h 3)

/-- A missing path is reported for the pair that was asked for (R252). -/
theorem path_eq_error {a b : Nat} (h : ∀ q, ¬ Resolves s 0 a b q) :
    s.path a b = .error (mkErr .internalDefect 2 (8 * a + b)) := by
  unfold State.path
  split
  next p hp => exact absurd (resolves_of_pathFrom rfl hp) (h p)
  next => rfl

theorem endsInLatch_append (q : List Hop) (h : Hop) : endsInLatch (q ++ [h]) = decide (h.kind = .latch) := by
  rw [endsInLatch, List.getLast?_append_of_ne_nil _ (List.cons_ne_nil h []), List.getLast?_singleton]

theorem after_append (cur : Nat) (q : List Hop) (h : Hop) : after cur (q ++ [h]) = modeAfter h := by
  rw [after, List.getLast?_append_of_ne_nil _ (List.cons_ne_nil h []), List.getLast?_singleton]
  rfl

/-- Mode m is entered from `cur` by a path that ends in a SHIFT (R250, R254). -/
def ShiftsTo (s : State) (m cur : Nat) : Prop := ∃ p, s.path cur m = .ok p ∧ endsInLatch p = false

/-- After a path the unit is in the mode asked for, or where one SHIFT enters it again (R254). -/
theorem after_path {cur m : Nat} {p : List Hop} (h : s.path cur m = .ok p) :
    (endsInLatch p = true ∧ after cur p = m) ∨ (endsInLatch p = false ∧ ShiftsTo s m (after cur p)) := by
  obtain ⟨q, z, rfl, hhop, -⟩ := last_of_resolves (resolves_of_path h)
  rw [endsInLatch_append, after_append]
  by_cases hk : (hopAt s z m).kind = .latch
  · exact .inl ⟨decide_eq_true hk, if_pos hk⟩
  · have hlast : endsInLatch [hopAt s z m] = false := (endsInLatch_append [] _).trans (decide_eq_false hk)
    have hz : modeAfter (hopAt s z m) = z := if_neg hk
    rw [hz]
    exact .inr ⟨decide_eq_false hk, [hopAt s z m], path_of_isHop hhop, hlast⟩

end Paths

end Sys2Proof.Proofs

/-! SUPPORT. The emission (43_bitstream.md R249 to R262): what the rules' runs give is what EMIT computes, and the first
path or value error is the one it raises (R252, R258). -/

namespace Sys2Proof.Proofs

open Sys2Proof Sys2Proof.Machine Sys2Proof.Laws Sys2Proof.Claims

/-! ### Equations of the emission's loops -/

section Equations

variable (s : State) (m : Nat)

theorem data_succ (g b f q : Nat) : s.data m g b (f + 1) q =
    if q < b then
      forPositions (s.value m) (List.range' q (min g (b - q))) >>= fun vs =>
        s.data m g b f (q + min g (b - q)) >>= fun rest =>
          pure (bitsOf (packGroup (s.mc m).radix vs) ((s.mc m).gb (min g (b - q))) ++ rest)
    else .ok [] := rfl

theorem emitShifted_cons (cur p : Nat) (ps : List Nat) : s.emitShifted m cur (p :: ps) =
    s.path cur m >>= fun path => s.dataCodes m p (p + 1) 1 >>= fun d =>
      s.emitShifted m (after cur path) ps >>= fun x => pure (codes path ++ d ++ x.1, x.2) := rfl

theorem emitPlain_stay {cur : Nat} {r : Run} (h : r.m = cur) :
    s.emitPlain cur r = s.dataCodes r.m r.a r.b (s.mc r.m).gn >>= fun d => pure (d, cur) := if_pos h

theorem emitPlain_enter {cur : Nat} {r : Run} (h : r.m ≠ cur) : s.emitPlain cur r =
    s.path cur r.m >>= fun path =>
      if endsInLatch path then
        s.dataCodes r.m r.a r.b (s.mc r.m).gn >>= fun d => pure (codes path ++ d, r.m)
      else s.emitShifted r.m cur (List.range' r.a (r.b - r.a)) := if_neg h

/-- The path to a counted chunk: none when the mode is current (R257). -/
def chunkPath (s : State) (cur m : Nat) : Except Err (List Hop) := if m = cur then .ok [] else s.path cur m

theorem emitCounted_succ (b f cur a : Nat) : s.emitCounted m b (f + 1) cur a =
    if a < b then
      chunkPath s cur m >>= fun path =>
        s.dataCodes m a (min (a + (s.mc m).chunkMax) b) (s.mc m).gn >>= fun d =>
          s.emitCounted m b f (after cur path) (min (a + (s.mc m).chunkMax) b) >>= fun x =>
            pure (codes path ++ header (s.mc m) (min (a + (s.mc m).chunkMax) b - a) ++ d ++ x.1, x.2)
    else .ok ([], cur) := by
  unfold chunkPath
  conv_lhs => unfold State.emitCounted
  split
  · split <;> rfl
  · rfl

theorem emitRun_plain {cur : Nat} {r : Run} (h : (s.mc r.m).hdrCount = false) :
    s.emitRun cur r = s.emitPlain cur r := if_neg (by rw [h]; exact Bool.false_ne_true)

theorem emitRun_counted {cur : Nat} {r : Run} (h : (s.mc r.m).hdrCount = true) :
    s.emitRun cur r = s.emitCounted r.m r.b (r.b - r.a) cur r.a := if_pos h

theorem emitRuns_cons (cur : Nat) (r : Run) (rs : List Run) : s.emitRuns cur (r :: rs) =
    s.emitRun cur r >>= fun x => s.emitRuns x.2 rs >>= fun y => pure (x.1 ++ y.1, y.2) := rfl

end Equations

/-! ### Values (R258, R259) -/

section Values

variable {s : State} {m : Nat}

/-- Every position from a up to b has a value in mode m (R258). -/
def HasValues (s : State) (m a b : Nat) : Prop := ∀ j, a ≤ j → j < b → ∃ v, s.value m j = .ok v

theorem value_eq_error {p : Nat} {e : Err} (h : s.value m p = .error e) : e = mkErr .invalidInput 4 p := by
  simp only [State.value, bind_eq_error, require_eq_error, pure, Except.pure, reduceCtorEq, and_false, exists_false,
    or_false] at h
  rcases h with ⟨-, rfl⟩ | ⟨_, -, -, rfl⟩ <;> rfl

theorem exists_forPositions {α : Type} {f : Nat → Except Err α} {ps : List Nat} (h : ∀ p ∈ ps, ∃ v, f p = .ok v) :
    ∃ vs, forPositions f ps = .ok vs := by
  induction ps with
  | nil => exact ⟨[], rfl⟩
  | cons p ps ih =>
    obtain ⟨v, hv⟩ := h p List.mem_cons_self
    obtain ⟨vs, hvs⟩ := ih fun q hq => h q (List.mem_cons_of_mem p hq)
    exact ⟨v :: vs, bind_eq_ok.2 ⟨v, hv, bind_eq_ok.2 ⟨vs, hvs, rfl⟩⟩⟩

theorem range'_eq_append {q p k : Nat} (hqp : q ≤ p) (hp : p < q + k) :
    List.range' q k = List.range' q (p - q) ++ p :: List.range' (p + 1) (q + k - (p + 1)) := by
  obtain ⟨d, rfl⟩ := Nat.exists_eq_add_of_le hqp
  rw [Nat.add_sub_cancel_left, ← List.range'_succ, List.range'_append_1]
  exact congrArg (List.range' q) (by omega)

theorem exists_data {g b f q : Nat} (h : HasValues s m q b) : ∃ d, s.data m g b f q = .ok d := by
  induction f generalizing q with
  | zero => exact ⟨[], rfl⟩
  | succ f ih =>
    rw [data_succ]
    split
    · obtain ⟨vs, hvs⟩ : ∃ vs, forPositions (s.value m) (List.range' q (min g (b - q))) = .ok vs :=
        exists_forPositions fun p hp => by
          rw [List.mem_range'_1] at hp
          exact h p hp.1 (by omega)
      obtain ⟨d, hd⟩ := ih (q := q + min g (b - q)) fun j hj hjb => h j (by omega) hjb
      exact ⟨_, bind_eq_ok.2 ⟨vs, hvs, bind_eq_ok.2 ⟨d, hd, rfl⟩⟩⟩
    · exact ⟨[], rfl⟩

/-- The value codes fail at the first position without a value, whatever the groups (R258, R259). -/
theorem data_eq_error {g b f q p : Nat} {e : Err} (hg : 1 ≤ g) (hf : b - q ≤ f) (hqp : q ≤ p) (hpb : p < b)
    (hlow : HasValues s m q p) (hp : s.value m p = .error e) : s.data m g b f q = .error e := by
  induction f generalizing q with
  | zero => omega
  | succ f ih =>
    rw [data_succ, if_pos (by omega)]
    by_cases hin : p < q + min g (b - q)
    · rw [range'_eq_append hqp hin]
      refine bind_eq_error.2 (.inl (forPositions_eq_error (fun j hj => ?_) hp))
      rw [List.mem_range'_1] at hj
      exact hlow j hj.1 (by omega)
    · obtain ⟨vs, hvs⟩ : ∃ vs, forPositions (s.value m) (List.range' q (min g (b - q))) = .ok vs :=
        exists_forPositions fun j hj => by
          rw [List.mem_range'_1] at hj
          exact hlow j hj.1 (by omega)
      have hrest := ih (q := q + min g (b - q)) (by omega) (by omega) fun j hj => hlow j (by omega)
      exact bind_eq_error.2 (.inr ⟨vs, hvs, bind_eq_error.2 (.inl hrest)⟩)

theorem exists_dataCodes {a b : Nat} (g : Nat) (h : HasValues s m a b) : ∃ d, s.dataCodes m a b g = .ok d :=
  exists_data h

theorem dataCodes_eq_error {a b g p : Nat} {e : Err} (hg : 1 ≤ g) (hap : a ≤ p) (hpb : p < b)
    (hlow : HasValues s m a p) (hp : s.value m p = .error e) : s.dataCodes m a b g = .error e :=
  data_eq_error hg le_rfl hap hpb hlow hp

end Values

/-! ### The rules' runs (R249, R250, R257) -/

section Emitted

variable {s : State}

theorem emitShifted_of_shifted {m cur last : Nat} {ps : List Nat} {b : Bits} (h : Shifted s m cur ps b last) :
    s.emitShifted m cur ps = .ok (b, last) := by
  induction h with
  | done cur => rfl
  | next cur p last ps q h d rest hpath hdata _ ih =>
    rw [emitShifted_cons]
    refine bind_eq_ok.2 ⟨_, hpath, bind_eq_ok.2 ⟨d, hdata, bind_eq_ok.2 ⟨(rest, last), ?_, rfl⟩⟩⟩
    rwa [after_append]

/-- A chunk takes at least one position, so the model's bound on the chunks is enough (R248, R261). -/
theorem emitCounted_of_chunks {m b cur a last : Nat} {bits : Bits} (h : Chunks s m b cur a bits last)
    (hmax : 1 ≤ (s.mc m).chunkMax) {f : Nat} (hf : b - a ≤ f) : s.emitCounted m b f cur a = .ok (bits, last) := by
  induction h generalizing f with
  | done cur a hba =>
    cases f with
    | zero => rfl
    | succ f => rw [emitCounted_succ, if_neg (by omega)]
  | stay a e last d rest hab he hdata _ ih =>
    obtain ⟨f, rfl⟩ : ∃ k, f = k + 1 := ⟨f - 1, by omega⟩
    subst he
    rw [emitCounted_succ, if_pos hab]
    exact bind_eq_ok.2 ⟨[], if_pos rfl, bind_eq_ok.2 ⟨d, hdata, bind_eq_ok.2 ⟨(rest, last), ih (by omega), rfl⟩⟩⟩
  | enter cur a e last q h d rest hab hm he hpath hdata _ ih =>
    obtain ⟨f, rfl⟩ : ∃ k, f = k + 1 := ⟨f - 1, by omega⟩
    subst he
    rw [emitCounted_succ, if_pos hab]
    refine bind_eq_ok.2 ⟨_, (if_neg hm).trans hpath, bind_eq_ok.2 ⟨d, hdata, bind_eq_ok.2 ⟨(rest, last), ?_, ?_⟩⟩⟩
    · rw [after_append]
      exact ih (by omega)
    · rfl

theorem emitRun_of_runEmitted {cur last : Nat} {r : Run} {b : Bits} (hok : ModeOk (s.mc r.m))
    (h : RunEmitted s cur r b last) : s.emitRun cur r = .ok (b, last) := by
  cases h with
  | stay _ d hplain hdata =>
    rw [emitRun_plain s hplain, emitPlain_stay s rfl, hdata]
    rfl
  | latch _ _ q h d hplain hm hpath hkind hdata =>
    rw [emitRun_plain s hplain, emitPlain_enter s hm, hpath]
    refine (if_pos ((endsInLatch_append q h).trans (decide_eq_true hkind))).trans ?_
    rw [hdata]
    rfl
  | shift _ _ _ q h b hplain hm hpath hkind hshifted =>
    rw [emitRun_plain s hplain, emitPlain_enter s hm, hpath]
    refine (if_neg ?_).trans (emitShifted_of_shifted hshifted)
    rw [endsInLatch_append, hkind]
    decide
  | counted _ _ _ _ hcount hchunks =>
    obtain ⟨-, -, -, -, -, hheader⟩ := hok
    obtain ⟨-, -, hmax⟩ := hheader hcount
    rw [emitRun_counted s hcount, emitCounted_of_chunks hchunks hmax le_rfl]

/-- The runs before the first failing one are emitted, and its error is the one raised. -/
theorem emitRuns_eq_error {cur mid : Nat} {done rest : List Run} {r : Run} {b : Bits} {e : Err}
    (h : RunsEmitted s cur done b mid) (hok : ∀ r ∈ done, ModeOk (s.mc r.m)) (hr : s.emitRun mid r = .error e) :
    s.emitRuns cur (done ++ r :: rest) = .error e := by
  induction h with
  | done cur => exact bind_eq_error.2 (.inl hr)
  | next cur mid last r' rs b bs hrun _ ih =>
    have hfirst := emitRun_of_runEmitted (hok r' List.mem_cons_self) hrun
    have hlater := ih (fun q hq => hok q (List.mem_cons_of_mem _ hq)) hr
    rw [List.cons_append, emitRuns_cons]
    exact bind_eq_error.2 (.inr ⟨(b, mid), hfirst, bind_eq_error.2 (.inl hlater)⟩)

end Emitted

/-! ### The first error of a run (R252, R258) -/

section Errors

variable {s : State} {m : Nat} {e : Err}

/-- A shifted run fails at its first position without a value; the paths it takes again are there. -/
theorem emitShifted_eq_error {cur p : Nat} {pre post : List Nat} (hcur : ShiftsTo s m cur)
    (hpre : ∀ j ∈ pre, ∃ v, s.value m j = .ok v) (hp : s.value m p = .error e) :
    s.emitShifted m cur (pre ++ p :: post) = .error e := by
  induction pre generalizing cur with
  | nil =>
    obtain ⟨path, hpath, -⟩ := hcur
    have hdata : s.dataCodes m p (p + 1) 1 = .error e :=
      dataCodes_eq_error le_rfl le_rfl (Nat.lt_succ_self p) (fun j hj hjp => by omega) hp
    exact bind_eq_error.2 (.inr ⟨path, hpath, bind_eq_error.2 (.inl hdata)⟩)
  | cons q pre ih =>
    obtain ⟨path, hpath, hshift⟩ := hcur
    have hagain : ShiftsTo s m (after cur path) := by
      rcases after_path hpath with ⟨hlatch, -⟩ | ⟨-, h⟩
      · rw [hshift] at hlatch
        cases hlatch
      · exact h
    obtain ⟨d, hd⟩ : ∃ d, s.dataCodes m q (q + 1) 1 = .ok d := exists_dataCodes 1 fun j hqj hj => by
      obtain rfl : j = q := by omega
      exact hpre j List.mem_cons_self
    have hrest := ih hagain fun j hj => hpre j (List.mem_cons_of_mem q hj)
    rw [List.cons_append, emitShifted_cons]
    exact bind_eq_error.2 (.inr ⟨path, hpath, bind_eq_error.2 (.inr ⟨d, hd, bind_eq_error.2 (.inl hrest)⟩)⟩)

/-- Mode m is current or can be entered (R252). -/
def CanEnter (s : State) (cur m : Nat) : Prop := m = cur ∨ ∃ q, s.path cur m = .ok q

theorem exists_chunkPath {cur : Nat} (h : CanEnter s cur m) :
    ∃ p, chunkPath s cur m = .ok p ∧ CanEnter s (after cur p) m := by
  by_cases hm : m = cur
  · exact ⟨[], if_pos hm, .inl hm⟩
  · obtain ⟨p, hp⟩ := h.resolve_left hm
    refine ⟨p, (if_neg hm).trans hp, ?_⟩
    rcases after_path hp with ⟨-, hafter⟩ | ⟨-, q, hq, -⟩
    · exact .inl hafter.symm
    · exact .inr ⟨q, hq⟩

/-- A counted run fails at its first position without a value, in whichever chunk that is. -/
theorem emitCounted_eq_error {b f cur a p : Nat} (hmax : 1 ≤ (s.mc m).chunkMax) (hgn : 1 ≤ (s.mc m).gn)
    (hf : b - a ≤ f) (hcur : CanEnter s cur m) (hap : a ≤ p) (hpb : p < b) (hlow : HasValues s m a p)
    (hp : s.value m p = .error e) : s.emitCounted m b f cur a = .error e := by
  induction f generalizing cur a with
  | zero => omega
  | succ f ih =>
    obtain ⟨path, hpath, hagain⟩ := exists_chunkPath hcur
    rw [emitCounted_succ, if_pos (by omega)]
    refine bind_eq_error.2 (.inr ⟨path, hpath, bind_eq_error.2 ?_⟩)
    by_cases hin : p < min (a + (s.mc m).chunkMax) b
    · exact .inl (dataCodes_eq_error hgn hap hin hlow hp)
    · obtain ⟨d, hd⟩ : ∃ d, s.dataCodes m a (min (a + (s.mc m).chunkMax) b) (s.mc m).gn = .ok d :=
        exists_dataCodes _ fun j hj hje => hlow j hj (by omega)
      have hrest := ih (a := min (a + (s.mc m).chunkMax) b) (by omega) hagain (by omega) fun j hj => hlow j (by omega)
      exact .inr ⟨d, hd, bind_eq_error.2 (.inl hrest)⟩

variable {cur : Nat} {r : Run}

/-- A run without a path to its mode fails with the path's error, plain or counted. -/
theorem emitRun_eq_path_error (hne : r.a < r.b) (hm : r.m ≠ cur) (h : s.path cur r.m = .error e) :
    s.emitRun cur r = .error e := by
  cases hcount : (s.mc r.m).hdrCount with
  | false =>
    rw [emitRun_plain s hcount, emitPlain_enter s hm]
    exact bind_eq_error.2 (.inl h)
  | true =>
    obtain ⟨f, hf⟩ : ∃ f, r.b - r.a = f + 1 := ⟨r.b - r.a - 1, by omega⟩
    rw [emitRun_counted s hcount, hf, emitCounted_succ, if_pos hne]
    exact bind_eq_error.2 (.inl ((if_neg hm).trans h))

/-- A run that can be entered fails at its first position without a value. -/
theorem emitRun_eq_value_error {p : Nat} (hok : ModeOk (s.mc r.m)) (hcur : CanEnter s cur r.m) (hap : r.a ≤ p)
    (hpb : p < r.b) (hlow : HasValues s r.m r.a p) (hp : s.value r.m p = .error e) : s.emitRun cur r = .error e := by
  obtain ⟨hgn, -, -, -, -, hheader⟩ := hok
  have hdata : s.dataCodes r.m r.a r.b (s.mc r.m).gn = .error e := dataCodes_eq_error hgn hap hpb hlow hp
  cases hcount : (s.mc r.m).hdrCount with
  | true =>
    obtain ⟨-, -, hmax⟩ := hheader hcount
    rw [emitRun_counted s hcount]
    exact emitCounted_eq_error hmax hgn le_rfl hcur hap hpb hlow hp
  | false =>
    rw [emitRun_plain s hcount]
    by_cases hm : r.m = cur
    · rw [emitPlain_stay s hm]
      exact bind_eq_error.2 (.inl hdata)
    · obtain ⟨path, hpath⟩ := hcur.resolve_left hm
      rw [emitPlain_enter s hm]
      refine bind_eq_error.2 (.inr ⟨path, hpath, ?_⟩)
      cases hlatch : endsInLatch path with
      | true => exact bind_eq_error.2 (.inl hdata)
      | false =>
        rw [range'_eq_append hap (by omega)]
        refine emitShifted_eq_error ⟨path, hpath, hlatch⟩ (fun j hj => ?_) hp
        rw [List.mem_range'_1] at hj
        exact hlow j hj.1 (by omega)

end Errors

end Sys2Proof.Proofs

/-! SUPPORT. What the segmentation commands refuse (42_segment.md R211, R212, R214, R216, R219, R227; 43_bitstream.md
R247, R248): each check, its first failure, and the errors of EMIT that SEG_GATE passes on (O32). -/

namespace Sys2Proof.Proofs

open Sys2Proof Sys2Proof.Machine Sys2Proof.Laws Sys2Proof.Claims

/-! ### The checks and their first failures -/

section Checks

variable {s : State}

theorem admits_eq_ok {i t : Nat} {u : Unit} :
    s.admits i t = .ok u ↔ HasCandidates s i ∧ (candMask s i).getLsbD t = true := by
  simp only [State.admits, bind_eq_ok, cand_eq_ok, require_eq_ok]
  exact ⟨fun ⟨_, ⟨h, hc⟩, ht⟩ => ⟨h, hc ▸ ht⟩, fun ⟨h, ht⟩ => ⟨_, ⟨h, rfl⟩, ht⟩⟩

theorem admits_of_admitted {j : Nat} (h : Admitted s j) : s.admits j (s.tMode j) = .ok () := admits_eq_ok.2 h

/-- The reasons 1 to 3 of a position (R211, R227). -/
theorem admits_eq_error {k : Nat} {info : Word} (h : AdmissionError s k info) :
    s.admits k (s.tMode k) = .error { kind := .invalidInput, info := info } := by
  rcases h with h | ⟨hcand, hbit, rfl⟩
  · exact bind_eq_error.2 (.inl (cand_eq_error h))
  · exact bind_eq_error.2 (.inr ⟨_, cand_of_hasCandidates hcand, require_eq_error.2 ⟨hbit, rfl⟩⟩)

/-- The lowest bad tag is the one reported (R214). -/
theorem checkTags_eq_error {al : Bool} {ts : List Nat} {j : Nat} (k : Nat) (hj : j < ts.length)
    (hbad : ¬ (ts[j] < s.modeCount ∨ (al = true ∧ ts[j] = unres)))
    (hlow : ∀ i, (hi : i < j) → ts[i] < s.modeCount ∨ (al = true ∧ ts[i] = unres)) :
    s.checkTags al k ts = .error (mkErr .internalDefect 4 (k + j)) := by
  induction ts generalizing j k with
  | nil => cases hj
  | cons t ts ih =>
    unfold State.checkTags
    cases j with
    | zero => exact if_neg hbad
    | succ j =>
      have ht : t < s.modeCount ∨ (al = true ∧ t = unres) := hlow 0 (Nat.succ_pos j)
      rw [if_pos ht, ih (k + 1) (Nat.lt_of_succ_lt_succ hj) hbad fun i hi => hlow (i + 1) (Nat.succ_lt_succ hi),
        Nat.add_right_comm, Nat.add_assoc]

/-- The lowest position that is not admitted is the one reported (R227, R247). -/
theorem checkAdmits_eq_error {ts : List Nat} {j : Nat} {e : Err} (k : Nat) (hj : j < ts.length)
    (hbad : s.admits (k + j) ts[j] = .error e) (hlow : ∀ i, (hi : i < j) → s.admits (k + i) ts[i] = .ok ()) :
    s.checkAdmits k ts = .error e := by
  induction ts generalizing j k with
  | nil => cases hj
  | cons t ts ih =>
    cases j with
    | zero => exact bind_eq_error.2 (.inl hbad)
    | succ j =>
      have hrest : s.checkAdmits (k + 1) ts = .error e := by
        refine ih (k + 1) (Nat.lt_of_succ_lt_succ hj) ?_ fun i hi => ?_
        · rw [Nat.add_right_comm]
          exact hbad
        · rw [Nat.add_right_comm]
          exact hlow (i + 1) (Nat.succ_lt_succ hi)
      exact bind_eq_error.2 (.inr ⟨(), hlow 0 (Nat.succ_pos j), hrest⟩)

/-- The lowest mode that fails CHECK_MODE is the one reported (R247, R248). -/
theorem checkModes_eq_error {pre post : List Nat} {m : Nat} (hpre : ∀ j ∈ pre, (s.mc j).ok = true)
    (hm : (s.mc m).ok = false) : s.checkModes (pre ++ m :: post) = .error (mkErr .internalDefect 5 m) := by
  induction pre with
  | nil => exact if_neg (by rw [hm]; exact Bool.false_ne_true)
  | cons j pre ih =>
    exact (if_pos (hpre j List.mem_cons_self)).trans (ih fun i hi => hpre i (List.mem_cons_of_mem j hi))

/-- The model's CHECK_MODE is that of R248. -/
theorem modeOk_iff {r : ModeRegs} : r.ok = true ↔ ModeOk r := by
  have hheader : (!r.hdrCount || decide (r.shortBits ≤ 16 ∧ r.longBits ≤ 16 ∧ 1 ≤ r.chunkMax)) = true
      ↔ (r.hdrCount = true → r.shortBits ≤ 16 ∧ r.longBits ≤ 16 ∧ 1 ≤ r.chunkMax) := by
    cases r.hdrCount <;> simp
  simp only [ModeRegs.ok, Bool.and_eq_true, hheader, decide_eq_true_eq, List.all_eq_true, List.mem_range, ModeOk,
    and_assoc]

theorem checkCfg_eq_ok {u : Unit} : s.checkCfg = .ok u ↔ ConfigOk s := by
  rw [State.checkCfg, require_eq_ok, decide_eq_true_iff]
  rfl

/-- The checks of EMIT (R247). -/
theorem emitChecks_eq_ok {tags : List Nat} {u : Unit} : s.emitChecks tags = .ok u ↔
    ConfigOk s ∧ (∀ t ∈ tags, t < s.modeCount) ∧ (∀ m, m < s.modeCount → ModeOk (s.mc m))
      ∧ ∀ k, (h : k < tags.length) → HasCandidates s k ∧ (candMask s k).getLsbD tags[k] = true := by
  simp only [State.emitChecks, bind_eq_ok, checkCfg_eq_ok, checkTags_eq_ok, checkModes_eq_ok, checkAdmits_eq_ok,
    admits_eq_ok, modeOk_iff, List.mem_range, Bool.false_eq_true, false_and, or_false, exists_and_left, exists_const,
    Nat.zero_add]

/-- EMIT answers when its checks pass and its runs are emitted (R246, R249, R266). -/
theorem emit_eq_ok {tags : List Nat} {b : Bits} : s.emit tags = .ok b ↔
    s.emitChecks tags = .ok ()
      ∧ ∃ d cur, s.emitRuns s.initMode (runs tags) = .ok (d, cur) ∧ b = d ++ terminator s cur := by
  simp only [State.emit, bind_eq_ok, Prod.exists]
  exact ⟨fun ⟨_, hc, d, cur, hr, hb⟩ => ⟨hc, d, cur, hr, (Except.ok.inj hb).symm⟩,
    fun ⟨hc, d, cur, hr, hb⟩ => ⟨(), hc, d, cur, hr, hb ▸ rfl⟩⟩

theorem lt_length_tags {k : Nat} : k < s.tags.length ↔ k < s.nChars.toNat := by rw [length_tags, State.n]

theorem checkTags_tags_eq_ok {al : Bool} (h : TagsOk s al s.nChars.toNat) : s.checkTags al 0 s.tags = .ok () := by
  refine checkTags_eq_ok.2 fun t ht => ?_
  obtain ⟨i, hi, rfl⟩ := List.mem_map.1 ht
  exact h i (List.mem_range.1 hi)

theorem checkTags_tags_eq_error {al : Bool} {k : Nat} (hk : k < s.nChars.toNat) (hlow : TagsOk s al k)
    (hcount : s.modeCount ≤ s.tMode k) (hunres : al = true → s.tMode k ≠ 15) :
    s.checkTags al 0 s.tags = .error (mkErr .internalDefect 4 k) := by
  have h := checkTags_eq_error (s := s) (al := al) 0 (lt_length_tags.2 hk) ?_ fun i hi => ?_
  · rwa [Nat.zero_add] at h
  · rw [getElem_tags]
    rintro (hlt | ⟨hal, h15⟩)
    · exact Nat.not_lt.2 hcount hlt
    · exact hunres hal h15
  · rw [getElem_tags]
    exact hlow i hi

theorem checkAdmits_tags_eq_ok (h : ∀ j, j < s.nChars.toNat → Admitted s j) : s.checkAdmits 0 s.tags = .ok () := by
  refine checkAdmits_eq_ok.2 fun k hk => ?_
  rw [getElem_tags, Nat.zero_add]
  exact admits_of_admitted (h k (lt_length_tags.1 hk))

theorem checkAdmits_tags_eq_error {k : Nat} {info : Word} (hk : k < s.nChars.toNat) (hlow : ∀ j, j < k → Admitted s j)
    (h : AdmissionError s k info) : s.checkAdmits 0 s.tags = .error { kind := .invalidInput, info := info } := by
  refine checkAdmits_eq_error 0 (lt_length_tags.2 hk) ?_ fun i hi => ?_
  · rw [getElem_tags, Nat.zero_add]
    exact admits_eq_error h
  · rw [getElem_tags, Nat.zero_add]
    exact admits_of_admitted (hlow i hi)

/-- SPEC of the positions fails at the lowest without candidates (R211, R217). -/
theorem specs_eq_error {k : Nat} {info : Word} (hk : k < s.nChars.toNat) (hlow : ∀ j, j < k → HasCandidates s j)
    (h : CandidateError s k info) : s.specs = .error { kind := .invalidInput, info := info } := by
  have hsplit : List.range s.n = List.range' 0 k ++ k :: List.range' (k + 1) (s.n - (k + 1)) := by
    rw [List.range_eq_range', range'_eq_append (Nat.zero_le k) (by rw [Nat.zero_add]; exact hk), Nat.sub_zero,
      Nat.zero_add]
  rw [State.specs, hsplit]
  refine forPositions_eq_error (fun q hq => ?_) (bind_eq_error.2 (.inl (cand_eq_error h)))
  rw [List.mem_range'_1] at hq
  exact ⟨_, spec_of_hasCandidates (hlow q (by omega))⟩

end Checks

/-! ### The errors of EMIT (R247, R252, R258) -/

section Emit

variable {s : State}

theorem emitChecks_of_checksPass (h : ChecksPass s) : s.emitChecks s.tags = .ok () := by
  obtain ⟨hc, htags, hmodes, hadm⟩ := h
  refine emitChecks_eq_ok.2 ⟨hc, fun t ht => ?_, hmodes, fun k hk => ?_⟩
  · obtain ⟨i, hi, rfl⟩ := List.mem_map.1 ht
    exact (htags i (List.mem_range.1 hi)).resolve_right fun h => absurd h.1 Bool.false_ne_true
  · rw [getElem_tags]
    exact hadm k (lt_length_tags.1 hk)

/-- The emission's own first error is the one EMIT raises. -/
theorem emit_eq_error_of_emissionError {code : BitVec 8} {info : Word} (h : EmissionError s code info) :
    ∃ kind, s.emit s.tags = .error { kind := kind, info := info } ∧ kind.code = code := by
  obtain ⟨hpass, done, r, rest, b, cur, hruns, hdone, herr⟩ := h
  have hchecks := emitChecks_of_checksPass hpass
  obtain ⟨-, htags, hmodes, -⟩ := emitChecks_eq_ok.1 hchecks
  have hrun : ∀ q ∈ done ++ r :: rest, IsRun s.tags q ∧ ModeOk (s.mc q.m) := fun q hq => by
    have hq := isRun_of_mem_runs (hruns ▸ hq)
    exact ⟨hq, hmodes q.m (htags q.m hq.mem)⟩
  obtain ⟨hr, hok⟩ := hrun r (List.mem_append_right _ List.mem_cons_self)
  have hemit {e : Err} (he : s.emitRun cur r = .error e) : s.emit s.tags = .error e := by
    have hfail := emitRuns_eq_error (rest := rest) hdone
      (fun q hq => (hrun q (List.mem_append_left _ hq)).2) he
    exact bind_eq_error.2 (.inr ⟨(), hchecks, bind_eq_error.2 (.inl (hruns ▸ hfail))⟩)
  rcases herr with ⟨hm, hpath, rfl, rfl⟩ | ⟨henter, rfl, p, hap, hpb, hlow, ⟨e, he⟩, rfl⟩
  · exact ⟨.internalDefect, hemit (emitRun_eq_path_error hr.nonempty hm (path_eq_error hpath)), rfl⟩
  · obtain rfl := value_eq_error he
    exact ⟨.invalidInput, hemit (emitRun_eq_value_error hok henter hap hpb hlow he), rfl⟩

/-- Of the checks of EMIT, CHECK_MODE alone can fail where the earlier checks of SEG_GATE passed (R227, R247). -/
theorem emit_eq_error_of_checkError {code : BitVec 8} {info : Word} (hc : ConfigOk s)
    (htags : TagsOk s false s.nChars.toNat) (hadm : ∀ j, j < s.nChars.toNat → Admitted s j)
    (h : CheckError s code info) :
    ∃ kind, s.emit s.tags = .error { kind := kind, info := info } ∧ kind.code = code := by
  rcases h with ⟨hnot, -⟩ | ⟨-, k, hk, -, hcount, -⟩ | ⟨-, -, m, hm, hlow, hbad, rfl, rfl⟩
    | ⟨-, -, -, k, hk, -, -, herr⟩
  · exact absurd hc hnot
  · rcases htags k hk with hlt | ⟨hfalse, -⟩
    · exact absurd hlt (Nat.not_lt.2 hcount)
    · cases hfalse
  · refine ⟨.internalDefect, bind_eq_error.2 (.inl ?_), rfl⟩
    refine bind_eq_error.2 (.inr ⟨(), checkCfg_eq_ok.2 hc, bind_eq_error.2 (.inr ⟨(), checkTags_tags_eq_ok htags,
      bind_eq_error.2 (.inl ?_)⟩)⟩)
    rw [List.range_eq_range', range'_eq_append (Nat.zero_le m) (by omega)]
    refine checkModes_eq_error (fun j hj => ?_) (Bool.eq_false_iff.2 fun hok => hbad (modeOk_iff.1 hok))
    rw [List.mem_range'_1] at hj
    exact modeOk_iff.2 (hlow j (by omega))
  · have herr := admits_eq_error herr
    rw [admits_of_admitted (hadm k hk)] at herr
    cases herr

end Emit

/-! ### The commands -/

/-- What a segmentation command does after its first check (R216). -/
def segRest (s : State) : Instr → Unit → Except Err State
  | .segClassify => fun _ => do
    let sp ← s.specs
    pure ((s.storeTags (sp.map classTag)).writeResNat ((sp.map classTag).countP (fun t => decide (t = unres))))
  | .segResolve => fun _ => do
    s.checkTags true 0 s.tags
    let sp ← s.specs
    let tags := s.resolve s.initMode (s.tags.zip sp)
    pure ((s.storeTags tags).writeResNat (runs tags).length)
  | _ => fun _ => do
    s.checkTags false 0 s.tags
    s.checkAdmits 0 s.tags
    let b ← s.emit s.tags
    let (tags, folds) := s.gate (b.length + 1) s.tags b.length 0
    pure ((s.storeTags tags).writeResNat folds)

section Commands

variable {s : State}

/-- The three commands begin with the length and the configuration (R212, R216). -/
theorem exec_seg {i : Instr} (hi : i ∈ segCommands) :
    exec i s = .next (s.finish (s.segCheck >>= segRest s i)) := by
  simp only [segCommands, List.mem_cons, List.not_mem_nil, or_false] at hi
  rcases hi with rfl | rfl | rfl <;> rfl

theorem segCheck_length (h : 4096 < s.nChars.toNat) : s.segCheck = .error (mkErr .illegalOperand 5 0x034) :=
  require_bind_error (decide_eq_false (Nat.not_le.2 h)) ..

theorem segCheck_config (hn : s.nChars.toNat ≤ 4096) (h : ¬ ConfigOk s) :
    s.segCheck = .error (mkErr .internalDefect 5 0xFF) :=
  (require_bind_ok (decide_eq_true hn) ..).trans (require_eq_error.2 ⟨decide_eq_false h, rfl⟩)

/-- A command that passes the first check and fails later completes with that error. -/
theorem exec_seg_fails {i : Instr} (hi : i ∈ segCommands) (hn : s.nChars.toNat ≤ 4096) (hc : ConfigOk s) {e : Err}
    (h : segRest s i () = .error e) : exec i s = .next (failed s e.kind.code e.info) := by
  rw [exec_of_check_ok (exec_seg hi) (segCheck_ok hn hc), h]
  rfl

end Commands

/-- Settles O32: each refusal is the first failing check of the command's sequence. -/
theorem segmentationRefusals : Obligations.SegmentationRefusals := by
  have hclassify : Instr.segClassify ∈ segCommands := by decide
  have hresolve : Instr.segResolve ∈ segCommands := by decide
  have hgate : Instr.segGate ∈ segCommands := by decide
  refine fun s => ⟨fun i hi hn => exec_of_check_error (exec_seg hi) (segCheck_length hn),
    fun i hi hn hc => exec_of_check_error (exec_seg hi) (segCheck_config hn hc), fun hn hc => ⟨?_, ?_, ?_, ?_, ?_⟩⟩
  · intro k info hk hlow herr
    have hspecs := specs_eq_error hk hlow herr
    refine ⟨exec_seg_fails hclassify hn hc (bind_eq_error.2 (.inl hspecs)), fun htags => ?_⟩
    exact exec_seg_fails hresolve hn hc
      (bind_eq_error.2 (.inr ⟨(), checkTags_tags_eq_ok htags, bind_eq_error.2 (.inl hspecs)⟩))
  · intro k hk hlow hcount h15
    exact exec_seg_fails hresolve hn hc
      (bind_eq_error.2 (.inl (checkTags_tags_eq_error hk hlow hcount fun _ => h15)))
  · intro k hk hlow hcount
    exact exec_seg_fails hgate hn hc
      (bind_eq_error.2 (.inl (checkTags_tags_eq_error hk hlow hcount fun h => absurd h Bool.false_ne_true)))
  · intro htags k info hk hlow herr
    exact exec_seg_fails hgate hn hc (bind_eq_error.2 (.inr ⟨(), checkTags_tags_eq_ok htags,
      bind_eq_error.2 (.inl (checkAdmits_tags_eq_error hk hlow herr))⟩))
  · intro htags hadm code info herr
    obtain ⟨kind, hemit, rfl⟩ := herr.elim (emit_eq_error_of_checkError hc htags hadm) emit_eq_error_of_emissionError
    exact exec_seg_fails hgate hn hc (bind_eq_error.2 (.inr ⟨(), checkTags_tags_eq_ok htags,
      bind_eq_error.2 (.inr ⟨(), checkAdmits_tags_eq_ok hadm, bind_eq_error.2 (.inl hemit)⟩)⟩))

end Sys2Proof.Proofs

/-! SUPPORT. How long an emitted stream can be, and which mode it can leave (43_bitstream.md R249 to R262): a bound per
character, which no count of folds exceeds (42_segment.md R228). -/

namespace Sys2Proof.Proofs

open Sys2Proof Sys2Proof.Machine Sys2Proof.Laws Sys2Proof.Claims

section Bounds

variable {s : State}

theorem length_bitsOf (v : Int) (w : Nat) : (bitsOf v w).length = w := by
  rw [bitsOf, List.length_map, List.length_range]

theorem length_codes_le {p : List Hop} (h : ∀ g ∈ p, g.nbits ≤ 16) : (codes p).length ≤ 16 * p.length := by
  induction p with
  | nil => exact Nat.le_refl 0
  | cons g p ih =>
    have hg := h g List.mem_cons_self
    have hp := ih fun g hg => h g (List.mem_cons_of_mem _ hg)
    rw [codes] at hp ⊢
    rw [List.flatMap_cons, List.length_append, length_bitsOf, List.length_cons]
    omega

/-- A path costs at most 128 bits and leaves one of the eight modes. -/
theorem path_bounds {cur m : Nat} {p : List Hop} (h : s.path cur m = .ok p) :
    (codes p).length ≤ 128 ∧ (cur < 8 → m < 8 → after cur p < 8) := by
  obtain ⟨hlen, hbits⟩ := bounds_of_resolves (resolves_of_path h)
  have hcodes := length_codes_le hbits
  refine ⟨by omega, fun hcur hm => ?_⟩
  obtain ⟨q, z, rfl, -, hz⟩ := last_of_resolves (resolves_of_path h)
  rw [after_append, modeAfter]
  split
  · exact hm
  · exact hz.elim (fun hz => hz ▸ hcur) id

theorem chunkPath_bounds {cur m : Nat} {p : List Hop} (h : chunkPath s cur m = .ok p) :
    (codes p).length ≤ 128 ∧ (cur < 8 → m < 8 → after cur p < 8) := by
  unfold chunkPath at h
  split at h
  · cases h
    exact ⟨Nat.zero_le _, fun hcur _ => hcur⟩
  · exact path_bounds h

/-- A group costs at most 31 bits (R58, R259). -/
theorem length_data_le {m g b f q : Nat} {d : Bits} (h : s.data m g b f q = .ok d) : d.length ≤ 31 * f := by
  induction f generalizing q d with
  | zero =>
    cases h
    exact Nat.le_refl 0
  | succ f ih =>
    rw [data_succ] at h
    split at h
    · obtain ⟨vs, -, h⟩ := bind_eq_ok.1 h
      obtain ⟨rest, hrest, h⟩ := bind_eq_ok.1 h
      cases h
      have hgb : (s.mc m).gb (min g (b - q)) < 2 ^ 5 := field_lt _ _ 5
      have hrest := ih hrest
      rw [List.length_append, length_bitsOf]
      omega
    · cases h
      exact Nat.zero_le _

theorem length_dataCodes_le {m a b g : Nat} {d : Bits} (h : s.dataCodes m a b g = .ok d) : d.length ≤ 31 * (b - a) :=
  length_data_le h

theorem length_header_le (r : ModeRegs) (k : Nat) : (header r k).length ≤ 62 := by
  have hshort : r.shortBits < 2 ^ 5 := field_lt _ _ 5
  have hlong : r.longBits < 2 ^ 5 := field_lt _ _ 5
  unfold header
  split
  · rw [length_bitsOf]
    omega
  · rw [List.length_append, length_bitsOf, length_bitsOf]
    omega

theorem emitShifted_bounds {m cur : Nat} {ps : List Nat} {x : Bits × Nat} (h : s.emitShifted m cur ps = .ok x) :
    x.1.length ≤ 159 * ps.length ∧ (cur < 8 → m < 8 → x.2 < 8) := by
  induction ps generalizing cur x with
  | nil =>
    cases h
    exact ⟨Nat.le_refl 0, fun hcur _ => hcur⟩
  | cons p ps ih =>
    rw [emitShifted_cons] at h
    obtain ⟨path, hpath, h⟩ := bind_eq_ok.1 h
    obtain ⟨d, hd, h⟩ := bind_eq_ok.1 h
    obtain ⟨y, hy, h⟩ := bind_eq_ok.1 h
    cases h
    obtain ⟨hcodes, hafter⟩ := path_bounds hpath
    obtain ⟨hlen, hlast⟩ := ih hy
    have hd := length_dataCodes_le hd
    refine ⟨?_, fun hcur hm => hlast (hafter hcur hm) hm⟩
    simp only [List.length_append, List.length_cons]
    omega

theorem emitCounted_bounds {m b f cur a : Nat} {x : Bits × Nat} (h : s.emitCounted m b f cur a = .ok x) :
    x.1.length ≤ 190 * f + 31 * (b - a) ∧ (cur < 8 → m < 8 → x.2 < 8) := by
  induction f generalizing cur a x with
  | zero =>
    cases h
    exact ⟨Nat.zero_le _, fun hcur _ => hcur⟩
  | succ f ih =>
    rw [emitCounted_succ] at h
    split at h
    · obtain ⟨path, hpath, h⟩ := bind_eq_ok.1 h
      obtain ⟨d, hd, h⟩ := bind_eq_ok.1 h
      obtain ⟨y, hy, h⟩ := bind_eq_ok.1 h
      cases h
      obtain ⟨hcodes, hafter⟩ := chunkPath_bounds hpath
      obtain ⟨hlen, hlast⟩ := ih hy
      have hd := length_dataCodes_le hd
      have hheader := length_header_le (s.mc m) (min (a + (s.mc m).chunkMax) b - a)
      refine ⟨?_, fun hcur hm => hlast (hafter hcur hm) hm⟩
      simp only [List.length_append]
      omega
    · cases h
      exact ⟨Nat.zero_le _, fun hcur _ => hcur⟩

theorem emitPlain_bounds {cur : Nat} {r : Run} {x : Bits × Nat} (hne : r.a < r.b) (h : s.emitPlain cur r = .ok x) :
    x.1.length ≤ 159 * (r.b - r.a) ∧ (cur < 8 → r.m < 8 → x.2 < 8) := by
  by_cases hm : r.m = cur
  · rw [emitPlain_stay s hm] at h
    obtain ⟨d, hd, h⟩ := bind_eq_ok.1 h
    cases h
    have hd := length_dataCodes_le hd
    exact ⟨show d.length ≤ _ by omega, fun hcur _ => hcur⟩
  · rw [emitPlain_enter s hm] at h
    obtain ⟨path, hpath, h⟩ := bind_eq_ok.1 h
    obtain ⟨hcodes, -⟩ := path_bounds hpath
    split at h
    · obtain ⟨d, hd, h⟩ := bind_eq_ok.1 h
      cases h
      have hd := length_dataCodes_le hd
      refine ⟨?_, fun _ hm => hm⟩
      rw [List.length_append]
      omega
    · have hshifted := emitShifted_bounds h
      rwa [List.length_range'] at hshifted

/-- A run costs at most 221 bits per character. -/
theorem emitRun_bounds {cur : Nat} {r : Run} {x : Bits × Nat} (hne : r.a < r.b) (h : s.emitRun cur r = .ok x) :
    x.1.length ≤ 221 * (r.b - r.a) ∧ (cur < 8 → r.m < 8 → x.2 < 8) := by
  cases hcount : (s.mc r.m).hdrCount with
  | false =>
    rw [emitRun_plain s hcount] at h
    exact (emitPlain_bounds hne h).imp_left fun hlen => by omega
  | true =>
    rw [emitRun_counted s hcount] at h
    exact (emitCounted_bounds h).imp_left fun hlen => by omega

theorem length_emitRuns_le {cur : Nat} {rs : List Run} {x : Bits × Nat} (hne : ∀ r ∈ rs, r.a < r.b)
    (h : s.emitRuns cur rs = .ok x) : x.1.length ≤ 221 * (rs.map fun r => r.b - r.a).sum := by
  induction rs generalizing cur x with
  | nil =>
    cases h
    exact Nat.zero_le _
  | cons r rs ih =>
    rw [emitRuns_cons] at h
    obtain ⟨y, hy, h⟩ := bind_eq_ok.1 h
    obtain ⟨z, hz, h⟩ := bind_eq_ok.1 h
    cases h
    obtain ⟨hrun, -⟩ := emitRun_bounds (hne r List.mem_cons_self) hy
    have hrest := ih (fun q hq => hne q (List.mem_cons_of_mem r hq)) hz
    rw [List.length_append, List.map_cons, List.sum_cons]
    omega

/-- The lengths of the runs add up to the number of tags (42_segment.md R215). -/
theorem sum_runs (tags : List Nat) : ((runs tags).map fun r => r.b - r.a).sum = tags.length := by
  have h := congrArg List.length (flatMap_runs tags)
  simpa only [List.length_flatMap, List.length_replicate] using h

/-- A stream costs at most 221 bits per character, and a terminator. -/
theorem length_emit_le {tags : List Nat} {b : Bits} (h : s.emit tags = .ok b) : b.length ≤ 221 * tags.length + 31 := by
  obtain ⟨-, d, cur, hruns, rfl⟩ := emit_eq_ok.1 h
  have hlen := length_emitRuns_le (fun r hr => (isRun_of_mem_runs hr).nonempty) hruns
  have hterm : (s.mc cur).termBits < 2 ^ 5 := field_lt _ _ 5
  rw [sum_runs] at hlen
  rw [List.length_append, terminator, length_bitsOf]
  exact Nat.add_le_add hlen (Nat.le_of_lt_succ hterm)

end Bounds

end Sys2Proof.Proofs

/-! SUPPORT. EMIT reads the configuration and the characters alone: two states that agree on them emit the same stream
for the same tags (43_bitstream.md R246). -/

namespace Sys2Proof.Proofs

open Sys2Proof Sys2Proof.Machine Sys2Proof.Laws Sys2Proof.Claims

theorem bind_congr_ok {α β : Type} {x y : Except Err α} {f g : α → Except Err β} (hxy : x = y)
    (hfg : ∀ a, y = .ok a → f a = g a) : (x >>= f) = (y >>= g) := by
  subst hxy
  cases x with
  | error e => rfl
  | ok a => exact hfg a rfl

theorem forPositions_congr {α : Type} {f g : Nat → Except Err α} {ps : List Nat} (h : ∀ p ∈ ps, f p = g p) :
    forPositions f ps = forPositions g ps := by
  induction ps with
  | nil => rfl
  | cons p ps ih =>
    exact bind_congr_ok (h p List.mem_cons_self) fun _ _ =>
      bind_congr_ok (ih fun q hq => h q (List.mem_cons_of_mem p hq)) fun _ _ => rfl

namespace SameSource

variable {s t : State} (h : SameSource s t)
include h

theorem pathFrom {x y : Nat} (hx : x < 8) (hy : y < 8) (k : Nat) : t.pathFrom k x y = s.pathFrom k x y := by
  induction k generalizing x y with
  | zero => rfl
  | succ k ih =>
    have hvia := via_lt s x y
    simp only [State.pathFrom, h.trans hx hy, h.modeCount, ih hx hvia, ih hvia hy]

theorem path {a b : Nat} (ha : a < 8) (hb : b < 8) : t.path a b = s.path a b := by
  rw [State.path, State.path, h.pathFrom ha hb]

theorem value {m p : Nat} (hm : m < 8) (hp : p < 4096) : t.value m p = s.value m p := by
  simp only [State.value, h.mc, h.char hp, h.tVtab hm]

theorem data {m b : Nat} (hm : m < 8) (hb : b ≤ 4096) (g f q : Nat) : t.data m g b f q = s.data m g b f q := by
  induction f generalizing q with
  | zero => rfl
  | succ f ih =>
    rw [data_succ, data_succ, h.mc]
    refine ite_congr rfl (fun _ => ?_) fun _ => rfl
    refine bind_congr_ok (forPositions_congr fun p hp => ?_) fun _ _ => bind_congr_ok (ih _) fun _ _ => rfl
    rw [List.mem_range'_1] at hp
    exact h.value hm (by omega)

theorem dataCodes {m b : Nat} (hm : m < 8) (hb : b ≤ 4096) (a g : Nat) :
    t.dataCodes m a b g = s.dataCodes m a b g := h.data hm hb g _ a

theorem emitShifted {m cur : Nat} (hm : m < 8) (hcur : cur < 8) {ps : List Nat} (hps : ∀ p ∈ ps, p < 4096) :
    t.emitShifted m cur ps = s.emitShifted m cur ps := by
  induction ps generalizing cur with
  | nil => rfl
  | cons p ps ih =>
    rw [emitShifted_cons, emitShifted_cons]
    refine bind_congr_ok (h.path hcur hm) fun path hpath =>
      bind_congr_ok (h.dataCodes hm (hps p List.mem_cons_self) p 1) fun _ _ => bind_congr_ok ?_ fun _ _ => rfl
    obtain ⟨-, hafter⟩ := path_bounds hpath
    exact ih (hafter hcur hm) fun q hq => hps q (List.mem_cons_of_mem p hq)

theorem emitCounted {m b cur : Nat} (hm : m < 8) (hcur : cur < 8) (hb : b ≤ 4096) (f a : Nat) :
    t.emitCounted m b f cur a = s.emitCounted m b f cur a := by
  induction f generalizing cur a with
  | zero => rfl
  | succ f ih =>
    have hpath : chunkPath t cur m = chunkPath s cur m := ite_congr rfl (fun _ => rfl) fun _ => h.path hcur hm
    rw [emitCounted_succ, emitCounted_succ, h.mc]
    refine ite_congr rfl (fun _ => ?_) fun _ => rfl
    refine bind_congr_ok hpath fun path hp =>
      bind_congr_ok (h.dataCodes hm ((Nat.min_le_right _ _).trans hb) _ _) fun _ _ => bind_congr_ok ?_ fun _ _ => rfl
    obtain ⟨-, hafter⟩ := chunkPath_bounds hp
    exact ih (hafter hcur hm) _

theorem emitPlain {cur : Nat} {r : Run} (hm : r.m < 8) (hcur : cur < 8) (hb : r.b ≤ 4096) :
    t.emitPlain cur r = s.emitPlain cur r := by
  have hdata := h.dataCodes hm hb r.a (s.mc r.m).gn
  by_cases hstay : r.m = cur
  · rw [emitPlain_stay t hstay, emitPlain_stay s hstay, h.mc, hdata]
  · rw [emitPlain_enter t hstay, emitPlain_enter s hstay, h.mc, hdata]
    refine bind_congr_ok (h.path hcur hm) fun _ _ => ite_congr rfl (fun _ => rfl) fun _ =>
      h.emitShifted hm hcur fun p hp => ?_
    rw [List.mem_range'_1] at hp
    omega

theorem emitRun {cur : Nat} {r : Run} (hm : r.m < 8) (hcur : cur < 8) (hb : r.b ≤ 4096) :
    t.emitRun cur r = s.emitRun cur r := by
  rw [State.emitRun, State.emitRun, h.mc, h.emitCounted hm hcur hb, h.emitPlain hm hcur hb]

theorem emitRuns {cur : Nat} (hcur : cur < 8) {rs : List Run} (hrs : ∀ r ∈ rs, r.m < 8 ∧ r.a < r.b ∧ r.b ≤ 4096) :
    t.emitRuns cur rs = s.emitRuns cur rs := by
  induction rs generalizing cur with
  | nil => rfl
  | cons r rs ih =>
    obtain ⟨hm, hne, hb⟩ := hrs r List.mem_cons_self
    rw [emitRuns_cons, emitRuns_cons]
    refine bind_congr_ok (h.emitRun hm hcur hb) fun x hx => bind_congr_ok ?_ fun _ _ => rfl
    obtain ⟨-, hlast⟩ := emitRun_bounds hne hx
    exact ih (hlast hcur hm) fun q hq => hrs q (List.mem_cons_of_mem r hq)

theorem checkTags (al : Bool) (i : Nat) (ts : List Nat) : t.checkTags al i ts = s.checkTags al i ts := by
  induction ts generalizing i with
  | nil => rfl
  | cons x ts ih => simp only [State.checkTags, h.modeCount, ih]

theorem checkModes (ms : List Nat) : t.checkModes ms = s.checkModes ms := by
  induction ms with
  | nil => rfl
  | cons m ms ih => simp only [State.checkModes, h.mc, ih]

theorem cand {i : Nat} (hi : i < 4096) : t.cand i = s.cand i := by
  simp only [State.cand, h.char hi, h.tClass, h.modeCount]

theorem checkAdmits {i : Nat} {ts : List Nat} (hi : i + ts.length ≤ 4096) :
    t.checkAdmits i ts = s.checkAdmits i ts := by
  induction ts generalizing i with
  | nil => rfl
  | cons x ts ih =>
    rw [List.length_cons] at hi
    have hrest := ih (i := i + 1) (by omega)
    simp only [State.checkAdmits, State.admits, h.cand (show i < 4096 by omega), hrest]

theorem emitChecks {tags : List Nat} (hlen : tags.length ≤ 4096) : t.emitChecks tags = s.emitChecks tags := by
  have hcfg : t.checkCfg = s.checkCfg := by simp only [State.checkCfg, h.modeCount, h.initMode, h.fallback]
  rw [State.emitChecks, State.emitChecks, hcfg, h.checkTags, h.modeCount, h.checkModes,
    h.checkAdmits (show 0 + tags.length ≤ 4096 by omega)]

/-- The stream of given tags depends on the configuration and the characters alone. -/
theorem emit {tags : List Nat} (hlen : tags.length ≤ 4096) : t.emit tags = s.emit tags := by
  rw [State.emit, State.emit]
  refine bind_congr_ok (h.emitChecks hlen) fun _ hchecks => ?_
  obtain ⟨⟨-, hcount, hinit, -⟩, htags, -⟩ := emitChecks_eq_ok.1 hchecks
  refine bind_congr_ok ?_ fun _ _ => by simp only [h.mc]
  rw [h.initMode]
  refine h.emitRuns (by omega) fun r hr => ?_
  have hrun := isRun_of_mem_runs hr
  have hm := htags r.m hrun.mem
  exact ⟨by omega, hrun.nonempty, hrun.fits.trans hlen⟩

end SameSource

end Sys2Proof.Proofs

/-! SUPPORT. SEG_GATE (42_segment.md R225 to R230): the model's search for a fold finds the fold of R227 or shows that
there is none, and the loop of folds ends in a fixed point, where it stays (O36, O37). -/

namespace Sys2Proof.Proofs

open Sys2Proof Sys2Proof.Machine Sys2Proof.Laws Sys2Proof.Claims

/-! ### The cheapest trial (R227) -/

/-- Entry k is the cheapest of the trials, the earliest among equals (R227). -/
def IsCheapest (ts : List (Option (Nat × List Nat))) (k : Nat) (x : Nat × List Nat) : Prop :=
  ts[k]? = some (some x) ∧ ∀ l y, ts[l]? = some (some y) → x.1 ≤ y.1 ∧ (l < k → x.1 < y.1)

/-- A trial ahead that is dearer, or missing, changes nothing. -/
theorem IsCheapest.cons {ts : List (Option (Nat × List Nat))} {k : Nat} {x : Nat × List Nat}
    {o : Option (Nat × List Nat)} (h : IsCheapest ts k x) (ho : ∀ y, o = some y → x.1 < y.1) :
    IsCheapest (o :: ts) (k + 1) x := by
  refine ⟨h.1, fun l y hl => ?_⟩
  cases l with
  | zero =>
    have hlt := ho y (by simpa using hl)
    exact ⟨hlt.le, fun _ => hlt⟩
  | succ l => exact (h.2 l y hl).imp_right fun hlt hlk => hlt (Nat.lt_of_succ_lt_succ hlk)

theorem isCheapest_head {ts : List (Option (Nat × List Nat))} {x : Nat × List Nat}
    (h : ∀ y, some y ∈ ts → x.1 ≤ y.1) : IsCheapest (some x :: ts) 0 x := by
  refine ⟨rfl, fun l y hl => ⟨?_, fun hl0 => absurd hl0 (Nat.not_lt_zero l)⟩⟩
  rcases List.mem_cons.1 (List.mem_of_getElem? hl) with heq | hmem
  · exact (Option.some.inj heq ▸ le_rfl)
  · exact h y hmem

/-- With a best trial so far, the search keeps it or finds a strictly cheaper one (R227). -/
theorem cheapest_some_cases {b x : Nat × List Nat} {ts : List (Option (Nat × List Nat))}
    (h : cheapest (some b) ts = some x) :
    (x = b ∧ ∀ y, some y ∈ ts → b.1 ≤ y.1) ∨ (x.1 < b.1 ∧ ∃ k, IsCheapest ts k x) := by
  induction ts generalizing b with
  | nil =>
    cases h
    exact .inl ⟨rfl, fun y hy => absurd hy List.not_mem_nil⟩
  | cons o ts ih =>
    cases o with
    | none =>
      rcases ih h with ⟨rfl, hall⟩ | ⟨hlt, k, hk⟩
      · exact .inl ⟨rfl, fun y hy => hall y ((List.mem_cons.1 hy).resolve_left (Option.some_ne_none y))⟩
      · exact .inr ⟨hlt, k + 1, hk.cons fun y hy => by cases hy⟩
    | some t =>
      rw [cheapest] at h
      split at h
      next htb =>
        rcases ih h with ⟨rfl, hall⟩ | ⟨hlt, k, hk⟩
        · exact .inr ⟨htb, 0, isCheapest_head hall⟩
        · exact .inr ⟨hlt.trans htb, k + 1, hk.cons fun y hy => Option.some.inj hy ▸ hlt⟩
      next htb =>
        have hbt := Nat.le_of_not_lt htb
        rcases ih h with ⟨rfl, hall⟩ | ⟨hlt, k, hk⟩
        · refine .inl ⟨rfl, fun y hy => ?_⟩
          rcases List.mem_cons.1 hy with heq | hmem
          · exact Option.some.inj heq ▸ hbt
          · exact hall y hmem
        · exact .inr ⟨hlt, k + 1, hk.cons fun y hy => Option.some.inj hy ▸ hlt.trans_le hbt⟩

/-- The search finds the cheapest trial (R227). -/
theorem exists_isCheapest {ts : List (Option (Nat × List Nat))} {x : Nat × List Nat} (h : cheapest none ts = some x) :
    ∃ k, IsCheapest ts k x := by
  induction ts with
  | nil => cases h
  | cons o ts ih =>
    cases o with
    | none =>
      obtain ⟨k, hk⟩ := ih h
      exact ⟨k + 1, hk.cons fun y hy => by cases hy⟩
    | some t =>
      rcases cheapest_some_cases h with ⟨rfl, hall⟩ | ⟨hlt, k, hk⟩
      · exact ⟨0, isCheapest_head hall⟩
      · exact ⟨k + 1, hk.cons fun y hy => Option.some.inj hy ▸ hlt⟩

theorem cheapest_some_ne_none (b : Nat × List Nat) (ts : List (Option (Nat × List Nat))) :
    cheapest (some b) ts ≠ none := by
  induction ts generalizing b with
  | nil => exact Option.some_ne_none b
  | cons o ts ih =>
    cases o with
    | none => exact ih b
    | some t =>
      rw [cheapest]
      split
      · exact ih t
      · exact ih b

/-- The search finds nothing only where there is no trial. -/
theorem not_mem_of_cheapest_eq_none {ts : List (Option (Nat × List Nat))} (h : cheapest none ts = none)
    (x : Nat × List Nat) : some x ∉ ts := by
  induction ts with
  | nil => exact List.not_mem_nil
  | cons o ts ih =>
    cases o with
    | none =>
      intro hx
      exact ih h ((List.mem_cons.1 hx).resolve_left (Option.some_ne_none x))
    | some t => exact absurd h (cheapest_some_ne_none t ts)

/-! ### Trials (R226, R227) -/

section Trials

variable {s : State} {tags : List Nat} {r : Run}

theorem length_foldedTags (tags : List Nat) (r : Run) (t : Nat) : (foldedTags tags r t).length = tags.length := by
  rw [foldedTags, List.length_map, List.length_range]

/-- The model's fold of a run is that of R227. -/
theorem setRun_eq_foldedTags (hr : IsRun tags r) (t : Nat) : setRun tags r t = foldedTags tags r t := by
  have hab := hr.nonempty
  have hbn := hr.fits
  have hlen : (setRun tags r t).length = tags.length := length_setRun ⟨hab.le, hbn⟩ t
  refine List.ext_getElem (hlen.trans (length_foldedTags tags r t).symm) fun p h1 h2 => ?_
  have hp : p < tags.length := hlen ▸ h1
  simp only [foldedTags, List.getElem_map, List.getElem_range, List.getD_eq_getElem _ _ hp]
  simp only [setRun, List.getElem_append, List.length_append, List.length_take, List.length_replicate,
    List.getElem_take, List.getElem_replicate, List.getElem_drop]
  by_cases hpa : p < r.a
  · rw [dif_pos (by omega), dif_pos (by omega), if_neg (by omega)]
  · by_cases hpb : p < r.b
    · rw [dif_pos (by omega), dif_neg (by omega), if_pos ⟨by omega, hpb⟩]
    · rw [dif_neg (by omega), if_neg (by omega)]
      congr 1
      omega

theorem cost_eq_some {c : Nat} : s.cost tags = some c ↔ ∃ b, s.emit tags = .ok b ∧ b.length = c := by
  unfold State.cost
  cases s.emit tags <;> simp

/-- Tags that EMIT accepts have candidates at every position (R247). -/
theorem hasCandidates_of_emit {b : Bits} (h : s.emit tags = .ok b) : ∀ p, p < tags.length → HasCandidates s p := by
  obtain ⟨hchecks, -⟩ := emit_eq_ok.1 h
  obtain ⟨-, -, -, hadm⟩ := emitChecks_eq_ok.1 hchecks
  exact fun p hp => (hadm p hp).1

theorem runAdmits_iff (hcand : ∀ p, p < tags.length → HasCandidates s p) (hr : IsRun tags r) {t : Nat} :
    s.runAdmits r t = true ↔ ∀ p, r.a ≤ p → p < r.b → (candMask s p).getLsbD t = true := by
  have hfits := hr.fits
  rw [State.runAdmits, List.all_eq_true]
  refine ⟨fun h p hap hpb => ?_, fun h p hp => ?_⟩
  · have hp := h p (List.mem_range'_1.2 ⟨hap, by omega⟩)
    rwa [cand_of_hasCandidates (hcand p (by omega))] at hp
  · rw [List.mem_range'_1] at hp
    rw [cand_of_hasCandidates (hcand p (by omega))]
    exact h p hp.1 (by omega)

/-- The model's trials are those of R227. -/
theorem trial_eq_some (hcand : ∀ p, p < tags.length → HasCandidates s p) (hr : IsRun tags r) {t : Nat}
    {x : Nat × List Nat} :
    s.trial tags r t = some x ↔ ∃ c, Trial s tags r t c ∧ x = (c.length, foldedTags tags r t) := by
  have hadmits := runAdmits_iff hcand hr (t := t)
  have hset := setRun_eq_foldedTags hr t
  unfold State.trial
  by_cases htm : t = r.m
  · rw [if_pos htm]
    exact ⟨nofun, fun ⟨_, ⟨hne, _⟩, _⟩ => absurd htm hne⟩
  · rw [if_neg htm]
    by_cases hadm : s.runAdmits r t = true
    · rw [if_pos hadm, Option.map_eq_some_iff, hset]
      constructor
      · rintro ⟨_, hcost, rfl⟩
        obtain ⟨c, hc, rfl⟩ := cost_eq_some.1 hcost
        exact ⟨c, ⟨htm, hadmits.1 hadm, hc⟩, rfl⟩
      · rintro ⟨c, ⟨-, -, hc⟩, rfl⟩
        exact ⟨c.length, cost_eq_some.2 ⟨c, hc, rfl⟩, rfl⟩
    · rw [if_neg hadm]
      exact ⟨nofun, fun ⟨_, ⟨_, hall, _⟩, _⟩ => absurd (hadmits.2 hall) hadm⟩

end Trials

/-! ### The best fold of one run, and the first fold (R225, R227) -/

/-- What the search for a fold answers: the fold of R227, or that no run is improvable. -/
def FoldFound (s : State) (tags : List Nat) (b : Bits) : Option (Nat × List Nat) → Prop
  | some x => Fold s tags x.2 ∧ ∃ c, s.emit x.2 = .ok c ∧ c.length = x.1 ∧ c.length < b.length
  | none => ∀ j, ¬ Improvable s tags j

section Folding

variable {s : State} {tags : List Nat} {pre rest : List Run} {r : Run}

/-- The targets of a run, by what stands before and after it (R227). -/
theorem foldTargets_append (s : State) (pre rest : List Run) (r : Run) :
    foldTargets s (pre ++ r :: rest) pre.length
      = (pre.getLast?.map Run.m).toList ++ (rest.head?.map Run.m).toList ++ [s.fallback] := by
  have hnext : (pre ++ r :: rest)[pre.length + 1]? = rest.head? := by
    rw [List.getElem?_append_right (by omega), Nat.add_sub_cancel_left, List.head?_eq_getElem?]
    rfl
  rw [foldTargets, hnext]
  congr 2
  split
  next h0 =>
    rw [List.length_eq_zero_iff.1 h0]
    rfl
  next h0 => rw [List.getElem?_append_left (by omega), List.getLast?_eq_getElem?]

theorem bestFold_eq (s : State) (tags : List Nat) (pre rest : List Run) (r : Run) :
    s.bestFold tags pre.getLast? r rest.head?
      = cheapest none ((foldTargets s (pre ++ r :: rest) pre.length).map (s.trial tags r)) := by
  rw [foldTargets_append]
  rfl

theorem isShort_iff : s.isShort r = true ↔ Short s r := decide_eq_true_iff

/-- One run of the search: its best fold is taken where it is short and the fold strictly cheaper, else the search goes
on (R227). -/
theorem firstFold_cons_cases (s : State) (tags : List Nat) (cost : Nat) (prev : Option Run) (r : Run) (rs : List Run) :
    (∃ x, s.firstFold tags cost prev (r :: rs) = some x ∧ Short s r ∧ s.bestFold tags prev r rs.head? = some x
        ∧ x.1 < cost)
      ∨ (s.firstFold tags cost prev (r :: rs) = s.firstFold tags cost (some r) rs
        ∧ (Short s r → ∀ x, s.bestFold tags prev r rs.head? = some x → cost ≤ x.1)) := by
  rw [State.firstFold]
  by_cases hshort : s.isShort r = true
  · rw [if_pos hshort]
    cases hbest : s.bestFold tags prev r rs.head? with
    | none => exact .inr ⟨rfl, fun _ x hx => by cases hx⟩
    | some x =>
      by_cases hlt : x.1 < cost
      · exact .inl ⟨x, if_pos hlt, isShort_iff.1 hshort, rfl, hlt⟩
      · exact .inr ⟨if_neg hlt, fun _ y hy => Option.some.inj hy ▸ Nat.le_of_not_lt hlt⟩
  · rw [if_neg hshort]
    exact .inr ⟨rfl, fun h => absurd (isShort_iff.2 h) hshort⟩

variable {b : Bits} (hb : s.emit tags = .ok b)
include hb

/-- A best fold that is strictly cheaper, with nothing to improve before it, is the fold of R227. -/
theorem fold_of_bestFold (hruns : runs tags = pre ++ r :: rest) (hpre : ∀ i, i < pre.length → ¬ Improvable s tags i)
    (hshort : Short s r) {x : Nat × List Nat} (hx : s.bestFold tags pre.getLast? r rest.head? = some x)
    (hlt : x.1 < b.length) : Fold s tags x.2 ∧ ∃ c, s.emit x.2 = .ok c ∧ c.length = x.1 := by
  have hr : IsRun tags r := isRun_of_mem_runs (hruns ▸ List.mem_append_right _ List.mem_cons_self)
  have hcand := hasCandidates_of_emit hb
  have hget : (runs tags)[pre.length]? = some r := by
    rw [hruns, List.getElem?_append_right le_rfl, Nat.sub_self]
    rfl
  rw [bestFold_eq, ← hruns] at hx
  obtain ⟨k, hk, hcheapest⟩ := exists_isCheapest hx
  rw [List.getElem?_map, Option.map_eq_some_iff] at hk
  obtain ⟨t, ht, htrial⟩ := hk
  obtain ⟨c, hc, rfl⟩ := (trial_eq_some hcand hr).1 htrial
  refine ⟨⟨pre.length, r, k, t, b, c, hget, hshort, hpre, ht, hb, hc, hlt, fun l u d hu hd => ?_, rfl⟩, c, hc.2.2, rfl⟩
  refine hcheapest l (d.length, foldedTags tags r u) ?_
  rw [List.getElem?_map, hu, Option.map_some, (trial_eq_some hcand hr).2 ⟨d, hd, rfl⟩]

/-- A run whose best fold is no cheaper cannot be improved (R227). -/
theorem not_improvable_of_bestFold (hruns : runs tags = pre ++ r :: rest)
    (h : Short s r → ∀ x, s.bestFold tags pre.getLast? r rest.head? = some x → b.length ≤ x.1) :
    ¬ Improvable s tags pre.length := by
  rintro ⟨r', t, b', c, hget, hshort, ht, hb', hc, hlt⟩
  obtain rfl : r' = r := by
    rw [hruns, List.getElem?_append_right le_rfl, Nat.sub_self] at hget
    exact (Option.some.inj hget).symm
  obtain rfl : b' = b := Except.ok.inj (hb'.symm.trans hb)
  have hr : IsRun tags r' := isRun_of_mem_runs (hruns ▸ List.mem_append_right _ List.mem_cons_self)
  have htrial := (trial_eq_some (hasCandidates_of_emit hb) hr).2 ⟨c, hc, rfl⟩
  have hmem : some (c.length, foldedTags tags r' t)
      ∈ (foldTargets s (runs tags) pre.length).map (s.trial tags r') := List.mem_map.2 ⟨t, ht, htrial⟩
  have h := h hshort
  rw [bestFold_eq, ← hruns] at h
  cases hx : cheapest none ((foldTargets s (runs tags) pre.length).map (s.trial tags r')) with
  | none => exact not_mem_of_cheapest_eq_none hx _ hmem
  | some x =>
    obtain ⟨k, -, hcheapest⟩ := exists_isCheapest hx
    obtain ⟨l, hl⟩ := List.getElem?_of_mem hmem
    exact absurd ((h x hx).trans (hcheapest l _ hl).1) (Nat.not_le.2 hlt)

theorem foldFound_of_firstFold (hruns : runs tags = pre ++ rest) (hpre : ∀ i, i < pre.length → ¬ Improvable s tags i) :
    FoldFound s tags b (s.firstFold tags b.length pre.getLast? rest) := by
  induction rest generalizing pre with
  | nil =>
    intro j hj
    refine hpre j ?_ hj
    obtain ⟨r, -, -, -, hget, -⟩ := hj
    rw [hruns, List.append_nil] at hget
    exact (List.getElem?_eq_some_iff.1 hget).1
  | cons r rest ih =>
    rcases firstFold_cons_cases s tags b.length pre.getLast? r rest with ⟨x, hx, hshort, hbest, hlt⟩ | ⟨hx, hno⟩
    · obtain ⟨hfold, c, hc, hlen⟩ := fold_of_bestFold hb hruns hpre hshort hbest hlt
      rw [hx]
      exact ⟨hfold, c, hc, hlen, hlen ▸ hlt⟩
    · have hskip := not_improvable_of_bestFold hb hruns hno
      have hnext := ih (pre := pre ++ [r]) (by rw [hruns, List.append_assoc]; rfl) fun i hi => ?_
      · rwa [List.getLast?_append_of_ne_nil _ (List.cons_ne_nil r []), List.getLast?_singleton, ← hx] at hnext
      · rw [List.length_append, List.length_singleton] at hi
        rcases Nat.lt_succ_iff_lt_or_eq.1 hi with hi | rfl
        · exact hpre i hi
        · exact hskip

end Folding

/-! ### The loop (R227, R228, R230) -/

/-- The outcome of the gating loop on tags whose stream is b: n folds lead to tags whose stream is c; each fold saved at
least a bit, and no run is left to improve. -/
structure Gated (s : State) (tags : List Nat) (b : Bits) (new : List Nat) (n : Nat) (c : Bits) : Prop where
  folds : Folds s tags n new
  emit : s.emit new = .ok c
  cost : c.length + n ≤ b.length
  fixed : ∀ j, ¬ Improvable s new j

theorem length_of_fold {s : State} {tags new : List Nat} (h : Fold s tags new) : new.length = tags.length := by
  obtain ⟨-, r, -, t, -, -, -, -, -, -, -, -, -, -, rfl⟩ := h
  exact length_foldedTags tags r t

theorem length_of_folds {s : State} {tags new : List Nat} {n : Nat} (h : Folds s tags n new) :
    new.length = tags.length := by
  induction h with
  | none => rfl
  | next _ _ _ _ hfold _ ih => exact ih.trans (length_of_fold hfold)

theorem Gated.length_eq {s : State} {b c : Bits} {new : List Nat} {n : Nat} (hg : Gated s s.tags b new n c) :
    new.length = s.n := (length_of_folds hg.folds).trans (length_tags s)

/-- The model's bound on the rounds is enough, because each fold lowers the cost (R228). -/
theorem exists_gated {s : State} {tags : List Nat} {b : Bits} (hb : s.emit tags = .ok b) {f : Nat} (hf : b.length < f)
    (k : Nat) : ∃ new n c, s.gate f tags b.length k = (new, k + n) ∧ Gated s tags b new n c := by
  induction f generalizing tags b k with
  | zero => cases hf
  | succ f ih =>
    have hfound : FoldFound s tags b (s.firstFold tags b.length none (runs tags)) :=
      foldFound_of_firstFold hb (pre := []) rfl fun i hi => absurd hi (Nat.not_lt_zero i)
    rw [State.gate]
    cases hfirst : s.firstFold tags b.length none (runs tags) with
    | none =>
      rw [hfirst] at hfound
      exact ⟨tags, 0, b, rfl, .none tags, hb, Nat.le_refl _, hfound⟩
    | some x =>
      rw [hfirst] at hfound
      obtain ⟨hfold, c, hc, hcost, hlt⟩ := hfound
      obtain ⟨new, n, d, hgate, hfolds, hd, hsum, hfixed⟩ := ih hc (by omega) (k + 1)
      refine ⟨new, n + 1, d, ?_, .next tags x.2 new n hfold hfolds, hd, by omega, hfixed⟩
      rw [hcost] at hgate
      exact hgate.trans (congrArg (Prod.mk new) (by omega))

section Command

variable {s : State} {b : Bits} (h : GateReady s b)
include h

/-- The state SEG_GATE leaves (R227). -/
theorem exists_exec_segGate : ∃ new n c, Gated s s.tags b new n c ∧ exec .segGate s = .next
    (completedRes { s with mem := (s.storeTags new).mem } (BitVec.ofNat 32 n)) := by
  obtain ⟨hn, hc, hb⟩ := h
  obtain ⟨new, n, c, hgate, hgated⟩ := exists_gated hb (Nat.lt_succ_self b.length) 0
  obtain ⟨hchecks, -⟩ := emit_eq_ok.1 hb
  obtain ⟨-, htags, -, hadm⟩ := emitChecks_eq_ok.1 hchecks
  have htags : s.checkTags false 0 s.tags = .ok () := checkTags_eq_ok.2 fun t ht => .inl (htags t ht)
  have hadm : s.checkAdmits 0 s.tags = .ok () := checkAdmits_eq_ok.2 fun k hk => by
    rw [Nat.zero_add]
    exact admits_eq_ok.2 (hadm k hk)
  have hwork : s.segGateWork = .ok ((s.storeTags new).writeResNat n) := by
    rw [State.segGateWork, segCheck_ok hn hc, htags, hadm, hb]
    refine bind_eq_ok.2 ⟨(), rfl, bind_eq_ok.2 ⟨(), rfl, bind_eq_ok.2 ⟨(), rfl, bind_eq_ok.2 ⟨b, rfl, ?_⟩⟩⟩⟩
    rw [hgate, Nat.zero_add]
    rfl
  have hexec : exec .segGate s = .next (s.finish s.segGateWork) := rfl
  rw [hwork] at hexec
  exact ⟨new, n, c, hgated, hexec⟩

variable {new : List Nat} {n : Nat} {c : Bits} (hg : Gated s s.tags b new n c)
include hg

/-- What SEG_GATE stores reads back. -/
theorem Gated.tags_eq : (s.storeTags new).tags = new := by
  obtain ⟨hchecks, -⟩ := emit_eq_ok.1 hg.emit
  obtain ⟨⟨-, hcount, -⟩, hlt, -⟩ := emitChecks_eq_ok.1 hchecks
  have hlen := hg.length_eq
  obtain ⟨hn, -⟩ := h
  exact tags_storeTags hlen hn fun t ht => by have := hlt t ht; omega

/-- The number of folds fits RES. -/
theorem Gated.ofNat_eq_zero_iff : BitVec.ofNat 32 n = 0#32 ↔ n = 0 := by
  obtain ⟨hn, -, hb⟩ := h
  have hlen : b.length ≤ 221 * s.tags.length + 31 := length_emit_le hb
  have hcost := hg.cost
  have htags : s.tags.length ≤ 4096 := length_tags s ▸ hn
  rw [← BitVec.toNat_inj, BitVec.toNat_ofNat, BitVec.toNat_ofNat]
  omega

/-- The stream is no longer, and as long exactly when nothing was folded (R230). -/
theorem Gated.cost_iff : c.length ≤ b.length ∧ (c.length = b.length ↔ n = 0) := by
  obtain ⟨-, -, hb⟩ := h
  obtain ⟨hfolds, hc, hcost, -⟩ := hg
  refine ⟨by omega, fun _ => by omega, fun h0 => ?_⟩
  subst h0
  cases hfolds
  rw [Except.ok.inj (hc.symm.trans hb)]

end Command

/-- Settles O36: the loop's outcome, stored in T.MODE and read back. -/
theorem segGateCommand : Obligations.SegGateCommand := by
  intro s b h
  obtain ⟨new, n, c, hg, hexec⟩ := exists_exec_segGate h
  have hcost := Gated.cost_iff h hg
  have hzero := Gated.ofNat_eq_zero_iff h hg
  have hlen := hg.length_eq
  have htags := Gated.tags_eq h hg
  obtain ⟨hfolds, hc, hsum, hfixed⟩ := hg
  refine ⟨(s.storeTags new).mem, n, ?_⟩
  intro t
  have ht : t.tags = new := htags
  refine ⟨hexec, ht ▸ hfolds, by omega, ht ▸ hfixed, fun i hi => ?_, ?_, storeTags_sameOutside hlen⟩
  · obtain ⟨hchecks, -⟩ := emit_eq_ok.1 hc
    obtain ⟨-, -, -, hadm⟩ := emitChecks_eq_ok.1 hchecks
    have hi' : i < t.tags.length := lt_length_tags.2 hi
    rw [← getElem_tags hi']
    simp only [ht]
    exact (hadm i (ht ▸ hi')).2
  · rw [ht]
    exact ⟨c, hc, hcost.1, hcost.2.trans hzero.symm⟩

/-! ### SEG_GATE again (R229) -/

/-- What can be improved depends on the configuration and the characters alone. -/
theorem SameSource.improvable {s t : State} (h : SameSource s t) {tags : List Nat} (hlen : tags.length ≤ 4096) {j : Nat}
    (hj : Improvable t tags j) : Improvable s tags j := by
  obtain ⟨r, u, b, c, hget, hshort, hu, hb, ⟨hne, hadm, hc⟩, hlt⟩ := hj
  have hfits := (isRun_of_mem_runs (List.mem_of_getElem? hget)).fits
  refine ⟨r, u, b, c, hget, ?_, ?_, h.emit hlen ▸ hb, ⟨hne, fun p hap hpb => ?_, ?_⟩, hlt⟩
  · rw [Short, h.mc] at hshort
    exact hshort
  · rw [foldTargets, h.fallback] at hu
    exact hu
  · rw [← h.candMask (show p < 4096 by omega)]
    exact hadm p hap hpb
  · rwa [h.emit (by rw [length_foldedTags]; exact hlen)] at hc

/-- A fold is possible only where a run is improvable (R227). -/
theorem improvable_of_fold {s : State} {tags new : List Nat} (h : Fold s tags new) : ∃ j, Improvable s tags j := by
  obtain ⟨j, r, k, t, b, c, hget, hshort, -, ht, hb, hc, hlt, -⟩ := h
  exact ⟨j, r, t, b, c, hget, hshort, List.mem_of_getElem? ht, hb, hc, hlt⟩

/-- Settles O37: the tags SEG_GATE stored are a fixed point, so the second loop folds nothing and stores them again. -/
theorem segGateIdempotent : Obligations.SegGateIdempotent := by
  intro s b h
  obtain ⟨new, n, c, hg, hexec⟩ := exists_exec_segGate h
  have hlen := hg.length_eq
  have htags := Gated.tags_eq h hg
  have hst := sameSource_storeTags s new (BitVec.ofNat 32 n)
  obtain ⟨hn, hc, -⟩ := h
  have hnew : new.length ≤ 4096 := hlen ▸ hn
  generalize ht : completedRes { s with mem := (s.storeTags new).mem } (BitVec.ofNat 32 n) = t at hst hexec
  have hmem : t.mem = (s.storeTags new).mem := ht ▸ rfl
  have htags : t.tags = new := ht ▸ htags
  have hready : GateReady t c :=
    ⟨hst.nChars ▸ hn, hst.configOk hc, by rw [htags, hst.emit hnew]; exact hg.emit⟩
  obtain ⟨again, k, d, hagain, hexec'⟩ := exists_exec_segGate hready
  obtain ⟨rfl, rfl⟩ : k = 0 ∧ again = new := by
    have hfolds := hagain.folds
    rw [htags] at hfolds
    cases hfolds with
    | none => exact ⟨rfl, rfl⟩
    | next _ _ _ _ hfold _ =>
      obtain ⟨j, hj⟩ := improvable_of_fold hfold
      exact absurd (hst.improvable hnew hj) (hg.fixed j)
  exact ⟨t, _, hexec, hexec', rfl, rfl, loadByte_storeTags_again hmem⟩

end Sys2Proof.Proofs

/-! SUPPORT. The value of a character and the packing of values in groups (43_bitstream.md R258, R259; O44, O45). -/

namespace Sys2Proof.Proofs

open Sys2Proof Sys2Proof.Machine Sys2Proof.Laws Sys2Proof.Claims

/-! ### Values (R258) -/

section Values

variable {s : State} {m p : Nat}

/-- A TABLE value is checked against the radix alone (R258). -/
theorem value_table (h : (s.mc m).vsrc = 0) : s.value m p =
    require (decide ((s.mc m).gn ≤ 1 ∨ s.tVtab m (cidx (s.char p)) < (s.mc m).radix)) (mkErr .invalidInput 4 p) >>=
      fun _ => pure (s.tVtab m (cidx (s.char p))) := by
  simp only [State.value, h, if_true, decide_true, Bool.true_or, Int.toNat_natCast, Int.ofNat_lt, Bool.decide_or]
  exact require_bind_ok rfl ..

/-- A DIRECT value is checked against the code width, then against the radix (R258). -/
theorem value_direct (h : (s.mc m).vsrc ≠ 0) : s.value m p =
    require (decide (0 ≤ s.char p - (s.mc m).base ∧ s.char p - (s.mc m).base < 2 ^ (s.mc m).gb 1))
        (mkErr .invalidInput 4 p) >>= fun _ =>
      require (decide ((s.mc m).gn ≤ 1 ∨ s.char p - (s.mc m).base < (s.mc m).radix)) (mkErr .invalidInput 4 p) >>=
        fun _ => pure (s.char p - (s.mc m).base).toNat := by
  simp only [State.value, if_neg h, decide_eq_false h, Bool.false_or, Bool.decide_or]

end Values

/-- Settles O44: the checks of VAL in order, TABLE and DIRECT. -/
theorem characterValue : Obligations.CharacterValue := by
  intro s m p
  refine ⟨fun hsrc hrad => ?_, fun hsrc hgn hrad => ?_, fun hsrc hlo hhi hrad => ?_, fun hsrc hrange => ?_,
    fun hsrc hlo hhi hgn hrad => ?_⟩
  · rw [value_table hsrc]
    exact require_bind_ok (decide_eq_true hrad) ..
  · rw [value_table hsrc]
    exact require_bind_error (decide_eq_false (by omega)) ..
  · rw [value_direct hsrc, require_bind_ok (decide_eq_true ⟨hlo, hhi⟩)]
    exact require_bind_ok (decide_eq_true hrad) ..
  · rw [value_direct hsrc]
    exact require_bind_error (decide_eq_false (by omega)) ..
  · rw [value_direct hsrc, require_bind_ok (decide_eq_true ⟨hlo, hhi⟩)]
    exact require_bind_error (decide_eq_false (by omega)) ..

/-! ### Groups (R259) -/

/-- The first value of a group is its most significant digit (R259). -/
theorem packGroup_range' (radix q k : Nat) (v : Nat → Nat) :
    packGroup radix ((List.range' q k).map v) = ∑ t ∈ Finset.range k, v (q + t) * radix ^ (k - 1 - t) := by
  induction k with
  | zero => rfl
  | succ k ih =>
    have hshift : ∀ t ∈ Finset.range k, v (q + t) * radix ^ (k - 1 - t) * radix = v (q + t) * radix ^ (k - t) := by
      intro t ht
      rw [Finset.mem_range] at ht
      rw [mul_assoc, ← pow_succ, show k - 1 - t + 1 = k - t by omega]
    rw [packGroup] at ih ⊢
    rw [List.range'_1_concat, List.map_append, List.foldl_append, ih, Finset.sum_range_succ, Nat.add_sub_cancel,
      Nat.sub_self, pow_zero, mul_one, ← Finset.sum_congr rfl hshift, ← Finset.sum_mul]
    rfl

section Groups

variable {s : State} {m g b : Nat} {v : Nat → Nat}

theorem data_eq_nil {f q : Nat} (h : b ≤ q) : s.data m g b f q = .ok [] := by
  cases f with
  | zero => rfl
  | succ f => exact if_neg (Nat.not_lt.2 h)

/-- Bounds on the number of groups that are large enough give the same codes. -/
theorem data_bound {f l q : Nat} (hg : 1 ≤ g) (hf : b - q ≤ f) (hl : b - q ≤ l) :
    s.data m g b f q = s.data m g b l q := by
  induction f generalizing l q with
  | zero =>
    have hbq : b ≤ q := by omega
    rw [data_eq_nil hbq, data_eq_nil hbq]
  | succ f ih =>
    by_cases hqb : q < b
    · obtain ⟨l, rfl⟩ : ∃ k, l = k + 1 := ⟨l - 1, by omega⟩
      rw [data_succ, data_succ, ih (l := l) (by omega) (by omega)]
    · have hbq := Nat.le_of_not_lt hqb
      rw [data_eq_nil hbq, data_eq_nil hbq]

/-- The first group is one code of its radix sum, and the rest follows (R259). -/
theorem dataCodes_group (hg : 1 ≤ g) {q k : Nat} (hk : k = min g (b - q)) (hqb : q < b)
    (hv : ∀ p, q ≤ p → p < b → s.value m p = .ok (v p)) {rest : Bits} (hrest : s.dataCodes m (q + k) b g = .ok rest) :
    s.dataCodes m q b g = .ok (bitsOf
      ((∑ t ∈ Finset.range k, v (q + t) * (s.mc m).radix ^ (k - 1 - t) : Nat) : Int) ((s.mc m).gb k) ++ rest) := by
  obtain ⟨f, hf⟩ : ∃ f, b - q = f + 1 := ⟨b - q - 1, by omega⟩
  have hvs : forPositions (s.value m) (List.range' q k) = .ok ((List.range' q k).map v) :=
    forPositions_eq_map fun p hp => by
      rw [List.mem_range'_1] at hp
      exact hv p hp.1 (by omega)
  rw [← packGroup_range']
  have hrest : s.data m g b f (q + k) = .ok rest := (data_bound hg (by omega) le_rfl).trans hrest
  rw [State.dataCodes, hf, data_succ, if_pos hqb, ← hk]
  exact bind_eq_ok.2 ⟨_, hvs, bind_eq_ok.2 ⟨rest, hrest, rfl⟩⟩

/-- A group of one is the position's value at width GB1 (R256, R259). -/
theorem dataCodes_single {q : Nat} {x : Nat} (hx : s.value m q = .ok x) :
    s.dataCodes m q (q + 1) 1 = .ok (bitsOf (x : Int) ((s.mc m).gb 1)) := by
  have hv (p : Nat) (hqp : q ≤ p) (hp : p < q + 1) : s.value m p = .ok x := by
    rwa [show p = q by omega]
  rw [dataCodes_group le_rfl (k := 1) (by omega) (Nat.lt_succ_self q) hv (data_eq_nil le_rfl), List.append_nil]
  simp

end Groups

/-- Settles O45: the first group and the rest, and the error of the lowest position without a value. -/
theorem groupPacking : Obligations.GroupPacking := by
  intro s m a b g v hg hv
  refine ⟨fun hfull => ?_, fun hab hpart => ?_, fun hba => data_eq_nil hba, fun e he c hbc hab => ?_⟩
  · obtain ⟨rest, hrest⟩ := exists_dataCodes (s := s) (m := m) g (a := a + g) (b := b)
      fun p hp hpb => ⟨v p, hv p (by omega) hpb⟩
    exact ⟨rest, hrest, dataCodes_group hg (by omega) (by omega) hv hrest⟩
  · rw [dataCodes_group hg (k := b - a) (by omega) hab hv (data_eq_nil (by omega)), List.append_nil]
  · exact dataCodes_eq_error hg hab hbc (fun p hp hpb => ⟨v p, hv p hp hpb⟩) he

end Sys2Proof.Proofs

/-! SUPPORT. The paths of the transition table are exactly those of the rule's recursion, and their form
(43_bitstream.md R251, R252; O41). -/

namespace Sys2Proof.Proofs

open Sys2Proof Sys2Proof.Machine Sys2Proof.Laws Sys2Proof.Claims

section Chains

variable {s : State}

theorem pathFrom_of_via {x y : Nat} {p q : List Hop} (k : Nat) (hbits : (s.trans x y).nbits ≤ 16)
    (hkind : (s.trans x y).kind = .via) (hx : (s.trans x y).via ≠ x) (hy : (s.trans x y).via ≠ y)
    (hlt : (s.trans x y).via < s.modeCount) (hp : s.pathFrom k x (s.trans x y).via = some p)
    (hq : s.pathFrom k (s.trans x y).via y = some q) (hok : pathOk (p ++ q) = true) :
    s.pathFrom (k + 1) x y = some (p ++ q) := by
  have hguard : ¬ ((s.trans x y).via = x ∨ (s.trans x y).via = y ∨ s.modeCount ≤ (s.trans x y).via) := by omega
  unfold State.pathFrom
  simp only [hkind, if_neg (Nat.not_lt.2 hbits), if_neg hguard, hp, hq, if_pos hok]

/-- The model's search finds every path of the rule's recursion (R252). -/
theorem pathFrom_of_resolves {k d x y : Nat} {p : List Hop} (hd : d + k = 4) (h : Resolves s d x y p) :
    s.pathFrom k x y = some p := by
  induction h generalizing k with
  | direct d x y hlt hbits hkind =>
    obtain ⟨k, rfl⟩ : ∃ l, k = l + 1 := ⟨k - 1, by omega⟩
    exact pathFrom_of_isHop ⟨hbits, hkind⟩ k
  | via d x y p q hlt hbits hkind hx hy hvia _ _ hlen hlatch ihp ihq =>
    obtain ⟨k, rfl⟩ : ∃ l, k = l + 1 := ⟨k - 1, by omega⟩
    exact pathFrom_of_via k hbits hkind hx hy hvia (ihp (by omega)) (ihq (by omega)) (pathOk_iff.2 ⟨hlen, hlatch⟩)

theorem path_eq_ok_iff_resolves {a b : Nat} {p : List Hop} : s.path a b = .ok p ↔ Resolves s 0 a b p :=
  ⟨resolves_of_path, fun h => path_eq_ok.2 (pathFrom_of_resolves rfl h)⟩

/-- Every hop of a path is a LATCH or SHIFT entry of the table (R252). -/
theorem hop_of_resolves {d x y : Nat} {p : List Hop} (h : Resolves s d x y p) :
    ∀ g ∈ p, g = hopAt s g.src g.dst ∧ IsHop s g.src g.dst := by
  induction h with
  | direct d x y _ hbits hkind => exact List.forall_mem_singleton.2 ⟨rfl, hbits, hkind⟩
  | via _ _ _ p q _ _ _ _ _ _ _ _ _ _ ihp ihq => exact List.forall_mem_append.2 ⟨ihp, ihq⟩

/-- Only the last hop of a path may be a SHIFT (R252). -/
theorem dropLast_of_resolves {d x y : Nat} {p : List Hop} (h : Resolves s d x y p) :
    ∀ g ∈ p.dropLast, g.kind = .latch := by
  cases h with
  | direct => exact nofun
  | via _ _ _ _ _ _ _ _ _ _ _ _ _ _ hlatch => exact hlatch

theorem head_of_resolves {d x y : Nat} {p : List Hop} (h : Resolves s d x y p) : p.head?.map Hop.src = some x := by
  induction h with
  | direct => rfl
  | via _ x _ p q _ _ _ _ _ _ _ _ _ _ ih _ =>
    obtain ⟨g, hg, hsrc⟩ := Option.map_eq_some_iff.1 ih
    rw [List.head?_append, hg]
    exact congrArg some hsrc

theorem getLast_of_resolves {d x y : Nat} {p : List Hop} (h : Resolves s d x y p) :
    p.getLast?.map Hop.dst = some y := by
  obtain ⟨q, z, rfl, -⟩ := last_of_resolves h
  rw [List.getLast?_concat]
  rfl

/-- Each hop of a path starts where the one before it ends (R252). -/
theorem chain_of_resolves {d x y : Nat} {p : List Hop} (h : Resolves s d x y p) :
    p.IsChain (fun g h => g.dst = h.src) := by
  induction h with
  | direct => exact .singleton _
  | via _ _ _ p q _ _ _ _ _ _ hp hq _ _ ihp ihq =>
    refine List.isChain_append.2 ⟨ihp, ihq, fun g hg h hh => ?_⟩
    have hdst := getLast_of_resolves hp
    have hsrc := head_of_resolves hq
    rw [hg] at hdst
    rw [hh] at hsrc
    exact Option.some.inj (hdst.trans hsrc.symm)

end Chains

/-- Settles O41: the search and the rule's recursion give the same paths, whose form is proved by induction on the
recursion. -/
theorem pathsAreChains : Obligations.PathsAreChains := by
  refine fun s a b => ⟨fun p => path_eq_ok_iff_resolves, path_eq_error, fun p hp => ?_⟩
  have h := resolves_of_path hp
  obtain ⟨hlen, -⟩ := bounds_of_resolves h
  refine ⟨?_, hlen, head_of_resolves h, getLast_of_resolves h, chain_of_resolves h,
    dropLast_of_resolves h, fun g hg => ?_⟩
  · obtain ⟨q, z, rfl, -⟩ := last_of_resolves h
    exact List.concat_ne_nil _ _
  · obtain ⟨hentry, hbits, hkind⟩ := hop_of_resolves h g hg
    rw [hentry]
    exact ⟨hkind, hbits, rfl, rfl, rfl⟩

end Sys2Proof.Proofs

/-! SUPPORT. What EMIT computes is what the rules' runs give, and what they are for one run, plain or counted
(43_bitstream.md R249 to R262, R266; O42, O43). -/

namespace Sys2Proof.Proofs

open Sys2Proof Sys2Proof.Machine Sys2Proof.Laws Sys2Proof.Claims

/-! ### EMIT and the rules' runs -/

section Runs

variable {s : State}

/-- A path has a last hop, a LATCH or a SHIFT entry into the mode asked for (R252). -/
theorem exists_last_hop {cur m : Nat} {p : List Hop} (h : s.path cur m = .ok p) :
    ∃ q g, p = q ++ [g] ∧ g = hopAt s g.src m ∧ IsHop s g.src m := by
  obtain ⟨q, z, rfl, hhop, -⟩ := last_of_resolves (resolves_of_path h)
  exact ⟨q, hopAt s z m, rfl, rfl, hhop⟩

theorem last_hop_of_path {cur m : Nat} {q : List Hop} {g : Hop} (h : s.path cur m = .ok (q ++ [g])) :
    g = hopAt s g.src m ∧ IsHop s g.src m := by
  obtain ⟨q', g', heq, hhop⟩ := exists_last_hop h
  obtain ⟨-, heq⟩ := List.append_inj' heq rfl
  rwa [List.singleton_inj.1 heq]

theorem kind_last_hop {cur m : Nat} {q : List Hop} {g : Hop} (h : s.path cur m = .ok (q ++ [g])) :
    g.kind = .latch ∨ g.kind = .shift := by
  obtain ⟨hg, hhop⟩ := last_hop_of_path h
  rw [hg]
  exact hhop.kind

/-- The last hop of a path is not taken from the mode asked for (R252). -/
theorem src_last_ne_of_resolves {d x y : Nat} {p : List Hop} {g : Hop} (h : Resolves s d x y p) (hxy : x ≠ y)
    (hlast : p.getLast? = some g) : g.src ≠ y := by
  induction h with
  | direct d x y =>
    cases hlast
    exact hxy
  | via d x y p q _ _ _ _ hvia _ _ hq _ _ _ ih =>
    obtain ⟨q, z, rfl, -⟩ := last_of_resolves hq
    rw [List.getLast?_append_of_ne_nil _ (List.concat_ne_nil _ _)] at hlast
    exact ih hvia hlast

/-- After a path of latches the mode asked for is current (R254). -/
theorem modeAfter_latch {cur m : Nat} {q : List Hop} {g : Hop} (h : s.path cur m = .ok (q ++ [g]))
    (hk : g.kind = .latch) : modeAfter g = m := by
  obtain ⟨hg, -⟩ := last_hop_of_path h
  rw [modeAfter, if_pos hk, hg]
  rfl

/-- After a SHIFT the mode it was taken from is current, and the SHIFT is the path from there (R252, R254). -/
theorem shift_again {cur m : Nat} {q : List Hop} {g : Hop} (h : s.path cur m = .ok (q ++ [g]))
    (hk : g.kind = .shift) : modeAfter g = g.src ∧ s.path g.src m = .ok [g] := by
  obtain ⟨hg, hhop⟩ := last_hop_of_path h
  have hpath := path_of_isHop hhop
  rw [← hg] at hpath
  exact ⟨if_neg (by rw [hk]; exact nofun), hpath⟩

theorem shifted_of_emitShifted {m cur last : Nat} {ps : List Nat} {b : Bits}
    (h : s.emitShifted m cur ps = .ok (b, last)) : Shifted s m cur ps b last := by
  induction ps generalizing cur b with
  | nil =>
    cases h
    exact .done _
  | cons p ps ih =>
    rw [emitShifted_cons] at h
    obtain ⟨path, hpath, h⟩ := bind_eq_ok.1 h
    obtain ⟨d, hd, h⟩ := bind_eq_ok.1 h
    obtain ⟨⟨rest, last⟩, hrest, h⟩ := bind_eq_ok.1 h
    cases h
    obtain ⟨q, g, rfl, -⟩ := exists_last_hop hpath
    rw [after_append] at hrest
    exact .next _ p _ ps q g d rest hpath hd (ih hrest)

theorem chunks_of_emitCounted {m b f cur a last : Nat} {bits : Bits} (hmax : 1 ≤ (s.mc m).chunkMax) (hf : b - a ≤ f)
    (h : s.emitCounted m b f cur a = .ok (bits, last)) : Chunks s m b cur a bits last := by
  induction f generalizing cur a bits with
  | zero =>
    cases h
    exact .done _ a (by omega)
  | succ f ih =>
    rw [emitCounted_succ] at h
    split at h
    next hab =>
      obtain ⟨path, hpath, h⟩ := bind_eq_ok.1 h
      obtain ⟨d, hd, h⟩ := bind_eq_ok.1 h
      obtain ⟨⟨rest, last⟩, hrest, h⟩ := bind_eq_ok.1 h
      cases h
      have hrest := ih (by omega) hrest
      unfold chunkPath at hpath
      split at hpath
      next hm =>
        subst hm
        cases hpath
        exact .stay a _ _ d rest hab rfl hd hrest
      next hm =>
        obtain ⟨q, g, rfl, -⟩ := exists_last_hop hpath
        rw [after_append] at hrest
        exact .enter cur a _ _ q g d rest hab hm rfl hpath hd hrest
    next hab =>
      cases h
      exact .done _ a (Nat.le_of_not_lt hab)

theorem runEmitted_of_emitPlain {cur last : Nat} {r : Run} {b : Bits} (hplain : (s.mc r.m).hdrCount = false)
    (h : s.emitPlain cur r = .ok (b, last)) : RunEmitted s cur r b last := by
  by_cases hm : r.m = cur
  · subst hm
    rw [emitPlain_stay s rfl] at h
    obtain ⟨d, hd, h⟩ := bind_eq_ok.1 h
    cases h
    exact .stay r _ hplain hd
  · rw [emitPlain_enter s hm] at h
    obtain ⟨path, hpath, h⟩ := bind_eq_ok.1 h
    obtain ⟨q, g, rfl, -⟩ := exists_last_hop hpath
    rcases kind_last_hop hpath with hk | hk
    · rw [endsInLatch_append, hk] at h
      obtain ⟨d, hd, h⟩ := bind_eq_ok.1 h
      cases h
      exact .latch _ r q g d hplain hm hpath hk hd
    · rw [endsInLatch_append, hk] at h
      exact .shift _ _ r q g _ hplain hm hpath hk (shifted_of_emitShifted h)

/-- One run of the model's loop is one run of the rules (R249, R250, R257). -/
theorem emitRun_eq_ok {cur last : Nat} {r : Run} {b : Bits} (hok : ModeOk (s.mc r.m)) :
    s.emitRun cur r = .ok (b, last) ↔ RunEmitted s cur r b last := by
  refine ⟨fun h => ?_, emitRun_of_runEmitted hok⟩
  cases hcount : (s.mc r.m).hdrCount with
  | false =>
    rw [emitRun_plain s hcount] at h
    exact runEmitted_of_emitPlain hcount h
  | true =>
    obtain ⟨-, -, -, -, -, hheader⟩ := hok
    obtain ⟨-, -, hmax⟩ := hheader hcount
    rw [emitRun_counted s hcount] at h
    exact .counted cur last r b hcount (chunks_of_emitCounted hmax le_rfl h)

theorem emitRuns_eq_ok {cur last : Nat} {rs : List Run} {b : Bits} (hok : ∀ r ∈ rs, ModeOk (s.mc r.m)) :
    s.emitRuns cur rs = .ok (b, last) ↔ RunsEmitted s cur rs b last := by
  induction rs generalizing cur b with
  | nil =>
    constructor
    · intro h
      cases h
      exact .done _
    · intro h
      cases h
      rfl
  | cons r rs ih =>
    have hr := hok r List.mem_cons_self
    have ih {cur b} := ih (cur := cur) (b := b) fun q hq => hok q (List.mem_cons_of_mem r hq)
    rw [emitRuns_cons]
    constructor
    · intro h
      obtain ⟨⟨c, mid⟩, hrun, h⟩ := bind_eq_ok.1 h
      obtain ⟨⟨rest, last⟩, hrest, h⟩ := bind_eq_ok.1 h
      cases h
      exact .next cur mid _ r rs c rest ((emitRun_eq_ok hr).1 hrun) (ih.1 hrest)
    · intro h
      cases h with
      | next _ mid _ _ _ c rest hrun hrest =>
        exact bind_eq_ok.2 ⟨(c, mid), (emitRun_eq_ok hr).2 hrun, bind_eq_ok.2 ⟨(rest, last), ih.2 hrest, rfl⟩⟩

/-- EMIT of tags whose checks pass is the bits of the rules' runs and a terminator (R249, R266). -/
theorem emit_eq_ok_iff_runsEmitted {tags : List Nat} {b : Bits} (h : s.emitChecks tags = .ok ()) :
    s.emit tags = .ok b ↔
      ∃ c last, RunsEmitted s s.initMode (runs tags) c last ∧ b = c ++ terminator s last := by
  obtain ⟨-, htags, hmodes, -⟩ := emitChecks_eq_ok.1 h
  have hok : ∀ r ∈ runs tags, ModeOk (s.mc r.m) := fun r hr => hmodes r.m (htags r.m (isRun_of_mem_runs hr).mem)
  simp only [emit_eq_ok, h, true_and, emitRuns_eq_ok hok]

end Runs

/-! ### One run -/

theorem runsFrom_replicate (m a p k : Nat) : runsFrom m a p (List.replicate k m) = [⟨m, a, p + k⟩] := by
  induction k generalizing p with
  | zero => rfl
  | succ k ih =>
    rw [List.replicate_succ, runsFrom, if_pos rfl, ih, Nat.add_assoc, Nat.add_comm 1 k]

/-- Equal tags are one run (R215). -/
theorem runs_replicate (m k : Nat) : runs (List.replicate (k + 1) m) = [⟨m, 0, k + 1⟩] := by
  rw [List.replicate_succ, runs, runsFrom_replicate, Nat.add_comm]

section OneRun

variable {s : State} {m k : Nat} (h : s.emitChecks (List.replicate (k + 1) m) = .ok ())
include h

theorem emit_of_runEmitted {b : Bits} {last : Nat} (hrun : RunEmitted s s.initMode ⟨m, 0, k + 1⟩ b last) :
    s.emit (List.replicate (k + 1) m) = .ok (b ++ terminator s last) := by
  refine (emit_eq_ok_iff_runsEmitted h).2 ⟨b, last, ?_, rfl⟩
  rw [runs_replicate, ← List.append_nil b]
  exact .next _ last last _ [] b [] hrun (.done last)

theorem emit_of_chunks {b : Bits} {last : Nat} (hcount : (s.mc m).hdrCount = true)
    (hchunks : Chunks s m (k + 1) s.initMode 0 b last) :
    s.emit (List.replicate (k + 1) m) = .ok (b ++ terminator s last) :=
  emit_of_runEmitted h (.counted _ last _ b hcount hchunks)

end OneRun

section ShiftedRun

variable {s : State} {m : Nat} {g : Hop}

/-- One shifted character: the latches, the SHIFT, and a group of one (R250, R256). -/
theorem shifted_cons {cur p x last : Nat} {ps : List Nat} {q : List Hop} {rest : Bits}
    (hpath : s.path cur m = .ok (q ++ [g])) (hafter : modeAfter g = g.src) (hx : s.value m p = .ok x)
    (hrest : Shifted s m g.src ps rest last) :
    Shifted s m cur (p :: ps) (pathCode q ++ (hopCode g ++ bitsOf (x : Int) ((s.mc m).gb 1) ++ rest)) last := by
  have hcode : pathCode (q ++ [g]) = pathCode q ++ hopCode g := by
    rw [pathCode, List.flatMap_append, List.flatMap_singleton, pathCode]
  have hnext := Shifted.next cur p last ps q g _ rest hpath (dataCodes_single hx) (hafter.symm ▸ hrest)
  simpa only [hcode, List.append_assoc] using hnext

/-- A SHIFT is taken again before each character (R254, R256). -/
theorem shifted_again {v : Nat → Nat} {ps : List Nat} (hpath : s.path g.src m = .ok [g]) (hafter : modeAfter g = g.src)
    (hv : ∀ i ∈ ps, s.value m i = .ok (v i)) :
    Shifted s m g.src ps (ps.flatMap fun i => hopCode g ++ bitsOf (v i : Int) ((s.mc m).gb 1)) g.src := by
  induction ps with
  | nil => exact .done _
  | cons p ps ih =>
    exact shifted_cons (q := []) hpath hafter (hv p List.mem_cons_self)
      (ih fun i hi => hv i (List.mem_cons_of_mem p hi))

/-- A shifted run takes its whole path once, and before the later characters the SHIFT alone (R254, R256). -/
theorem shifted_of_path {cur p : Nat} {ps : List Nat} {q : List Hop} {v : Nat → Nat}
    (hpath : s.path cur m = .ok (q ++ [g])) (hk : g.kind = .shift) (hv : ∀ i ∈ p :: ps, s.value m i = .ok (v i)) :
    Shifted s m cur (p :: ps)
      (pathCode q ++ (p :: ps).flatMap fun i => hopCode g ++ bitsOf (v i : Int) ((s.mc m).gb 1)) g.src := by
  obtain ⟨hafter, hagain⟩ := shift_again hpath hk
  exact shifted_cons hpath hafter (hv p List.mem_cons_self)
    (shifted_again hagain hafter fun i hi => hv i (List.mem_cons_of_mem p hi))

end ShiftedRun

/-- Settles O42: EMIT is the rules' runs, and each spelled-out run is built from its rule. -/
theorem plainRunEmission : Obligations.PlainRunEmission := by
  refine fun s => ⟨fun h => ?_, fun tags b h => emit_eq_ok_iff_runsEmitted h, fun m k h hplain => ⟨?_, ?_⟩⟩
  · exact (emit_eq_ok_iff_runsEmitted h).2 ⟨[], s.initMode, .done _, rfl⟩
  · rintro rfl d hd
    exact emit_of_runEmitted h (.stay ⟨s.initMode, 0, k + 1⟩ d hplain hd)
  · refine fun hm q g hpath => ⟨fun hk d hd => ?_, fun hk v hv => ?_⟩
    · exact emit_of_runEmitted h (.latch _ ⟨m, 0, k + 1⟩ q g d hplain hm hpath hk hd)
    · have hrange : List.range' 0 (k + 1 - 0) = 0 :: List.range' 1 k := rfl
      have hshifted := shifted_of_path (p := 0) (ps := List.range' 1 k) hpath hk fun i hi => hv i (by
        rw [← hrange, List.mem_range'_1] at hi
        omega)
      rw [← hrange] at hshifted
      rw [List.range_eq_range']
      exact emit_of_runEmitted h (.shift _ _ ⟨m, 0, k + 1⟩ q g _ hplain hm hpath hk hshifted)

section CountedRun

variable {s : State} {m b : Nat} {d rest : Bits}

/-- The last chunk of a run whose mode is current (R257). -/
theorem chunks_last_stay {a : Nat} (hab : a < b) (hb : b ≤ a + (s.mc m).chunkMax)
    (hd : s.dataCodes m a b (s.mc m).gn = .ok d) : Chunks s m b m a (countHeader (s.mc m) (b - a) ++ d) m := by
  rw [← List.append_nil (_ ++ d)]
  exact .stay a b m d [] hab (Nat.min_eq_right hb).symm hd (.done m b le_rfl)

/-- The last chunk of a run whose mode is entered (R257). -/
theorem chunks_last_enter {cur a last : Nat} {q : List Hop} {g : Hop} (hab : a < b) (hb : b ≤ a + (s.mc m).chunkMax)
    (hm : m ≠ cur) (hpath : s.path cur m = .ok (q ++ [g])) (hafter : modeAfter g = last)
    (hd : s.dataCodes m a b (s.mc m).gn = .ok d) :
    Chunks s m b cur a (pathCode (q ++ [g]) ++ countHeader (s.mc m) (b - a) ++ d) last := by
  rw [← List.append_nil (_ ++ d)]
  exact .enter cur a b _ q g d [] hab hm (Nat.min_eq_right hb).symm hpath hd (hafter ▸ .done _ b le_rfl)

variable {last : Nat} (hb : (s.mc m).chunkMax < b) (hd : s.dataCodes m 0 (s.mc m).chunkMax (s.mc m).gn = .ok d)
include hb hd

/-- A full first chunk of a run whose mode is current (R257). -/
theorem chunks_full_stay (hrest : Chunks s m b m (s.mc m).chunkMax rest last) :
    Chunks s m b m 0 (countHeader (s.mc m) (s.mc m).chunkMax ++ d ++ rest) last :=
  .stay 0 (s.mc m).chunkMax last d rest (by omega) (by omega) hd hrest

/-- A full first chunk of a run whose mode is entered (R257). -/
theorem chunks_full_enter {cur mid : Nat} {q : List Hop} {g : Hop} (hm : m ≠ cur)
    (hpath : s.path cur m = .ok (q ++ [g])) (hafter : modeAfter g = mid)
    (hrest : Chunks s m b mid (s.mc m).chunkMax rest last) :
    Chunks s m b cur 0 (pathCode (q ++ [g]) ++ countHeader (s.mc m) (s.mc m).chunkMax ++ d ++ rest) last :=
  .enter cur 0 (s.mc m).chunkMax last q g d rest (by omega) hm (by omega) hpath hd (hafter ▸ hrest)

end CountedRun

/-- Settles O43: one chunk, or a full chunk and a last one, each entered as its path says. -/
theorem countedRunEmission : Obligations.CountedRunEmission := by
  refine fun s m k h hcount => ⟨fun hone d hd => ⟨?_, fun hm q g hpath => ?_⟩, fun hfull htwo d e hd he =>
    ⟨?_, fun hm q g hpath => ⟨fun hk => ?_, fun hk => ?_⟩⟩⟩
  · rintro rfl
    exact emit_of_chunks h hcount (chunks_last_stay (Nat.succ_pos k) (by omega) hd)
  · exact emit_of_chunks h hcount (chunks_last_enter (Nat.succ_pos k) (by omega) hm hpath rfl hd)
  · rintro rfl
    exact emit_of_chunks h hcount (chunks_full_stay hfull hd (chunks_last_stay hfull (by omega) he))
  · have hafter := modeAfter_latch hpath hk
    have hsecond := chunks_last_stay hfull (by omega) he
    have hemit := emit_of_chunks h hcount (chunks_full_enter hfull hd hm hpath hafter hsecond)
    simpa only [List.append_assoc] using hemit
  · obtain ⟨hafter, hagain⟩ := shift_again hpath hk
    have hsrc := src_last_ne_of_resolves (resolves_of_path hpath) hm.symm List.getLast?_concat
    have hsecond := chunks_last_enter (q := []) hfull (by omega) hsrc.symm hagain hafter he
    have hemit := emit_of_chunks h hcount (chunks_full_enter hfull hd hm hpath hafter hsecond)
    simpa only [pathCode, List.flatMap_append, List.flatMap_singleton, List.append_assoc, List.nil_append] using hemit

end Sys2Proof.Proofs

/-! SUPPORT. The stream after an append, and the commands BS_APPEND and BUILD (43_bitstream.md R240 to R242, R245, R247,
R268; O39, O40). -/

namespace Sys2Proof.Proofs

open Sys2Proof Sys2Proof.Machine Sys2Proof.Laws Sys2Proof.Claims

/-! ### The stream (R13, R240, R241) -/

/-- Bit k of `Bits(v, w)` is bit `w-1-k` of the number (R13). -/
theorem getD_bitsOf (v : Nat) {w k : Nat} (hk : k < w) : (bitsOf (v : Int) w).getD k false = v.testBit (w - 1 - k) := by
  have hmod : ((v : Int) % 2 ^ w).toNat = v % 2 ^ w := by exact_mod_cast Int.toNat_natCast (v % 2 ^ w)
  rw [bitsOf, List.getD_eq_getElem _ _ (by simpa using hk), List.getElem_map, List.getElem_range, hmod,
    Nat.testBit_mod_two_pow, decide_eq_true (by omega), Bool.true_and]

section Stream

variable {s t : State} {b : Bits}

/-- The stream's bits depend on the memory alone. -/
theorem streamBit_congr (h : t.mem = s.mem) (k : Nat) : t.streamBit k = s.streamBit k := by
  rw [State.streamBit, State.streamBit, load_congr h]

theorem length_stream (s : State) : s.stream.length = s.bsLen.toNat := by
  rw [State.stream, List.length_map, List.length_range]

theorem getElem_stream {k : Nat} (hk : k < s.stream.length) : s.stream[k] = s.streamBit k := by
  simp only [State.stream, List.getElem_map, List.getElem_range]

/-- Streams of one length with the same bits are the same. -/
theorem stream_congr (hlen : t.bsLen = s.bsLen) (hbit : ∀ k, k < s.bsLen.toNat → t.streamBit k = s.streamBit k) :
    t.stream = s.stream := by
  rw [State.stream, State.stream, hlen]
  exact List.map_congr_left fun k hk => hbit k (List.mem_range.1 hk)

/-- The state that APPEND of a sequence leaves (R241). -/
def appended (s : State) (b : Bits) : State :=
  { s with mem := (s.putBits s.bsLen.toNat b).mem, bsLen := BitVec.ofNat 32 (s.bsLen.toNat + b.length) }

theorem append_of_fits (hmax : s.bsLen.toNat + b.length ≤ s.maxBits.toNat) (hbuf : s.bsLen.toNat + b.length ≤ 32768) :
    s.append b = .ok (appended s b) := by
  refine append_eq_ok.2 ⟨hmax, hbuf, ?_⟩
  rw [putBits_frame]
  rfl

/-- The symbology's maximum is checked first (R241). -/
theorem append_above_max (h : s.maxBits.toNat < s.bsLen.toNat + b.length) :
    s.append b = .error (mkErr .capacityExceeded 1 (min (s.bsLen.toNat + b.length) 0xFFFFFF)) :=
  require_bind_error (decide_eq_false (Nat.not_le.2 h)) ..

theorem append_above_buffer (hmax : s.bsLen.toNat + b.length ≤ s.maxBits.toNat)
    (h : 32768 < s.bsLen.toNat + b.length) :
    s.append b = .error (mkErr .capacityExceeded 2 (min (s.bsLen.toNat + b.length) 0xFFFFFF)) :=
  (require_bind_ok (decide_eq_true hmax) ..).trans (require_bind_error (decide_eq_false (Nat.not_le.2 h)) ..)

section Appended

variable (hmem : t.mem = (appended s b).mem)
include hmem

theorem streamBit_appended (hfit : s.bsLen.toNat + b.length ≤ 32768) (k : Nat) : t.streamBit k =
    if s.bsLen.toNat ≤ k ∧ k < s.bsLen.toNat + b.length then b.getD (k - s.bsLen.toNat) false else s.streamBit k :=
  (streamBit_congr (s := s.putBits s.bsLen.toNat b) hmem k).trans (streamBit_putBits s _ b k hfit)

/-- An append leaves the stream's old bits. -/
theorem streamBit_appended_old (hfit : s.bsLen.toNat + b.length ≤ 32768) {k : Nat} (hk : k < s.bsLen.toNat) :
    t.streamBit k = s.streamBit k := by
  rw [streamBit_appended hmem hfit, if_neg (by omega)]

theorem streamBit_appended_new (hfit : s.bsLen.toNat + b.length ≤ 32768) {k : Nat} (hk : k < b.length) :
    t.streamBit (s.bsLen.toNat + k) = b.getD k false := by
  rw [streamBit_appended hmem hfit, if_pos (by omega), Nat.add_sub_cancel_left]

/-- The stream after an append is the stream before it followed by the sequence (R241). -/
theorem stream_appended (hfit : s.bsLen.toNat + b.length ≤ 32768) (hlen : t.bsLen = (appended s b).bsLen) :
    t.stream = s.stream ++ b := by
  have hlen : t.bsLen.toNat = s.bsLen.toNat + b.length := by
    rw [hlen]
    exact Nat.mod_eq_of_lt (by omega)
  refine List.ext_getElem (by rw [List.length_append, length_stream, length_stream, hlen]) fun k hk hk' => ?_
  have hold := length_stream s
  rw [getElem_stream, List.getElem_append, streamBit_appended hmem hfit]
  rw [length_stream] at hk
  split
  · rw [dif_neg (by omega), ← hold, List.getD_eq_getElem]
  · rw [dif_pos (by omega), getElem_stream]

/-- An append leaves every byte outside the words it touches. -/
theorem appended_sameOutside {n : Nat} (hn : b.length = n) : SameOutside s t (0x18000 + 4 * (s.bsLen.toNat / 32))
    (0x18000 + 4 * ((s.bsLen.toNat + n + 31) / 32)) := by
  intro a ha
  subst hn
  calc t.loadByte a = (s.putBits s.bsLen.toNat b).loadByte a := by rw [State.loadByte, hmem]; rfl
    _ = s.loadByte a := loadByte_putBits_outside s _ b a ha

end Appended

end Stream

/-! ### BS_APPEND (R245) -/

section BsAppend

variable {s : State} {w : Nat}

/-- BS_APPEND is its checks, then APPEND of the low bits of OPA, then RES (R245). -/
theorem exec_bsAppend (s : State) (w : Nat) : exec (.bsAppend w) s = .next (s.finish (s.bsAppendCheck w >>= fun _ =>
    s.append (bitsOf s.opaN w) >>= fun t => pure (t.writeRes t.bsLen))) := rfl

theorem bsAppendCheck_width (h : 32 < w) : s.bsAppendCheck w = .error (mkErr .illegalOperand 3 0) :=
  require_bind_error (decide_eq_false (Nat.not_le.2 h)) ..

theorem checkBsLen_eq_error (h : 32768 < s.bsLen.toNat) : s.checkBsLen = .error (mkErr .illegalOperand 5 0x03C) :=
  require_eq_error.2 ⟨decide_eq_false (Nat.not_le.2 h), rfl⟩

theorem bsAppendCheck_length (hw : w ≤ 32) (h : 32768 < s.bsLen.toNat) :
    s.bsAppendCheck w = .error (mkErr .illegalOperand 5 0x03C) :=
  (require_bind_ok (decide_eq_true hw) ..).trans (checkBsLen_eq_error h)

/-- A refused append of BS_APPEND completes with its error; the length is below the cap of ERRINFO (R241). -/
theorem exec_bsAppend_of_append_error (hw : w ≤ 32) (hlen : s.bsLen.toNat ≤ 32768) {cls : Nat}
    (h : s.append (bitsOf s.opaN w) = .error (mkErr .capacityExceeded cls (min (s.bsLen.toNat + w) 0xFFFFFF))) :
    exec (.bsAppend w) s
      = .next (s.takeError (mkErr .capacityExceeded cls (s.bsLen.toNat + w))) := by
  rw [exec_of_check_ok (exec_bsAppend s w) (bsAppendCheck_eq_ok (u := ()) |>.2 ⟨hw, hlen⟩), h,
    Nat.min_eq_left (by omega)]
  rfl

/-- A BS_APPEND whose bits fit completes with the longer stream, its length in RES (R245). -/
theorem exec_bsAppend_of_fits (hw : w ≤ 32) (hmax : s.bsLen.toNat + w ≤ s.maxBits.toNat)
    (hbuf : s.bsLen.toNat + w ≤ 32768) : exec (.bsAppend w) s = .next (completedRes
      { s with mem := (appended s (bitsOf s.opaN w)).mem, bsLen := BitVec.ofNat 32 (s.bsLen.toNat + w) }
      (BitVec.ofNat 32 (s.bsLen.toNat + w))) := by
  have hcheck : s.bsAppendCheck w = .ok () := bsAppendCheck_eq_ok.2 ⟨hw, show s.bsLen.toNat ≤ 32768 by omega⟩
  have happ : s.append (bitsOf s.opaN w) = .ok (appended s (bitsOf s.opaN w)) :=
    append_of_fits (by rwa [length_bitsOf]) (by rwa [length_bitsOf])
  have hlen : (appended s (bitsOf s.opaN w)).bsLen = BitVec.ofNat 32 (s.bsLen.toNat + w) := by
    rw [appended, length_bitsOf]
  rw [exec_of_check_ok (exec_bsAppend s w) hcheck, happ, ← hlen]
  rfl

end BsAppend

/-- Settles O39: the checks in order, then the append of the bits of OPA. -/
theorem bsAppendCommand : Obligations.BsAppendCommand := by
  intro s w
  have hbits : (bitsOf s.opaN w).length = w := length_bitsOf _ w
  refine ⟨fun hw => exec_of_check_error (exec_bsAppend s w) (bsAppendCheck_width hw),
    fun hw hlen => exec_of_check_error (exec_bsAppend s w) (bsAppendCheck_length hw hlen),
    fun hw hlen hmax => exec_bsAppend_of_append_error (cls := 1) hw hlen ?_,
    fun hw hlen hmax hbuf => exec_bsAppend_of_append_error (cls := 2) hw hlen ?_, fun hw hmax hbuf => ?_⟩
  · have happ := append_above_max (s := s) (b := bitsOf s.opaN w) (by rwa [hbits])
    rwa [hbits] at happ
  · have happ := append_above_buffer (s := s) (b := bitsOf s.opaN w) (by rwa [hbits]) (by rwa [hbits])
    rwa [hbits] at happ
  · have hfit : s.bsLen.toNat + (bitsOf s.opaN w).length ≤ 32768 := by rwa [hbits]
    refine ⟨_, exec_bsAppend_of_fits hw hmax hbuf, fun k hk => streamBit_appended_old rfl hfit hk, fun k hk => ?_, ?_⟩
    · exact (streamBit_appended_new rfl hfit (hbits.symm ▸ hk)).trans (getD_bitsOf s.opaN hk)
    · exact appended_sameOutside (b := bitsOf s.opaN w) rfl hbits

/-! ### BUILD (R268) -/

section Build

variable {s : State}

/-- The first failing check of EMIT is the error it raises (R247). -/
theorem emitChecks_eq_error_of_checkError {code : BitVec 8} {info : Word} (h : CheckError s code info) :
    ∃ kind, s.emitChecks s.tags = .error { kind := kind, info := info } ∧ kind.code = code := by
  rcases h with ⟨hc, rfl, rfl⟩ | ⟨hc, k, hk, hlow, hcount, rfl, rfl⟩ | ⟨hc, htags, m, hm, hlow, hbad, rfl, rfl⟩
    | ⟨hc, htags, hmodes, k, hk, hlow, rfl, herr⟩
  · have herr : s.checkCfg = .error (mkErr .internalDefect 5 0xFF) := require_eq_error.2 ⟨decide_eq_false hc, rfl⟩
    exact ⟨.internalDefect, bind_eq_error.2 (.inl herr), rfl⟩
  · have herr := checkTags_tags_eq_error hk hlow hcount fun h => absurd h Bool.false_ne_true
    exact ⟨.internalDefect, bind_eq_error.2 (.inr ⟨(), checkCfg_eq_ok.2 hc, bind_eq_error.2 (.inl herr)⟩), rfl⟩
  · have herr : s.checkModes (List.range s.modeCount) = .error (mkErr .internalDefect 5 m) := by
      rw [List.range_eq_range', range'_eq_append (Nat.zero_le m) (by omega)]
      refine checkModes_eq_error (fun j hj => ?_) (Bool.eq_false_iff.2 fun hok => hbad (modeOk_iff.1 hok))
      rw [List.mem_range'_1] at hj
      exact modeOk_iff.2 (hlow j (by omega))
    exact ⟨.internalDefect, bind_eq_error.2 (.inr ⟨(), checkCfg_eq_ok.2 hc, bind_eq_error.2 (.inr
      ⟨(), checkTags_tags_eq_ok htags, bind_eq_error.2 (.inl herr)⟩)⟩), rfl⟩
  · have herr := checkAdmits_tags_eq_error hk hlow herr
    have hok : s.checkModes (List.range s.modeCount) = .ok () :=
      checkModes_eq_ok.2 fun m hm => modeOk_iff.2 (hmodes m (List.mem_range.1 hm))
    exact ⟨.invalidInput, bind_eq_error.2 (.inr ⟨(), checkCfg_eq_ok.2 hc, bind_eq_error.2 (.inr
      ⟨(), checkTags_tags_eq_ok htags, bind_eq_error.2 (.inr ⟨(), hok, herr⟩)⟩)⟩), rfl⟩

theorem exec_build_of_check_error {e : Err} (h : s.buildCheck = .error e) : exec .build s = .next (s.takeError e) := by
  show execBuild s = _
  rw [execBuild, h]

theorem buildCheck_chars (h : 4096 < s.nChars.toNat) : s.buildCheck = .error (mkErr .illegalOperand 5 0x034) :=
  require_bind_error (decide_eq_false (Nat.not_le.2 h)) ..

theorem buildCheck_length (hn : s.nChars.toNat ≤ 4096) (h : 32768 < s.bsLen.toNat) :
    s.buildCheck = .error (mkErr .illegalOperand 5 0x03C) :=
  (require_bind_ok (decide_eq_true hn) ..).trans (checkBsLen_eq_error h)

section Checked

variable (hn : s.nChars.toNat ≤ 4096) (hlen : s.bsLen.toNat ≤ 32768)
include hn hlen

theorem exec_build_of_ok {t : State} (h : s.buildWork = .ok t) : exec .build s = .next t.completeOk := by
  show execBuild s = _
  rw [execBuild, buildCheck_eq_ok (u := ()) |>.2 ⟨hn, hlen⟩, h]

/-- A BUILD that fails after its pre-checks keeps the stream (R341; log 5). -/
theorem exec_build_of_error {e : Err} (h : s.buildWork = .error e) : ∃ m k,
    let t := failed { s with mem := m, draws := k } e.kind.code e.info
    exec .build s = .next t ∧ t.stream = s.stream
      ∧ SameOutside s t (0x18000 + 4 * (s.bsLen.toNat / 32)) 0x19000 := by
  refine ⟨(s.forgetStreamFrom s.bsLen.toNat).mem, s.draws + 1, ?_, ?_, fun a ha => ?_⟩
  · show execBuild s = _
    rw [execBuild, buildCheck_eq_ok (u := ()) |>.2 ⟨hn, hlen⟩, h]
    rfl
  · exact stream_congr rfl fun k hk => (streamBit_congr (s := s.forgetStreamFrom s.bsLen.toNat) rfl k).trans
      (streamBit_forgetStreamFrom s _ k hk hlen)
  · exact loadByte_forgetStreamFrom_outside s s.bsLen.toNat a ha

end Checked

end Build

/-- Settles O40: the pre-checks, the append of EMIT of the tags, and the first error of the work. -/
theorem buildCommand : Obligations.BuildCommand := by
  refine fun s => ⟨fun hn => exec_build_of_check_error (buildCheck_chars hn),
    fun hn hlen => exec_build_of_check_error (buildCheck_length hn hlen), fun hn b hb hmax hbuf => ?_,
    fun hn hlen code info herr => ?_⟩
  · have hwork : s.buildWork = .ok ((appended s b).writeResNat b.length) :=
      bind_eq_ok.2 ⟨b, hb, bind_eq_ok.2 ⟨_, append_of_fits hmax hbuf, rfl⟩⟩
    exact ⟨(appended s b).mem, exec_build_of_ok hn (by omega) hwork, stream_appended rfl hbuf rfl,
      appended_sameOutside rfl rfl⟩
  · obtain ⟨kind, hwork, rfl⟩ : ∃ kind, s.buildWork = .error { kind := kind, info := info } ∧ kind.code = code := by
      rcases herr with hcheck | hemission | ⟨b, hb, hmax, rfl, rfl⟩ | ⟨b, hb, hmax, hbuf, rfl, rfl⟩
      · obtain ⟨kind, herr, hcode⟩ := emitChecks_eq_error_of_checkError hcheck
        exact ⟨kind, bind_eq_error.2 (.inl (bind_eq_error.2 (.inl herr))), hcode⟩
      · obtain ⟨kind, herr, hcode⟩ := emit_eq_error_of_emissionError hemission
        exact ⟨kind, bind_eq_error.2 (.inl herr), hcode⟩
      · exact ⟨.capacityExceeded, bind_eq_error.2 (.inr ⟨b, hb, bind_eq_error.2 (.inl (append_above_max hmax))⟩), rfl⟩
      · exact ⟨.capacityExceeded,
          bind_eq_error.2 (.inr ⟨b, hb, bind_eq_error.2 (.inl (append_above_buffer hmax hbuf))⟩), rfl⟩
    exact exec_build_of_error hn hlen hwork

end Sys2Proof.Proofs


/-! SUPPORT. The stages of a stuffed output (44_capacity.md R281 to R285): what one position adds to an output, and from
it the form of the output after the data, pad and fill stages. -/

namespace Sys2Proof.Proofs

open Sys2Proof Sys2Proof.Machine Sys2Proof.Laws Sys2Proof.Claims

/-! ### The stuffing test (R281) -/

section Test

variable {s : State} {w j : Nat} {b c : Bits} {o : Out}

theorem forcedAt_iff : forcedAt s w b j = true ↔ s.ctrl.getLsbD 2 = true ∧ j % w = w - 1
    ∧ ∀ i, i < w - 1 → b.getD (j - 1 - i) false = b.getD (j - 1) false := by
  simp only [forcedAt, Bool.and_eq_true, decide_eq_true_eq, List.all_eq_true, List.mem_range, beq_iff_eq, and_assoc]

/-- The test reads the bits before its position only. -/
theorem forcedAt_append (hj : j ≤ b.length) : forcedAt s w (b ++ c) j = forcedAt s w b j := by
  refine Bool.eq_iff_iff.2 ?_
  rw [forcedAt_iff, forcedAt_iff]
  refine and_congr_right fun _ => and_congr_right fun hlast => forall₂_congr fun i hi => ?_
  have hw : w - 1 ≤ j := hlast ▸ Nat.mod_le j w
  rw [List.getD_append _ _ _ _ (by omega), List.getD_append _ _ _ _ (by omega)]

theorem allEqual_iff {l : Bits} : allEqual l = true ↔ ∀ i, i < l.length → l.getD i false = l.getD 0 false := by
  cases l with
  | nil => simp [allEqual]
  | cons a l =>
    simp only [allEqual, List.all_eq_true, beq_iff_eq, List.getD_cons_zero]
    constructor
    · intro h i hi
      rw [List.getD_eq_getElem _ _ hi]
      obtain he | hm := List.mem_cons.1 (List.getElem_mem hi)
      · exact he
      · exact h _ hm
    · intro h x hx
      obtain ⟨i, hi, rfl⟩ := List.mem_iff_getElem.1 (List.mem_cons_of_mem a hx)
      rw [← List.getD_eq_getElem _ false hi]
      exact h i hi

/-- The engine's test is the test at the next position of its output. -/
theorem stuffHere_eq (s : State) (w : Nat) (o : Out) :
    o.stuffHere s.stuffEn w = forcedAt s w o.rbits.reverse o.rbits.length := by
  refine Bool.eq_iff_iff.2 ?_
  rw [forcedAt_iff, Out.stuffHere, Bool.and_eq_true, Bool.and_eq_true, decide_eq_true_eq, and_assoc, allEqual_iff]
  refine and_congr Iff.rfl (and_congr_right fun hlast => ?_)
  have hw : w - 1 ≤ o.rbits.length := hlast ▸ Nat.mod_le _ w
  rw [List.length_take, Nat.min_eq_left hw]
  refine forall₂_congr fun i hi => ?_
  have htake : ∀ k, k < w - 1 →
      (o.rbits.take (w - 1)).getD k false = o.rbits.reverse.getD (o.rbits.length - 1 - k) false := by
    intro k hk
    rw [List.getD_reverse _ (by omega), List.getD_eq_getElem _ _ (by rw [List.length_take]; omega), List.getElem_take,
      List.getD_eq_getElem _ _ (by omega)]
    congr 1
    omega
  rw [htake i hi, htake 0 (by omega), Nat.sub_zero]

/-- A width that SELECT and SPLIT accept (R292, R298). -/
def LegalWidth (s : State) (w : Nat) : Prop := 1 ≤ w ∧ w ≤ 16 ∧ ¬ (s.ctrl.getLsbD 2 = true ∧ w = 1)

/-- No position is forced at the start of a codeword of a legal width. -/
theorem forcedAt_start (h : LegalWidth s w) (hj : j % w = 0) : forcedAt s w b j = false := by
  obtain ⟨hw, -, hone⟩ := h
  refine Bool.eq_false_iff.2 fun hf => ?_
  obtain ⟨hen, hlast, -⟩ := forcedAt_iff.1 hf
  exact hone ⟨hen, by omega⟩

theorem forcedAt_of_disabled (h : s.ctrl.getLsbD 2 = false) : forcedAt s w b j = false := by
  rw [forcedAt, h, Bool.false_and, Bool.false_and]

end Test

/-! ### One position -/

/-- The bits of an output below a position that the rule did not force, in order (R282). -/
def freeBits (s : State) (w : Nat) (b : Bits) (l : Nat) : Bits :=
  ((List.range l).filter (fun j => !forcedAt s w b j)).map (fun j => b.getD j false)

/-- The positions of an output that the rule forces. -/
def forcedPositions (s : State) (w : Nat) (b : Bits) : List Nat := (List.range b.length).filter (forcedAt s w b)

/-- An output whose forced bits are complements, and counted (R281, R284). -/
structure Consistent (s : State) (w : Nat) (o : Out) : Prop where
  forced : ∀ j, j < o.rbits.length → forcedAt s w o.rbits.reverse j = true →
    o.rbits.reverse.getD j false = !o.rbits.reverse.getD (j - 1) false
  count : o.ins = (forcedPositions s w o.rbits.reverse).length

section Position

variable {s : State} {w l : Nat} {b c : Bits} {x : Bool} {o : Out}

theorem freeBits_append (hl : l ≤ b.length) : freeBits s w (b ++ c) l = freeBits s w b l := by
  unfold freeBits
  have hfilter : (List.range l).filter (fun j => !forcedAt s w (b ++ c) j)
      = (List.range l).filter (fun j => !forcedAt s w b j) := by
    refine List.filter_congr fun j hj => ?_
    have hj := List.mem_range.1 hj
    rw [forcedAt_append (by omega)]
  rw [hfilter]
  refine List.map_congr_left fun j hj => ?_
  have hj := List.mem_range.1 (List.mem_filter.1 hj).1
  exact List.getD_append _ _ _ _ (by omega)

/-- A position adds its bit to the free bits where the rule does not force it. -/
theorem freeBits_succ : freeBits s w (b ++ [x]) (b.length + 1)
    = freeBits s w b b.length ++ if forcedAt s w b b.length then [] else [x] := by
  rw [← freeBits_append (b := b) (c := [x]) le_rfl]
  unfold freeBits
  rw [List.range_succ, List.filter_append, List.map_append, List.filter_singleton, forcedAt_append le_rfl]
  cases forcedAt s w b b.length <;> simp

theorem forcedPositions_succ : forcedPositions s w (b ++ [x])
    = forcedPositions s w b ++ if forcedAt s w b b.length then [b.length] else [] := by
  unfold forcedPositions
  rw [List.length_append, List.length_singleton, List.range_succ, List.filter_append, List.filter_singleton,
    forcedAt_append le_rfl]
  refine congrArg₂ _ (List.filter_congr fun j hj => forcedAt_append (List.mem_range.1 hj).le) ?_
  cases forcedAt s w b b.length <;> rfl

theorem consistent_empty : Consistent s w { rbits := [], ins := 0 } := ⟨nofun, rfl⟩

end Position

section Step

variable {s : State} {w : Nat} {x : Bool} {o : Out} (hw : LegalWidth s w)
include hw

/-- A bit keeps an output consistent if it is the complement of the last, and counted, where the rule forces it. -/
theorem Consistent.cons (h : Consistent s w o) {n : Nat}
    (hx : o.stuffHere s.stuffEn w = true → x = !o.rbits.headD false ∧ n = o.ins + 1)
    (hn : o.stuffHere s.stuffEn w = false → n = o.ins) : Consistent s w { rbits := x :: o.rbits, ins := n } := by
  rw [stuffHere_eq] at hx hn
  have hlen : o.rbits.reverse.length = o.rbits.length := List.length_reverse
  refine ⟨fun j hj hf => ?_, ?_⟩
  · simp only [List.reverse_cons, List.length_cons] at hj hf ⊢
    rw [forcedAt_append (by omega)] at hf
    have hpos : j ≠ 0 := by
      rintro rfl
      rw [forcedAt_start hw (Nat.zero_mod w)] at hf
      cases hf
    rw [List.getD_append _ _ _ (j - 1) (by omega)]
    obtain hlt | rfl : j < o.rbits.length ∨ j = o.rbits.length := by omega
    · rw [List.getD_append _ _ _ _ (by omega)]
      exact h.forced j hlt hf
    · rw [List.getD_append_right _ _ _ _ hlen.le, hlen, Nat.sub_self, List.getD_cons_zero, (hx hf).1,
        List.getD_reverse _ (by omega), Nat.sub_self, List.headD_eq_getD]
  · simp only [List.reverse_cons]
    rw [forcedPositions_succ, List.length_append, ← h.count, hlen]
    cases hf : forcedAt s w o.rbits.reverse o.rbits.length with
    | false => exact hn hf
    | true => exact (hx hf).2

theorem Consistent.push (h : Consistent s w o) (hf : o.stuffHere s.stuffEn w = false) (x : Bool) :
    Consistent s w (o.push x) :=
  h.cons hw (fun ht => absurd (hf.symm.trans ht) Bool.false_ne_true) fun _ => rfl

theorem Consistent.stuff (h : Consistent s w o) (hf : o.stuffHere s.stuffEn w = true) : Consistent s w o.stuff :=
  h.cons hw (fun _ => ⟨rfl, rfl⟩) fun ht => absurd (ht.symm.trans hf) Bool.false_ne_true

theorem Consistent.pushOrStuff (h : Consistent s w o) (x : Bool) : Consistent s w (o.pushOrStuff s.stuffEn w x) := by
  unfold Out.pushOrStuff
  split
  next hf => exact h.stuff hw hf
  next hf => exact h.push hw (Bool.eq_false_iff.2 hf) x

/-- After a forced bit a codeword is complete, and the rule does not hold again at once (R282). -/
theorem stuffHere_stuff (hf : o.stuffHere s.stuffEn w = true) : o.stuff.stuffHere s.stuffEn w = false := by
  rw [stuffHere_eq] at hf ⊢
  obtain ⟨-, hlast, -⟩ := forcedAt_iff.1 hf
  obtain ⟨hpos, -, -⟩ := id hw
  refine forcedAt_start hw ?_
  rw [Out.stuff, List.length_cons, ← Nat.mod_add_mod, hlast, Nat.sub_add_cancel hpos, Nat.mod_self]

end Step

/-! ### The data stage (R282) -/

/-- One data bit: the forced bit first where the rule holds. -/
def takeBit (s : State) (w : Nat) (o : Out) (x : Bool) : Out :=
  (if o.stuffHere s.stuffEn w then o.stuff else o).push x

theorem stuffData_eq_foldl (s : State) (w : Nat) (o : Out) (bits : Bits) :
    stuffData s.stuffEn w o bits = bits.foldl (takeBit s w) o := by
  induction bits generalizing o with
  | nil => rfl
  | cons x bits ih => exact ih _

/-- An output of the data stage: the stream survives in it, and it ends with a data bit. -/
structure DataOutput (s : State) (w : Nat) (o : Out) (bits : Bits) : Prop where
  consistent : Consistent s w o
  free : freeBits s w o.rbits.reverse o.rbits.length = bits
  ends : o.rbits.length = 0 ∨ forcedAt s w o.rbits.reverse (o.rbits.length - 1) = false

section Data

variable {s : State} {w : Nat} {o : Out} {bits : Bits}

theorem freeBits_cons (o : Out) (x : Bool) : freeBits s w (x :: o.rbits).reverse (x :: o.rbits).length
    = freeBits s w o.rbits.reverse o.rbits.length ++ if o.stuffHere s.stuffEn w then [] else [x] := by
  have h := freeBits_succ (s := s) (w := w) (b := o.rbits.reverse) (x := x)
  rwa [List.length_reverse, ← List.reverse_cons, ← stuffHere_eq] at h

variable (hw : LegalWidth s w)
include hw

/-- A data bit where the rule does not hold. -/
theorem dataOutput_push (hc : Consistent s w o) (hfree : freeBits s w o.rbits.reverse o.rbits.length = bits)
    (hf : o.stuffHere s.stuffEn w = false) (x : Bool) : DataOutput s w (o.push x) (bits ++ [x]) := by
  refine ⟨hc.push hw hf x, ?_, .inr ?_⟩
  · rw [← hfree]
    exact (freeBits_cons o x).trans (by rw [hf]; rfl)
  · rw [stuffHere_eq] at hf
    rw [Out.push, List.reverse_cons, List.length_cons, Nat.add_sub_cancel, forcedAt_append List.length_reverse.ge, hf]

theorem dataOutput_takeBit (h : DataOutput s w o bits) (x : Bool) : DataOutput s w (takeBit s w o x) (bits ++ [x]) := by
  unfold takeBit
  split
  next hf =>
    refine dataOutput_push hw (h.consistent.stuff hw hf) ?_ (stuffHere_stuff hw hf) x
    refine (freeBits_cons o _).trans ?_
    rw [if_pos hf, List.append_nil, h.free]
  next hf => exact dataOutput_push hw h.consistent h.free (Bool.eq_false_iff.2 hf) x

theorem dataOutput_stuffData (bits : Bits) :
    DataOutput s w (stuffData s.stuffEn w { rbits := [], ins := 0 } bits) bits := by
  rw [stuffData_eq_foldl]
  induction bits using List.reverseRecOn with
  | nil => exact ⟨consistent_empty, rfl, .inl rfl⟩
  | append_singleton bits x ih =>
    rw [List.foldl_append]
    exact dataOutput_takeBit hw ih x

end Data

/-! ### The pad and fill stages (R283, R285) -/

/-- `n` positions of a pad or fill stage with the pattern `p`. -/
def patternOut (s : State) (w : Nat) (p : Nat → Bool) (o : Out) : Nat → Out
  | 0 => o
  | n + 1 => (patternOut s w p o n).pushOrStuff s.stuffEn w (p n)

/-- How many positions lie between a length and the next codeword boundary. -/
def padCount (w l : Nat) : Nat := (w - l % w) % w

section Pattern

variable {s : State} {w : Nat}

theorem patternOut_succ_first (p : Nat → Bool) (o : Out) (n : Nat) : patternOut s w p o (n + 1)
    = patternOut s w (fun i => p (i + 1)) (o.pushOrStuff s.stuffEn w (p 0)) n := by
  induction n with
  | zero => rfl
  | succ n ih => rw [patternOut, ih, patternOut]

theorem fillOut_eq (n k : Nat) (o : Out) : s.fillOut w n k o = patternOut s w (fun i => s.fillBit (k + i)) o n := by
  induction n generalizing k o with
  | zero => rfl
  | succ n ih =>
    rw [patternOut_succ_first, State.fillOut, ih]
    simp only [Nat.add_zero, Nat.add_assoc, Nat.add_comm 1]

theorem length_pushOrStuff (o : Out) (en : Bool) (x : Bool) :
    (o.pushOrStuff en w x).rbits.length = o.rbits.length + 1 := by
  unfold Out.pushOrStuff
  split <;> rfl

theorem length_patternOut (p : Nat → Bool) (o : Out) (n : Nat) :
    (patternOut s w p o n).rbits.length = o.rbits.length + n := by
  induction n with
  | zero => rfl
  | succ n ih => rw [patternOut, length_pushOrStuff, ih, Nat.add_assoc]

theorem padCount_lt (hw : 1 ≤ w) (l : Nat) : padCount w l < w := Nat.mod_lt _ hw

theorem padCount_of_boundary {l : Nat} (h : l % w = 0) : padCount w l = 0 := by
  rw [padCount, h, Nat.sub_zero, Nat.mod_self]

theorem padCount_succ {l : Nat} (hw : 1 ≤ w) (h : l % w ≠ 0) : padCount w l = padCount w (l + 1) + 1 := by
  have hlt : l % w < w := Nat.mod_lt l hw
  have hhere : padCount w l = w - l % w := Nat.mod_eq_of_lt (by omega)
  rw [hhere, padCount, ← Nat.mod_add_mod]
  obtain hr | hr : l % w + 1 = w ∨ l % w + 1 < w := by omega
  · rw [hr, Nat.mod_self, Nat.sub_zero, Nat.mod_self]
    omega
  · have hnext : (w - (l % w + 1)) % w = w - (l % w + 1) := Nat.mod_eq_of_lt (by omega)
    rw [Nat.mod_eq_of_lt hr, hnext]
    omega

theorem add_padCount_mod (hw : 1 ≤ w) (l : Nat) : (l + padCount w l) % w = 0 := by
  have hlt : l % w < w := Nat.mod_lt l hw
  rw [padCount, Nat.add_mod_mod, ← Nat.mod_add_mod, Nat.add_sub_cancel' hlt.le, Nat.mod_self]

theorem padOut_eq (hw : 1 ≤ w) {f k : Nat} {o : Out} (hf : padCount w o.rbits.length ≤ f) :
    s.padOut w f k o = patternOut s w (fun i => s.padBit (k + i)) o (padCount w o.rbits.length) := by
  induction f generalizing k o with
  | zero => rw [Nat.le_zero.1 hf]; rfl
  | succ f ih =>
    unfold State.padOut
    split
    next h => rw [padCount_of_boundary h]; rfl
    next h =>
      have hcount := padCount_succ hw h
      rw [ih (by rw [length_pushOrStuff]; omega), length_pushOrStuff, hcount, patternOut_succ_first]
      simp only [Nat.add_zero, Nat.add_assoc, Nat.add_comm 1]

/-- A stage only adds bits. -/
theorem patternOut_extends (p : Nat → Bool) (o : Out) (n : Nat) :
    ∃ c, (patternOut s w p o n).rbits.reverse = o.rbits.reverse ++ c := by
  induction n with
  | zero => exact ⟨[], (List.append_nil _).symm⟩
  | succ n ih =>
    obtain ⟨c, hc⟩ := ih
    unfold patternOut Out.pushOrStuff
    split
    · exact ⟨c ++ [_], by rw [Out.stuff, List.reverse_cons, hc, List.append_assoc]⟩
    · exact ⟨c ++ [_], by rw [Out.push, List.reverse_cons, hc, List.append_assoc]⟩

theorem consistent_patternOut {o : Out} (hw : LegalWidth s w) (h : Consistent s w o) (p : Nat → Bool) (n : Nat) :
    Consistent s w (patternOut s w p o n) := by
  induction n with
  | zero => exact h
  | succ n ih => exact ih.pushOrStuff hw (p n)

/-- A bit of a stage that the rule does not force is the pattern's; the index advances at forced bits too. -/
theorem getD_patternOut {p : Nat → Bool} {o : Out} {n i : Nat} (hi : i < n)
    (hf : forcedAt s w (patternOut s w p o n).rbits.reverse (o.rbits.length + i) = false) :
    (patternOut s w p o n).rbits.reverse.getD (o.rbits.length + i) false = p i := by
  induction n with
  | zero => cases hi
  | succ n ih =>
    have hlen : (patternOut s w p o n).rbits.reverse.length = o.rbits.length + n := by
      rw [List.length_reverse, length_patternOut]
    obtain ⟨c, hc⟩ := patternOut_extends (s := s) (w := w) (fun _ => p n) (patternOut s w p o n) 1
    have hstep : (patternOut s w p o (n + 1)).rbits.reverse = (patternOut s w p o n).rbits.reverse ++ c := hc
    obtain hlt | rfl := Nat.lt_succ_iff_lt_or_eq.1 hi
    · rw [hstep, forcedAt_append (by omega)] at hf
      rw [hstep, List.getD_append _ _ _ _ (by omega), ih hlt hf]
    · rw [hstep, ← hlen, forcedAt_append le_rfl, List.length_reverse, ← stuffHere_eq] at hf
      rw [patternOut, Out.pushOrStuff, hf, if_neg Bool.false_ne_true, Out.push, List.reverse_cons, ← hlen,
        List.getD_append_right _ _ _ _ le_rfl, Nat.sub_self, List.getD_cons_zero]

end Pattern

end Sys2Proof.Proofs

/-! SUPPORT. The outputs of SPLIT and SELECT have the form of the rules (44_capacity.md R282 to R286), and with stuffing
none of their codewords has equal bits (R287). -/

namespace Sys2Proof.Proofs

open Sys2Proof Sys2Proof.Machine Sys2Proof.Laws Sys2Proof.Claims

/-! ### The form of an output (R282 to R285) -/

section Output

variable {s : State} {w : Nat}

/-- The length of an output is that of the stream, the forced bits, and the free bits after the data stage (R284). -/
theorem length_of_freeBits {b : Bits} {l : Nat} (hl : l ≤ b.length) (hdata : freeBits s w b l = s.stream) :
    b.length = s.bsLen.toNat + (forcedPositions s w b).length
      + ((List.range b.length).filter (fun j => decide (l ≤ j) && !forcedAt s w b j)).length := by
  have hstream : ((List.range l).filter (fun j => !forcedAt s w b j)).length = s.bsLen.toNat := by
    rw [← length_stream, ← hdata, freeBits, List.length_map]
  have hforced := List.length_eq_length_filter_add (l := List.range b.length) (forcedAt s w b)
  have hbelow : (List.range l).filter (fun j => decide (l ≤ j) && !forcedAt s w b j) = [] :=
    List.filter_eq_nil_iff.2 fun j hj => by simp [List.mem_range.1 hj]
  have habove : ∀ n, ((List.range n).map (l + ·)).filter (fun j => decide (l ≤ j) && !forcedAt s w b j)
      = ((List.range n).map (l + ·)).filter (fun j => !forcedAt s w b j) := fun n =>
    List.filter_congr fun j hj => by
      obtain ⟨i, -, rfl⟩ := List.mem_map.1 hj
      simp
  have hsplit : List.range b.length = List.range l ++ (List.range (b.length - l)).map (l + ·) := by
    rw [← List.range_add, Nat.add_sub_cancel' hl]
  have hfree : ((List.range b.length).filter (fun j => !forcedAt s w b j)).length = s.bsLen.toNat
      + ((List.range b.length).filter (fun j => decide (l ≤ j) && !forcedAt s w b j)).length := by
    rw [hsplit, List.filter_append, List.filter_append, List.length_append, hbelow, habove, hstream, List.nil_append]
  rw [List.length_range] at hforced
  unfold forcedPositions
  omega

/-- A data stage, the pad to the codeword boundary and any number of fill positions. -/
theorem stuffedOutput_of_stages (hw : LegalWidth s w) {o : Out} (h : DataOutput s w o s.stream) (n : Nat) :
    let padOut := patternOut s w s.padBit o (padCount w o.rbits.length)
    let fillOut := patternOut s w s.fillBit padOut n
    StuffedOutput s w fillOut.rbits.reverse fillOut.ins o.rbits.length padOut.rbits.length := by
  intro padOut fillOut
  have hpadLen : padOut.rbits.length = o.rbits.length + padCount w o.rbits.length := length_patternOut ..
  have hfillLen : fillOut.rbits.length = padOut.rbits.length + n := length_patternOut ..
  obtain ⟨c, hc⟩ : ∃ c, padOut.rbits.reverse = o.rbits.reverse ++ c := patternOut_extends ..
  obtain ⟨d, hd⟩ : ∃ d, fillOut.rbits.reverse = padOut.rbits.reverse ++ d := patternOut_extends ..
  have hcons : Consistent s w fillOut := consistent_patternOut hw (consistent_patternOut hw h.consistent _ _) _ _
  have hdataLen := List.length_reverse (as := o.rbits)
  have hpadLen' := List.length_reverse (as := padOut.rbits)
  have hlen := List.length_reverse (as := fillOut.rbits)
  have hfromData : fillOut.rbits.reverse = o.rbits.reverse ++ (c ++ d) := by rw [hd, hc, List.append_assoc]
  have hfree : freeBits s w fillOut.rbits.reverse o.rbits.length = s.stream := by
    rw [hfromData, freeBits_append hdataLen.ge, h.free]
  refine ⟨by omega, ?_, hfree, by rw [hlen]; exact hcons.forced, fun j hlo hhi hf => ?_, fun j hlo hhi hf => ?_, ?_,
    hcons.count, ?_⟩
  case refine_1 =>
    rw [hfromData, forcedAt_append (by omega)]
    exact h.ends
  case refine_2 =>
    obtain ⟨i, rfl⟩ := Nat.exists_eq_add_of_le hlo
    rw [hd, forcedAt_append (by omega)] at hf
    rw [hd, List.getD_append _ _ _ _ (by omega), Nat.add_sub_cancel_left]
    exact getD_patternOut (by omega) hf
  case refine_3 =>
    obtain ⟨i, rfl⟩ := Nat.exists_eq_add_of_le hlo
    rw [Nat.add_sub_cancel_left]
    exact getD_patternOut (by omega) hf
  case refine_4 =>
    obtain ⟨hpos, -, -⟩ := hw
    rw [hpadLen]
    exact ⟨add_padCount_mod hpos _, Nat.add_lt_add_left (padCount_lt hpos _) _⟩
  case refine_5 =>
    rw [hcons.count]
    exact length_of_freeBits (by omega) hfree

/-- STUFF_PAD is the data stage and the pad to the codeword boundary (R282). -/
theorem padded_eq (hw : 1 ≤ w) :
    let o := stuffData s.stuffEn w { rbits := [], ins := 0 } s.stream
    padded s w = patternOut s w s.padBit o (padCount w o.rbits.length) := by
  refine (padOut_eq hw (padCount_lt hw _).le).trans ?_
  simp only [Nat.zero_add]

theorem stuffedOutput_filled (hw : LegalWidth s w) (n : Nat) :
    ∃ l, StuffedOutput s w (patternOut s w s.fillBit (padded s w) n).rbits.reverse
      (patternOut s w s.fillBit (padded s w) n).ins l (padded s w).rbits.length := by
  rw [padded_eq hw.1]
  exact ⟨_, stuffedOutput_of_stages hw (dataOutput_stuffData hw s.stream) n⟩

theorem stuffedOutput_padded (hw : LegalWidth s w) :
    ∃ l, StuffedOutput s w (padded s w).rbits.reverse (padded s w).ins l (padded s w).rbits.length :=
  stuffedOutput_filled hw 0

theorem length_padded_mod (hw : LegalWidth s w) : (padded s w).rbits.length % w = 0 := by
  obtain ⟨l, h⟩ := stuffedOutput_padded hw
  exact h.grid.1

end Output

section Chosen

variable {s : State} {ecc x : Nat}

/-- How many positions SELECT fills (R285). -/
def fillCount (s : State) (ecc x : Nat) : Nat :=
  if s.ctrl.getLsbD 3 = true then s.sizeCap x ecc / s.sizeW x * s.sizeW x - (padded s (s.sizeW x)).rbits.length else 0

theorem chosen_eq : chosen s ecc x = patternOut s (s.sizeW x) s.fillBit (padded s (s.sizeW x)) (fillCount s ecc x) := by
  unfold chosen fillCount
  split
  · rw [fillOut_eq]
    simp only [Nat.zero_add]
  · rfl

theorem length_chosen_of_unfilled (h : s.ctrl.getLsbD 3 = false) :
    (chosen s ecc x).rbits.length = (padded s (s.sizeW x)).rbits.length := by
  rw [chosen, h, if_neg Bool.false_ne_true]

variable (hw : WidthOk s x) (hfit : Fits s ecc x)
include hw hfit

/-- The fill ends at the last codeword boundary below the capacity (R285). -/
theorem length_chosen_of_filled (h : s.ctrl.getLsbD 3 = true) :
    (chosen s ecc x).rbits.length = s.sizeCap x ecc / s.sizeW x * s.sizeW x := by
  have hfit : (padded s (s.sizeW x)).rbits.length ≤ s.sizeCap x ecc := hfit
  have hgrid := Nat.div_mul_cancel (Nat.dvd_of_mod_eq_zero (length_padded_mod (s := s) hw))
  have hle : (padded s (s.sizeW x)).rbits.length ≤ s.sizeCap x ecc / s.sizeW x * s.sizeW x := by
    rw [← hgrid]
    exact Nat.mul_le_mul_right _ (Nat.div_le_div_right hfit)
  rw [chosen_eq, length_patternOut, fillCount, if_pos h, Nat.add_sub_cancel' hle]

/-- The output of a size that fits is whole codewords, no longer than the capacity (R293). -/
theorem length_chosen_bounds :
    (chosen s ecc x).rbits.length % s.sizeW x = 0 ∧ (chosen s ecc x).rbits.length ≤ s.sizeCap x ecc := by
  cases h : s.ctrl.getLsbD 3 with
  | false =>
    rw [length_chosen_of_unfilled h]
    exact ⟨length_padded_mod hw, hfit⟩
  | true =>
    rw [length_chosen_of_filled hw hfit h]
    exact ⟨Nat.mul_mod_left _ _, Nat.div_mul_le_self _ _⟩

omit hfit in
theorem stuffedOutput_chosen : ∃ l1, StuffedOutput s (s.sizeW x) (chosen s ecc x).rbits.reverse (chosen s ecc x).ins l1
    (padded s (s.sizeW x)).rbits.length := by
  rw [chosen_eq]
  exact stuffedOutput_filled hw _

end Chosen

/-! ### Codewords (R286, R287) -/

section Slices

variable {s : State} {w : Nat} {b : Bits}

theorem getD_slice {k i : Nat} (hi : i < w) (hk : k * w + w ≤ b.length) :
    ((b.drop (k * w)).take w).getD i false = b.getD (k * w + i) false := by
  rw [List.getD_eq_getElem _ _ (by rw [List.length_take, List.length_drop]; omega), List.getElem_take,
    List.getElem_drop, List.getD_eq_getElem]

theorem length_slice {k : Nat} (hk : k * w + w ≤ b.length) : ((b.drop (k * w)).take w).length = w := by
  rw [List.length_take, List.length_drop]
  omega

/-- The last bit of the k-th codeword of an output lies in the output. -/
theorem codeword_end_le {k : Nat} (hk : k < b.length / w) : k * w + w ≤ b.length :=
  calc k * w + w = (k + 1) * w := (Nat.succ_mul k w).symm
    _ ≤ b.length / w * w := Nat.mul_le_mul_right w hk
    _ ≤ b.length := Nat.div_mul_le_self _ _

/-- A sequence with two different bits has neither the least value nor the greatest. -/
theorem valOf_of_bits_ne {i j : Nat} (hi : i < b.length) (hj : j < b.length) (h : b.getD i false ≠ b.getD j false) :
    valOf b ≠ 0 ∧ valOf b ≠ 2 ^ b.length - 1 := by
  have hbit : ∀ k, k < b.length → (valOf b).testBit (b.length - 1 - k) = b.getD k false := fun k hk => by
    rw [testBit_valOf b k hk, List.getD_eq_getElem]
  rw [← hbit i hi, ← hbit j hj] at h
  refine ⟨fun h0 => h ?_, fun h1 => h ?_⟩
  · rw [h0, Nat.zero_testBit, Nat.zero_testBit]
  · rw [h1, Nat.testBit_two_pow_sub_one, Nat.testBit_two_pow_sub_one, decide_eq_true (by omega),
      decide_eq_true (by omega)]

/-- With stuffing the bits of a codeword are not all equal: the last is forced where the others are (R287). -/
theorem exists_bits_ne {ins l1 l2 k : Nat} (hen : s.ctrl.getLsbD 2 = true) (hw : 2 ≤ w)
    (h : StuffedOutput s w b ins l1 l2) (hk : k * w + w ≤ b.length) :
    ∃ i, i < w ∧ ∃ j, j < w ∧ b.getD (k * w + i) false ≠ b.getD (k * w + j) false := by
  have hlast : (k * w + (w - 1)) % w = w - 1 := by
    rw [Nat.mul_comm, Nat.mul_add_mod, Nat.mod_eq_of_lt (by omega)]
  have hprev : k * w + (w - 1) - 1 = k * w + (w - 2) := by omega
  cases hf : forcedAt s w b (k * w + (w - 1)) with
  | true =>
    refine ⟨w - 1, by omega, w - 2, by omega, ?_⟩
    rw [h.forced _ (by omega) hf, hprev]
    exact Bool.not_ne_self _
  | false =>
    by_contra hall
    push Not at hall
    refine absurd (forcedAt_iff.2 ⟨hen, hlast, fun i hi => ?_⟩) (Bool.eq_false_iff.1 hf)
    rw [hprev, Nat.add_sub_assoc (by omega)]
    exact hall _ (by omega) _ (by omega)

theorem codeword_not_allEqual {ins l1 l2 k : Nat} (hen : s.ctrl.getLsbD 2 = true) (hw : 2 ≤ w)
    (h : StuffedOutput s w b ins l1 l2) (hk : k < b.length / w) :
    valOf ((b.drop (k * w)).take w) ≠ 0 ∧ valOf ((b.drop (k * w)).take w) ≠ 2 ^ w - 1 := by
  have hend := codeword_end_le hk
  have hlen := length_slice hend
  obtain ⟨i, hi, j, hj, hne⟩ := exists_bits_ne hen hw h hend
  rw [← getD_slice hi hend, ← getD_slice hj hend] at hne
  have hval := valOf_of_bits_ne (hlen.symm ▸ hi) (hlen.symm ▸ hj) hne
  rwa [hlen] at hval

/-- Without stuffing nothing is forced: the data stage is the stream itself. -/
theorem stuffedOutput_disabled {ins l1 l2 : Nat} (hen : s.ctrl.getLsbD 2 = false) (h : StuffedOutput s w b ins l1 l2) :
    ins = 0 ∧ l1 = s.bsLen.toNat ∧ ∀ j, j < l1 → b.getD j false = s.streamBit j := by
  have hnone : ∀ j, forcedAt s w b j = false := fun j => forcedAt_of_disabled hen
  have hdata := h.data
  simp only [hnone, Bool.not_false, List.filter_true] at hdata
  have hl : l1 = s.bsLen.toNat := by
    rw [← length_stream, ← hdata, List.length_map, List.length_range]
  refine ⟨?_, hl, fun j hj => ?_⟩
  · rw [h.count, List.filter_eq_nil_iff.2 fun j _ => Bool.eq_false_iff.1 (hnone j), List.length_nil]
  · have hj' : j < s.stream.length := by rw [length_stream]; omega
    rw [← getElem_stream hj']
    simp only [← hdata, List.getElem_map, List.getElem_range]

end Slices

/-! ### A choice in T.CW (R286, R290, R292, R298) -/

section Store

variable {s : State} {c : Choice}

theorem length_codewords_of_choice (c : Choice) : (codewords c.w c.bits).length = c.count := by
  rw [length_codewords, Choice.bits, List.length_reverse, Choice.count]

/-- The codewords of a choice read back from T.CW. -/
theorem tCw_of_choice {t : State} (ht : t.mem = (s.storeChoice c).mem) (hw : c.w ≤ 16) (hd : c.count ≤ 4096) {k : Nat}
    (hk : k < c.count) : t.tCw k = valOf ((c.out.rbits.reverse.drop (k * c.w)).take c.w) := by
  have hlen := length_codewords_of_choice c
  have hget : (codewords c.w c.bits)[k]'(by omega) = valOf ((c.bits.drop (k * c.w)).take c.w) := by
    simp only [codewords, List.getElem_map, List.getElem_range]
  have hlt : valOf ((c.bits.drop (k * c.w)).take c.w) < 65536 :=
    calc valOf ((c.bits.drop (k * c.w)).take c.w) < 2 ^ ((c.bits.drop (k * c.w)).take c.w).length := valOf_lt _
      _ ≤ 2 ^ 16 := Nat.pow_le_pow_right (by decide) ((List.length_take_le ..).trans hw)
  calc t.tCw k = (s.storeNats cwBase (codewords c.w c.bits)).tCw k := congrArg BitVec.toNat (load_congr ht _)
    _ = (codewords c.w c.bits)[k] := entry_storeNats_of_lt (by omega) (fieldMask_cw (by omega)) (hget ▸ hlt)
    _ = valOf ((c.bits.drop (k * c.w)).take c.w) := hget

theorem storeChoice_sameOutside {t : State} (ht : t.mem = (s.storeChoice c).mem) :
    SameOutside s t 0x20000 (0x20000 + 4 * c.count) := fun a ha =>
  calc t.loadByte a = (s.storeNats cwBase (codewords c.w c.bits)).loadByte a := by rw [State.loadByte, ht]; rfl
    _ = s.loadByte a := storeNats_sameOutside s (length_codewords_of_choice c) a ha

end Store

end Sys2Proof.Proofs

/-! SUPPORT. The search of SELECT (44_capacity.md R291, R292, R294): which sizes it goes past, stops at or takes, and
the state it completes with (O48 to O52). -/

namespace Sys2Proof.Proofs

open Sys2Proof Sys2Proof.Machine Sys2Proof.Laws Sys2Proof.Claims

/-! ### One size (R292, R294) -/

/-- The output of size x has more codewords than the size or the buffer holds (R294). -/
def TooLarge (s : State) (ecc x : Nat) : Prop :=
  s.sizeTotal x < (chosen s ecc x).rbits.length / s.sizeW x ∨ 4096 < (chosen s ecc x).rbits.length / s.sizeW x

/-- SELECT stops at size x with INTERNAL_DEFECT (R294). -/
def Defective (s : State) (ecc x : Nat) : Prop := s.sizeW x ≠ 0 ∧ (¬ WidthOk s x ∨ (Fits s ecc x ∧ TooLarge s ecc x))

/-- SELECT takes size x (R292). -/
structure Accepted (s : State) (ecc x : Nat) : Prop where
  width : WidthOk s x
  fits : Fits s ecc x
  small : ¬ TooLarge s ecc x

/-- What SELECT writes for size x (R292). -/
def choiceOf (s : State) (ecc x : Nat) : Choice :=
  { size := BitVec.ofNat 32 x, w := s.sizeW x
    ec := s.sizeTotal x - (chosen s ecc x).rbits.length / s.sizeW x, out := chosen s ecc x }

section Size

variable {s : State} {ecc x : Nat}

theorem skipped_or_defective_or_accepted (s : State) (ecc x : Nat) :
    Skipped s ecc x ∨ Defective s ecc x ∨ Accepted s ecc x := by
  by_cases h0 : s.sizeW x = 0
  · exact .inl (.inl h0)
  by_cases hw : WidthOk s x
  · by_cases hfit : Fits s ecc x
    · by_cases hbig : TooLarge s ecc x
      · exact .inr (.inl ⟨h0, .inr ⟨hfit, hbig⟩⟩)
      · exact .inr (.inr ⟨hw, hfit, hbig⟩)
    · exact .inl (.inr ⟨hw, hfit⟩)
  · exact .inr (.inl ⟨h0, .inl hw⟩)

theorem Accepted.not_skipped (h : Accepted s ecc x) : ¬ Skipped s ecc x := by
  obtain ⟨hpos, -, -⟩ := h.width
  rintro (h0 | ⟨-, hfit⟩)
  · omega
  · exact hfit h.fits

theorem badWidth_iff (h0 : s.sizeW x ≠ 0) :
    (s.sizeW x > 16 ∨ (s.stuffEn = true ∧ s.sizeW x = 1)) ↔ ¬ WidthOk s x := by
  refine ⟨fun hbad hw => ?_, fun hw => ?_⟩
  · obtain ⟨-, hle, hone⟩ := hw
    exact hbad.elim (Nat.not_lt.2 hle) hone
  · by_contra hbad
    obtain ⟨hle, hone⟩ := not_or.1 hbad
    exact hw ⟨Nat.one_le_iff_ne_zero.2 h0, Nat.not_lt.1 hle, hone⟩

theorem trySize_of_widthOk (hw : WidthOk s x) : s.trySize ecc s.stream x =
    if (padded s (s.sizeW x)).rbits.length > s.sizeCap x ecc then .ok none
    else if (choiceOf s ecc x).count > s.sizeTotal x ∨ (choiceOf s ecc x).count > cwMax then .error (sizeDefect x)
    else .ok (some (choiceOf s ecc x)) := by
  have h0 : s.sizeW x ≠ 0 := Nat.one_le_iff_ne_zero.1 hw.1
  unfold State.trySize
  dsimp only
  rw [if_neg h0, if_neg fun hbad => (badWidth_iff h0).1 hbad hw]
  rfl

theorem trySize_of_skipped (h : Skipped s ecc x) : s.trySize ecc s.stream x = .ok none := by
  rcases h with h0 | ⟨hw, hfit⟩
  · exact if_pos h0
  · rw [trySize_of_widthOk hw, if_pos (Nat.not_le.1 hfit)]

theorem trySize_of_defective (h : Defective s ecc x) : s.trySize ecc s.stream x = .error (sizeDefect x) := by
  obtain ⟨h0, hwhy⟩ := h
  by_cases hw : WidthOk s x
  · obtain ⟨hfit, hbig⟩ := hwhy.resolve_left (not_not_intro hw)
    rw [trySize_of_widthOk hw, if_neg (Nat.not_lt.2 hfit)]
    exact if_pos hbig
  · exact (if_neg h0).trans (if_pos ((badWidth_iff h0).2 hw))

theorem trySize_of_accepted (h : Accepted s ecc x) : s.trySize ecc s.stream x = .ok (some (choiceOf s ecc x)) := by
  rw [trySize_of_widthOk h.width, if_neg (Nat.not_lt.2 h.fits)]
  exact if_neg h.small

end Size

/-! ### The scan (R291) -/

/-- The scan of SELECT reaches size x (R291, R292). -/
structure Reached (s : State) (ecc : Nat) (fixed : Bool) (minSize x : Nat) : Prop where
  considered : Considered s fixed minSize x
  earlier : ∀ y, minSize ≤ y → y < x → Skipped s ecc y

section Scan

variable {s : State} {ecc minSize x : Nat} {fixed : Bool}

theorem scanSizes_append {pre : List Nat} (hpre : ∀ y ∈ pre, Skipped s ecc y) (post : List Nat) :
    s.scanSizes ecc s.stream (pre ++ post) = s.scanSizes ecc s.stream post := by
  induction pre with
  | nil => rfl
  | cons y pre ih =>
    obtain ⟨hy, hpre⟩ := List.forall_mem_cons.1 hpre
    rw [List.cons_append, State.scanSizes, trySize_of_skipped hy]
    exact ih hpre

theorem considered_of_mem (hready : SelectReady s minSize) (h : x ∈ s.sizesTried fixed minSize) :
    Considered s fixed minSize x := by
  obtain ⟨hmin, -, -⟩ := hready
  cases fixed with
  | true =>
    obtain rfl : x = minSize := List.mem_singleton.1 h
    exact ⟨le_rfl, hmin, fun _ => rfl⟩
  | false =>
    have hx := List.mem_range'_1.1 h
    exact ⟨hx.1, by omega, nofun⟩

theorem sizesTried_split (h : Considered s fixed minSize x) :
    ∃ pre post, s.sizesTried fixed minSize = pre ++ x :: post ∧ ∀ y ∈ pre, minSize ≤ y ∧ y < x := by
  obtain ⟨hmin, hx, hfixed⟩ := h
  cases fixed with
  | true =>
    obtain rfl := hfixed rfl
    exact ⟨[], [], rfl, nofun⟩
  | false =>
    refine ⟨_, _, range'_eq_append hmin (k := s.sizeCount.toNat - minSize) (by omega), fun y hy => ?_⟩
    have hy := List.mem_range'_1.1 hy
    omega

theorem scanSizes_reached (h : Reached s ecc fixed minSize x) :
    ∃ post, s.scanSizes ecc s.stream (s.sizesTried fixed minSize) = s.scanSizes ecc s.stream (x :: post) := by
  obtain ⟨pre, post, hsplit, hpre⟩ := sizesTried_split h.considered
  exact ⟨post, hsplit ▸ scanSizes_append (fun y hy => h.earlier y (hpre y hy).1 (hpre y hy).2) _⟩

theorem scanSizes_of_skipped (hready : SelectReady s minSize)
    (h : ∀ x, Considered s fixed minSize x → Skipped s ecc x) :
    s.scanSizes ecc s.stream (s.sizesTried fixed minSize) = .error (mkErr .capacityExceeded 3 s.bsLenN) := by
  rw [← List.append_nil (s.sizesTried fixed minSize),
    scanSizes_append (fun y hy => h y (considered_of_mem hready hy))]
  rfl

theorem scanSizes_of_defective (hx : Reached s ecc fixed minSize x) (h : Defective s ecc x) :
    s.scanSizes ecc s.stream (s.sizesTried fixed minSize) = .error (sizeDefect x) := by
  obtain ⟨post, hscan⟩ := scanSizes_reached hx
  rw [hscan, State.scanSizes, trySize_of_defective h]

theorem scanSizes_of_accepted (hx : Reached s ecc fixed minSize x) (h : Accepted s ecc x) :
    s.scanSizes ecc s.stream (s.sizesTried fixed minSize) = .ok (choiceOf s ecc x) := by
  obtain ⟨post, hscan⟩ := scanSizes_reached hx
  rw [hscan, State.scanSizes, trySize_of_accepted h]

/-- Either every size is skipped, or the scan reaches one that is not. -/
theorem skipped_or_reached (s : State) (ecc : Nat) (fixed : Bool) (minSize : Nat) :
    (∀ x, Considered s fixed minSize x → Skipped s ecc x)
      ∨ ∃ x, Reached s ecc fixed minSize x ∧ ¬ Skipped s ecc x := by
  classical
  by_cases h : ∃ x, Considered s fixed minSize x ∧ ¬ Skipped s ecc x
  · obtain ⟨hcons, hskip⟩ := Nat.find_spec h
    refine .inr ⟨Nat.find h, ⟨hcons, fun y hmin hy => ?_⟩, hskip⟩
    obtain ⟨hle, hlt, hfixed⟩ := hcons
    by_contra hy'
    exact Nat.find_min h hy ⟨⟨hmin, hy.trans hlt, fun hf => by have := hfixed hf; omega⟩, hy'⟩
  · refine .inl fun x hx => ?_
    by_contra hskip
    exact h ⟨x, hx, hskip⟩

end Scan

/-! ### The command (R292) -/

/-- The state of a SELECT that took size x. -/
def selected (s : State) (ecc x : Nat) : State :=
  ((s.storeChoice (choiceOf s ecc x)).writeRes (BitVec.ofNat 32 x)).completeOk

section Command

variable {s t : State} {ecc minSize x : Nat} {fixed : Bool}

theorem selectCheck_ok (h : SelectReady s minSize) : s.selectCheck minSize = .ok () := selectCheck_eq_ok.2 h

theorem selectCheck_minSize (h : s.sizeCount.toNat ≤ minSize) :
    s.selectCheck minSize = .error (mkErr .illegalOperand 3 0) :=
  require_bind_error (decide_eq_false (Nat.not_lt.2 h)) ..

theorem selectCheck_sizeCount (hmin : minSize < s.sizeCount.toNat) (h : 32 < s.sizeCount.toNat) :
    s.selectCheck minSize = .error (mkErr .illegalOperand 5 0x044) :=
  (require_bind_ok (decide_eq_true hmin) ..).trans (require_bind_error (decide_eq_false (Nat.not_le.2 h)) ..)

theorem selectCheck_length (hmin : minSize < s.sizeCount.toNat) (hcount : s.sizeCount.toNat ≤ 32)
    (h : 32768 < s.bsLen.toNat) : s.selectCheck minSize = .error (mkErr .illegalOperand 5 0x03C) :=
  (require_bind_ok (decide_eq_true hmin) ..).trans
    ((require_bind_ok (decide_eq_true hcount) ..).trans (checkBsLen_eq_error h))

theorem exec_select_of_check_error {e : Err} (h : s.selectCheck minSize = .error e) :
    exec (.select ecc fixed minSize) s = .next (s.takeError e) := by
  show execSelect ecc fixed minSize s = _
  rw [execSelect, h]

section Ready

variable (hready : SelectReady s minSize)
include hready

theorem exec_select_of_scan_error {e : Err}
    (h : s.scanSizes ecc s.stream (s.sizesTried fixed minSize) = .error e) :
    exec (.select ecc fixed minSize) s = .next (s.clearSel.takeError e) := by
  show execSelect ecc fixed minSize s = _
  rw [execSelect, selectCheck_ok hready, h]

theorem exec_select_of_accepted (hx : Reached s ecc fixed minSize x) (h : Accepted s ecc x) :
    exec (.select ecc fixed minSize) s = .next (selected s ecc x) := by
  show execSelect ecc fixed minSize s = _
  rw [execSelect, selectCheck_ok hready, scanSizes_of_accepted hx h]
  rfl

end Ready

/-- How a SELECT completes (R292). -/
inductive SelectOutcome (s : State) (ecc : Nat) (fixed : Bool) (minSize : Nat) : State → Prop where
  | refused (e : Err) : ¬ SelectReady s minSize → e.kind = .illegalOperand →
      SelectOutcome s ecc fixed minSize (s.takeError e)
  | exceeded : SelectReady s minSize → (∀ x, Considered s fixed minSize x → Skipped s ecc x) →
      SelectOutcome s ecc fixed minSize (s.clearSel.takeError (mkErr .capacityExceeded 3 s.bsLenN))
  | defect (x : Nat) : SelectReady s minSize → Reached s ecc fixed minSize x → Defective s ecc x →
      SelectOutcome s ecc fixed minSize (s.clearSel.takeError (sizeDefect x))
  | accepted (x : Nat) : SelectReady s minSize → Reached s ecc fixed minSize x → Accepted s ecc x →
      SelectOutcome s ecc fixed minSize (selected s ecc x)

theorem exists_select_outcome (s : State) (ecc : Nat) (fixed : Bool) (minSize : Nat) :
    ∃ t, exec (.select ecc fixed minSize) s = .next t ∧ SelectOutcome s ecc fixed minSize t := by
  cases hcheck : s.selectCheck minSize with
  | error e =>
    have hready : ¬ SelectReady s minSize := fun h => by
      rw [selectCheck_ok h] at hcheck
      cases hcheck
    have hkind : e.kind = .illegalOperand := List.mem_singleton.1 ((selectCheck_raises s minSize).kind_mem e hcheck)
    exact ⟨_, exec_select_of_check_error hcheck, .refused e hready hkind⟩
  | ok =>
    have hready : SelectReady s minSize := selectCheck_eq_ok.1 hcheck
    obtain hskip | ⟨x, hx, hskip⟩ := skipped_or_reached s ecc fixed minSize
    · exact ⟨_, exec_select_of_scan_error hready (scanSizes_of_skipped hready hskip), .exceeded hready hskip⟩
    · obtain hdef | hacc := (skipped_or_defective_or_accepted s ecc x).resolve_left hskip
      · exact ⟨_, exec_select_of_scan_error hready (scanSizes_of_defective hx hdef), .defect x hready hx hdef⟩
      · exact ⟨_, exec_select_of_accepted hready hx hacc, .accepted x hready hx hacc⟩

theorem select_outcome (h : exec (.select ecc fixed minSize) s = .next t) : SelectOutcome s ecc fixed minSize t := by
  obtain ⟨u, hu, hout⟩ := exists_select_outcome s ecc fixed minSize
  cases hu.symm.trans h
  exact hout

/-- A SELECT that completes without an error took a size (R292). -/
theorem accepted_of_select (h : exec (.select ecc fixed minSize) s = .next t) (herr : t.status.err = false) :
    ∃ x, SelectReady s minSize ∧ Reached s ecc fixed minSize x ∧ Accepted s ecc x ∧ t = selected s ecc x := by
  cases select_outcome h with
  | refused | exceeded | defect => cases herr
  | accepted x hready hx hacc => exact ⟨x, hready, hx, hacc, rfl⟩

end Command

/-! ### The result registers (10_state.md R53, R293) -/

section Results

variable {s : State} {ecc minSize x : Nat} {fixed : Bool}

theorem tSize_lt (s : State) (x j : Nat) : s.tSize x j < 2 ^ 32 := BitVec.isLt _

theorem Reached.lt (hready : SelectReady s minSize) (hx : Reached s ecc fixed minSize x) : x < 32 := by
  obtain ⟨-, hcount, -⟩ := hready
  obtain ⟨-, hlt, -⟩ := hx.considered
  omega

theorem selSize_selected (hx : x < 32) : (selected s ecc x).selSize.toNat = x := Nat.mod_eq_of_lt (by omega)

theorem ecCw_selected : (selected s ecc x).ecCw.toNat = s.sizeTotal x - (choiceOf s ecc x).count :=
  Nat.mod_eq_of_lt ((Nat.sub_le _ _).trans_lt (tSize_lt s x 1))

variable (h : Accepted s ecc x)
include h

theorem Accepted.count_le : (choiceOf s ecc x).count ≤ s.sizeTotal x ∧ (choiceOf s ecc x).count ≤ 4096 := by
  obtain ⟨htotal, hbuf⟩ := not_or.1 h.small
  exact ⟨Nat.not_lt.1 htotal, Nat.not_lt.1 hbuf⟩

theorem selW_selected : (selected s ecc x).selW.toNat = s.sizeW x := by
  obtain ⟨-, hle, -⟩ := h.width
  exact Nat.mod_eq_of_lt (show s.sizeW x < 2 ^ 32 by omega)

theorem dataCw_selected : (selected s ecc x).dataCw.toNat = (choiceOf s ecc x).count := by
  obtain ⟨-, hle⟩ := h.count_le
  exact Nat.mod_eq_of_lt (by omega)

theorem stuffLen_selected : (selected s ecc x).stuffLen.toNat = (chosen s ecc x).rbits.length :=
  Nat.mod_eq_of_lt ((length_chosen_bounds h.width h.fits).2.trans_lt (tSize_lt s x (2 + ecc)))

end Results

end Sys2Proof.Proofs

/-! SUPPORT. What SELECT refuses and takes (44_capacity.md R292 to R296; O48 to O52). -/

namespace Sys2Proof.Proofs

open Sys2Proof Sys2Proof.Machine Sys2Proof.Laws Sys2Proof.Claims

/-- Settles O48: the scan takes the first size that fits, and its output has the form of the rules. -/
theorem selectFirstFit : Obligations.SelectFirstFit := by
  intro s ecc fixed minSize x hready hcons hearlier hw hfit htotal hbuf
  have hacc : Accepted s ecc x := ⟨hw, hfit, not_or.2 ⟨Nat.not_lt.2 htotal, Nat.not_lt.2 hbuf⟩⟩
  obtain ⟨l1, hout⟩ := stuffedOutput_chosen (ecc := ecc) hw
  obtain ⟨-, hle, -⟩ := id hw
  exact ⟨(s.storeChoice (choiceOf s ecc x)).mem, exec_select_of_accepted hready ⟨hcons, hearlier⟩ hacc,
    ⟨l1, _, hout, length_chosen_of_unfilled, length_chosen_of_filled hw hfit⟩,
    fun k hk => tCw_of_choice (c := choiceOf s ecc x) rfl hle hbuf hk,
    storeChoice_sameOutside (c := choiceOf s ecc x) rfl⟩

/-- Settles O49: the checks in order, then the two ways in which the scan fails. -/
theorem selectRefusals : Obligations.SelectRefusals := by
  refine fun s ecc fixed minSize => ⟨fun h => exec_select_of_check_error (selectCheck_minSize h),
    fun hmin h => exec_select_of_check_error (selectCheck_sizeCount hmin h),
    fun hmin hcount h => exec_select_of_check_error (selectCheck_length hmin hcount h),
    fun hready hskip => ?_, fun hready x hcons hearlier h0 hwhy => ?_⟩
  · rw [exec_select_of_scan_error hready (scanSizes_of_skipped hready hskip), mkErr, errInfoWord, State.bsLenN,
      BitVec.ofNat_toNat]
    rfl
  · exact exec_select_of_scan_error hready (scanSizes_of_defective ⟨hcons, hearlier⟩ ⟨h0, hwhy⟩)

/-- Settles O50: the length is whole codewords, and the counts are those of the size table. -/
theorem selectResults : Obligations.SelectResults := by
  intro s t ecc fixed minSize hexec herr
  obtain ⟨x, hready, hx, hacc, rfl⟩ := accepted_of_select hexec herr
  obtain ⟨hgrid, hcap⟩ := length_chosen_bounds hacc.width hacc.fits
  rw [stuffLen_selected hacc, dataCw_selected hacc, selW_selected hacc, ecCw_selected, selSize_selected (hx.lt hready)]
  exact ⟨(Nat.div_mul_cancel (Nat.dvd_of_mod_eq_zero hgrid)).symm, hcap, Nat.sub_add_cancel hacc.count_le.1⟩

/-- Settles O51: the size that the scan took is also the only one the forced path tries. -/
theorem automaticForcedAgree : Obligations.AutomaticForcedAgree := by
  intro s t ecc minSize hexec herr
  obtain ⟨x, hready, hx, hacc, rfl⟩ := accepted_of_select hexec herr
  obtain ⟨-, hlt, -⟩ := hx.considered
  obtain ⟨-, hcount, hlen⟩ := id hready
  rw [selSize_selected (hx.lt hready)]
  exact exec_select_of_accepted ⟨hlt, hcount, hlen⟩
    ⟨⟨le_rfl, hlt, fun _ => rfl⟩, fun y hle hy => absurd hle (Nat.not_le.2 hy)⟩ hacc

/-- A size that a level goes past, the next level goes past too, where its capacity is no larger (R296). -/
theorem skipped_next_level {s : State} {ecc x : Nat} (hcap : s.sizeCap x (ecc + 1) ≤ s.sizeCap x ecc)
    (h : Skipped s ecc x) : Skipped s (ecc + 1) x :=
  h.imp_right fun ⟨hw, hfit⟩ => ⟨hw, fun hnext => hfit (hnext.trans hcap)⟩

/-- Settles O52: what the lower level goes past, the higher one goes past. -/
theorem capacityMonotone : Obligations.CapacityMonotone := by
  intro s t u ecc minSize _ hcap ht hu htdef hudef
  have htout := select_outcome ht
  refine ⟨fun hok => ?_, fun hfull => ?_⟩
  · obtain ⟨x, hready, hx, hacc, rfl⟩ := accepted_of_select hu hok
    have hlt := hx.lt hready
    have hstop : ¬ Skipped s ecc x := fun h => hacc.not_skipped (skipped_next_level (hcap x hlt) h)
    cases htout with
    | refused e hnot => exact absurd hready hnot
    | exceeded _ hskip => exact absurd (hskip x hx.considered) hstop
    | defect => exact absurd rfl htdef
    | accepted y _ hy =>
      obtain ⟨hmin, -, -⟩ := hx.considered
      rw [selSize_selected (hy.lt hready), selSize_selected hlt]
      exact ⟨rfl, Nat.not_lt.1 fun h => hstop (hy.earlier x hmin h)⟩
  · cases htout with
    | refused e _ hkind =>
      rw [takeError_status_errCode, hkind] at hfull
      exact absurd hfull (by decide)
    | defect => exact absurd rfl htdef
    | accepted => exact absurd (show 0#8 = 2#8 from hfull) (by decide)
    | exceeded hready hskip =>
      cases select_outcome hu with
      | refused e hnot => exact absurd hready hnot
      | exceeded => rfl
      | defect => exact absurd rfl hudef
      | accepted x _ hx hacc =>
        exact absurd (skipped_next_level (hcap x (hx.lt hready)) (hskip x hx.considered)) hacc.not_skipped

end Sys2Proof.Proofs

/-! SUPPORT. SPLIT (44_capacity.md R298; O46, O47), and the codewords of both commands under stuffing (R287; O53). -/

namespace Sys2Proof.Proofs

open Sys2Proof Sys2Proof.Machine Sys2Proof.Laws Sys2Proof.Claims

/-! ### SPLIT (R298) -/

section Split

variable {s : State} {w : Nat}

theorem exec_split_of_check_error {e : Err} (h : s.splitCheck w = .error e) :
    exec (.split w) s = .next (s.takeError e) := by
  show execSplit w s = _
  rw [execSplit, h]

theorem splitCheck_width (h : w = 0 ∨ 16 < w ∨ (s.ctrl.getLsbD 2 = true ∧ w = 1)) :
    s.splitCheck w = .error (mkErr .illegalOperand 3 0) := by
  by_cases hrange : 1 ≤ w ∧ w ≤ 16
  · obtain ⟨hen, hone⟩ : s.stuffEn = true ∧ w = 1 := (h.resolve_left (by omega)).resolve_left (by omega)
    have hstuff : (!(s.stuffEn && decide (w = 1))) = false := by rw [hen, decide_eq_true hone]; rfl
    exact (require_bind_ok (decide_eq_true hrange) ..).trans (require_bind_error hstuff ..)
  · exact require_bind_error (decide_eq_false hrange) ..

variable (hw : LegalWidth s w)
include hw

theorem splitCheck_length (h : 32768 < s.bsLen.toNat) : s.splitCheck w = .error (mkErr .illegalOperand 5 0x03C) := by
  obtain ⟨hpos, hle, hone⟩ := hw
  have hstuff : (!(s.stuffEn && decide (w = 1))) = true := by
    rw [Bool.not_eq_true', Bool.eq_false_iff, ne_eq, Bool.and_eq_true, decide_eq_true_eq]
    exact hone
  exact (require_bind_ok (decide_eq_true ⟨hpos, hle⟩) ..).trans
    ((require_bind_ok hstuff ..).trans (checkBsLen_eq_error h))

variable (hlen : s.bsLen.toNat ≤ 32768)
include hlen

theorem splitCheck_ok : s.splitCheck w = .ok () := by
  obtain ⟨hpos, hle, hone⟩ := hw
  exact splitCheck_eq_ok.2 ⟨⟨hpos, hle⟩, hone, hlen⟩

theorem exec_split_of_exceeded (h : 4096 < (s.splitChoice w).count) :
    exec (.split w) s = .next (s.clearSel.takeError (mkErr .capacityExceeded 4 (s.splitChoice w).count)) := by
  show execSplit w s = _
  rw [execSplit, splitCheck_ok hw hlen]
  exact if_pos h

theorem exec_split_of_fits (h : (s.splitChoice w).count ≤ 4096) : exec (.split w) s
    = .next ((s.storeChoice (s.splitChoice w)).writeResNat (s.splitChoice w).count).completeOk := by
  show execSplit w s = _
  rw [execSplit, splitCheck_ok hw hlen]
  exact if_neg (Nat.not_lt.2 h)

end Split

/-- Settles O46: the checks in order, the buffer's bound, and the choice that is stored. -/
theorem splitCommand : Obligations.SplitCommand := by
  refine fun s w => ⟨fun hbad => exec_split_of_check_error (splitCheck_width hbad), fun hpos hle hone => ?_⟩
  have hw : LegalWidth s w := ⟨hpos, hle, hone⟩
  exact ⟨fun h => exec_split_of_check_error (splitCheck_length hw h),
    fun hlen h => exec_split_of_exceeded hw hlen h, fun hlen h =>
    ⟨(s.storeChoice (s.splitChoice w)).mem, exec_split_of_fits hw hlen h, stuffedOutput_padded hw,
      fun k hk => tCw_of_choice (c := s.splitChoice w) rfl hle h hk,
      storeChoice_sameOutside (c := s.splitChoice w) rfl⟩⟩

/-! ### SPLIT without stuffing (R282, R283) -/

section Unstuffed

variable {s : State} {w : Nat} (hw : LegalWidth s w) (hen : s.ctrl.getLsbD 2 = false)
include hw hen

/-- Without stuffing the padded stream is the stream up to the next codeword boundary, with no insertion. -/
theorem padded_unstuffed : (padded s w).ins = 0
    ∧ (padded s w).rbits.length = (s.bsLen.toNat + w - 1) / w * w
    ∧ ∀ j, j < (padded s w).rbits.length → (padded s w).rbits.reverse.getD j false =
      if j < s.bsLen.toNat then s.streamBit j
      else s.padPat.getLsbD (s.padLen - 1 - (j - s.bsLen.toNat) % s.padLen) := by
  obtain ⟨l, h⟩ := stuffedOutput_padded hw
  obtain ⟨hins, rfl, hdata⟩ := stuffedOutput_disabled hen h
  obtain ⟨hgrid, hlt⟩ := h.grid
  obtain ⟨hle, -⟩ := h.order
  refine ⟨hins, ?_, fun j hj => ?_⟩
  · have hmul := Nat.div_mul_cancel (Nat.dvd_of_mod_eq_zero hgrid)
    have hceil : (s.bsLen.toNat + w - 1) / w = (padded s w).rbits.length / w :=
      Nat.div_eq_of_lt_le (by omega) (by rw [Nat.succ_mul]; omega)
    rw [hceil, hmul]
  · split
    next hlo => exact hdata j hlo
    next hhi => exact h.pad j (Nat.not_lt.1 hhi) hj (forcedAt_of_disabled hen)

end Unstuffed

/-- Settles O47: no position is forced, so the output is the stream and then the pad pattern. -/
theorem splitWithoutStuffing : Obligations.SplitWithoutStuffing := by
  intro s w hen hpos hle hlen hcount
  have hw : LegalWidth s w := ⟨hpos, hle, fun h => absurd (hen.symm.trans h.1) Bool.false_ne_true⟩
  obtain ⟨hins, hpad, hbits⟩ := padded_unstuffed hw hen
  have hd : (s.splitChoice w).count = (s.bsLen.toNat + w - 1) / w := by
    show (padded s w).rbits.length / w = _
    rw [hpad, Nat.mul_div_cancel _ hpos]
  have hbound : (padded s w).rbits.length ≤ 4096 * 16 := hpad ▸ Nat.mul_le_mul hcount hle
  refine ⟨_, exec_split_of_fits hw hlen (hd ▸ hcount), ?_, congrArg (BitVec.ofNat 32) hins, ?_, fun k hk => ?_⟩
  · rw [← hd]
    exact Nat.mod_eq_of_lt (by omega)
  · rw [← hpad]
    exact Nat.mod_eq_of_lt (show (padded s w).rbits.length < 2 ^ 32 by omega)
  · rw [← hd] at hk
    refine (tCw_of_choice (s := s) (c := s.splitChoice w) rfl hle (by omega) hk).trans (congrArg valOf ?_)
    have hend : k * w + w ≤ (padded s w).rbits.reverse.length := by
      refine codeword_end_le ?_
      rwa [List.length_reverse]
    have hslice := length_slice hend
    show ((padded s w).rbits.reverse.drop (k * w)).take w = _
    refine List.ext_getElem (by rw [hslice, List.length_map, List.length_range]) fun i hi _ => ?_
    rw [hslice] at hi
    rw [List.length_reverse] at hend
    rw [← List.getD_eq_getElem _ false, getD_slice hi (by rwa [List.length_reverse]), hbits _ (by omega),
      List.getElem_map, List.getElem_range]

/-! ### No codeword of equal bits (R287) -/

/-- A choice written with stuffing: no codeword that reads back from T.CW has equal bits. -/
theorem codewords_not_allEqual {s t : State} {c : Choice} {ins l1 l2 : Nat} (hen : s.ctrl.getLsbD 2 = true)
    (hw : LegalWidth s c.w) (hd : c.count ≤ 4096) (hout : StuffedOutput s c.w c.out.rbits.reverse ins l1 l2)
    (hmem : t.mem = (s.storeChoice c).mem) (hselW : t.selW.toNat = c.w) (hdata : t.dataCw.toNat = c.count) :
    2 ≤ t.selW.toNat ∧ ∀ k, k < t.dataCw.toNat → t.tCw k ≠ 0 ∧ t.tCw k ≠ 2 ^ t.selW.toNat - 1 := by
  obtain ⟨hpos, hle, hone⟩ := hw
  have htwo : 2 ≤ c.w := by
    have : c.w ≠ 1 := fun h => hone ⟨hen, h⟩
    omega
  rw [hselW, hdata]
  refine ⟨htwo, fun k hk => ?_⟩
  rw [tCw_of_choice hmem hle hd hk]
  exact codeword_not_allEqual hen htwo hout (by rwa [List.length_reverse])

/-- A SPLIT that completes without an error passed its checks and wrote its choice (R298). -/
theorem accepted_of_split {s t : State} {w : Nat} (h : exec (.split w) s = .next t) (herr : t.status.err = false) :
    LegalWidth s w ∧ (s.splitChoice w).count ≤ 4096
      ∧ t = ((s.storeChoice (s.splitChoice w)).writeResNat (s.splitChoice w).count).completeOk := by
  by_cases hw : LegalWidth s w
  · by_cases hlen : s.bsLen.toNat ≤ 32768
    · by_cases hd : (s.splitChoice w).count ≤ 4096
      · cases (exec_split_of_fits hw hlen hd).symm.trans h
        exact ⟨hw, hd, rfl⟩
      · cases (exec_split_of_exceeded hw hlen (Nat.not_le.1 hd)).symm.trans h
        cases herr
    · cases (exec_split_of_check_error (splitCheck_length hw (Nat.not_le.1 hlen))).symm.trans h
      cases herr
  · have hbad : w = 0 ∨ 16 < w ∨ (s.ctrl.getLsbD 2 = true ∧ w = 1) := by
      by_contra hnot
      obtain ⟨hpos, hrest⟩ := not_or.1 hnot
      obtain ⟨hle, hone⟩ := not_or.1 hrest
      exact hw ⟨by omega, by omega, hone⟩
    cases (exec_split_of_check_error (splitCheck_width hbad)).symm.trans h
    cases herr

/-- Settles O53: the outputs of both commands are stuffed outputs. -/
theorem noAllEqualCodeword : Obligations.NoAllEqualCodeword := by
  rintro s t i (⟨ecc, fixed, minSize, rfl⟩ | ⟨w, rfl⟩) hen hexec herr
  · obtain ⟨x, -, -, hacc, rfl⟩ := accepted_of_select hexec herr
    obtain ⟨l1, hout⟩ := stuffedOutput_chosen (ecc := ecc) hacc.width
    obtain ⟨-, hd⟩ := hacc.count_le
    exact codewords_not_allEqual (c := choiceOf s ecc x) hen hacc.width hd hout rfl (selW_selected hacc)
      (dataCw_selected hacc)
  · obtain ⟨hw, hd, rfl⟩ := accepted_of_split hexec herr
    obtain ⟨l1, hout⟩ := stuffedOutput_padded hw
    obtain ⟨-, hle, -⟩ := id hw
    exact codewords_not_allEqual (c := s.splitChoice w) hen hw hd hout rfl
      (Nat.mod_eq_of_lt (show w < 2 ^ 32 by omega)) (Nat.mod_eq_of_lt (by omega))

end Sys2Proof.Proofs

/-! SUPPORT. The control rules (45_control.md R310 to R318): whose turn a step is, what a write to CMD does, and the
commands NOP and BS_CLEAR (O4, O6, O38). -/

namespace Sys2Proof.Proofs

open Sys2Proof Sys2Proof.Machine Sys2Proof.Laws Sys2Proof.Claims

/-! ### Turns (R310, R314) -/

section Turns

variable {s : State}

theorem engineTurn_of_idle (hp : s.pending = false) : s.engineTurn = false := by
  rw [State.engineTurn, hp, Bool.false_and]

/-- The host goes first while it has a transaction and the engine nothing to complete yet. -/
theorem engineTurn_of_queue (hd : s.pending = false ∨ s.delay ≠ 0) (hq : s.hostQueue ≠ []) : s.engineTurn = false := by
  rcases hd with hp | hd
  · exact engineTurn_of_idle hp
  · simp [State.engineTurn, hd, hq]

theorem step_of_queue (hd : s.pending = false ∨ s.delay ≠ 0) {x : HostTxn} {rest : List HostTxn}
    (hq : s.hostQueue = x :: rest) : step s = .next (s.hostStep x rest) := by
  rw [step_host (engineTurn_of_queue hd (hq ▸ List.cons_ne_nil x rest)), hq]

end Turns

/-- Settles O4: on the engine's turn the decoded command runs, else the head of the host's queue. -/
theorem stepRunsPendingCommand : Obligations.StepRunsPendingCommand := by
  refine fun s => ⟨fun hp hd i hi => ?_, fun hd => ⟨fun a rest hq => ?_, fun a v rest hq => ?_, fun hp hq => ?_⟩⟩
  · obtain ⟨-, hwf⟩ := encode_of_decode hi
    exact ⟨hwf, by rw [step_engine (engineTurn_of_pending hp hd), hi]⟩
  · exact step_of_queue hd hq
  · exact step_of_queue hd hq
  · rw [step_host (engineTurn_of_idle hp), hq]

/-! ### Writes to CMD (R311, R380) -/

/-- Busy, a write to CMD is refused with OVR alone: CMD is no reserved or read-only address. -/
theorem busWrite_cmd_busy {s : State} (hp : s.pending = true) (w : Word) :
    s.busWrite 0x00C w = s.flagAccess false true := by
  have hfault : writeFault 0x00C = false := rfl
  have hbusy : s.writeBusy 0x00C = true := (writeBusy_eq_pending (.inr rfl)).trans hp
  rw [State.busWrite, hfault, hbusy]
  rfl

theorem flagAccess_ovr (s : State) : s.flagAccess false true = { s with status := { s.status with ovr := true } } := by
  rw [State.flagAccess, Bool.or_false, Bool.or_true]

/-- Settles O6: idle, the write issues the word; busy, it is refused. -/
theorem issueByCmdWrite : Obligations.IssueByCmdWrite :=
  fun s w => ⟨fun hp => ⟨_, _, busWrite_cmd hp w⟩, fun hp => (busWrite_cmd_busy hp w).trans (flagAccess_ovr s)⟩

/-! ### NOP and BS_CLEAR (R318; 43_bitstream.md R240, R244) -/

/-- Settles O38: BS_CLEAR frees the words of T.BS and no byte outside them. -/
theorem nopAndBsClear : Obligations.NopAndBsClear := fun s =>
  ⟨rfl, (s.forgetStreamFrom 0).mem, s.draws + 1, rfl, loadByte_forgetStreamFrom_outside s 0⟩

end Sys2Proof.Proofs

/-! SUPPORT. The frame of every command over the whole machine (O54): the registers of the host and the completion
registers, the registers that its rule names, and the bytes that its rule names (10_state.md R33 to R53,
45_control.md R312). -/

namespace Sys2Proof.Proofs

open Sys2Proof Sys2Proof.Machine Sys2Proof.Laws Sys2Proof.Claims

/-! ### Groups of engine registers -/

/-- The registers that the work of a command writes, in groups that the rules name together (10_state.md R34, R40, R44
to R46, R49, R53). -/
inductive RegGroup where
  | result | field | generator | rs | rem | syn | choice | length

/-- The rule of command `i` names the group: it may write it. -/
def RegGroup.NamedBy (i : Instr) : RegGroup → Prop
  | .result => i ≠ .nop ∧ i ≠ .rsInit ∧ i ≠ .rsEncode ∧ i ≠ .bsClear
  | .field => i = .gfInit
  | .generator => i = .rsInit
  | .rs => i = .gfInit ∨ i = .rsInit
  | .rem => i = .gfInit ∨ i = .rsInit ∨ i = .rsEncode
  | .syn => i = .gfInit ∨ i = .rsInit ∨ i = .rsSynd
  | .choice => (∃ ecc fixed k, i = .select ecc fixed k) ∨ ∃ w, i = .split w
  | .length => i = .bsClear ∨ i = .build ∨ ∃ w, i = .bsAppend w

/-- The registers of the group hold in `u` what they hold in `s`. -/
def RegGroup.Same (s u : State) : RegGroup → Prop
  | .result => u.res = s.res ∧ u.status.z = s.status.z
  | .field => u.gfPoly = s.gfPoly ∧ u.gfM = s.gfM ∧ u.valid.gf = s.valid.gf
  | .generator => u.rsE = s.rsE ∧ u.rsR0 = s.rsR0
  | .rs => u.valid.rs = s.valid.rs
  | .rem => u.valid.rem = s.valid.rem
  | .syn => u.valid.syn = s.valid.syn
  | .choice =>
    u.valid.sel = s.valid.sel ∧ u.selSize = s.selSize ∧ u.selW = s.selW ∧ u.dataCw = s.dataCw ∧ u.ecCw = s.ecCw
      ∧ u.stuffLen = s.stuffLen ∧ u.stuffIns = s.stuffIns
  | .length => u.bsLen = s.bsLen

/-- `u` is `s` for every group of registers that the rule of command `i` does not name. -/
structure RegisterFrame (i : Instr) (s u : State) : Prop where
  same : ∀ g : RegGroup, ¬ g.NamedBy i → g.Same s u

namespace RegisterFrame

variable {i : Instr} {s u : State}

theorem refl (i : Instr) (s : State) : RegisterFrame i s s :=
  ⟨fun g _ => by cases g <;> simp [RegGroup.Same]⟩

variable (h : RegisterFrame i s u)
include h

theorem completeOk : RegisterFrame i s u.completeOk := ⟨fun g hg => by cases g <;> exact h.same _ hg⟩

theorem takeError (e : Err) : RegisterFrame i s (u.takeError e) := ⟨fun g hg => by cases g <;> exact h.same _ hg⟩

/-- The memory and the count of draws are no registers. -/
theorem setMem (m : Memory) (k : Nat) : RegisterFrame i s { u with mem := m, draws := k } :=
  ⟨fun g hg => by cases g <;> exact h.same _ hg⟩

theorem writeRes (hi : RegGroup.result.NamedBy i) (v : Word) : RegisterFrame i s (u.writeRes v) := by
  refine ⟨fun g hg => ?_⟩
  cases g with
  | result => exact absurd hi hg
  | _ => exact h.same _ hg

theorem setRem (hi : RegGroup.rem.NamedBy i) : RegisterFrame i s { u with valid := { u.valid with rem := true } } := by
  refine ⟨fun g hg => ?_⟩
  cases g with
  | rem => exact absurd hi hg
  | _ => exact h.same _ hg

theorem setSyn (hi : RegGroup.syn.NamedBy i) : RegisterFrame i s { u with valid := { u.valid with syn := true } } := by
  refine ⟨fun g hg => ?_⟩
  cases g with
  | syn => exact absurd hi hg
  | _ => exact h.same _ hg

theorem setBsLen (hi : RegGroup.length.NamedBy i) (v : Word) : RegisterFrame i s { u with bsLen := v } := by
  refine ⟨fun g hg => ?_⟩
  cases g with
  | length => exact absurd hi hg
  | _ => exact h.same _ hg

theorem clearSel (hi : RegGroup.choice.NamedBy i) : RegisterFrame i s u.clearSel := by
  refine ⟨fun g hg => ?_⟩
  cases g with
  | choice => exact absurd hi hg
  | _ => exact h.same _ hg

theorem storeChoice (hi : RegGroup.choice.NamedBy i) (c : Choice) : RegisterFrame i s (u.storeChoice c) := by
  refine ⟨fun g hg => ?_⟩
  cases g with
  | choice => exact absurd hi hg
  | _ => exact h.same _ hg

theorem append (hi : RegGroup.length.NamedBy i) {t : State} {b : Bits} (ht : u.append b = .ok t) :
    RegisterFrame i s t := by
  obtain ⟨-, -, rfl⟩ := append_eq_ok.1 ht
  rw [putBits_frame]
  exact (h.setMem _ _).setBsLen hi _

/-- GF_INIT names its field, all that depends on it, and RES. -/
theorem gfInitStart (hi : i = .gfInit) : RegisterFrame i s u.gfInitStart := by
  refine ⟨fun g hg => ?_⟩
  cases g with
  | field => exact absurd hi hg
  | rs | rem | syn => exact absurd (.inl hi) hg
  | _ => exact h.same _ hg

theorem setGf (hi : i = .gfInit) : RegisterFrame i s { u with valid := { u.valid with gf := true } } := by
  refine ⟨fun g hg => ?_⟩
  cases g with
  | field => exact absurd hi hg
  | _ => exact h.same _ hg

/-- RS_INIT names its generator and all that depends on it. -/
theorem setGenerator (hi : i = .rsInit) (e r : Word) : RegisterFrame i s
    { u with rsE := e, rsR0 := r, valid := { u.valid with rs := true, rem := false, syn := false } } := by
  refine ⟨fun g hg => ?_⟩
  cases g with
  | generator => exact absurd hi hg
  | rs => exact absurd (.inr hi) hg
  | rem | syn => exact absurd (.inr (.inl hi)) hg
  | _ => exact h.same _ hg

end RegisterFrame

/-- An error completes with the registers that were there before (60_exceptions.md R341). -/
theorem Yields.finish_registers {i : Instr} {s : State} {x : Except Err State} (h : Yields (RegisterFrame i s) x) :
    RegisterFrame i s (s.finish x) := by
  cases x with
  | ok u => exact (h.of_ok u rfl).completeOk
  | error e => exact (RegisterFrame.refl i s).takeError e

/-! ### The registers of each command -/

section Commands

variable (s : State)

/-- A command that stores entries of a memory and reports in RES. -/
theorem storeNats_writeResNat_registers {i : Instr} (hi : RegGroup.result.NamedBy i) (a : Nat) (vs : List Nat)
    (v : Nat) : RegisterFrame i s ((s.storeNats a vs).writeResNat v) :=
  ((RegisterFrame.refl i s).setMem _ _).writeRes hi _

theorem rsInitWork_registers : Yields (RegisterFrame .rsInit s) s.rsInitWork :=
  .bind fun _ _ => .pure (((RegisterFrame.refl _ s).setMem _ _).setGenerator rfl _ _)

theorem rsEncodeWork_registers : Yields (RegisterFrame .rsEncode s) s.rsEncodeWork :=
  .bind fun _ _ => .bind fun _ _ => .pure (((RegisterFrame.refl _ s).setMem _ _).setRem (Or.inr (Or.inr rfl)))

theorem rsSyndWork_registers : Yields (RegisterFrame .rsSynd s) s.rsSyndWork :=
  .bind fun _ _ => .bind fun _ _ => .pure
    ((((RegisterFrame.refl _ s).setMem _ _).setSyn (Or.inr (Or.inr rfl))).writeRes ⟨nofun, nofun, nofun, nofun⟩ _)

theorem rsAppendWork_registers (ord : EcOrder) : Yields (RegisterFrame (.rsAppend ord) s) (s.rsAppendWork ord) :=
  .bind fun _ _ => .pure (storeNats_writeResNat_registers (i := .rsAppend ord) s ⟨nofun, nofun, nofun, nofun⟩ ..)

theorem segClassifyWork_registers : Yields (RegisterFrame .segClassify s) s.segClassifyWork :=
  .bind fun _ _ => .bind fun _ _ => .pure
    (storeNats_writeResNat_registers (i := .segClassify) s ⟨nofun, nofun, nofun, nofun⟩ ..)

theorem segResolveWork_registers : Yields (RegisterFrame .segResolve s) s.segResolveWork :=
  .bind fun _ _ => .bind fun _ _ => .bind fun _ _ => .pure
    (storeNats_writeResNat_registers (i := .segResolve) s ⟨nofun, nofun, nofun, nofun⟩ ..)

theorem segGateWork_registers : Yields (RegisterFrame .segGate s) s.segGateWork :=
  .bind fun _ _ => .bind fun _ _ => .bind fun _ _ => .bind fun _ _ => .pure
    (storeNats_writeResNat_registers (i := .segGate) s ⟨nofun, nofun, nofun, nofun⟩ ..)

theorem bsAppendWork_registers (w : Nat) : Yields (RegisterFrame (.bsAppend w) s) (s.bsAppendWork w) :=
  .bind fun _ _ => .bind fun _ ht => .pure
    (((RegisterFrame.refl _ s).append (Or.inr (Or.inr ⟨w, rfl⟩)) ht).writeRes ⟨nofun, nofun, nofun, nofun⟩ _)

theorem buildWork_registers : Yields (RegisterFrame .build s) s.buildWork :=
  .bind fun _ _ => .bind fun _ ht => .pure
    (((RegisterFrame.refl _ s).append (Or.inr (Or.inl rfl)) ht).writeRes ⟨nofun, nofun, nofun, nofun⟩ _)

theorem execGfInit_registers : ∃ t, execGfInit s = .next t ∧ RegisterFrame .gfInit s t := by
  have hstart := (RegisterFrame.refl .gfInit s).gfInitStart rfl
  unfold execGfInit
  split
  case h_1 e _ => exact ⟨_, rfl, (RegisterFrame.refl _ s).takeError e⟩
  case h_2 =>
    dsimp only
    split
    · exact ⟨_, rfl, (((hstart.setMem _ _).setGf rfl).writeRes ⟨nofun, nofun, nofun, nofun⟩ _).completeOk⟩
    · exact ⟨_, rfl, (hstart.setMem _ _).takeError _⟩

theorem execBuild_registers : ∃ t, execBuild s = .next t ∧ RegisterFrame .build s t := by
  unfold execBuild
  split
  case h_1 e _ => exact ⟨_, rfl, (RegisterFrame.refl _ s).takeError e⟩
  case h_2 =>
    split
    case h_1 t ht => exact ⟨_, rfl, ((buildWork_registers s).of_ok t ht).completeOk⟩
    case h_2 e _ => exact ⟨_, rfl, ((RegisterFrame.refl _ s).setMem _ _).takeError e⟩

theorem execSelect_registers (ecc : Nat) (fixed : Bool) (minSize : Nat) :
    ∃ t, execSelect ecc fixed minSize s = .next t ∧ RegisterFrame (.select ecc fixed minSize) s t := by
  have hs := RegisterFrame.refl (.select ecc fixed minSize) s
  have hchoice : RegGroup.choice.NamedBy (.select ecc fixed minSize) := Or.inl ⟨ecc, fixed, minSize, rfl⟩
  unfold execSelect
  split
  case h_1 e _ => exact ⟨_, rfl, hs.takeError e⟩
  case h_2 =>
    split
    case h_1 e _ => exact ⟨_, rfl, (hs.clearSel hchoice).takeError e⟩
    case h_2 c _ => exact ⟨_, rfl, ((hs.storeChoice hchoice c).writeRes ⟨nofun, nofun, nofun, nofun⟩ _).completeOk⟩

theorem execSplit_registers (w : Nat) : ∃ t, execSplit w s = .next t ∧ RegisterFrame (.split w) s t := by
  have hs := RegisterFrame.refl (.split w) s
  have hchoice : RegGroup.choice.NamedBy (.split w) := Or.inr ⟨w, rfl⟩
  unfold execSplit
  split
  case h_1 e _ => exact ⟨_, rfl, hs.takeError e⟩
  case h_2 =>
    dsimp only
    split
    · exact ⟨_, rfl, (hs.clearSel hchoice).takeError _⟩
    · exact ⟨_, rfl, ((hs.storeChoice hchoice _).writeRes ⟨nofun, nofun, nofun, nofun⟩ _).completeOk⟩

/-- Every command writes only registers that its rule names. -/
theorem exec_registers (i : Instr) : ∃ t, exec i s = .next t ∧ RegisterFrame i s t := by
  have hs := RegisterFrame.refl i s
  cases i with
  | nop => exact ⟨_, rfl, hs.completeOk⟩
  | gfInit => exact execGfInit_registers s
  | gfMul | gfExp | gfPow | gfAdd =>
    exact ⟨_, rfl, (Yields.bind fun _ _ => .pure (hs.writeRes ⟨nofun, nofun, nofun, nofun⟩ _)).finish_registers⟩
  | gfDiv | gfInv | gfLog =>
    exact ⟨_, rfl, (Yields.bind fun _ _ => .bind fun _ _ => .pure
      (hs.writeRes ⟨nofun, nofun, nofun, nofun⟩ _)).finish_registers⟩
  | rsInit => exact ⟨_, rfl, (rsInitWork_registers s).finish_registers⟩
  | rsEncode => exact ⟨_, rfl, (rsEncodeWork_registers s).finish_registers⟩
  | rsSynd => exact ⟨_, rfl, (rsSyndWork_registers s).finish_registers⟩
  | rsAppend ord => exact ⟨_, rfl, (rsAppendWork_registers s ord).finish_registers⟩
  | segClassify => exact ⟨_, rfl, (segClassifyWork_registers s).finish_registers⟩
  | segResolve => exact ⟨_, rfl, (segResolveWork_registers s).finish_registers⟩
  | segGate => exact ⟨_, rfl, (segGateWork_registers s).finish_registers⟩
  | bsClear => exact ⟨_, rfl, ((hs.setBsLen (Or.inl rfl) 0).setMem _ _).completeOk⟩
  | bsAppend w => exact ⟨_, rfl, (bsAppendWork_registers s w).finish_registers⟩
  | build => exact execBuild_registers s
  | select ecc fixed minSize => exact execSelect_registers s ecc fixed minSize
  | split w => exact execSplit_registers s w

end Commands

/-! ### The bytes of each command -/

/-- GF_INIT writes its two tables alone (40_gf.md R151, R154). -/
theorem exec_gfInit_bytes {s t : State} (h : exec .gfInit s = .next t) : SameOutside s t 0x40000 0xC0000 := by
  by_cases hrange : s.opa.toNat < 2 ∨ 2 ^ 17 ≤ s.opa.toNat
  · cases (exec_gfInit_refused hrange).symm.trans h
    exact fun _ _ => rfl
  · obtain ⟨hlo, hhi⟩ := not_or.1 hrange
    by_cases hp : Safety.Primitive s.opa.toNat (Nat.log2 s.opa.toNat)
    · obtain ⟨m, ht, -, -, -, -, -, hout⟩ := gfInitBuildsField s (Nat.not_lt.1 hlo) (Nat.not_le.1 hhi) hp
      cases ht.symm.trans h
      exact hout
    · obtain ⟨m, k, ht, hout⟩ := (gfInitRefuses s).2 (Nat.not_lt.1 hlo) (Nat.not_le.1 hhi) hp
      cases ht.symm.trans h
      exact hout

/-- RS_INIT writes the coefficients of its generator alone (41_rs.md R180). -/
theorem exec_rsInit_bytes {s t : State} (h : exec .rsInit s = .next t) :
    SameOutside s t 0x28000 (0x28000 + 4 * (s.opa.toNat + 1)) := by
  have hexec : exec .rsInit s = .next (s.finish s.rsInitWork) := rfl
  cases hexec.symm.trans h
  cases hw : s.rsInitWork with
  | ok u =>
    obtain ⟨-, -, ⟨⟩⟩ := bind_eq_ok.1 hw
    exact storeNats_sameOutside s (length_genCoeffs s _ _)
  | error e => exact fun _ _ => rfl

/-- Every command leaves the bytes that its rule does not name. -/
theorem exec_bytes {i : Instr} {s t : State} (h : exec i s = .next t) {a : Nat} (ha : ¬ Written s i a) :
    t.loadByte a = s.loadByte a := by
  by_cases hgf : i = .gfInit
  · subst hgf
    exact exec_gfInit_bytes h a ((Nat.lt_or_ge a _).imp_right fun hlo => Nat.not_lt.1 fun hhi => ha ⟨hlo, hhi⟩)
  · by_cases hrs : i = .rsInit
    · subst hrs
      exact exec_rsInit_bytes h a ((Nat.lt_or_ge a _).imp_right fun hlo => Nat.not_lt.1 fun hhi => ha ⟨hlo, hhi⟩)
    · exact (exec_frame hgf hrs s t h).bytes a fun ⟨hw, _⟩ => ha hw

/-! ### Completion -/

/-- Work from `s` that led to `u`, completed with a code and an ERRINFO word (45_control.md R312). -/
def completion (s u : State) (err : Bool) (code : BitVec 8) (info : Word) : State :=
  { withWork s u with
    status := { s.status with z := u.status.z, errCode := code, err := err, done := true }
    errInfo := info
    pending := false }

/-- A completed command has ERR exactly with a code, and writes ERRINFO only with an error (R38, R43). -/
theorem Completes.exists_completion {ks : List ErrKind} {s t : State} (h : Completes ks s t) :
    ∃ u err code info, t = completion s u err code info ∧ (err = true ↔ code ≠ 0#8)
      ∧ (err = false → info = s.errInfo) := by
  cases h with
  | ok u hu =>
    refine ⟨u, false, 0#8, s.errInfo, ?_, by simp, fun _ => rfl⟩
    exact (congrArg State.completeOk hu.frame).trans rfl
  | error u e hu _ =>
    refine ⟨u, true, e.kind.code, e.info, ?_, by simp [code_ne_zero], nofun⟩
    exact (congrArg (State.takeError · e) hu.frame).trans rfl

/-- Settles O54: the completion keeps the host's registers, the work the registers and bytes that no rule names. -/
theorem commandsComplete : Obligations.CommandsComplete := by
  intro i s
  obtain ⟨t, ht, hcompletes⟩ := exec_completes i s
  obtain ⟨_, ht', hreg⟩ := exec_registers s i
  cases ht.symm.trans ht'
  have hbytes (a : Nat) (ha : ¬ Written s i a) : t.loadByte a = s.loadByte a := exec_bytes ht ha
  obtain ⟨u, err, code, info, rfl, herr, hinfo⟩ := hcompletes.exists_completion
  refine ⟨_, ht, rfl, rfl, herr, rfl, rfl, rfl, rfl, rfl, rfl, rfl, rfl, rfl, rfl, rfl, rfl, rfl, rfl, rfl, rfl, rfl,
    rfl, hinfo, fun h => hreg.same .result ?_, hreg.same .field, hreg.same .generator, fun hgf hrs => hreg.same .rs ?_,
    fun hgf hrs henc => hreg.same .rem ?_, fun hgf hrs hsyn => hreg.same .syn ?_,
    fun hsel hsplit => hreg.same .choice ?_, fun hclear hbuild happ => hreg.same .length ?_, hbytes⟩
  · exact fun ⟨hnop, hinit, henc, hclear⟩ => h.elim hnop (·.elim hinit (·.elim henc hclear))
  · exact not_or.2 ⟨hgf, hrs⟩
  · exact not_or.2 ⟨hgf, not_or.2 ⟨hrs, henc⟩⟩
  · exact not_or.2 ⟨hgf, not_or.2 ⟨hrs, hsyn⟩⟩
  · exact not_or.2 ⟨fun ⟨ecc, fixed, k, h⟩ => hsel ecc fixed k h, fun ⟨w, h⟩ => hsplit w h⟩
  · exact not_or.2 ⟨hclear, not_or.2 ⟨hbuild, fun ⟨w, h⟩ => happ w h⟩⟩

end Sys2Proof.Proofs

/-! SUPPORT. What a failing command leaves (O55; 60_exceptions.md R331, R341): the kinds of error of each command as
codes, and for each form of completion the state that its error is taken in. -/

namespace Sys2Proof.Proofs

open Sys2Proof Sys2Proof.Machine Sys2Proof.Laws Sys2Proof.Safety Sys2Proof.Claims

/-! ### Codes (R331) -/

/-- The kinds that a command raises have the codes of its row of R331. -/
theorem raisedBy_code (i : Instr) : ∀ k ∈ raisedKinds i, RaisedBy k.code i := by
  cases i
  all_goals
    simp only [raisedKinds, emitKinds, RaisedBy]
    decide

/-- The code of a failing command is one of its row. -/
theorem raisedBy_of_exec {i : Instr} {s t : State} (h : exec i s = .next t) (herr : t.status.err = true) :
    RaisedBy t.status.errCode i := by
  obtain ⟨u, hu, hcompletes⟩ := exec_completes i s
  cases hu.symm.trans h
  cases hcompletes with
  | ok => cases herr
  | error u e _ hkind => exact raisedBy_code i e.kind hkind

/-- Only ILLEGAL_OPERAND has the code 6. -/
theorem code_eq_six_iff {k : ErrKind} : k.code = 0x06#8 ↔ k = .illegalOperand := by
  cases k <;> decide

/-! ### The state an error is taken in (R341) -/

section Failures

variable {s t u : State}

theorem takeError_eq_failed (s : State) (e : Err) : s.takeError e = failed s e.kind.code e.info := rfl

theorem takeError_illegalOperand {e : Err} (h : e.kind = .illegalOperand) :
    s.takeError e = failed s 0x06#8 (s.takeError e).errInfo := by
  rw [takeError_eq_failed, code_eq_six_iff.2 h]
  rfl

/-- Taking an error leaves RES and Z. -/
theorem result_of_eq_failed {code : BitVec 8} {info : Word} (h : t = failed u code info) (hres : u.res = s.res)
    (hz : u.status.z = s.status.z) : t.res = s.res ∧ t.status.z = s.status.z := by
  subst h
  exact ⟨hres, hz⟩

/-- A command whose errors change nothing leaves the state as it was, with the error. -/
theorem eq_failed_of_finish {x : Except Err State}
    (h : (.next (s.finish x) : Host.Outcome State Fault Refusal) = .next t) (herr : t.status.err = true) :
    t = failed s t.status.errCode t.errInfo := by
  cases h
  cases x with
  | ok u => cases herr
  | error e => rfl

/-- GF_INIT fails on its operand, or on a modulus that is not primitive, with the field already cleared (40_gf.md R151,
R154). -/
theorem gfInit_failure (h : exec .gfInit s = .next t) (herr : t.status.err = true) :
    t = failed s 0x06#8 t.errInfo
      ∨ ∃ m k, t = failed
          { s with
            mem := m
            draws := k
            valid := { s.valid with gf := false, rs := false, rem := false, syn := false }
            gfPoly := s.opa
            gfM := BitVec.ofNat 32 (Nat.log2 s.opa.toNat) } 0x04#8 t.errInfo
        ∧ SameOutside s t 0x40000 0xC0000 := by
  by_cases hrange : s.opa.toNat < 2 ∨ 2 ^ 17 ≤ s.opa.toNat
  · cases (exec_gfInit_refused hrange).symm.trans h
    exact .inl rfl
  · obtain ⟨hlo, hhi⟩ := not_or.1 hrange
    by_cases hp : Safety.Primitive s.opa.toNat (Nat.log2 s.opa.toNat)
    · obtain ⟨m, ht, -⟩ := gfInitBuildsField s (Nat.not_lt.1 hlo) (Nat.not_le.1 hhi) hp
      cases ht.symm.trans h
      cases herr
    · obtain ⟨m, k, ht, hout⟩ := (gfInitRefuses s).2 (Nat.not_lt.1 hlo) (Nat.not_le.1 hhi) hp
      cases ht.symm.trans h
      exact .inr ⟨m, k, rfl, hout⟩

theorem streamBit_of_stream_eq (h : t.stream = s.stream) (hlen : t.bsLen = s.bsLen) {k : Nat} (hk : k < s.bsLen.toNat) :
    t.streamBit k = s.streamBit k := by
  rw [State.stream, State.stream, hlen, List.map_inj_left] at h
  exact h k (List.mem_range.2 hk)

/-- BUILD fails on a pre-check, or in its work, which frees the bits of T.BS that are not in the stream (43_bitstream.md
R268; log 5). -/
theorem build_failure (h : exec .build s = .next t) (herr : t.status.err = true) :
    t = failed s 0x06#8 t.errInfo
      ∨ t.status.errCode ≠ 0x06#8 ∧ (∃ m k, t = failed { s with mem := m, draws := k } t.status.errCode t.errInfo)
        ∧ (∀ j, j < s.bsLen.toNat → t.streamBit j = s.streamBit j) ∧ SameOutside s t 0x18000 0x19000 := by
  cases hcheck : s.buildCheck with
  | error e =>
    cases (exec_build_of_check_error hcheck).symm.trans h
    exact .inl (takeError_illegalOperand (List.mem_singleton.1 ((buildCheck_raises s).kind_mem e hcheck)))
  | ok =>
    obtain ⟨hn, hlen⟩ := buildCheck_eq_ok.1 hcheck
    cases hwork : s.buildWork with
    | ok u =>
      cases (exec_build_of_ok hn hlen hwork).symm.trans h
      cases herr
    | error e =>
      obtain ⟨m, k, ht, hstream, hout⟩ := exec_build_of_error hn hlen hwork
      cases ht.symm.trans h
      have hkind : e.kind ≠ .illegalOperand := fun hk =>
        absurd ((buildWork_raises s).kind_mem e hwork) (by rw [hk]; decide)
      exact .inr ⟨fun hc => hkind (code_eq_six_iff.1 hc), ⟨m, k, rfl⟩,
        fun j hj => streamBit_of_stream_eq hstream rfl hj, fun a ha => hout a (by omega)⟩

/-- A failing SELECT or SPLIT: refused by a pre-check, or failed past them with VALID.SEL cleared (44_capacity.md R292,
R298). -/
def ChoiceFailed (s t : State) : Prop :=
  t = failed s 0x06#8 t.errInfo
    ∨ t.status.errCode ≠ 0x06#8
      ∧ t = failed { s with valid := { s.valid with sel := false } } t.status.errCode t.errInfo

theorem choiceFailed_clearSel {e : Err} (h : e.kind ≠ .illegalOperand) : ChoiceFailed s (s.clearSel.takeError e) :=
  .inr ⟨fun hc => h (code_eq_six_iff.1 hc), rfl⟩

theorem select_failure {ecc : Nat} {fixed : Bool} {minSize : Nat} (h : exec (.select ecc fixed minSize) s = .next t)
    (herr : t.status.err = true) : ChoiceFailed s t := by
  cases select_outcome h with
  | refused e _ hkind => exact .inl (takeError_illegalOperand hkind)
  | exceeded | defect => exact choiceFailed_clearSel nofun
  | accepted => cases herr

theorem split_failure {w : Nat} (h : exec (.split w) s = .next t) (herr : t.status.err = true) : ChoiceFailed s t := by
  cases hcheck : s.splitCheck w with
  | error e =>
    cases (exec_split_of_check_error hcheck).symm.trans h
    exact .inl (takeError_illegalOperand (List.mem_singleton.1 ((splitCheck_raises s w).kind_mem e hcheck)))
  | ok =>
    obtain ⟨⟨hpos, hle⟩, hone, hlen⟩ := splitCheck_eq_ok.1 hcheck
    have hw : LegalWidth s w := ⟨hpos, hle, hone⟩
    by_cases hd : (s.splitChoice w).count ≤ 4096
    · cases (exec_split_of_fits hw hlen hd).symm.trans h
      cases herr
    · cases (exec_split_of_exceeded hw hlen (Nat.not_le.1 hd)).symm.trans h
      exact choiceFailed_clearSel nofun

theorem ChoiceFailed.result (h : ChoiceFailed s t) : t.res = s.res ∧ t.status.z = s.status.z :=
  h.elim (result_of_eq_failed · rfl rfl) fun ⟨_, h⟩ => result_of_eq_failed h rfl rfl

end Failures

/-- Settles O55: NOP and BS_CLEAR do not fail, four commands may leave more than the error, the others nothing. -/
theorem failureEffects : Obligations.FailureEffects := by
  intro i s t h herr
  have hraised := raisedBy_of_exec h herr
  rw [← and_assoc]
  cases i with
  | nop | bsClear => exact hraised.elim
  | gfInit =>
    have hfail := gfInit_failure h herr
    exact ⟨hfail.elim (result_of_eq_failed · rfl rfl) fun ⟨_, _, ht, _⟩ => result_of_eq_failed ht rfl rfl, hraised,
      hfail⟩
  | build =>
    have hfail := build_failure h herr
    exact ⟨hfail.elim (result_of_eq_failed · rfl rfl) fun ⟨_, ⟨_, _, ht⟩, _⟩ => result_of_eq_failed ht rfl rfl, hraised,
      hfail⟩
  | select => exact ⟨(select_failure h herr).result, hraised, select_failure h herr⟩
  | split => exact ⟨(split_failure h herr).result, hraised, split_failure h herr⟩
  | _ =>
    have hfail := eq_failed_of_finish h herr
    exact ⟨result_of_eq_failed hfail rfl rfl, hraised, hfail⟩

end Sys2Proof.Proofs

/-! SUPPORT. The interrupt level (O56; 60_exceptions.md R350) after a completion and after each host write that drives
it. -/

namespace Sys2Proof.Proofs

open Sys2Proof Sys2Proof.Machine Sys2Proof.Laws

theorem irq_eq (s : State) : s.irq = (s.ctrl.getLsbD 0 && s.status.done) := rfl

/-- A completion sets DONE and leaves IE (45_control.md R312). -/
theorem irq_of_completes {ks : List ErrKind} {s t : State} (h : Completes ks s t) : t.irq = s.ctrl.getLsbD 0 := by
  obtain ⟨u, err, code, info, rfl, -⟩ := h.exists_completion
  exact Bool.and_true _

section Level

variable (s : State)

theorem irq_issue (w : Word) : (s.issue w).irq = false := Bool.and_false _

theorem irq_softReset : s.softReset.irq = false := by
  have hdone : s.softReset.status.done = false := rfl
  rw [irq_eq, hdone, Bool.and_false]

theorem irq_writeStatus_done {v : Word} (hv : v.getLsbD 1 = true) : (s.writeStatus v).irq = false := by
  simp [irq_eq, State.writeStatus, hv]

/-- A write to CTRL without SRST takes IE, busy or idle (10_state.md R41, 70_reset_and_hazards.md R380). -/
theorem irq_writeCtrlFields (v : Word) : (s.writeCtrlFields v).irq = (v.getLsbD 0 && s.status.done) := by
  unfold State.writeCtrlFields
  split <;> simp [irq_eq, ctrlMask]

/-- A write to CTRL is admitted while busy too (R380). -/
theorem busWrite_ctrl_any (v : Word) :
    s.busWrite 0x004 v = if v.getLsbD 1 then s.softReset else s.writeCtrlFields v := by
  have hfault : writeFault 0x004 = false := rfl
  have hbusy : s.writeBusy 0x004 = false := Bool.and_false _
  rw [State.busWrite, hfault, hbusy]
  rfl

theorem irq_busWrite_ctrl (v : Word) :
    (s.busWrite 0x004 v).irq = (!v.getLsbD 1 && (v.getLsbD 0 && s.status.done)) := by
  rw [busWrite_ctrl_any]
  cases v.getLsbD 1 with
  | true => exact irq_softReset s
  | false => exact irq_writeCtrlFields s v

end Level

/-- Settles O56: a completion, the acknowledgement, a write to CTRL and an issue, each by the level after it. -/
theorem interruptLevel : Obligations.InterruptLevel := by
  intro s
  refine ⟨irq_eq s, fun i t h => ?_, fun v hsrst hie => ?_, fun v hv => ?_, fun v hie => ?_, fun w hp => ?_,
    fun v hsrst => ?_⟩
  · obtain ⟨u, hu, hcompletes⟩ := exec_completes i s
    cases hu.symm.trans h
    exact irq_of_completes hcompletes
  · rw [irq_busWrite_ctrl, hsrst, hie, Bool.true_and, Bool.not_false, Bool.true_and]
  · rw [busWrite_status, irq_writeStatus_done s hv]
  · rw [irq_busWrite_ctrl, hie, Bool.false_and, Bool.and_false]
  · rw [busWrite_cmd hp, irq_issue]
  · rw [irq_busWrite_ctrl, hsrst, Bool.not_true, Bool.false_and]

end Sys2Proof.Proofs

/-! SUPPORT. The reset state meets the invariants (O8), and what the bus does while a command is pending
(70_reset_and_hazards.md R380; O58): the accesses it admits, and the refusal of all others. -/

namespace Sys2Proof.Proofs

open Sys2Proof Sys2Proof.Machine Sys2Proof.Laws Sys2Proof.Claims

/-- Settles O8: nothing is listed in memory, the registers are legal, and no VALID bit promises a table. -/
theorem resetMeetsInvariants : Obligations.ResetMeetsInvariants := ⟨wf_reset, reset_legal, nofun, nofun⟩

/-! ### Accesses while busy (R380) -/

section Addresses

variable {a : Nat}

theorem hwcfg_lt_of_targetOf {k : Nat} (h : targetOf a = .reg (.hwcfg k)) : k < 7 := by
  have hreg := regOf_of_targetOf h
  unfold regOf at hreg
  split at hreg
  · have hoff := regOffset_of_lowRegOf hreg
    simp only [regOffset] at hoff
    omega
  · split at hreg
    · cases hreg
      omega
    · split at hreg
      · obtain ⟨x, -, hx⟩ := Option.map_eq_some_iff.1 hreg
        cases hx
      · cases hreg

/-- The aligned addresses whose target R380 lets the host read are the addresses it names. -/
theorem readAdmitted_of_target (ha : a % 4 = 0) (h : readWhileBusy (targetOf a) = true) : ReadAdmitted a := by
  unfold ReadAdmitted
  cases ht : targetOf a with
  | reg r =>
    have hoff := eq_regOffset ht ha
    rw [ht] at h
    cases r with
    | hwcfg k =>
      have hk := hwcfg_lt_of_targetOf ht
      simp only [regOffset] at hoff
      omega
    | id | status | ctrl =>
      simp only [regOffset] at hoff
      omega
    | _ => cases h
  | mem | reserved =>
    rw [ht] at h
    cases h

theorem target_of_readAdmitted (h : ReadAdmitted a) :
    a % 4 = 0 ∧ ∃ r, targetOf a = .reg r ∧ readWhileBusy (.reg r) = true := by
  rcases h with rfl | rfl | rfl | ⟨hlo, hhi, ha⟩
  · exact ⟨rfl, _, rfl, rfl⟩
  · exact ⟨rfl, _, rfl, rfl⟩
  · exact ⟨rfl, _, rfl, rfl⟩
  · refine ⟨ha, .hwcfg ((a - 0x0E0) / 4), ?_, rfl⟩
    have hreg : regOf a = some (.hwcfg ((a - 0x0E0) / 4)) := by
      unfold regOf
      rw [if_neg (by omega), if_pos (by omega)]
    rw [targetOf, regionOf_eq (r := .regs) (show a < 0x1000 by omega), hreg]

/-- The aligned addresses whose target R380 lets the host write are those of CTRL and STATUS. -/
theorem eq_of_writeWhileBusy (ha : a % 4 = 0) (h : writeWhileBusy (targetOf a) = true) : a = 0x004 ∨ a = 0x008 := by
  cases ht : targetOf a with
  | reg r =>
    rw [ht] at h
    cases r with
    | ctrl => exact .inl (targetOf_eq_ctrl ht ha)
    | status => exact .inr (targetOf_eq_status ht ha)
    | _ => cases h
  | mem | reserved =>
    rw [ht] at h
    cases h

/-- A location that the host may write when idle: no access to it sets AERR (R96 to R98). -/
theorem no_fault_of_stored (h : (storedRegister a).isSome = true ∨ (storedMemory a).isSome = true ∨ a = 0x00C) :
    readFault a = false ∧ writeFault a = false := by
  rcases h with h | h | rfl
  · obtain ⟨mask, hmask⟩ := Option.isSome_iff_exists.1 h
    obtain ⟨r, ht, ha, hr⟩ := target_of_storedRegister hmask
    simp [readFault, writeFault, misaligned, ha, ht, readOnly_of_storedMask hr]
  · obtain ⟨mask, hmask⟩ := Option.isSome_iff_exists.1 h
    obtain ⟨ha, ht, -, hro⟩ := memoryWord_of_stored hmask
    simp [readFault, writeFault, misaligned, ha, ht, hro]
  · exact ⟨rfl, rfl⟩

/-- Reading a read-only location is no fault (R98). -/
theorem readFault_of_readOnlyAddress (h : ReadOnlyAddress a) : readFault a = false := by
  obtain ⟨ha, -⟩ := id h
  by_cases hlt : a < 0x1000
  · obtain ⟨r, ht, -⟩ := targetOf_of_readOnlyRegister h hlt
    simp [readFault, misaligned, ha, ht]
  · obtain ⟨-, ht, -, -⟩ := memoryWord_of_readOnly h (by omega)
    simp [readFault, misaligned, ha, ht]

end Addresses

section Busy

variable {s : State} {a : Nat}

theorem busRead_of_readAdmitted (h : ReadAdmitted a) : s.busRead a = { s with lastRead := some (s.busValue a) } := by
  obtain ⟨ha, r, ht, hr⟩ := target_of_readAdmitted h
  exact busRead_admitted (by simp [readFault, misaligned, ha, ht]) (by simp [State.readBusy, misaligned, ha, ht, hr])

theorem busRead_of_readBusy (h : s.readBusy a = true) :
    s.busRead a = { flagged s (readFault a) true with lastRead := some 0#32 } := by
  rw [State.busRead, h, Bool.or_true]
  rfl

theorem busWrite_of_writeBusy (h : s.writeBusy a = true) (v : Word) :
    s.busWrite a v = flagged s (writeFault a) true := by
  rw [State.busWrite, h, Bool.or_true]
  rfl

variable (hp : s.pending = true)
include hp

theorem readBusy_of_not_readAdmitted (h : ¬ ReadAdmitted a) : s.readBusy a = true := by
  refine (readBusy_eq_pending ?_).trans hp
  by_contra hno
  obtain ⟨ha, ht⟩ := not_or.1 hno
  exact h (readAdmitted_of_target (not_not.1 ha) (Bool.not_eq_false _ ▸ ht))

theorem writeBusy_of_ne (hctrl : a ≠ 0x004) (hstatus : a ≠ 0x008) : s.writeBusy a = true := by
  refine (writeBusy_eq_pending ?_).trans hp
  by_contra hno
  obtain ⟨ha, ht⟩ := not_or.1 hno
  exact (eq_of_writeWhileBusy (not_not.1 ha) (Bool.not_eq_false _ ▸ ht)).elim hctrl hstatus

/-- Busy, a write to CTRL without SRST takes IE alone. -/
theorem busWrite_ctrl_busy {v : Word} (hv : v.getLsbD 1 = false) :
    s.busWrite 0x004 v = { s with ctrl := (s.ctrl &&& 0xFFFFFFFE#32) ||| (v &&& 1#32) } := by
  rw [busWrite_ctrl_any, hv]
  exact if_pos hp

end Busy

/-- Settles O58: the admitted accesses one by one; every other is refused for being busy, and AERR is the fault that
the address has when idle too. -/
theorem busyAccesses : Obligations.BusyAccesses := by
  intro s hp
  refine ⟨fun a h => busRead_of_readAdmitted h, busWrite_status s, fun v hv => busWrite_ctrl_busy hp hv,
    fun v hv => by rw [busWrite_ctrl_any, hv]; rfl, fun a h => ?_, fun a v hctrl hstatus => ?_⟩
  · have hbusy := readBusy_of_not_readAdmitted hp h
    refine ⟨readFault a, busRead_of_readBusy hbusy, readFault_of_refused, fun hmapped => ?_⟩
    rcases hmapped with hreg | hmem | hro | hcmd
    · exact (no_fault_of_stored (.inl hreg)).1
    · exact (no_fault_of_stored (.inr (.inl hmem))).1
    · exact readFault_of_readOnlyAddress hro
    · exact (no_fault_of_stored (.inr (.inr hcmd))).1
  · have hbusy := writeBusy_of_ne hp hctrl hstatus
    refine ⟨writeFault a, busWrite_of_writeBusy hbusy v, fun hfault => ?_,
      fun hmapped => (no_fault_of_stored hmapped).2⟩
    rcases hfault with hro | hres | hmis
    · exact (writeFault_of_readOnlyAddress hro).1
    · exact writeFault_of_refused (.inr hres)
    · exact writeFault_of_refused (.inl hmis)

end Sys2Proof.Proofs

/-! SUPPORT. Soft reset with a command pending (70_reset_and_hazards.md R372; O9): abandoning a command frees only bytes
that its completion would write, and no bit of the stream. -/

namespace Sys2Proof.Proofs

open Sys2Proof Sys2Proof.Machine Sys2Proof.Laws Sys2Proof.Claims

/-- `u` is `s` for every byte that command `i` would not write, and for every bit of the stream. -/
structure Abandoned (s : State) (i : Instr) (u : State) : Prop where
  bytes : ∀ a, ¬ WouldWrite s i a → u.loadByte a = s.loadByte a
  stream : ∀ j, j < s.bsLen.toNat → j < 32768 → u.streamBit j = s.streamBit j

section Freed

variable {s u : State} {i : Instr}

theorem Abandoned.refl (s : State) (i : Instr) : Abandoned s i s := ⟨fun _ _ => rfl, fun _ _ _ => rfl⟩

/-- A command that its checks refuse frees nothing. -/
theorem Abandoned.ifPasses {α : Type} {x : Except Err α} (h : ∀ v, x = .ok v → Abandoned s i u) :
    Abandoned s i (if passes x then u else s) := by
  split
  next hx =>
    obtain ⟨v, hv⟩ := passes_eq_true.1 hx
    exact h v hv
  next => exact .refl s i

/-! ### What is freed -/

/-- The stream's bits depend on the bytes of T.BS alone. -/
theorem streamBit_congr_bytes {k : Nat} (h : ∀ a, 0x18000 ≤ a → a < 0x19000 → u.loadByte a = s.loadByte a)
    (hk : k < 32768) : u.streamBit k = s.streamBit k := by
  have hload : u.load (bsBase + 4 * (k / 32)) = s.load (bsBase + 4 * (k / 32)) := by
    unfold bsBase
    exact load_congr_bytes fun b hlo hhi => h b (by omega) (by omega)
  rw [State.streamBit, State.streamBit, hload]

/-- Bytes outside T.BS become unspecified. -/
theorem abandoned_of_sameOutside {lo hi : Nat} (hout : SameOutside s u lo hi) (hbs : hi ≤ 0x18000 ∨ 0x19000 ≤ lo)
    (hw : ∀ a, lo ≤ a → a < hi → WouldWrite s i a) : Abandoned s i u := by
  refine ⟨fun a ha => hout a ?_, fun j _ hj => streamBit_congr_bytes (fun a hlo hhi => hout a (by omega)) hj⟩
  by_contra hin
  exact ha (hw a (by omega) (by omega))

theorem forgetEntries_sameOutside (s : State) (base n : Nat) :
    SameOutside s (s.forgetEntries base n) base (base + 4 * n) := by
  intro a ha
  have hlen : (freeWords s.draws base n).length = n := by rw [freeWords, List.length_map, List.length_range]
  rw [State.forgetEntries, nextDraw_loadByte, State.forgetWords, loadByte_storeWords_outside _ _ _ _ (by rwa [hlen])]

/-- Entries of a memory other than T.BS become unspecified. -/
theorem forgetEntries_abandoned {base n : Nat} (hbs : base + 4 * n ≤ 0x18000 ∨ 0x19000 ≤ base)
    (hw : ∀ a, base ≤ a → a < base + 4 * n → WouldWrite s i a) : Abandoned s i (s.forgetEntries base n) :=
  abandoned_of_sameOutside (forgetEntries_sameOutside s base n) hbs hw

/-- Bits from BS_LEN on become unspecified, in whole words (43_bitstream.md R241). -/
theorem forgetBits_abandoned {n : Nat} (hfit : s.bsLen.toNat + n ≤ 32768)
    (hw : ∀ a, 0x18000 + 4 * (s.bsLen.toNat / 32) ≤ a ∧ a < 0x19000 →
      a < 0x18000 + 4 * ((s.bsLen.toNat + n + 31) / 32) → WouldWrite s i a) :
    Abandoned s i (s.forgetBits s.bsLenN n) := by
  refine ⟨fun a ha => loadByte_forgetBits_outside s _ n a ?_,
    fun j hj _ => streamBit_forgetBits s _ n j hfit (.inl hj)⟩
  by_contra hin
  unfold bsBase State.bsLenN at hin
  exact ha (hw a (by omega) (by omega))

/-- The bits of T.BS outside the stream become unspecified (R341; log 5). -/
theorem forgetStreamFrom_abandoned (hlen : s.bsLen.toNat ≤ 32768)
    (hw : ∀ a, 0x18000 + 4 * (s.bsLen.toNat / 32) ≤ a ∧ a < 0x19000 → WouldWrite s i a) :
    Abandoned s i (s.forgetStreamFrom s.bsLenN).nextDraw := by
  refine ⟨fun a ha => loadByte_forgetStreamFrom_outside s _ a ?_,
    fun j hj _ => streamBit_forgetStreamFrom s _ j hj hlen⟩
  by_contra hin
  unfold bsBase State.bsLenN at hin
  exact ha (hw a (by omega))

/-! ### What the completion would write -/

/-- A command whose work succeeds completes without an error (45_control.md R312). -/
theorem exec_of_work_ok {x : Except Err State} (hi : exec i s = .next (s.finish x)) (hx : x = .ok u) :
    exec i s = .next u.completeOk := by
  rw [hi, hx]
  rfl

/-- Past its operand check GF_INIT does not report an illegal operand (40_gf.md R151, R154). -/
theorem exec_gfInit_of_check (hlo : 2 ≤ s.opa.toNat) (hhi : s.opa.toNat < 2 ^ 17) :
    ∃ t, exec .gfInit s = .next t ∧ t.status.errCode ≠ 6#8 := by
  rw [exec_gfInit_of_range hlo hhi]
  split
  · exact ⟨_, rfl, show 0#8 ≠ 6#8 by decide⟩
  · exact ⟨_, rfl, show 4#8 ≠ 6#8 by decide⟩

/-- The length an append reaches is in range (43_bitstream.md R241). -/
theorem toNat_bsLen_of_append {b : Bits} (h : s.append b = .ok u) :
    u.bsLen.toNat = s.bsLen.toNat + b.length ∧ s.bsLen.toNat + b.length ≤ 32768 := by
  obtain ⟨-, hfit, rfl⟩ := append_eq_ok.1 h
  unfold bsMaxBits at hfit
  exact ⟨Nat.mod_eq_of_lt (by omega), hfit⟩

/-- DATA_CW holds the count of a choice that fits T.CW (10_state.md R53). -/
theorem toNat_dataCw_storeChoice {c : Choice} (hc : c.count ≤ cwMax) : (s.storeChoice c).dataCw.toNat = c.count := by
  unfold cwMax at hc
  exact Nat.mod_eq_of_lt (by omega)

theorem exec_select_of_scan_ok {ecc minSize : Nat} {fixed : Bool} {c : Choice} (hready : SelectReady s minSize)
    (h : s.scanSizes ecc s.stream (s.sizesTried fixed minSize) = .ok c) :
    exec (.select ecc fixed minSize) s = .next ((s.storeChoice c).writeRes c.size).completeOk := by
  show execSelect ecc fixed minSize s = _
  rw [execSelect, selectCheck_ok hready, h]

end Freed

/-! ### The commands -/

section Commands

variable (s : State)

/-- A successful segmentation command writes the tags of T.MODE in use, which end below T.BS. -/
theorem forgetTags_abandoned {i : Instr} (hn : s.n ≤ charMaxN)
    (hw : ∀ a, 0x14000 ≤ a ∧ a < 0x14000 + 4 * s.nChars.toNat → WouldWrite s i a) :
    Abandoned s i (s.forgetEntries modeBase s.n) := by
  unfold charMaxN at hn
  exact forgetEntries_abandoned (.inl (by unfold modeBase; omega)) fun a hlo hhi => hw a ⟨hlo, hhi⟩

/-- The codewords that a completion reports in DATA_CW. -/
theorem forgetChoice_abandoned {i : Instr} {c : Choice} (hc : c.count ≤ cwMax)
    (hw : ∀ a, 0x20000 ≤ a ∧ a < 0x24000 → a < 0x20000 + 4 * (s.storeChoice c).dataCw.toNat → WouldWrite s i a) :
    Abandoned s i (s.forgetEntries cwBase c.count) := by
  rw [toNat_dataCw_storeChoice hc] at hw
  unfold cwMax at hc
  refine forgetEntries_abandoned (.inr (by decide)) fun a hlo hhi => ?_
  unfold cwBase at hlo hhi
  exact hw a (by omega) hhi

/-- The bits that a successful append writes (43_bitstream.md R241). -/
theorem forgetAppended_abandoned {i : Instr} {t : State} {b : Bits} (happ : s.append b = .ok t)
    (hw : ∀ a, 0x18000 + 4 * (s.bsLen.toNat / 32) ≤ a ∧ a < 0x19000 →
      a < 0x18000 + 4 * ((t.bsLen.toNat + 31) / 32) → WouldWrite s i a) :
    Abandoned s i (s.forgetBits s.bsLenN b.length) := by
  obtain ⟨hlen, hfit⟩ := toNat_bsLen_of_append happ
  rw [hlen] at hw
  exact forgetBits_abandoned hfit hw

theorem abandon_gfInit : Abandoned s .gfInit (s.abandon .gfInit) := by
  refine .ifPasses fun _ hc => ?_
  obtain ⟨hlo, hhi⟩ := gfInitCheck_eq_ok.1 hc
  exact abandoned_of_sameOutside (fun a => loadByte_forgetField s) (.inr (by decide)) fun a h1 h2 =>
    ⟨⟨h1, h2⟩, exec_gfInit_of_check hlo hhi⟩

theorem abandon_bsAppend (width : Nat) : Abandoned s (.bsAppend width) (s.abandon (.bsAppend width)) := by
  refine .ifPasses fun u hu => ?_
  obtain ⟨-, -, hwork⟩ := bind_eq_ok.1 hu
  obtain ⟨t, happ, ⟨⟩⟩ := bind_eq_ok.1 hwork
  have hfree := forgetAppended_abandoned (i := .bsAppend width) s happ fun a hin hlt =>
    ⟨hin, _, exec_of_work_ok rfl hu, rfl, hlt⟩
  rwa [length_bitsOf] at hfree

theorem abandon_build : Abandoned s .build (s.abandon .build) := by
  refine .ifPasses fun _ hc => ?_
  obtain ⟨hn, hlen⟩ := buildCheck_eq_ok.1 hc
  unfold State.abandonBuild
  split
  next u hu =>
    obtain ⟨b, -, hwork⟩ := bind_eq_ok.1 hu
    obtain ⟨t, happ, ⟨⟩⟩ := bind_eq_ok.1 hwork
    obtain ⟨htlen, -⟩ := toNat_bsLen_of_append happ
    have hcount : (t.writeResNat b.length).bsLenN - s.bsLenN = b.length := Nat.sub_eq_of_eq_add' htlen
    have hcode : (t.writeResNat b.length).completeOk.status.errCode ≠ 6#8 := show 0#8 ≠ 6#8 by decide
    rw [hcount]
    exact forgetAppended_abandoned s happ fun a hin hlt =>
      ⟨hin, _, exec_build_of_ok hn hlen hu, hcode, fun _ => hlt⟩
  next e he =>
    have hkind : e.kind ≠ .illegalOperand := fun hk =>
      absurd ((buildWork_raises s).kind_mem e he) (by rw [hk]; decide)
    obtain ⟨m, k, ht, -⟩ := exec_build_of_error hn hlen he
    exact forgetStreamFrom_abandoned hlen fun a hin =>
      ⟨hin, _, ht, fun hcode => hkind (code_eq_six_iff.1 hcode), nofun⟩

theorem abandon_select (ecc : Nat) (fixed : Bool) (minSize : Nat) :
    Abandoned s (.select ecc fixed minSize) (s.abandon (.select ecc fixed minSize)) := by
  refine .ifPasses fun _ hc => ?_
  unfold State.abandonSelect
  split
  next c hscan =>
    exact forgetChoice_abandoned s (count_of_scanSizes hscan) fun a hin hlt =>
      ⟨hin, _, exec_select_of_scan_ok (selectCheck_eq_ok.1 hc) hscan, rfl, hlt⟩
  next => exact .refl s _

theorem abandon_split (w : Nat) : Abandoned s (.split w) (s.abandon (.split w)) := by
  simp only [State.abandon]
  split
  next h =>
    obtain ⟨hpass, hcount⟩ := Bool.and_eq_true_iff.1 h
    obtain ⟨_, hc⟩ := passes_eq_true.1 hpass
    obtain ⟨⟨hpos, hle⟩, hone, hlen⟩ := splitCheck_eq_ok.1 hc
    have hfit : (s.splitChoice w).count ≤ cwMax := of_decide_eq_true hcount
    exact forgetChoice_abandoned s hfit fun a hin hlt =>
      ⟨hin, _, exec_split_of_fits ⟨hpos, hle, hone⟩ hlen hfit, rfl, hlt⟩
  next => exact .refl s _

/-- The bytes that an abandoned command frees are those its completion would write; the stream is none of them. -/
theorem abandon_abandoned (i : Instr) : Abandoned s i (s.abandon i) := by
  cases i with
  | nop | gfMul | gfDiv | gfInv | gfExp | gfLog | gfPow | gfAdd | bsClear => exact .refl s _
  | gfInit => exact abandon_gfInit s
  | rsInit =>
    refine .ifPasses fun _ hc => forgetEntries_abandoned (.inr (by decide)) fun a hlo hhi => ?_
    exact ⟨⟨hlo, hhi⟩, _, exec_of_work_ok rfl (bind_eq_ok.2 ⟨_, hc, rfl⟩), rfl⟩
  | rsEncode | rsSynd =>
    exact .ifPasses fun u hu => forgetEntries_abandoned (.inr (by decide)) fun a hlo hhi =>
      ⟨⟨hlo, hhi⟩, _, exec_of_work_ok rfl hu, rfl⟩
  | rsAppend ord =>
    refine .ifPasses fun u hu => forgetEntries_abandoned (.inr (by unfold cwBase; omega)) fun a hlo hhi => ?_
    unfold cwBase State.opaN State.opbN State.ecLen at *
    exact ⟨⟨hlo, by omega⟩, _, exec_of_work_ok rfl hu, rfl⟩
  | segClassify | segResolve | segGate =>
    refine .ifPasses fun u hu => ?_
    obtain ⟨_, hc, -⟩ := bind_eq_ok.1 hu
    obtain ⟨hn, -⟩ := segCheck_eq_ok.1 hc
    exact forgetTags_abandoned s hn fun a hin => ⟨hin, _, exec_of_work_ok rfl hu, rfl⟩
  | bsAppend width => exact abandon_bsAppend s width
  | build => exact abandon_build s
  | select ecc fixed minSize => exact abandon_select s ecc fixed minSize
  | split w => exact abandon_split s w

end Commands

/-- A soft reset without a legal pending command frees nothing; with one, what that command would write (R372). -/
theorem abandonPending_keeps (s : State) :
    (∀ a, ¬ (s.pending = true ∧ ∃ i, decode s.pcmd = .ok i ∧ WouldWrite s i a) →
        s.abandonPending.loadByte a = s.loadByte a)
      ∧ ∀ j, j < s.bsLen.toNat → j < 32768 → s.abandonPending.streamBit j = s.streamBit j := by
  unfold State.abandonPending
  split
  next hp =>
    split
    next i hi =>
      obtain ⟨hbytes, hstream⟩ := abandon_abandoned s i
      exact ⟨fun a ha => hbytes a fun hw => ha ⟨hp, i, hi, hw⟩, hstream⟩
    next => exact ⟨fun _ _ => rfl, fun _ _ _ => rfl⟩
  next => exact ⟨fun _ _ => rfl, fun _ _ _ => rfl⟩

/-- Settles O9: the registers by the definition of a soft reset, the memories by what an abandoned command frees. -/
theorem softReset : Obligations.SoftReset := by
  intro s v hv
  have hreset : s.busWrite 0x004 v = s.softReset := by
    rw [busWrite_ctrl_any, hv]
    rfl
  refine ⟨s.abandonPending.mem, s.abandonPending.draws, hreset, ?_⟩
  exact abandonPending_keeps s

end Sys2Proof.Proofs
